-- ==== Sys2Proof/Word.lean ====
section
/-! DEFINITION. The words of the block: a byte of `FB` (00_scope R11) and a sample of `OUT[c]`
(`SAMPLE_BITS` = 32, 00_scope R9). -/

namespace Sys2Proof

/-- A byte is 8 bits; bit `k` has weight `2^k` (R11). -/
abbrev Byte := BitVec 8

/-- A sample is an unsigned 32-bit value (R9, R32, R63). -/
abbrev Sample := BitVec 32

end Sys2Proof
end

