-- ==== Sys2Proof/Syntax.lean ====
section
/-! DEFINITION. The instructions: one constructor per row of spec/opcode_table.json. The first sixteen are the
operations of 30_encoding R93 (a 32-bit command word); the others are the elements of the wire formats (30_encoding
R96 to R107), each the thing that an operation consumes from a stream. `Form` says in which format a string of bits is
to be read, since the elements carry no opcode of their own (30_encoding R108). -/

namespace Sys2Proof

/-- The subsampling modes NONE, 4:2:0 and 4:2:2 (10_state R22, index 3). -/
inductive Subsampling where
  | NONE
  | S420
  | S422
deriving DecidableEq, Repr, Inhabited

/-- Width of `body_base_ptr` in a header (30_encoding R96). -/
def Subsampling.ptrBits : Subsampling → Nat
  | .NONE => 32
  | .S420 => 28
  | .S422 => 32

/-- Width of a size field in a header (30_encoding R96). -/
def Subsampling.sizeBits : Subsampling → Nat
  | .NONE => 6
  | .S420 => 5
  | .S422 => 4

/-- Number of size fields in a header (30_encoding R96). -/
def Subsampling.nslots : Subsampling → Nat
  | .NONE => 16
  | .S420 => 20
  | .S422 => 24

/-- The four widths an `L3` code can have (30_encoding R102). -/
inductive L3Width where
  | w2
  | w3
  | w4
  | w5
deriving DecidableEq, Repr, Inhabited

/-- The width in bits. -/
def L3Width.bits : L3Width → Nat
  | .w2 => 2
  | .w3 => 3
  | .w4 => 4
  | .w5 => 5

/-- The format in which a string of bits is read: the command word, or one of the wire formats of 30_encoding. A format
carries the widths that the stream itself does not say. -/
inductive Form where
  /-- a 32-bit command word (R92) -/
  | cmd
  /-- a 16-byte header under a subsampling mode; `solidAllowed` is `DESC.allow_solid` (R96, R98) -/
  | hdr (m : Subsampling) (solidAllowed : Bool)
  /-- one size field (R97) -/
  | size (m : Subsampling)
  /-- an uncompressed subblock of `n` bits (R100) -/
  | blockUncomp (n : Nat)
  /-- a compressed subblock of `n` bits (R101) -/
  | blockComp (n : Nat)
  /-- a root bit-count code (R102, R103) -/
  | l3 (w : L3Width)
  /-- a quadrant bit-count delta (R104) -/
  | l4d
  /-- a root value of `w` bits (R105) -/
  | root (w : Nat)
  /-- the deltas of a node of bit-count `b` (R106) -/
  | node (b : Nat)
  /-- one padding bit (R107) -/
  | pad
deriving DecidableEq, Repr

/-- How many bits a format has. -/
def Form.width : Form → Nat
  | .cmd => 32
  | .hdr _ _ => 128
  | .size m => m.sizeBits
  | .blockUncomp n => n
  | .blockComp n => n
  | .l3 w => w.bits
  | .l4d => 2
  | .root w => w
  | .node 0 => 0
  | .node 1 => 4
  | .node (b + 2) => 2 + 3 * (b + 2)
  | .pad => 1

/-- The instructions. The operands of an operation that the command word does not hold stand in `ARG0..ARG3`
(30_encoding R92, R93). -/
inductive Instr where
  /-- BS_READ: `nbits` = CMD[15:10] -/
  | bsRead (nbits : BitVec 6)
  /-- BS_READ_SIGNED -/
  | bsReadSigned (nbits : BitVec 6)
  /-- BS_WRITE -/
  | bsWrite (nbits : BitVec 6)
  /-- DECODE_BLOCK: `plane` = CMD[8], `unc` = CMD[9] -/
  | decodeBlock (plane : Fin 2) (unc : Bool)
  /-- ENCODE_BLOCK -/
  | encodeBlock (plane : Fin 2)
  /-- DECODE_SUPERBLOCK -/
  | decodeSuperblock
  /-- ENCODE_SUPERBLOCK -/
  | encodeSuperblock
  /-- PARSE_HEADER -/
  | parseHeader
  /-- WRITE_HEADER -/
  | writeHeader
  /-- RESOLVE_ADDR -/
  | resolveAddr
  /-- CT_FORWARD -/
  | ctForward
  /-- CT_INVERSE -/
  | ctInverse
  /-- INIT_DESCRIPTOR -/
  | initDescriptor
  /-- GET_MAX_SB_PAYLOAD -/
  | getMaxSbPayload
  /-- GET_MAX_FRAME_SIZE -/
  | getMaxFrameSize
  /-- GET_UNCOMP_FRAME_SIZE -/
  | getUncompFrameSize
  /-- HEADER_NORMAL_NONE: `body_base_ptr` and the sixteen size codes, slot 0 first -/
  | headerNormalNone (ptr : BitVec 32) (sizes : Vector (BitVec 6) 16)
  /-- HEADER_NORMAL_S420 -/
  | headerNormalS420 (ptr : BitVec 28) (sizes : Vector (BitVec 5) 20)
  /-- HEADER_NORMAL_S422 -/
  | headerNormalS422 (ptr : BitVec 32) (sizes : Vector (BitVec 4) 24)
  /-- HEADER_SOLID: the whole header; only the slot-0 size field (0, at the place mode `m` gives it) and the colour
  field from bit 64 mean anything -/
  | headerSolid (m : Subsampling) (h : BitVec 128)
  /-- SIZE_COPY, in a field of mode `m`'s width -/
  | sizeCopy (m : Subsampling)
  /-- SIZE_UNCOMP -/
  | sizeUncomp (m : Subsampling)
  /-- SIZE_COMP with code `n` >= 2 -/
  | sizeComp (m : Subsampling) (n : BitVec 6)
  /-- BLOCK_UNCOMP: a whole uncompressed subblock, `n` bits, first stream bit least significant -/
  | blockUncomp (n : Nat) (bits : Nat)
  /-- BLOCK_COMP: a whole compressed subblock, `n` bits -/
  | blockComp (n : Nat) (bits : Nat)
  /-- L3_UNIFORM_W2 -/
  | l3UniformW2
  /-- L3_DEFAULT_W2 -/
  | l3DefaultW2
  /-- L3_LITERAL_W2 -/
  | l3LiteralW2 (code : BitVec 2)
  /-- L3_UNIFORM_W3 -/
  | l3UniformW3
  /-- L3_DEFAULT_W3 -/
  | l3DefaultW3
  /-- L3_LITERAL_W3 -/
  | l3LiteralW3 (code : BitVec 3)
  /-- L3_UNIFORM_W4 -/
  | l3UniformW4
  /-- L3_DEFAULT_W4 -/
  | l3DefaultW4
  /-- L3_LITERAL_W4 -/
  | l3LiteralW4 (code : BitVec 4)
  /-- L3_UNIFORM_W5 -/
  | l3UniformW5
  /-- L3_DEFAULT_W5 -/
  | l3DefaultW5
  /-- L3_LITERAL_W5 -/
  | l3LiteralW5 (code : BitVec 5)
  /-- L4D: one two's-complement delta -/
  | l4d (d : BitVec 2)
  /-- ROOT: a value of `w` bits -/
  | root (w : Nat) (v : Nat)
  /-- NODE_B0: no bits -/
  | nodeB0
  /-- NODE_B1: one bit per child, child 0 in bit 0 -/
  | nodeB1 (d : BitVec 4)
  /-- NODE_BN: bit-count `b` >= 2, the zero-code and the `3 * b` plane bits in stream order -/
  | nodeBN (b : Nat) (z : BitVec 2) (planes : Nat)
  /-- PAD: one padding bit, 0 -/
  | pad
deriving DecidableEq, Repr

end Sys2Proof
end

