-- ==== Sys2Proof/WellFormed.lean ====
section
/-! DEFINITION. Which instructions are well formed: the operand values that the encodings of 30_encoding admit. -/

namespace Sys2Proof

/-- The operand of each instruction is one its encoding admits: `nbits` at most 32 (R92), a compressed size code at
least 2 and within its field (R97), a literal `L3` code below the two sentinels (R103), a root value within its width
(R105), a node's planes within theirs and its bit-count 2 to 29 (R106, R157), a solid header's slot-0 code 0 (R98). -/
def Instr.wf : Instr → Bool
  | .bsRead n => decide (n.toNat ≤ 32)
  | .bsReadSigned n => decide (n.toNat ≤ 32)
  | .bsWrite n => decide (n.toNat ≤ 32)
  | .headerSolid m h => decide ((h.toNat >>> m.ptrBits) % 2 ^ m.sizeBits = 0)
  | .sizeComp m n => decide (2 ≤ n.toNat ∧ n.toNat < 2 ^ m.sizeBits)
  | .blockUncomp n bits => decide (bits < 2 ^ n)
  | .blockComp n bits => decide (bits < 2 ^ n)
  | .l3LiteralW2 c => decide (c.toNat < 2)
  | .l3LiteralW3 c => decide (c.toNat < 6)
  | .l3LiteralW4 c => decide (c.toNat < 14)
  | .l3LiteralW5 c => decide (c.toNat < 30)
  | .root w v => decide (1 ≤ w ∧ w ≤ 15 ∧ v < 2 ^ w)
  | .nodeBN b _ planes => decide (2 ≤ b ∧ b ≤ 29 ∧ planes < 2 ^ (3 * b))
  | .decodeBlock _ _ => true
  | .encodeBlock _ => true
  | .decodeSuperblock => true
  | .encodeSuperblock => true
  | .parseHeader => true
  | .writeHeader => true
  | .resolveAddr => true
  | .ctForward => true
  | .ctInverse => true
  | .initDescriptor => true
  | .getMaxSbPayload => true
  | .getMaxFrameSize => true
  | .getUncompFrameSize => true
  | .headerNormalNone _ _ => true
  | .headerNormalS420 _ _ => true
  | .headerNormalS422 _ _ => true
  | .sizeCopy _ => true
  | .sizeUncomp _ => true
  | .l3UniformW2 => true
  | .l3DefaultW2 => true
  | .l3UniformW3 => true
  | .l3DefaultW3 => true
  | .l3UniformW4 => true
  | .l3DefaultW4 => true
  | .l3UniformW5 => true
  | .l3DefaultW5 => true
  | .l4d _ => true
  | .nodeB0 => true
  | .nodeB1 _ => true
  | .pad => true

end Sys2Proof
end

