-- ==== Sys2Proof/Decode.lean ====
section
/-! DEFINITION. The decoder, total on any bits of any format, rejecting an illegal command word by name (30_encoding
R92); the encoder beside it; and the bit-field helpers both use. -/

namespace Sys2Proof

/-- The field of `n` bits from bit `lo` upward: `v[lo+n-1 : lo]` (00_scope R11). -/
def bitField (v lo n : Nat) : Nat := (v >>> lo) % 2 ^ n

/-- Two's-complement reading of an `n`-bit value, `sext_N` (00_scope R12). -/
def sext (n v : Nat) : Int := if 2 * v < 2 ^ n then (v : Int) else (v : Int) - 2 ^ n

/-- Bytes as one number, the byte at the lowest address least significant (20_memory R65, R76). -/
def bytesToNat : List Byte → Nat
  | [] => 0
  | b :: rest => b.toNat + 256 * bytesToNat rest

/-- The `n` lowest bytes of a number, lowest address first. -/
def natToBytes : Nat → Nat → List Byte
  | 0, _ => []
  | n + 1, v => BitVec.ofNat 8 v :: natToBytes n (v / 256)

/-- Why a command word is illegal (30_encoding R92). -/
inductive Reject where
  /-- `CMD[31:16]` is not 0 -/
  | reservedBits
  /-- `nbits` is above 32 -/
  | nbitsOver32
  /-- `op` is none of R93's numbers -/
  | unknownOp
deriving DecidableEq, Repr

/-- The command word of 30_encoding R92 with the operation numbers of R93. -/
def decodeCmd (w : Nat) : Except Reject Instr :=
  let nb := BitVec.ofNat 6 (bitField w 10 6)
  let plane : Fin 2 := Fin.ofNat 2 (bitField w 8 1)
  let unc := bitField w 9 1 == 1
  if bitField w 16 16 ≠ 0 then .error .reservedBits
  else if 32 < bitField w 10 6 then .error .nbitsOver32
  else match bitField w 0 8 with
    | 0x01 => .ok (.bsRead nb)
    | 0x02 => .ok (.bsReadSigned nb)
    | 0x03 => .ok (.bsWrite nb)
    | 0x10 => .ok (.decodeBlock plane unc)
    | 0x11 => .ok (.encodeBlock plane)
    | 0x20 => .ok .decodeSuperblock
    | 0x21 => .ok .encodeSuperblock
    | 0x30 => .ok .parseHeader
    | 0x31 => .ok .writeHeader
    | 0x32 => .ok .resolveAddr
    | 0x40 => .ok .ctForward
    | 0x41 => .ok .ctInverse
    | 0x50 => .ok .initDescriptor
    | 0x51 => .ok .getMaxSbPayload
    | 0x52 => .ok .getMaxFrameSize
    | 0x53 => .ok .getUncompFrameSize
    | _ => .error .unknownOp

/-- The size code of slot `s` in a header (30_encoding R96). -/
def headerCode (m : Subsampling) (h s : Nat) : Nat := bitField h (m.ptrBits + m.sizeBits * s) m.sizeBits

/-- The normal form of a header (30_encoding R96). -/
def decodeHeaderNormal (m : Subsampling) (h : Nat) : Instr :=
  match m with
  | .NONE => .headerNormalNone (BitVec.ofNat 32 (bitField h 0 32))
      (Vector.ofFn fun s : Fin 16 => BitVec.ofNat 6 (headerCode .NONE h s))
  | .S420 => .headerNormalS420 (BitVec.ofNat 28 (bitField h 0 28))
      (Vector.ofFn fun s : Fin 20 => BitVec.ofNat 5 (headerCode .S420 h s))
  | .S422 => .headerNormalS422 (BitVec.ofNat 32 (bitField h 0 32))
      (Vector.ofFn fun s : Fin 24 => BitVec.ofNat 4 (headerCode .S422 h s))

/-- A header is in solid-colour form exactly when that form is allowed and the slot-0 code is 0 (30_encoding R98). -/
def decodeHeader (m : Subsampling) (solidAllowed : Bool) (h : Nat) : Instr :=
  if solidAllowed && headerCode m h 0 == 0 then .headerSolid m (BitVec.ofNat 128 h)
  else decodeHeaderNormal m h

/-- The three meanings of a size code (30_encoding R97). -/
def decodeSize (m : Subsampling) (v : Nat) : Instr :=
  let n := bitField v 0 m.sizeBits
  if n = 0 then .sizeCopy m
  else if n = 1 then .sizeUncomp m
  else .sizeComp m (BitVec.ofNat 6 n)

/-- The codes of `L3` (30_encoding R103): all ones is UNIFORM, one below is DEFAULT, the others are literals. -/
def decodeL3 (w : L3Width) (v : Nat) : Instr :=
  let code := bitField v 0 w.bits
  match w with
  | .w2 => if code = 3 then .l3UniformW2 else if code = 2 then .l3DefaultW2 else .l3LiteralW2 (BitVec.ofNat 2 code)
  | .w3 => if code = 7 then .l3UniformW3 else if code = 6 then .l3DefaultW3 else .l3LiteralW3 (BitVec.ofNat 3 code)
  | .w4 => if code = 15 then .l3UniformW4 else if code = 14 then .l3DefaultW4 else .l3LiteralW4 (BitVec.ofNat 4 code)
  | .w5 => if code = 31 then .l3UniformW5 else if code = 30 then .l3DefaultW5 else .l3LiteralW5 (BitVec.ofNat 5 code)

/-- The three forms of a node (30_encoding R106). -/
def decodeNode (b v : Nat) : Instr :=
  if b = 0 then .nodeB0
  else if b = 1 then .nodeB1 (BitVec.ofNat 4 (bitField v 0 4))
  else .nodeBN b (BitVec.ofNat 2 (bitField v 0 2)) (bitField v 2 (3 * b))

/-- The instruction that the bits `v` (first stream bit least significant) are in format `f`. Only a command word can
be illegal: "The block never refuses a byte pattern" (30_encoding R110). -/
def decode (f : Form) (v : Nat) : Except Reject Instr :=
  match f with
  | .cmd => decodeCmd v
  | .hdr m sol => .ok (decodeHeader m sol (bitField v 0 128))
  | .size m => .ok (decodeSize m v)
  | .blockUncomp n => .ok (.blockUncomp n (bitField v 0 n))
  | .blockComp n => .ok (.blockComp n (bitField v 0 n))
  | .l3 w => .ok (decodeL3 w v)
  | .l4d => .ok (.l4d (BitVec.ofNat 2 (bitField v 0 2)))
  | .root w => .ok (.root w (bitField v 0 w))
  | .node b => .ok (decodeNode b v)
  | .pad => .ok .pad

/-- The decoder on the bytes as memory holds them. -/
def decodeBytes (f : Form) (bs : List Byte) : Except Reject Instr := decode f (bytesToNat bs)

/-- The format an instruction is written in. -/
def Instr.form : Instr → Form
  | .bsRead _ => .cmd
  | .bsReadSigned _ => .cmd
  | .bsWrite _ => .cmd
  | .decodeBlock _ _ => .cmd
  | .encodeBlock _ => .cmd
  | .decodeSuperblock => .cmd
  | .encodeSuperblock => .cmd
  | .parseHeader => .cmd
  | .writeHeader => .cmd
  | .resolveAddr => .cmd
  | .ctForward => .cmd
  | .ctInverse => .cmd
  | .initDescriptor => .cmd
  | .getMaxSbPayload => .cmd
  | .getMaxFrameSize => .cmd
  | .getUncompFrameSize => .cmd
  | .headerNormalNone _ _ => .hdr .NONE false
  | .headerNormalS420 _ _ => .hdr .S420 false
  | .headerNormalS422 _ _ => .hdr .S422 false
  | .headerSolid m _ => .hdr m true
  | .sizeCopy m => .size m
  | .sizeUncomp m => .size m
  | .sizeComp m _ => .size m
  | .blockUncomp n _ => .blockUncomp n
  | .blockComp n _ => .blockComp n
  | .l3UniformW2 => .l3 .w2
  | .l3DefaultW2 => .l3 .w2
  | .l3LiteralW2 _ => .l3 .w2
  | .l3UniformW3 => .l3 .w3
  | .l3DefaultW3 => .l3 .w3
  | .l3LiteralW3 _ => .l3 .w3
  | .l3UniformW4 => .l3 .w4
  | .l3DefaultW4 => .l3 .w4
  | .l3LiteralW4 _ => .l3 .w4
  | .l3UniformW5 => .l3 .w5
  | .l3DefaultW5 => .l3 .w5
  | .l3LiteralW5 _ => .l3 .w5
  | .l4d _ => .l4d
  | .root w _ => .root w
  | .nodeB0 => .node 0
  | .nodeB1 _ => .node 1
  | .nodeBN b _ _ => .node b
  | .pad => .pad

/-- A header's size fields, packed slot 0 first (30_encoding R96). -/
def packCodes (width : Nat) : List Nat → Nat
  | [] => 0
  | c :: rest => c + 2 ^ width * packCodes width rest

/-- The bits of an instruction, first stream bit least significant: the command words of R92 and R93, the wire formats
of R96 to R107. -/
def Instr.bits : Instr → Nat
  | .bsRead n => 0x01 + 2 ^ 10 * n.toNat
  | .bsReadSigned n => 0x02 + 2 ^ 10 * n.toNat
  | .bsWrite n => 0x03 + 2 ^ 10 * n.toNat
  | .decodeBlock p u => 0x10 + 2 ^ 8 * p.val + 2 ^ 9 * u.toNat
  | .encodeBlock p => 0x11 + 2 ^ 8 * p.val
  | .decodeSuperblock => 0x20
  | .encodeSuperblock => 0x21
  | .parseHeader => 0x30
  | .writeHeader => 0x31
  | .resolveAddr => 0x32
  | .ctForward => 0x40
  | .ctInverse => 0x41
  | .initDescriptor => 0x50
  | .getMaxSbPayload => 0x51
  | .getMaxFrameSize => 0x52
  | .getUncompFrameSize => 0x53
  | .headerNormalNone p cs => p.toNat + 2 ^ 32 * packCodes 6 (cs.toList.map BitVec.toNat)
  | .headerNormalS420 p cs => p.toNat + 2 ^ 28 * packCodes 5 (cs.toList.map BitVec.toNat)
  | .headerNormalS422 p cs => p.toNat + 2 ^ 32 * packCodes 4 (cs.toList.map BitVec.toNat)
  | .headerSolid _ h => h.toNat
  | .sizeCopy _ => 0
  | .sizeUncomp _ => 1
  | .sizeComp _ n => n.toNat
  | .blockUncomp _ v => v
  | .blockComp _ v => v
  | .l3UniformW2 => 3
  | .l3DefaultW2 => 2
  | .l3LiteralW2 c => c.toNat
  | .l3UniformW3 => 7
  | .l3DefaultW3 => 6
  | .l3LiteralW3 c => c.toNat
  | .l3UniformW4 => 15
  | .l3DefaultW4 => 14
  | .l3LiteralW4 c => c.toNat
  | .l3UniformW5 => 31
  | .l3DefaultW5 => 30
  | .l3LiteralW5 c => c.toNat
  | .l4d d => d.toNat
  | .root _ v => v
  | .nodeB0 => 0
  | .nodeB1 d => d.toNat
  | .nodeBN _ z planes => z.toNat + 2 ^ 2 * planes
  | .pad => 0

/-- The bytes of an instruction as memory holds them, its last byte filled up with zero bits. -/
def encode (i : Instr) : List Byte := natToBytes ((i.form.width + 7) / 8) i.bits

/-- The format in which a bare table word is read. The table's rows carry their format in a column that a word does not
hold, so a word of 8 or 128 bits is read in ONE default context (log 12): a command word has 32 bits; 128 bits are a
header of mode NONE with the solid form allowed; 16 bits are the table's 12-bit BLOCK_COMP; no bits are NODE_B0; and 8
bits are the row whose fixed pattern they are (the sentinels of `L3`, the two fixed size codes), else a size code, else
a byte of root value. -/
def tableForm (nbits w : Nat) : Form :=
  if nbits = 32 then .cmd
  else if nbits = 128 then .hdr .NONE true
  else if nbits = 16 then .blockComp 12
  else if nbits = 0 then .node 0
  else if w = 2 ∨ w = 3 then .l3 .w2
  else if w = 6 ∨ w = 7 then .l3 .w3
  else if w = 14 ∨ w = 15 then .l3 .w4
  else if w = 30 ∨ w = 31 then .l3 .w5
  else if w < 64 then .size .NONE
  else .root 8

/-- The instruction the decoder reads from a table word, laid out as the hardware stores it (R65: the byte at the lower
address is the less significant) and read back. -/
def decodeTableWord (nbits w : Nat) : Option Instr :=
  match decodeBytes (tableForm nbits w) (natToBytes ((nbits + 7) / 8) w) with
  | .ok i => some i
  | .error _ => none

end Sys2Proof
end

