-- ==== Sys2Proof/Config.lean ====
section
/-! DEFINITION. What an implementation fixes and the spec leaves open (00_scope R9), and the free values: constants
without a body, so that nothing can be proved of their value. -/

namespace Sys2Proof

/-- One entry of a layout table: the plane of the slot and the sample offset of its top-left corner inside that plane's
region (46_descriptor R293). -/
structure Slot where
  plane : Fin 2
  x : Nat
  y : Nat
deriving DecidableEq, Repr, Inhabited

/-- A superblock layout (46_descriptor R293). -/
structure Layout where
  sbW : Nat
  sbH : Nat
  subsampling : Subsampling
  nplanes : Nat
  slots : List Slot
deriving DecidableEq, Repr, Inhabited

/-- The raw tables of the open parameter `LAYOUT[0..7)` (00_scope R9; 46_descriptor R293; 93_implementation_defined U9): any
tables at all. `layoutTable` (Machine/Descriptor.lean) holds them to R293's constraints (log 6). -/
opaque Config.openLayout : Nat → Layout

/-- Whether the optional list of violation descriptions is kept (00_scope R9, parameter `VLIST`; log 8). -/
opaque Config.vlistOn : Bool

/-- The values the subblock registers hold after an operation that failed while producing them (U2; log 5). -/
opaque Config.freeBlk : Nat → Vector (Vector Sample 16) 4
/-- as `freeBlk`, for `MINTREE` (at most 29 bits each, R33) -/
opaque Config.freeMintree : Nat → Vector (Vector (BitVec 29) 21) 4
/-- as `freeBlk`, for `BCTREE` (6 bits each, R34) -/
opaque Config.freeBctree : Nat → Vector (Vector (BitVec 6) 5) 4
/-- as `freeBlk`, for `SBLK` -/
opaque Config.freeSblk : Nat → Vector (Vector Sample 256) 4
/-- The samples of `OUT[c]` of a superblock whose decoding failed, laid out as in `SBLK` (U2; log 5). -/
opaque Config.freeOut : Nat → Vector (Vector Sample 256) 4
/-- as `freeBlk`, for `BITPOS` (36 bits, R41) -/
opaque Config.freePos : Nat → BitVec 36
/-- as `freeBlk`, for `HDR_PTR` -/
opaque Config.freePtr : Nat → BitVec 32
/-- as `freeBlk`, for `HDR_SOLID` -/
opaque Config.freeSolid : Nat → Bool
/-- as `freeBlk`, for `HDR_CODE` -/
opaque Config.freeCode : Nat → Vector (BitVec 6) 24
/-- as `freeBlk`, for `HDR_OFF` -/
opaque Config.freeOff : Nat → Vector (BitVec 33) 24
/-- as `freeBlk`, for `HDR_SIZE` -/
opaque Config.freeSize : Nat → Vector (BitVec 14) 24
/-- as `freeBlk`, for `HDR_UNC` -/
opaque Config.freeUnc : Nat → Vector Bool 24
/-- as `freeBlk`, for `HDR_SOLIDVAL` -/
opaque Config.freeSolidVal : Nat → Vector (BitVec 15) 4

end Sys2Proof
end

