-- ==== Sys2Proof/Machine/State.lean ====
section
/-! DEFINITION. The state of the block (10_state R20), grouped as R20's table groups it, with the command interface
(30_encoding R92) and the model's own bookkeeping beside it; the faults and refusals; the state after reset
(70_reset_and_hazards R350). -/

namespace Sys2Proof.Machine

/-- A sparse memory of cells of `w` bits: (address, value) pairs, addresses strictly rising, no value 0 listed. An
address that is not listed reads 0 (log 1). `FB` is a `Mem 8` (a list of `Host.Cell`), each `OUT[c]` a `Mem 32`. -/
abbrev Mem (w : Nat) := List (Nat × BitVec w)

/-- The canonical form of a memory. -/
abbrev Mem.wf {w : Nat} (m : Mem w) : Prop :=
  m.Pairwise (fun a b => a.1 < b.1) ∧ ∀ c ∈ m, c.2 ≠ 0

/-! ### Configuration -/

/-- The `in` fields of the descriptor, the operands of INIT_DESCRIPTOR (10_state R22). -/
structure DescIn where
  width : Nat
  height : Nat
  layout : BitVec 3
  ncomp : Vector (BitVec 3) 2
  firstComp : Vector (BitVec 2) 2
  inputbits : Vector (BitVec 5) 4
  yuvTransform : Bool
  tiled : Bool
  sparse : Bool
  blockSplit : Bool
  stripeHeight : Nat
  errorCheck : Bool
  cropX : Nat
  cropY : Nat
  allowSolid : Bool
  copyDetect : Bool
  encWrap : Bool
  graceful : Bool
  checkTileStart : Bool
  checkStripeAlign : Bool
  splitSlot : BitVec 5
  sbsMultiplier : Vector (BitVec 8) 2
  frameSize : BitVec 33
  bufSize : BitVec 33
  stripeAlign : BitVec 33
deriving DecidableEq, Repr

/-- The `in` fields all 0 (log 3). -/
def DescIn.zero : DescIn where
  width := 0
  height := 0
  layout := 0
  ncomp := Vector.replicate 2 0
  firstComp := Vector.replicate 2 0
  inputbits := Vector.replicate 4 0
  yuvTransform := false
  tiled := false
  sparse := false
  blockSplit := false
  stripeHeight := 0
  errorCheck := false
  cropX := 0
  cropY := 0
  allowSolid := false
  copyDetect := false
  encWrap := false
  graceful := false
  checkTileStart := false
  checkStripeAlign := false
  splitSlot := 0
  sbsMultiplier := Vector.replicate 2 0
  frameSize := 0
  bufSize := 0
  stripeAlign := 0

/-- The FrameDescriptor: the `in` fields and the `der` fields of 10_state R22. `table` is the model's own copy of
`LAYOUT[layout]`, taken by INIT_DESCRIPTOR (46_descriptor R290): the tables are fixed for all time (10_state R21), so that
every later operation reads the same one (log 6). -/
structure Desc extends DescIn where
  table : Layout
  subsampling : Subsampling
  nplanes : Nat
  compbits : Vector Nat 4
  defaultcolor : Vector Nat 4
  sbW : Nat
  sbH : Nat
  nsubblocks : Nat
  mbw : Nat
  mbh : Nat
  tileX : Nat
  tileY : Nat
  mbwAl : Nat
  mbhAl : Nat
  hdrArea : Nat
  bodyBase : Nat
  uncompSize : Vector Nat 2
  ptrBits : Nat
  sizeBits : Nat
  maxpay : Nat
deriving DecidableEq, Repr

/-- The descriptor at reset: "unspecified, and unobservable because `DESC_VALID = 0`" (10_state R31; log 3). -/
def Desc.zero : Desc where
  toDescIn := DescIn.zero
  table := ⟨0, 0, .NONE, 0, []⟩
  subsampling := .NONE
  nplanes := 0
  compbits := Vector.replicate 4 0
  defaultcolor := Vector.replicate 4 0
  sbW := 0
  sbH := 0
  nsubblocks := 0
  mbw := 0
  mbh := 0
  tileX := 0
  tileY := 0
  mbwAl := 0
  mbhAl := 0
  hdrArea := 0
  bodyBase := 0
  uncompSize := Vector.replicate 2 0
  ptrBits := 0
  sizeBits := 0
  maxpay := 0

/-! ### Cursor and working registers -/

/-- The cursor registers `BITPOS` (36 bits) and `BS_EXH` (10_state R41). -/
structure CursorReg where
  pos : BitVec 36
  exh : Bool
deriving DecidableEq, Repr

/-- The subblock working registers `BLK`, `MINTREE`, `BCTREE` (10_state R32 to R34). The fields ending in `Ok` are the
model's: whether the register has a defined value in the sense of R38 (log 4). -/
structure Codec where
  blk : Vector (Vector Sample 16) 4
  mintree : Vector (Vector Nat 21) 4
  bctree : Vector (Vector Int 5) 4
  blkOk : Vector Bool 4
  mtOk : Vector Bool 4
  bcOk : Vector (Vector Bool 5) 4
deriving DecidableEq, Repr

/-- The header working registers `HDR_*` (10_state R36), with the model's `ptrOk`, `codeOk` (log 4). -/
structure Hdr where
  ptr : BitVec 32
  solid : Bool
  code : Vector (BitVec 6) 24
  off : Vector (BitVec 33) 24
  size : Vector (BitVec 14) 24
  unc : Vector Bool 24
  solidVal : Vector (BitVec 15) 4
  ptrOk : Bool
  codeOk : Vector Bool 24
deriving DecidableEq, Repr

/-- The superblock working registers `SBLK`, `MBX`, `MBY`, `MBNUM`, `SLOT` (10_state R37, R42). -/
structure Sb where
  sblk : Vector (Vector Sample 256) 4
  mbx : Nat
  mby : Nat
  mbnum : Nat
  slot : Nat
deriving DecidableEq, Repr

/-! ### Checker and status -/

/-- The conformance violations (60_exceptions R317). -/
inductive Viol where
  | bcRange
  | bcNeg
  | noZeroCode
  | sizeMismatch
  | copyNoSource
  | ctRange
  | tileStart
  | sparseAlign
  | stripeSpan
  | stripeAlign
  | slotRange
deriving DecidableEq, Repr

/-- One record of `VLIST`: `(x, MBX, MBY, SLOT, c)` (10_state R46). -/
structure VRecord where
  viol : Viol
  mbx : Nat
  mby : Nat
  slot : Nat
  comp : Nat
deriving DecidableEq, Repr

/-- One stripe bin (10_state R48). -/
structure StripeBin where
  /-- the source's `min` -/
  lo : Nat
  /-- the source's `max` -/
  hi : Nat
  seen : Bool
  remaining : Nat
deriving DecidableEq, Repr

/-- The checker (10_state R45 to R48). -/
structure Checker where
  foundError : Bool
  violMask : BitVec 16
  vlist : List VRecord
  sparseFirstValid : Bool
  sparseFirst : Nat
  stripeBins : List StripeBin
deriving DecidableEq, Repr

/-- The fatal registers `FATAL`, `FATAL_MBX`, `FATAL_MBY`, `FATAL_SLOT` (10_state R49). -/
structure FatalRegs where
  code : BitVec 4
  mbx : Nat
  mby : Nat
  slot : Nat
deriving DecidableEq, Repr

/-- The fatal errors (60_exceptions R322). -/
inductive FatalCode where
  | bufOverflow
  | ctRange
  | tileBound
  | slotRange
  | internal
  | badInput
  | badCommand
  | noDescriptor
deriving DecidableEq, Repr

/-! ### The command interface and the host -/

/-- How the last operation completed (60_exceptions R321, R323: "completes with status "failed""); `idle` before any. -/
inductive Status where
  | idle
  | done
  | failed
deriving DecidableEq, Repr

/-- The result registers `RES0..RES2`; `none` where the last operation returned no such result (log 19). -/
structure Results where
  res0 : Option Int
  res1 : Option Int
  res2 : Option Int
deriving DecidableEq, Repr

/-- The operand registers `ARG0..ARG3` and the `in` fields, the results and the completion status (30_encoding R92). -/
structure Port where
  arg0 : Nat
  arg1 : Nat
  arg2 : Nat
  arg3 : Nat
  descIn : DescIn
  res : Results
  status : Status
deriving DecidableEq, Repr

/-- What the host does between operations (20_memory R78, 30_encoding R92; log 10). `element` is the model's own: it
presents one element of a stream, in a format, to the block (log 11). -/
inductive Event where
  /-- write `ARG<k>` -/
  | setArg (k : Fin 4) (v : Nat)
  /-- write the `in` fields -/
  | setDescIn (d : DescIn)
  /-- write a byte of `FB` -/
  | writeFb (a : Nat) (v : Byte)
  /-- write a sample of `OUT[c]` -/
  | writeOut (c : Fin 4) (i : Nat) (v : Sample)
  /-- write the row `BLK[c]` -/
  | writeBlk (c : Fin 4) (row : Vector Sample 16)
  /-- write `HDR_PTR` and `HDR_CODE[]` -/
  | writeHdr (ptr : BitVec 32) (codes : Vector (BitVec 6) 24)
  /-- write `CMD`: issue an operation -/
  | command (w : BitVec 32)
  /-- present the element of format `f` that stands in `FB` -/
  | element (f : Form)
  /-- apply reset (70_reset_and_hazards R351) -/
  | reset
deriving DecidableEq, Repr

/-! ### The whole state -/

/-- The state of the machine. -/
structure State where
  /-- `DESC_VALID` (R24) -/
  descValid : Bool
  /-- `DESC.*` (R22) -/
  desc : Desc
  /-- `BITPOS`, `BS_EXH` (R41) -/
  cur : CursorReg
  /-- `BLK`, `MINTREE`, `BCTREE` (R32 to R34) -/
  codec : Codec
  /-- `HDR_*` (R36) -/
  hdr : Hdr
  /-- `SBLK`, `MBX`, `MBY`, `MBNUM`, `SLOT` (R37, R42) -/
  sb : Sb
  /-- `FOUND_ERROR`, `VIOL_MASK`, `VLIST`, `SPARSE_FIRST*`, `STRIPEBIN[]` (R45 to R48) -/
  chk : Checker
  /-- `FATAL*` (R49) -/
  fat : FatalRegs
  /-- the frame byte buffer (20_memory R60) -/
  fb : Mem 8
  /-- the sample buffers (20_memory R60, R63) -/
  out : Vector (Mem 32) 4
  /-- the physical size of `FB`, the bound of the BS commands before any INIT_DESCRIPTOR (40_bitstream R131) -/
  fbPhys : BitVec 33
  /-- the command interface (30_encoding R92) -/
  port : Port
  /-- the host actions still to come (the model's own, log 10) -/
  inbox : List Event
  /-- how many free values have been drawn (the model's own, log 5) -/
  free : Nat
deriving DecidableEq, Repr

/-- Why the machine stops with a fault. -/
inductive Fault where
  /-- Raised by an operation that reads `BLK`, a tree, `HDR_PTR` or `HDR_CODE` when no operation and no host write has
  written it since reset, or its last writer ended with a fatal error: 10_state R38 says "a model must treat the read
  as a fault of the host's sequence, not as a value". Safe: the hardware would go on with some value (log 4). -/
  | undefinedRegister
  /-- Raised by a host write to an address that is no byte of `FB` (20_memory R60). Safe. -/
  | noSuchByte
deriving DecidableEq, Repr

/-- Why an instruction has no outcome. -/
inductive Refusal where
  /-- Raised by an arm of `exec` whose instruction has no meaning yet; no arm does. Safe. -/
  | notModelled (mnemonic : String)
deriving DecidableEq, Repr

/-- No result. -/
def Results.none : Results := ⟨Option.none, Option.none, Option.none⟩

/-- The state after reset (70_reset_and_hazards R350): status, cursor and counters 0, no descriptor, no bins, an empty
list of violations; what R350 leaves unspecified is 0 and marked as not defined (log 3, log 4); the host's memories hold
nothing (log 1). -/
def State.reset : State where
  descValid := false
  desc := Desc.zero
  cur := ⟨0, false⟩
  codec :=
    { blk := Vector.replicate 4 (Vector.replicate 16 0)
      mintree := Vector.replicate 4 (Vector.replicate 21 0)
      bctree := Vector.replicate 4 (Vector.replicate 5 0)
      blkOk := Vector.replicate 4 false
      mtOk := Vector.replicate 4 false
      bcOk := Vector.replicate 4 (Vector.replicate 5 false) }
  hdr :=
    { ptr := 0
      solid := false
      code := Vector.replicate 24 0
      off := Vector.replicate 24 0
      size := Vector.replicate 24 0
      unc := Vector.replicate 24 false
      solidVal := Vector.replicate 4 0
      ptrOk := false
      codeOk := Vector.replicate 24 false }
  sb :=
    { sblk := Vector.replicate 4 (Vector.replicate 256 0)
      mbx := 0
      mby := 0
      mbnum := 0
      slot := 0 }
  chk :=
    { foundError := false
      violMask := 0
      vlist := []
      sparseFirstValid := false
      sparseFirst := 0
      stripeBins := [] }
  fat := ⟨0, 0, 0, 0⟩
  fb := []
  out := Vector.replicate 4 []
  fbPhys := 0x100000000
  port :=
    { arg0 := 0
      arg1 := 0
      arg2 := 0
      arg3 := 0
      descIn := DescIn.zero
      res := Results.none
      status := .idle }
  inbox := []
  free := 0

end Sys2Proof.Machine
end

