-- ==== Sys2Proof/Machine/Operands.lean ====
section
/-! DEFINITION. Arithmetic of 00_scope R10, the constant tables (layouts, swizzle, pixel map), and what the operands of
an operation mean under a descriptor: components and planes, regions, superblock numbers, the window of `FB`. -/

namespace Sys2Proof.Machine

/-! ### Arithmetic (00_scope R10) -/

/-- `ceil_div(a, b)` -/
def ceilDiv (a b : Nat) : Nat := (a + b - 1) / b

/-- `round_up(a, b)` -/
def roundUp (a b : Nat) : Nat := ceilDiv a b * b

/-- `bitlen(x)`: the number of bits needed to write `x` -/
def bitlen (x : Nat) : Nat := if x = 0 then 0 else Nat.log2 x + 1

/-- Width of the `L3` code for `n` compressed bits (30_encoding R102). -/
def l3Bits (n : Nat) : Nat := bitlen (n + 2)

/-! ### Constants -/

/-- The example table of 46_descriptor R294, an "Illustration and test fixture" (93_implementation_defined section 2): a
well-formed table, not the value of `LAYOUT[0]` (log 6). -/
def layout0 : Layout where
  sbW := 16
  sbH := 16
  subsampling := .NONE
  nplanes := 1
  slots :=
    [⟨0, 4, 4⟩, ⟨0, 0, 4⟩, ⟨0, 0, 0⟩, ⟨0, 4, 0⟩, ⟨0, 8, 0⟩, ⟨0, 12, 0⟩, ⟨0, 12, 4⟩, ⟨0, 8, 4⟩,
     ⟨0, 8, 8⟩, ⟨0, 12, 8⟩, ⟨0, 12, 12⟩, ⟨0, 8, 12⟩, ⟨0, 4, 12⟩, ⟨0, 0, 12⟩, ⟨0, 0, 8⟩, ⟨0, 4, 8⟩]

/-- `SWIZZLE(x, y)` for `x`, `y` in 0..7 (44_header_address R256): `y` in the lowest position. -/
def swizzle (x y : Nat) : Nat :=
  y % 2 + 2 * (x % 2) + 4 * (y / 2 % 2) + 8 * (x / 2 % 2) + 16 * (y / 4 % 2) + 32 * (x / 4 % 2)

/-- `pix(q, l)`: the pixel of leaf `l` of quadrant `q` (10_state R35). -/
def pix (q l : Nat) : Nat := 4 * (2 * (q / 2) + l / 2) + (2 * (q % 2) + l % 2)

/-- The quadrant of pixel `i`, the inverse of `pix` (10_state R35). -/
def quadOf (i : Nat) : Nat := 2 * (i / 4 / 2) + i % 4 / 2

/-- The leaf of pixel `i` inside its quadrant, the inverse of `pix` (10_state R35). -/
def leafOf (i : Nat) : Nat := 2 * (i / 4 % 2) + i % 2

/-! ### Components and planes (10_state R25) -/

/-- The four component indexes. -/
def allComps : List (Fin 4) := [0, 1, 2, 3]

/-- `comps(p)`, ascending. -/
def comps (d : DescIn) (p : Fin 2) : List (Fin 4) :=
  allComps.filter fun c =>
    decide ((d.firstComp[p]).toNat ≤ c.val ∧ c.val < (d.firstComp[p]).toNat + (d.ncomp[p]).toNat)

/-- The planes of the frame. -/
def planes (d : Desc) : List (Fin 2) := if d.nplanes = 2 then [0, 1] else [0]

/-- The present components with their planes. -/
def planeComps (d : Desc) : List (Fin 2 × Fin 4) :=
  (planes d).flatMap fun p => (comps d.toDescIn p).map fun c => (p, c)

/-- `inputbits[c]` -/
def inBits (d : DescIn) (c : Fin 4) : Nat := (d.inputbits[c]).toNat

/-- `ct_applies(p)` (45_color_transform R280). -/
def ctApplies (d : DescIn) (p : Fin 2) : Bool :=
  d.yuvTransform && p == 0 && decide (3 ≤ (d.ncomp[0]).toNat)

/-! ### Regions (20_memory R63, 46_descriptor R291) -/

/-- `ssx(p)` -/
def ssx (m : Subsampling) (p : Fin 2) : Nat := if p = 0 ∨ m = .NONE then 1 else 2

/-- `ssy(p)` -/
def ssy (m : Subsampling) (p : Fin 2) : Nat := if p = 0 ∨ m ≠ .S420 then 1 else 2

/-- `pw(p)`: columns of the plane's region in a superblock -/
def pw (d : Desc) (p : Fin 2) : Nat := d.sbW / ssx d.subsampling p

/-- `ph(p)`: rows of the plane's region in a superblock -/
def ph (d : Desc) (p : Fin 2) : Nat := d.sbH / ssy d.subsampling p

/-- `cw(c)` for a component of plane `p`: columns of `OUT[c]` -/
def cw (d : Desc) (p : Fin 2) : Nat := ceilDiv d.width (ssx d.subsampling p)

/-- `chh(c)` for a component of plane `p`: rows of `OUT[c]` -/
def chh (d : Desc) (p : Fin 2) : Nat := ceilDiv d.height (ssy d.subsampling p)

/-- Slot `s` of the frame's layout table (46_descriptor R293). -/
def slotAt (d : Desc) (s : Nat) : Slot := d.table.slots.getD s default

/-! ### Superblock numbers (44_header_address R255) -/

/-- `mbnum(mbx, mby)` -/
def mbnumOf (d : Desc) (mbx mby : Nat) : Nat :=
  if d.tiled then ((mby / 8) * (d.mbwAl / 8) + mbx / 8) * 64 + swizzle (mbx % 8) (mby % 8)
  else mby * d.mbw + mbx

/-- Whether `(mbx, mby)` is a superblock of the frame (43_superblock R210, 44_header_address R255). -/
def inGrid (d : Desc) (mbx mby : Nat) : Bool := decide (mbx < d.mbw ∧ mby < d.mbh)

/-- Superblock rows per stripe (44_header_address R266). -/
def stripeRows (d : Desc) : Nat := d.stripeHeight / d.sbH

/-! ### The window of `FB` (40_bitstream R131) -/

/-- `DESC.buf_size`, or the physical size of `FB` before any INIT_DESCRIPTOR. -/
def bufSize (s : State) : Nat := if s.descValid then s.desc.bufSize.toNat else s.fbPhys.toNat

/-- The number of bits of the window at byte `base`; 0 when `base` is beyond the buffer. -/
def windowBits (s : State) (base : Nat) : Nat := 8 * (bufSize s - base)

end Sys2Proof.Machine
end

