-- ==== Sys2Proof/Machine/Flags.lean ====
section
/-! DEFINITION. The conformance checker's flags (60_exceptions R316, R317; 10_state R45, R46): the block has no
arithmetic condition codes (10_state R44). -/

namespace Sys2Proof.Machine

/-- The bit of a violation code in `VIOL_MASK` (60_exceptions R317). -/
def Viol.bit : Viol → Nat
  | .bcRange => 0
  | .bcNeg => 1
  | .noZeroCode => 2
  | .sizeMismatch => 3
  | .copyNoSource => 4
  | .ctRange => 5
  | .tileStart => 6
  | .sparseAlign => 7
  | .stripeSpan => 8
  | .stripeAlign => 9
  | .slotRange => 10

/-- The mask with the one bit of a violation code. -/
def Viol.mask (x : Viol) : BitVec 16 := BitVec.ofNat 16 (2 ^ x.bit)

/-- Record a violation whatever `error_check` is: `FOUND_ERROR`, its bit of `VIOL_MASK`, and a `VLIST` record where the
list is kept (60_exceptions R316; 43_superblock R216 for the graceful zero-fill). -/
def recordViol (s : State) (x : Viol) (c : Nat) : State :=
  { s with chk :=
    { s.chk with
      foundError := true
      violMask := s.chk.violMask ||| x.mask
      vlist := if Config.vlistOn then s.chk.vlist ++ [⟨x, s.sb.mbx, s.sb.mby, s.sb.slot, c⟩] else s.chk.vlist } }

/-- `flag V(x)` (60_exceptions R316): nothing when `error_check = 0`. -/
def flagV (s : State) (x : Viol) (c : Nat) : State :=
  if s.desc.errorCheck then recordViol s x c else s

/-- The pending violations of a subblock, applied in order (41_subblock_decode R150). -/
def flagAll (s : State) : List (Viol × Nat) → State
  | [] => s
  | v :: rest => flagAll (flagV s v.1 v.2) rest

end Sys2Proof.Machine
end

