-- ==== Sys2Proof/Machine/Ops.lean ====
section
/-! DEFINITION. The named operations over memory, the bit cursor and the registers: reading and writing `FB` and
`OUT[c]`, BsRead, BsReadSigned, BsWrite (40_bitstream), raising a fatal error and coming back from one (60_exceptions
R321, R323, R324), completing an operation, and losing the registers a failed operation was producing (U2). -/

namespace Sys2Proof.Machine

/-! ### Memory -/

/-- Read one cell. -/
def memGet {w : Nat} (m : Mem w) (a : Nat) : BitVec w :=
  match m with
  | [] => 0
  | (b, v) :: rest => if b = a then v else memGet rest a

/-- Insert an entry before the first larger address. -/
def memInsert {w : Nat} (m : Mem w) (a : Nat) (v : BitVec w) : Mem w :=
  match m with
  | [] => [(a, v)]
  | (b, u) :: rest => if a < b then (a, v) :: (b, u) :: rest else (b, u) :: memInsert rest a v

/-- Write one cell, keeping the canonical form: the value 0 removes the entry. -/
def memSet {w : Nat} (m : Mem w) (a : Nat) (v : BitVec w) : Mem w :=
  let m' := m.filter fun c => c.1 != a
  if v = 0 then m' else memInsert m' a v

/-- Write bytes at rising addresses. -/
def memSetBytes (m : Mem 8) (a : Nat) : List Byte → Mem 8
  | [] => m
  | v :: rest => memSetBytes (memSet m a v) (a + 1) rest

/-- The bytes at `a .. a + n - 1`. -/
def memBytes (m : Mem 8) (a n : Nat) : List Byte := (List.range n).map fun k => memGet m (a + k)

/-- Stream bit `b` of the window at byte `base` (20_memory R64). -/
def fbBit (m : Mem 8) (base b : Nat) : Bool := (memGet m (base + b / 8)).getLsbD (b % 8)

/-- A byte with bit `k` set to `x`, the other bits kept. -/
def putBit (v : Byte) (k : Nat) (x : Bool) : Byte :=
  (v &&& ~~~(1#8 <<< k)) ||| ((if x then 1#8 else 0#8) <<< k)

/-- Write stream bit `b` of the window at byte `base` (40_bitstream R136: a read-modify-write of its byte). -/
def setFbBit (m : Mem 8) (base b : Nat) (x : Bool) : Mem 8 :=
  memSet m (base + b / 8) (putBit (memGet m (base + b / 8)) (b % 8) x)

/-- Write the low `n` bits of `v` from stream bit `pos` upward, the first bit least significant (20_memory R65). -/
def writeBits (m : Mem 8) (base : Nat) : Nat → Nat → Nat → Mem 8
  | _, 0, _ => m
  | pos, n + 1, v => writeBits (setFbBit m base pos (v % 2 == 1)) base (pos + 1) n (v / 2)

/-! ### Bit sources and the cursor (10_state R41, 40_bitstream) -/

/-- The bit cursor an operation works with. A position that an operation forms never passes the end of its window (10_state
R41: "there is no wrap-around"), so it always fits the register; one that a BS command is given as an operand need not. -/
structure Cursor where
  pos : Nat
  exh : Bool
deriving DecidableEq, Repr

/-- The registers that hold a cursor: 36 bits of position (10_state R41). -/
def Cursor.reg (k : Cursor) : CursorReg := ⟨BitVec.ofNat 36 k.pos, k.exh⟩

/-- The cursor the registers hold. -/
def CursorReg.cursor (r : CursorReg) : Cursor := ⟨r.pos.toNat, r.exh⟩

/-- The registers after a command that was given its cursor as operands. A position that 36 bits do not hold is never formed
(10_state R41: "there is no wrap-around"), and `BITPOS` keeps the last one it held (log 15). -/
def CursorReg.take (r : CursorReg) (k : Cursor) : CursorReg := if k.pos < 2 ^ 36 then k.reg else { r with exh := k.exh }

/-- Whether `n` bits at position `pos` lie in a window of `lim` bits. No bits always do: "a 0-bit access never fails"
(92_eei_decisions D4), and with `nbits = 0` the cursor stays as it is (40_bitstream R132's corner cases, R136), also beyond
the window, where R132's pseudocode alone would exhaust it (log 31). -/
def fitsWindow (lim pos n : Nat) : Bool := n == 0 || decide (pos + n ≤ lim)

/-- The bits of `FB` from byte `base`. -/
def fbSource (m : Mem 8) (base : Nat) : Nat → Bool := fun b => fbBit m base b

/-- The bits of a number, placed at stream position `pos`: the stream that an instruction's own bits make. -/
def bitsSource (v pos : Nat) : Nat → Bool := fun b => decide (pos ≤ b) && v.testBit (b - pos)

/-- The `n`-bit field of a source at position `pos` (20_memory R65). -/
def fieldAt (src : Nat → Bool) : Nat → Nat → Nat
  | _, 0 => 0
  | pos, n + 1 => (src pos).toNat + 2 * fieldAt src (pos + 1) n

/-- `BsRead` (40_bitstream R132) of a source whose window has `lim` bits. -/
def bsRead (src : Nat → Bool) (lim n : Nat) (k : Cursor) : Nat × Cursor :=
  if k.exh then (0, k)
  else if fitsWindow lim k.pos n then (fieldAt src k.pos n, { k with pos := k.pos + n })
  else (0, { k with exh := true })

/-- `BsReadSigned` (40_bitstream R134). -/
def bsReadSigned (src : Nat → Bool) (lim n : Nat) (k : Cursor) : Int × Cursor :=
  let r := bsRead src lim n k
  if r.2.exh then (0, r.2)
  else if n = 0 then (0, r.2)
  else (sext n r.1, r.2)

/-- `BsWrite` (40_bitstream R136) into the window at `base`, of `lim` bits. -/
def bsWrite (m : Mem 8) (base lim v n : Nat) (k : Cursor) : Mem 8 × Cursor :=
  if k.exh then (m, k)
  else if fitsWindow lim k.pos n then (writeBits m base k.pos n v, { k with pos := k.pos + n })
  else (m, { k with exh := true })

/-! ### Fatal errors: the block's exceptions (60_exceptions R321 to R324) -/

/-- The `FATAL` value of a fatal error (60_exceptions R322). -/
def FatalCode.value : FatalCode → BitVec 4
  | .bufOverflow => 1
  | .ctRange => 2
  | .tileBound => 3
  | .slotRange => 4
  | .internal => 5
  | .badInput => 6
  | .badCommand => 7
  | .noDescriptor => 8

/-- The fatal registers after `raise Fatal(x)` (10_state R49, 60_exceptions R321): the first fatal error wins, and the
coordinates are recorded whatever the error (log 13). -/
def FatalRegs.after (f : FatalRegs) (x : FatalCode) (mbx mby slot : Nat) : FatalRegs :=
  if f.code = 0 then ⟨x.value, mbx, mby, slot⟩ else f

/-- An operation that completes with status "failed" and no result (60_exceptions R321, R323; U2; log 19). -/
def failOp (s : State) (r : Results) : State := { s with port := { s.port with res := r, status := .failed } }

/-- What a subblock or header operation does when it starts: `BITPOS <- 0`, `BS_EXH <- 0` (10_state R41). -/
def startCursor (s : State) : State := { s with cur := ⟨0, false⟩ }

/-- `raise Fatal(x)` (60_exceptions R321): the fatal registers, and the operation stopped with status "failed". This is
the block's taking of an exception; nothing else is saved and there is no handler. -/
def raiseFatal (s : State) (x : FatalCode) (r : Results := Results.none) : State :=
  failOp { s with fat := s.fat.after x s.sb.mbx s.sb.mby s.sb.slot } r

/-- What INIT_DESCRIPTOR and only INIT_DESCRIPTOR clears: the way back from a fatal error (60_exceptions R324,
46_descriptor R290). -/
def clearFrame (s : State) : State :=
  { s with
    fat := ⟨0, 0, 0, 0⟩
    chk := { s.chk with foundError := false, violMask := 0, vlist := [], sparseFirstValid := false, stripeBins := [] }
    sb := { s.sb with mbx := 0, mby := 0, mbnum := 0, slot := 0 }
    cur := ⟨0, false⟩ }

/-- A flag as a result. -/
def flagResult (b : Bool) : Option Int := some (if b then 1 else 0)

/-- An operation that completes with results. -/
def completeOp (s : State) (r : Results) : State := { s with port := { s.port with res := r, status := .done } }

/-! ### The body of an operation -/

/-- What the body of an operation comes to: it ran to its end, or it met a fatal error. -/
inductive Ran (α : Type) where
  | ok (a : α) (s : State)
  | fatal (x : FatalCode) (s : State)

/-- Go on where the body ran to its end. -/
def Ran.bind {α β : Type} (r : Ran α) (f : α → State → Ran β) : Ran β :=
  match r with
  | .ok a s => f a s
  | .fatal x s => .fatal x s

/-- Change the state a fatal error is raised in. -/
def Ran.onFatal {α : Type} (r : Ran α) (f : State → State) : Ran α :=
  match r with
  | .ok a s => .ok a s
  | .fatal x s => .fatal x (f s)

/-- The outcome of an operation's body: completed with the results of `res`, or the fatal error taken, with the results
of `bad` (none, but for DECODE_BLOCK's `RES2`). -/
def settle {α : Type} (r : Ran α) (res : α → Results) (bad : FatalCode → Results := fun _ => Results.none) :
    Host.Outcome State Fault Refusal :=
  match r with
  | .ok a s => .next (completeOp s (res a))
  | .fatal x s => .next (raiseFatal s x (bad x))

/-- What every operation but INIT_DESCRIPTOR does first: nothing at all while `FATAL != 0` (60_exceptions R323). -/
def ifNotFailed (s : State) (k : Host.Outcome State Fault Refusal) : Host.Outcome State Fault Refusal :=
  if s.fat.code ≠ 0 then .next (failOp s Results.none) else k

/-- What every operation but INIT_DESCRIPTOR and the BS commands does next: NO_DESCRIPTOR without a descriptor
(10_state R24; the order is 60_exceptions R326). -/
def ifReady (s : State) (k : Host.Outcome State Fault Refusal) : Host.Outcome State Fault Refusal :=
  ifNotFailed s (if s.descValid then k else .next (raiseFatal s .noDescriptor))

/-- Refuse an operand outside the operation's domain: BAD_INPUT and nothing else changed (93_implementation_defined
U11, 60_exceptions R322). -/
def ifInput (s : State) (good : Bool) (k : Host.Outcome State Fault Refusal) : Host.Outcome State Fault Refusal :=
  if good then k else .next (raiseFatal s .badInput)

/-- Stop where the operation reads a register that has no defined value (10_state R38; log 4). -/
def ifDefined (good : Bool) (k : Host.Outcome State Fault Refusal) : Host.Outcome State Fault Refusal :=
  if good then k else .fault .undefinedRegister

/-! ### Registers lost by a failed operation (U2, 60_exceptions R321; log 5) -/

/-- The rows of `cs` of `BLK` (where `blks`) and of `MINTREE`, `BCTREE` (where `trees`) hold the `n`-th free values and
no defined value. -/
def Codec.lose (k : Codec) (cs : List (Fin 4)) (n : Nat) (blks trees : Bool) : Codec where
  blk := Vector.ofFn fun c => if blks && cs.contains c then (Config.freeBlk n)[c] else k.blk[c]
  mintree := Vector.ofFn fun c =>
    if trees && cs.contains c then ((Config.freeMintree n)[c]).map BitVec.toNat else k.mintree[c]
  bctree := Vector.ofFn fun c =>
    if trees && cs.contains c then ((Config.freeBctree n)[c]).map BitVec.toInt else k.bctree[c]
  blkOk := Vector.ofFn fun c => if blks && cs.contains c then false else k.blkOk[c]
  mtOk := Vector.ofFn fun c => if trees && cs.contains c then false else k.mtOk[c]
  bcOk := Vector.ofFn fun c => if trees && cs.contains c then Vector.replicate 5 false else k.bcOk[c]

/-- The header registers hold the `n`-th free values and no defined value. -/
def Hdr.lose (n : Nat) : Hdr where
  ptr := Config.freePtr n
  solid := Config.freeSolid n
  code := Config.freeCode n
  off := Config.freeOff n
  size := Config.freeSize n
  unc := Config.freeUnc n
  solidVal := Config.freeSolidVal n
  ptrOk := false
  codeOk := Vector.replicate 24 false

/-- The cursor after a failed operation: `BITPOS` holds the `n`-th free value, `BS_EXH` stays as R41 leaves it. -/
def CursorReg.lose (k : CursorReg) (n : Nat) : CursorReg := { k with pos := Config.freePos n }

/-- A failed operation that produces no register loses `BITPOS`. -/
def losePos (s : State) : State := { s with cur := s.cur.lose s.free, free := s.free + 1 }

/-- A failed subblock operation loses `BITPOS` and the subblock registers it writes, of its components. -/
def loseCodec (s : State) (cs : List (Fin 4)) (blks trees : Bool) : State :=
  { s with cur := s.cur.lose s.free, codec := s.codec.lose cs s.free blks trees, free := s.free + 1 }

/-- A failed header operation loses `BITPOS` and the header registers. -/
def loseHdr (s : State) : State := { s with cur := s.cur.lose s.free, hdr := Hdr.lose s.free, free := s.free + 1 }

/-- A failed superblock operation loses `BITPOS` and all the working registers it writes (43_superblock R210, R225). -/
def loseAll (s : State) : State :=
  { s with
    cur := s.cur.lose s.free
    codec := s.codec.lose ((planeComps s.desc).map Prod.snd) s.free true true
    hdr := Hdr.lose s.free
    sb := { s.sb with sblk := Config.freeSblk s.free }
    free := s.free + 1 }

end Sys2Proof.Machine
end

