-- ==== Sys2Proof/Machine/Header.lean ====
section
/-! DEFINITION. The header parser and writer (44_header_address R240 to R250). -/

namespace Sys2Proof.Machine

/-- Byte address of a superblock's header (20_memory R67). -/
def headerAddr (mbnum : Nat) : Nat := mbnum * 16

/-- Whether the 16 bytes of a header lie below `buf_size` (20_memory R62). -/
def headerFits (s : State) (mbnum : Nat) : Bool := decide (headerAddr mbnum + 16 ≤ bufSize s)

/-- The 128-bit integer of the header in `FB` (20_memory R76, R240). -/
def headerWord (m : Mem 8) (mbnum : Nat) : Nat := bytesToNat (memBytes m (headerAddr mbnum) 16)

/-- The bit where component `c`'s solid colour starts (30_encoding R98); an absent component has width 0. -/
def solidPos (d : DescIn) (c : Fin 4) : Nat :=
  64 + ((allComps.filter fun e => decide (e.val < c.val)).map fun e => inBits d e).sum

/-- The raw fields of a header: pointer and size codes (R240, 30_encoding R96). -/
def Hdr.setFields (h : Hdr) (d : Desc) (w : Nat) : Hdr :=
  { h with
    ptr := BitVec.ofNat 32 (bitField w 0 d.ptrBits)
    code := Vector.ofFn fun s =>
      if s.val < d.nsubblocks then BitVec.ofNat 6 (bitField w (d.ptrBits + d.sizeBits * s.val) d.sizeBits)
      else h.code[s]
    ptrOk := true
    codeOk := Vector.ofFn fun s => if s.val < d.nsubblocks then true else h.codeOk[s] }

/-- The colour fields of a solid-colour header (30_encoding R98). -/
def solidColours (d : DescIn) (w : Nat) : Vector (BitVec 15) 4 :=
  Vector.ofFn fun c => BitVec.ofNat 15 (bitField w (solidPos d c) (inBits d c))

/-- The running state of size-code resolution (R244). -/
structure Resolve where
  off : Nat
  last : Vector (Option Nat) 2
  hdr : Hdr
  viols : List (Viol × Nat)
deriving DecidableEq, Repr

/-- Write the resolved entry of slot `s`. -/
def Hdr.setEntry (h : Hdr) (s off size : Nat) (unc : Bool) : Hdr :=
  { h with
    off := h.off.setIfInBounds s (BitVec.ofNat 33 off)
    size := h.size.setIfInBounds s (BitVec.ofNat 14 size)
    unc := h.unc.setIfInBounds s unc }

/-- Copy the resolved entry of slot `t` to slot `s`. -/
def Hdr.copyEntry (h : Hdr) (s t : Nat) : Hdr :=
  h.setEntry s (h.off.getD t 0).toNat (h.size.getD t 0).toNat (h.unc.getD t false)

/-- Write `HDR_CODE[s]`. -/
def Hdr.setCode (h : Hdr) (s c : Nat) : Hdr :=
  { h with code := h.code.setIfInBounds s (BitVec.ofNat 6 c), codeOk := h.codeOk.setIfInBounds s true }

/-- The raw code of slot `s`. -/
def Hdr.codeAt (h : Hdr) (s : Nat) : Nat := (h.code.getD s 0).toNat

/-- The offset of the second region of a split superblock (R245, 43_superblock R230). -/
def splitOffset (d : Desc) (ptr : Nat) : Nat := ptr + d.maxpay / 2

/-- Whether slot `s` is where a split superblock jumps (R245). -/
def isSplit (d : DescIn) (s : Nat) : Bool := d.blockSplit && decide (s = d.splitSlot.toNat)

/-- Resolve one slot (R244 to R246). -/
def resolveSlot (d : Desc) (r : Resolve) (s : Nat) : Resolve :=
  let p := (slotAt d s).plane
  let n := r.hdr.codeAt s
  let off := if isSplit d.toDescIn s then splitOffset d r.hdr.ptr.toNat else r.off
  if n = 0 then
    match r.last[p] with
    | none => { r with off := off, hdr := r.hdr.setEntry s off 0 false, viols := r.viols ++ [(.copyNoSource, 0)] }
    | some t => { r with off := off, hdr := r.hdr.copyEntry s t }
  else
    let size := if n = 1 then d.uncompSize[p] else n * (d.sbsMultiplier[p]).toNat
    { r with off := off + size, last := r.last.set p (some s), hdr := r.hdr.setEntry s off size (decide (n = 1)) }

/-- Resolution of the slots of a list from a header's raw fields (R244). -/
def resolveSlots (d : Desc) (h : Hdr) (ss : List Nat) : Resolve :=
  ss.foldl (resolveSlot d) ⟨h.ptr.toNat, Vector.replicate 2 none, h, []⟩

/-- What parsing a header does once its 128 bits are known (R240): the raw fields, then the solid colours or the
resolved slots with their violations. -/
def parseWord (s : State) (w : Nat) : State :=
  let d := s.desc
  let h := s.hdr.setFields d w
  if d.allowSolid && h.code[0] == 0 then
    { s with hdr := { h with solid := true, solidVal := solidColours d.toDescIn w } }
  else
    let r := resolveSlots d { h with solid := false } (List.range d.nsubblocks)
    flagAll { s with hdr := r.hdr } r.viols

/-- Parsing the 128 bits `w` as the header of superblock `mbnum` (R240). The cursor starts afresh (10_state R41) and is
not moved, since "The header is read as bytes, not through the bit cursor" (R241; log 29). -/
def parseWordRun (s : State) (mbnum w : Nat) : Ran Unit :=
  if headerFits s mbnum then .ok () (parseWord (startCursor s) w)
  else .fatal .bufOverflow (loseHdr (startCursor s))

/-- PARSE_HEADER's body (R240). -/
def parseHeaderRun (s : State) (mbnum : Nat) : Ran Unit := parseWordRun s mbnum (headerWord s.fb mbnum)

/-- PARSE_HEADER (R240): `ARG0` = mbnum. -/
def execParseHeader (s : State) : Host.Outcome State Fault Refusal :=
  ifReady s <| settle (parseHeaderRun s s.port.arg0) fun _ => Results.none

/-- The size codes of a header, slot 0 first. -/
def Hdr.codes (h : Hdr) (n : Nat) : List Nat := (List.range n).map h.codeAt

/-- Whether pointer and size codes fit their fields (R248). -/
def headerInRange (d : Desc) (h : Hdr) : Bool :=
  decide (h.ptr.toNat < 2 ^ d.ptrBits) && (h.codes d.nsubblocks).all fun c => decide (c < 2 ^ d.sizeBits)

/-- The 128 bits of a normal header (R248, 30_encoding R96). -/
def packHeader (d : Desc) (h : Hdr) : Nat :=
  h.ptr.toNat + 2 ^ d.ptrBits * packCodes d.sizeBits (h.codes d.nsubblocks)

/-- WRITE_HEADER's body (R248), with a fresh cursor (10_state R41; log 29). A field too wide is an operand outside the rule's
domain: the operation is refused and changes nothing else, so it does not start and leaves the cursor too
(93_implementation_defined U11; the model's reading, over R41 and U2: log 14). -/
def writeHeaderRun (s : State) (mbnum : Nat) : Ran Unit :=
  if headerFits s mbnum then
    if headerInRange s.desc s.hdr then
      .ok () { startCursor s with fb := memSetBytes s.fb (headerAddr mbnum) (natToBytes 16 (packHeader s.desc s.hdr)) }
    else .fatal .badInput s
  else .fatal .bufOverflow (losePos (startCursor s))

/-- The pointer and the codes of the frame's slots have a defined value (10_state R38). -/
def fieldsDefined (d : Desc) (h : Hdr) : Bool :=
  h.ptrOk && (List.range d.nsubblocks).all fun s => h.codeOk.getD s false

/-- WRITE_HEADER (R248): `ARG0` = mbnum. -/
def execWriteHeader (s : State) : Host.Outcome State Fault Refusal :=
  ifReady s <| ifDefined (!headerFits s s.port.arg0 || fieldsDefined s.desc s.hdr) <|
    settle (writeHeaderRun s s.port.arg0) fun _ => Results.none

end Sys2Proof.Machine
end

