-- ==== Sys2Proof/Machine/Address.lean ====
section
/-! DEFINITION. The address resolver (44_header_address R255 to R270): RESOLVE_ADDR, and the tiled, sparse and stripe
checks that DECODE_SUPERBLOCK runs. -/

namespace Sys2Proof.Machine

/-- RESOLVE_ADDR (R255): `ARG0` = mbx, `ARG1` = mby; `RES0` = mbnum, `RES1` = header byte address. -/
def execResolveAddr (s : State) : Host.Outcome State Fault Refusal :=
  let n := mbnumOf s.desc s.port.arg0 s.port.arg1
  ifReady s <| ifInput s (inGrid s.desc s.port.arg0 s.port.arg1) <|
    .next (completeOp s ⟨some (n : Int), some (headerAddr n : Int), none⟩)

/-- First byte of the paging tile of superblock `mbnum` (R260). -/
def tileStart (d : Desc) (mbnum : Nat) : Nat := d.bodyBase + mbnum / 64 * (64 * d.maxpay)

/-- The tile bound (R260). -/
def inTile (d : Desc) (mbnum ptr : Nat) : Bool :=
  decide (tileStart d mbnum ≤ ptr ∧ ptr + d.maxpay ≤ tileStart d mbnum + 64 * d.maxpay)

/-- `tiled_check` (R260, R261). -/
def tiledCheck (s : State) (mbnum ptr : Nat) : Ran Unit :=
  if inTile s.desc mbnum ptr then
    .ok () (if s.desc.checkTileStart ∧ mbnum % 64 = 0 ∧ ptr ≠ tileStart s.desc mbnum then flagV s .tileStart 0 else s)
  else .fatal .tileBound s

/-- `sparse_check` (R264). -/
def sparseCheck (s : State) (ptr : Nat) : State :=
  let s1 := if s.chk.sparseFirstValid then s
    else { s with chk := { s.chk with sparseFirst := ptr, sparseFirstValid := true } }
  if ((ptr : Int) - s1.chk.sparseFirst) % s1.desc.maxpay ≠ 0 then flagV s1 .sparseAlign 0 else s1

/-- One payload start folded into a stripe bin (R267); `none` for a solid superblock. -/
def StripeBin.fold (b : StripeBin) (ptr : Option Nat) : StripeBin :=
  match ptr with
  | none => b
  | some a => if b.seen then { b with lo := min b.lo a, hi := max b.hi a }
              else { b with lo := a, hi := a, seen := true }

/-- `stripe_close` (R268). -/
def stripeClose (s : State) (b : StripeBin) : State :=
  let s1 := if stripeRows s.desc * s.desc.mbw * s.desc.maxpay < b.hi - b.lo then flagV s .stripeSpan 0 else s
  if s.desc.checkStripeAlign ∧ b.lo % s.desc.stripeAlign.toNat ≠ 0 then flagV s1 .stripeAlign 0 else s1

/-- `stripe_count` (R267) on an existing bin. -/
def stripeBinStep (s : State) (t : Nat) (b : StripeBin) (ptr : Option Nat) : State :=
  if b.remaining = 0 then s
  else
    let b1 := { b.fold ptr with remaining := b.remaining - 1 }
    let s1 := { s with chk := { s.chk with stripeBins := s.chk.stripeBins.set t b1 } }
    if b1.remaining = 0 ∧ b1.seen then stripeClose s1 b1 else s1

/-- `stripe_count` (R267), run when `stripe_height != 0` and `error_check = 1`. -/
def stripeCount (s : State) (ptr : Option Nat) : State :=
  if s.desc.stripeHeight ≠ 0 ∧ s.desc.errorCheck then
    let t := s.sb.mby / stripeRows s.desc
    match s.chk.stripeBins[t]? with
    | none => s
    | some b => stripeBinStep s t b ptr
  else s

/-- `addressing_checks` (R270): tiled always, then sparse and stripe when `error_check = 1`. -/
def addressingChecks (s : State) : Ran Unit :=
  let ptr := s.hdr.ptr.toNat
  (if s.desc.tiled then tiledCheck s s.sb.mbnum ptr else .ok () s).bind fun _ s1 =>
    let s2 := if s1.desc.errorCheck ∧ s1.desc.sparse then sparseCheck s1 ptr else s1
    .ok () (stripeCount s2 (some ptr))

end Sys2Proof.Machine
end

