-- ==== Sys2Proof/Machine/BitStream.lean ====
section
/-! DEFINITION. The BitStream commands BS_READ, BS_READ_SIGNED, BS_WRITE (40_bitstream R130 to R136). They take the
cursor as operands, run on it, and return it; they never raise BUF_OVERFLOW (60_exceptions R325). -/

namespace Sys2Proof.Machine

/-- The cursor that a BS command is given: `ARG1` = bitpos, `ARG2` = exhausted flag in (30_encoding R93). A position of 2^36
or more lies beyond every window and nothing wraps: exhaustion takes its place (10_state R41; log 15). -/
def argCursor (s : State) : Cursor := ⟨s.port.arg1, s.port.arg2 != 0⟩

/-- BS_READ (R132): `ARG0` = window base byte; `RES0` = value, `RES1` = newpos, `RES2` = exhausted flag out. -/
def execBsRead (nbits : BitVec 6) (s : State) : Host.Outcome State Fault Refusal :=
  let r := bsRead (fbSource s.fb s.port.arg0) (windowBits s s.port.arg0) nbits.toNat (argCursor s)
  ifNotFailed s (.next (completeOp { s with cur := s.cur.take r.2 } ⟨some (r.1 : Int), some (r.2.pos : Int), flagResult r.2.exh⟩))

/-- BS_READ_SIGNED (R134). -/
def execBsReadSigned (nbits : BitVec 6) (s : State) : Host.Outcome State Fault Refusal :=
  let r := bsReadSigned (fbSource s.fb s.port.arg0) (windowBits s s.port.arg0) nbits.toNat (argCursor s)
  ifNotFailed s (.next (completeOp { s with cur := s.cur.take r.2 } ⟨some r.1, some (r.2.pos : Int), flagResult r.2.exh⟩))

/-- BS_WRITE (R136): `ARG3` = value. -/
def execBsWrite (nbits : BitVec 6) (s : State) : Host.Outcome State Fault Refusal :=
  let r := bsWrite s.fb s.port.arg0 (windowBits s s.port.arg0) s.port.arg3 nbits.toNat (argCursor s)
  ifNotFailed s
    (.next (completeOp { s with fb := r.1, cur := s.cur.take r.2 } ⟨none, some (r.2.pos : Int), flagResult r.2.exh⟩))

end Sys2Proof.Machine
end

