-- ==== Sys2Proof/Machine/ColorTransform.lean ====
section
/-! DEFINITION. The colour transform (45_color_transform R280 to R288): per pixel, over a block, and the stand-alone
commands CT_FORWARD and CT_INVERSE. -/

namespace Sys2Proof.Machine

/-- `ct_forward` (R282) with the common depth `n`; for operands below `2^n` nothing is below 0. -/
def ctForward (n r g b : Nat) : Nat × Nat × Nat := ((r + 2 * g + b) / 4, r + 2 ^ n - g, b + 2 ^ n - g)

/-- `ct_inverse` (R284): signed, before the range check. -/
def ctInverse (n : Nat) (y u v : Int) : Int × Int × Int :=
  let g := (4 * y - u - v + 3 + 2 * 2 ^ n) / 4
  (u + g - 2 ^ n, g, v + g - 2 ^ n)

/-- Whether a value is in `[0, 2^n - 1]` (R285). -/
def inRange (n : Nat) (x : Int) : Bool := decide (0 ≤ x ∧ x < 2 ^ n)

/-- The inverse of one pixel, if all of R, G, B are in range (R285). -/
def ctInversePixel (n y u v : Nat) : Option (Nat × Nat × Nat) :=
  let t := ctInverse n y u v
  if inRange n t.1 && inRange n t.2.1 && inRange n t.2.2 then some (t.1.toNat, t.2.1.toNat, t.2.2.toNat) else none

/-- Component `c` of a triple. -/
def pick3 (t : Nat × Nat × Nat) (c : Fin 4) : Nat :=
  if c = 0 then t.1 else if c = 1 then t.2.1 else t.2.2

/-- One pixel's component, as a number. -/
def sampleAt (blk : Vector (Vector Sample 16) 4) (c : Fin 4) (i : Fin 16) : Nat := (blk[c][i]).toNat

/-- The forward transform of the 16 pixels of rows 0 to 2; row 3 is unchanged (R282, R288). -/
def ctForwardBlock (n : Nat) (blk : Vector (Vector Sample 16) 4) : Vector (Vector Sample 16) 4 :=
  Vector.ofFn fun c => if c.val < 3 then
    Vector.ofFn fun i =>
      BitVec.ofNat 32 (pick3 (ctForward n (sampleAt blk 0 i) (sampleAt blk 1 i) (sampleAt blk 2 i)) c)
    else blk[c]

/-- The sixteen pixels of a block. -/
def allPixels : List (Fin 16) := [0, 1, 2, 3, 4, 5, 6, 7, 8, 9, 10, 11, 12, 13, 14, 15]

/-- The inverse transform of the 16 pixels of rows 0 to 2, if every pixel passes the range check (R285, R288). -/
def ctInverseBlock (n : Nat) (blk : Vector (Vector Sample 16) 4) : Option (Vector (Vector Sample 16) 4) :=
  let px := fun i => ctInversePixel n (sampleAt blk 0 i) (sampleAt blk 1 i) (sampleAt blk 2 i)
  if allPixels.all fun i => (px i).isSome then
    some (Vector.ofFn fun c => if c.val < 3 then
      Vector.ofFn fun i => BitVec.ofNat 32 (pick3 ((px i).getD (0, 0, 0)) c)
      else blk[c])
  else none

/-- Rows 0 to 2 of `BLK` are below the bounds of their components. -/
def rowsBelow (blk : Vector (Vector Sample 16) 4) (cs : List (Fin 4)) (bits : Fin 4 → Nat) : Bool :=
  cs.all fun c => allPixels.all fun i => decide (sampleAt blk c i < 2 ^ bits c)

/-- Rows 0 to 2 of `BLK` have a defined value (10_state R38). -/
def rowsDefined (k : Codec) (cs : List (Fin 4)) : Bool := cs.all fun c => k.blkOk[c]

/-- The components the transform acts on (R280). -/
def ctComps : List (Fin 4) := [0, 1, 2]

/-- The stand-alone commands complete with BAD_COMMAND where the transform does not apply to plane 0 (45_color_transform,
opening; 60_exceptions R322). -/
def ifCtApplies (s : State) (k : Host.Outcome State Fault Refusal) : Host.Outcome State Fault Refusal :=
  if ctApplies s.desc.toDescIn 0 then k else .next (raiseFatal s .badCommand)

/-- CT_FORWARD (R282). An operand outside `0 .. 2^n - 1` is refused. -/
def execCtForward (s : State) : Host.Outcome State Fault Refusal :=
  ifReady s <| ifCtApplies s <| ifDefined (rowsDefined s.codec ctComps) <|
    ifInput s (rowsBelow s.codec.blk ctComps fun c => inBits s.desc.toDescIn c) <|
      .next (completeOp { s with codec :=
        { s.codec with blk := ctForwardBlock (inBits s.desc.toDescIn 0) s.codec.blk } } Results.none)

/-- The inverse transform over `BLK`, with its range check: the violation `CT_RANGE`, then the fatal error (R285). The
rows of `cs` are then lost, with their trees where the operation was producing them. -/
def ctInverseRun (s : State) (cs : List (Fin 4)) (trees : Bool) : Ran Unit :=
  match ctInverseBlock (inBits s.desc.toDescIn 0) s.codec.blk with
  | some blk => .ok () { s with codec := { s.codec with blk := blk } }
  | none => .fatal .ctRange (loseCodec (flagV s .ctRange 0) cs true trees)

/-- CT_INVERSE (R284, R285). An operand wider than its component's `compbits` is refused (log 17). -/
def execCtInverse (s : State) : Host.Outcome State Fault Refusal :=
  ifReady s <| ifCtApplies s <| ifDefined (rowsDefined s.codec ctComps) <|
    ifInput s (rowsBelow s.codec.blk ctComps fun c => s.desc.compbits[c]) <|
      settle (ctInverseRun s ctComps false) fun _ => Results.none

end Sys2Proof.Machine
end

