-- ==== Sys2Proof/Machine/Descriptor.lean ====
section
/-! DEFINITION. The FrameDescriptor (46_descriptor R290 to R303): derivation, validity, INIT_DESCRIPTOR, and the three
size queries. -/

namespace Sys2Proof.Machine

/-! ### Derived fields -/

/-- Whether the colour transform widens component `c` (10_state R26). -/
def isTransformedChroma (i : DescIn) (c : Fin 4) : Bool := ctApplies i 0 && (c == 1 || c == 2)

/-- `compbits[c]` (10_state R26). -/
def compBitsOf (i : DescIn) (c : Fin 4) : Nat := if isTransformedChroma i c then inBits i c + 1 else inBits i c

/-- Whether component `c` is chroma for `defaultcolor` (10_state R27). -/
def isChroma (i : DescIn) (nplanes : Nat) (c : Fin 4) : Bool :=
  (c == 1 || c == 2) && (ctApplies i 0 || decide (nplanes = 2))

/-- `defaultcolor[c]` (10_state R27). -/
def defaultColorOf (i : DescIn) (nplanes : Nat) (c : Fin 4) : Nat :=
  if inBits i c = 0 then 0
  else if isChroma i nplanes c then 2 ^ (compBitsOf i c - 1)
  else 2 ^ compBitsOf i c - 1

/-- The sum of `inputbits[c]` over the components of plane `p`. -/
def planeBitsOf (i : DescIn) (p : Fin 2) : Nat := ((comps i p).map fun c => inBits i c).sum

/-- `uncomp_size[p]` (R295). -/
def uncompSizeOf (i : DescIn) (p : Fin 2) : Nat := ceilDiv (16 * planeBitsOf i p) 8

/-- `maxpay` (R297), as the sum over a list of slots. -/
def payloadOf (i : DescIn) (slots : List Slot) : Nat := (slots.map fun sl => uncompSizeOf i sl.plane).sum

/-- The descriptor derived from the `in` fields under the table `l` (R290). -/
def derive (l : Layout) (i : DescIn) : Desc :=
  let mbw := ceilDiv i.width l.sbW
  let mbh := ceilDiv i.height l.sbH
  let tile := if i.tiled then 8 else 1
  let mbwAl := roundUp mbw tile
  let mbhAl := roundUp mbh tile
  let hdrArea := mbwAl * mbhAl * 16
  { toDescIn := i
    table := l
    subsampling := l.subsampling
    nplanes := l.nplanes
    compbits := Vector.ofFn fun c => compBitsOf i c
    defaultcolor := Vector.ofFn fun c => defaultColorOf i l.nplanes c
    sbW := l.sbW
    sbH := l.sbH
    nsubblocks := l.slots.length
    mbw := mbw
    mbh := mbh
    tileX := tile
    tileY := tile
    mbwAl := mbwAl
    mbhAl := mbhAl
    hdrArea := hdrArea
    bodyBase := if i.tiled then roundUp hdrArea 4096 else hdrArea
    uncompSize := Vector.ofFn fun p => uncompSizeOf i p
    ptrBits := l.subsampling.ptrBits
    sizeBits := l.subsampling.sizeBits
    maxpay := payloadOf i l.slots }

/-! ### Validity (R293, R298) -/

/-- The region of plane `p` of a layout (R291). -/
def layoutPw (l : Layout) (p : Fin 2) : Nat := l.sbW / ssx l.subsampling p

/-- The region of plane `p` of a layout (R291). -/
def layoutPh (l : Layout) (p : Fin 2) : Nat := l.sbH / ssy l.subsampling p

/-- The planes of a layout. -/
def layoutPlanes (l : Layout) : List (Fin 2) := if l.nplanes = 2 then [0, 1] else [0]

/-- How many slots sit at cell `(x, y)` of plane `p`. -/
def slotsAt (l : Layout) (p : Fin 2) (x y : Nat) : Nat :=
  (l.slots.filter fun sl => sl.plane == p && sl.x == x && sl.y == y).length

/-- The slots of plane `p` tile its region exactly (R293). -/
def tiles (l : Layout) (p : Fin 2) : Bool :=
  (List.range (layoutPh l p / 4)).all fun r => (List.range (layoutPw l p / 4)).all fun q =>
    slotsAt l p (4 * q) (4 * r) == 1

/-- A slot lies inside its plane's region, at multiples of 4 (R293). -/
def slotOk (l : Layout) (sl : Slot) : Bool :=
  decide (sl.plane.val < l.nplanes ∧ sl.x % 4 = 0 ∧ sl.y % 4 = 0 ∧
    sl.x + 4 ≤ layoutPw l sl.plane ∧ sl.y + 4 ≤ layoutPh l sl.plane)

/-- A well-formed layout table (R293). With NONE there is one plane, with subsampling two (10_state R25). -/
def layoutOk (l : Layout) : Bool :=
  (decide (l.sbW = 16 ∧ l.sbH = 16) || decide (l.sbW = 32 ∧ l.sbH = 8)) &&
  l.slots.all (slotOk l) && (layoutPlanes l).all (tiles l) &&
  decide (l.slots.length = l.subsampling.nslots) &&
  decide (l.nplanes = if l.subsampling = .NONE then 1 else 2)

/-- The components of a plane stay inside 0..3 and there is at least one (10_state R22, R298 condition 5). -/
def planeInside (i : DescIn) (p : Fin 2) : Bool :=
  decide (1 ≤ (i.ncomp[p]).toNat ∧ (i.firstComp[p]).toNat + (i.ncomp[p]).toNat ≤ 4)

/-- Whether some plane of the frame holds component `c`. -/
def held (d : Desc) (c : Fin 4) : Bool := (planes d).any fun p => (comps d.toDescIn p).contains c

/-- `LAYOUT[k]` (R293): the open parameter, any table that is well-formed; `LAYOUT[0]` is moreover "non-subsampled"
(91_not_in_source N1, 43_superblock R227). A raw table of `Config.openLayout` that breaks these constraints is no value of the
parameter, and the well-formed example of R294 stands in its place (log 6). The spec has no `LAYOUT[7]`: a descriptor that names
it is refused (R298), and that its fields are derived from this same open table, `Config.openLayout 7`, is the model's choice
(log 6). -/
def layoutTable (k : Nat) : Layout :=
  let l := Config.openLayout k
  if layoutOk l && (k != 0 || l.subsampling == .NONE) then l else layout0

/-- Condition 1 of R298: the components of a subsampled frame. -/
def subsampledOk (d : Desc) : Bool :=
  d.subsampling == .NONE ||
    (d.ncomp[0] == 1 && d.firstComp[0] == 0 && d.ncomp[1] == 2 && d.firstComp[1] == 1 && d.inputbits[3] == 0)

/-- Condition 5 of R298, with `first_comp[0] = 0` of 10_state R25 (log 18). -/
def componentsOk (d : Desc) : Bool :=
  (planes d).all (planeInside d.toDescIn) && d.firstComp[0] == 0 &&
  (decide (d.nplanes ≠ 2) || decide ((d.firstComp[0]).toNat + (d.ncomp[0]).toNat ≤ (d.firstComp[1]).toNat)) &&
  allComps.all fun c =>
    if held d c then decide (1 ≤ inBits d.toDescIn c ∧ inBits d.toDescIn c ≤ 15)
    else decide (inBits d.toDescIn c = 0)

/-- Conditions 2 and 6 of R298: `inputbits[c] <= compbits[c] <= 15`. -/
def depthsOk (d : Desc) : Bool :=
  allComps.all fun c => decide (inBits d.toDescIn c ≤ d.compbits[c] ∧ d.compbits[c] ≤ 15)

/-- Condition 7 of R298: one depth where the transform applies. -/
def transformOk (d : Desc) : Bool :=
  !ctApplies d.toDescIn 0 || (d.inputbits[0] == d.inputbits[1] && d.inputbits[1] == d.inputbits[2])

/-- Condition 8 of R298 (R296): every compressed size has a size code. -/
def multiplierOk (d : Desc) (p : Fin 2) : Bool :=
  decide (1 ≤ (d.sbsMultiplier[p]).toNat ∧ ceilDiv d.uncompSize[p] (d.sbsMultiplier[p]).toNat ≤ 2 ^ d.sizeBits)

/-- Condition 9 of R298: stripes are whole superblock rows. -/
def stripesOk (d : Desc) : Bool := decide (d.stripeHeight % d.sbH = 0 ∧ 1 ≤ d.stripeAlign.toNat)

/-- Condition 10 of R298: both halves of a split superblock fit. -/
def splitOk (d : Desc) : Bool :=
  let slots := d.table.slots
  let k := d.splitSlot.toNat
  !d.blockSplit ||
    decide (1 ≤ k ∧ k ≤ d.nsubblocks - 1 ∧ payloadOf d.toDescIn (slots.take k) ≤ d.maxpay / 2 ∧
      payloadOf d.toDescIn (slots.drop k) ≤ d.maxpay - d.maxpay / 2)

/-- Conditions 4, 11 and 12 of R298. -/
def sizesOk (d : Desc) : Bool :=
  decide (1 ≤ d.width ∧ 1 ≤ d.height ∧ d.layout.toNat ≤ 6 ∧ d.frameSize.toNat ≤ d.bufSize.toNat ∧
    d.bufSize.toNat ≤ 2 ^ 32 ∧ d.hdrArea ≤ d.bufSize.toNat)

/-- What INIT_DESCRIPTOR accepts (R298; condition 3 is `layoutOk`). -/
def validDesc (d : Desc) : Bool :=
  sizesOk d && layoutOk d.table && subsampledOk d && componentsOk d && depthsOk d && transformOk d &&
  (planes d).all (multiplierOk d) && stripesOk d && splitOk d

/-! ### Stripe bins (44_header_address R266) -/

/-- Superblock rows in stripe `t`. -/
def rowsInStripe (d : Desc) (t : Nat) : Nat := min d.mbh ((t + 1) * stripeRows d) - t * stripeRows d

/-- The bins of a frame. -/
def initialBins (d : Desc) : List StripeBin :=
  if d.stripeHeight = 0 then []
  else (List.range (ceilDiv d.mbh (stripeRows d))).map fun t => ⟨0, 0, false, rowsInStripe d t * d.mbw⟩

/-! ### The operations -/

/-- INIT_DESCRIPTOR (R290). Not stopped by `FATAL != 0`: it is the way back from a fatal error (60_exceptions R324). -/
def execInitDescriptor (s : State) : Host.Outcome State Fault Refusal :=
  let d := derive (layoutTable s.port.descIn.layout.toNat) s.port.descIn
  let s1 := { clearFrame s with desc := d }
  if validDesc d then
    .next (completeOp { s1 with descValid := true, chk := { s1.chk with stripeBins := initialBins d } } Results.none)
  else .next (raiseFatal { s1 with descValid := false } .badInput)

/-- GET_MAX_SB_PAYLOAD (R300): `RES0` = `maxpay`. -/
def execGetMaxSbPayload (s : State) : Host.Outcome State Fault Refusal :=
  ifReady s <| .next (completeOp s ⟨some (s.desc.maxpay : Int), none, none⟩)

/-- The largest frame (R301). -/
def maxFrameSize (d : Desc) : Nat := d.bodyBase + d.mbwAl * d.mbhAl * d.maxpay

/-- GET_MAX_FRAME_SIZE (R301). -/
def execGetMaxFrameSize (s : State) : Host.Outcome State Fault Refusal :=
  ifReady s <| .next (completeOp s ⟨some (maxFrameSize s.desc : Int), none, none⟩)

/-- The bytes of the frame at whole bytes per sample (R302). -/
def uncompFrameSize (d : Desc) : Nat :=
  ((planeComps d).map fun pc => cw d pc.1 * chh d pc.1 * ceilDiv (inBits d.toDescIn pc.2) 8).sum

/-- GET_UNCOMP_FRAME_SIZE (R302). -/
def execGetUncompFrameSize (s : State) : Host.Outcome State Fault Refusal :=
  ifReady s <| .next (completeOp s ⟨some (uncompFrameSize s.desc : Int), none, none⟩)

end Sys2Proof.Machine
end

