-- ==== Sys2Proof/Machine/SubblockDecode.lean ====
section
/-! DEFINITION. The subblock decoder (41_subblock_decode R150 to R166): one function per element of the stream, the
component and the subblock built from them, and DECODE_BLOCK. The functions read a bit source, so that the same text
decodes the bytes of `FB` and the bits an element instruction carries (log 11). -/

namespace Sys2Proof.Machine

/-- What decoding works on: the cursor, the subblock registers, and the violations pending for the checker (R150). -/
structure DecState where
  cur : Cursor
  codec : Codec
  pend : List (Viol × Nat)
deriving DecidableEq, Repr

/-! ### Register writes -/

/-- Write `BCTREE[c][k]`. -/
def Codec.setCount (x : Codec) (c : Fin 4) (k : Fin 5) (v : Int) : Codec :=
  { x with bctree := x.bctree.set c ((x.bctree[c]).set k v), bcOk := x.bcOk.set c ((x.bcOk[c]).set k true) }

/-- Write `BCTREE[c][0] <- l3`, and the quadrant counts 0 where they are not in the stream (R152, R154). -/
def Codec.setRootCount (x : Codec) (c : Fin 4) (l3 : Int) : Codec :=
  if l3 < 0 then
    { x with bctree := x.bctree.set c #v[l3, 0, 0, 0, 0], bcOk := x.bcOk.set c (Vector.replicate 5 true) }
  else x.setCount c 0 l3

/-- Write `MINTREE[c][0] <- root` and the other twenty entries 0 (R155). -/
def Codec.setRoot (x : Codec) (c : Fin 4) (root : Nat) : Codec :=
  { x with
    mintree := x.mintree.set c (Vector.ofFn fun k => if k.val = 0 then root else 0)
    mtOk := x.mtOk.set c true }

/-- Write the four children of node `k` of `MINTREE[c]`: entries `4k+1 .. 4k+4` (10_state R33, R156). -/
def Codec.setChildren (x : Codec) (c : Fin 4) (k : Nat) (deltas : List Nat) : Codec :=
  { x with mintree := x.mintree.set c (Vector.ofFn fun j =>
      if 4 * k + 1 ≤ j.val ∧ j.val ≤ 4 * k + 4 then deltas.getD (j.val - (4 * k + 1)) 0 else (x.mintree[c])[j]) }

/-- The leaf sum of pixel `i` before the mask (R159). -/
def leafSum (mt : Vector Nat 21) (i : Nat) : Nat :=
  mt.getD 0 0 + mt.getD (1 + quadOf i) 0 + mt.getD (5 + 4 * quadOf i + leafOf i) 0

/-- Write `BLK[c]` from the tree (R159). -/
def Codec.setLeaves (x : Codec) (c : Fin 4) (bits : Nat) : Codec :=
  { x with
    blk := x.blk.set c (Vector.ofFn fun i => BitVec.ofNat 32 (leafSum x.mintree[c] i % 2 ^ bits))
    blkOk := x.blkOk.set c true }

/-! ### The elements of a compressed component -/

/-- The value of an `L3` code of width `w` (30_encoding R103). -/
def l3Value (w code : Nat) : Int :=
  if code = 2 ^ w - 1 then -1 else if code = 2 ^ w - 2 then -2 else code

/-- L3 (R152). -/
def readL3 (d : Desc) (src : Nat → Bool) (lim : Nat) (c : Fin 4) (st : DecState) : DecState :=
  let w := l3Bits d.compbits[c]
  let r := bsRead src lim w st.cur
  let l3 := l3Value w r.1
  { cur := r.2
    codec := st.codec.setRootCount c l3
    pend := if (d.compbits[c] : Int) < l3 then st.pend ++ [(.bcRange, c.val)] else st.pend }

/-- The clamp of a quadrant count into `[0, 15]` (R154). -/
def clampCount (raw : Int) : Int := if raw < 0 then raw + 16 else raw % 16

/-- L4D of quadrant `j` (R154). -/
def readL4D (d : Desc) (src : Nat → Bool) (lim : Nat) (c : Fin 4) (j : Fin 4) (st : DecState) : DecState :=
  let r := bsReadSigned src lim 2 st.cur
  let raw := (st.codec.bctree[c])[0] + r.1
  let l4 := clampCount raw
  let p1 := if raw < 0 then st.pend ++ [(.bcNeg, c.val)] else st.pend
  { cur := r.2
    codec := st.codec.setCount c j.succ l4
    pend := if (d.compbits[c] : Int) < l4 then p1 ++ [(.bcRange, c.val)] else p1 }

/-- ROOT (R155). -/
def readRoot (d : Desc) (src : Nat → Bool) (lim : Nat) (c : Fin 4) (st : DecState) : DecState :=
  let r := bsRead src lim d.compbits[c] st.cur
  { st with cur := r.2, codec := st.codec.setRoot c r.1 }

/-- The default colour in place of ROOT, no bits (R155). -/
def defaultRoot (d : Desc) (c : Fin 4) (st : DecState) : DecState :=
  { st with codec := st.codec.setRoot c d.defaultcolor[c] }

/-- One bit of a node: bit `i` of child `j`'s delta. -/
def readDeltaBit (src : Nat → Bool) (lim i : Nat) (a : List Nat × Cursor) (j : Nat) : List Nat × Cursor :=
  let r := bsRead src lim 1 a.2
  (a.1.set j (a.1.getD j 0 ||| (r.1 <<< i)), r.2)

/-- The children that carry bits when child `z` is the zero child, ascending. -/
def nonZeroChildren (z : Nat) : List Nat := [0, 1, 2, 3].filter fun j => j != z

/-- Bit-plane `i` of a node (R157). -/
def readPlane (src : Nat → Bool) (lim z : Nat) (a : List Nat × Cursor) (i : Nat) : List Nat × Cursor :=
  (nonZeroChildren z).foldl (readDeltaBit src lim i) a

/-- `node_decode` (R157): the four deltas for bit-count `b`. -/
def nodeDecode (src : Nat → Bool) (lim b : Nat) (k : Cursor) : List Nat × Cursor :=
  if b = 0 then ([0, 0, 0, 0], k)
  else if b = 1 then [0, 1, 2, 3].foldl (readDeltaBit src lim 0) ([0, 0, 0, 0], k)
  else
    let z := bsRead src lim 2 k
    (List.range b).foldl (readPlane src lim z.1) ([0, 0, 0, 0], z.2)

/-- The bit-count of internal node `k` (R156). -/
def nodeCount (x : Codec) (c : Fin 4) (k : Fin 5) : Nat := ((x.bctree[c])[k]).toNat

/-- NODE(k) (R156, R157): the deltas of the four children of node `k`. -/
def readNode (src : Nat → Bool) (lim : Nat) (c : Fin 4) (k : Fin 5) (st : DecState) : DecState :=
  let b := nodeCount st.codec c k
  let r := nodeDecode src lim b st.cur
  { cur := r.2
    codec := st.codec.setChildren c k.val r.1
    pend := if b = 1 ∧ r.1 = [1, 1, 1, 1] then st.pend ++ [(.noZeroCode, c.val)] else st.pend }

/-- The leaves (R159). -/
def writeLeaves (d : Desc) (c : Fin 4) (st : DecState) : DecState :=
  { st with codec := st.codec.setLeaves c d.compbits[c] }

/-- `decode_component` (R152 to R159). -/
def decodeComponent (d : Desc) (src : Nat → Bool) (lim : Nat) (st : DecState) (c : Fin 4) : DecState :=
  let s1 := readL3 d src lim c st
  let l3 := (s1.codec.bctree[c])[0]
  if l3 = -2 then writeLeaves d c (defaultRoot d c s1)
  else if l3 < 0 then writeLeaves d c (readRoot d src lim c s1)
  else
    let s2 := ([0, 1, 2, 3] : List (Fin 4)).foldl (fun a j => readL4D d src lim c j a) s1
    let s3 := readRoot d src lim c s2
    let s4 := ([0, 1, 2, 3, 4] : List (Fin 5)).foldl (fun a k => readNode src lim c k a) s3
    writeLeaves d c s4

/-! ### The uncompressed form -/

/-- One sample of the uncompressed form (R158). -/
def readSample (d : Desc) (src : Nat → Bool) (lim : Nat) (i : Fin 16) (st : DecState) (c : Fin 4) : DecState :=
  let r := bsRead src lim (inBits d.toDescIn c) st.cur
  { st with
    cur := r.2
    codec := { st.codec with
      blk := st.codec.blk.set c ((st.codec.blk[c]).set i (BitVec.ofNat 32 r.1))
      blkOk := st.codec.blkOk.set c true } }

/-- `decode_uncompressed` (R158): pixel outside, component inside. -/
def decodeUncompressed (d : Desc) (src : Nat → Bool) (lim : Nat) (p : Fin 2) (st : DecState) : DecState :=
  allPixels.foldl (fun a i => (comps d.toDescIn p).foldl (readSample d src lim i) a) st

/-! ### The subblock -/

/-- The stream of one subblock, from a fresh cursor (R150). -/
def decodeStream (d : Desc) (src : Nat → Bool) (lim : Nat) (p : Fin 2) (unc : Bool) (x : Codec) : DecState :=
  let st : DecState := ⟨⟨0, false⟩, x, []⟩
  if unc then decodeUncompressed d src lim p st
  else (comps d.toDescIn p).foldl (decodeComponent d src lim) st

/-- What follows the stream (R150, R160, R161): an exhausted cursor is fatal and drops the violations; else they are
recorded and the inverse transform runs; the result is the number of bytes consumed. -/
def finishBlock (s : State) (p : Fin 2) (unc : Bool) (st : DecState) : Ran Nat :=
  let cs := comps s.desc.toDescIn p
  let s1 := { s with cur := st.cur.reg, codec := st.codec }
  if st.cur.exh then .fatal .bufOverflow (loseCodec s1 cs true true)
  else
    let s2 := flagAll s1 st.pend
    if !unc && ctApplies s.desc.toDescIn p then
      (ctInverseRun s2 cs true).bind fun _ s3 => .ok (ceilDiv st.cur.pos 8) s3
    else .ok (ceilDiv st.cur.pos 8) s2

/-- DECODE_BLOCK's body (R150) on a bit source with a window of `lim` bits. -/
def decodeBlockRun (s : State) (src : Nat → Bool) (lim : Nat) (p : Fin 2) (unc : Bool) : Ran Nat :=
  finishBlock s p unc (decodeStream s.desc src lim p unc s.codec)

/-- Whether plane `p` exists (R150: "below `DESC.nplanes`"). -/
def planeOk (s : State) (p : Fin 2) : Bool := decide (p.val < s.desc.nplanes)

/-- `RES2` is 1 on overflow and nothing else is returned (R160). -/
def overflowResult (x : FatalCode) : Results :=
  if x = .bufOverflow then ⟨none, none, some 1⟩ else Results.none

/-- DECODE_BLOCK (R150): `ARG0` = byte offset of the subblock; `RES0` = bytes consumed, `RES2` = 1 on overflow. -/
def execDecodeBlock (plane : Fin 2) (unc : Bool) (s : State) : Host.Outcome State Fault Refusal :=
  ifReady s <| ifInput s (planeOk s plane) <|
    settle (decodeBlockRun s (fbSource s.fb s.port.arg0) (windowBits s s.port.arg0) plane unc)
      (fun n => ⟨some (n : Int), none, some 0⟩) overflowResult

end Sys2Proof.Machine
end

