-- ==== Sys2Proof/Machine/Elements.lean ====
section
/-! DEFINITION. The elements of the wire formats (30_encoding R96 to R107): what the decoder does with one header, one
size field, one subblock, one field of a subblock's stream, when the bits are the instruction's own (log 11). Each is the
same text as the operation that consumes it (PARSE_HEADER, DECODE_BLOCK), run on the bits the instruction carries; what
the stream does not say (which superblock, slot, plane, component, quadrant or node) stands in `ARG0..ARG2`. An element
that its context does not admit is an operand outside its domain: BAD_INPUT (93_implementation_defined U11). -/

namespace Sys2Proof.Machine

/-! ### Headers: ARG0 = mbnum -/

/-- Whether the 128 bits `w` are a header in solid-colour form (30_encoding R98). -/
def solidForm (d : Desc) (w : Nat) : Bool := d.allowSolid && bitField w d.ptrBits d.sizeBits == 0

/-- A header of mode `m`, in solid-colour form or not (R240, R98). -/
def headerElement (m : Subsampling) (solid : Bool) (w : Nat) (s : State) : Host.Outcome State Fault Refusal :=
  ifReady s <| ifInput s (s.desc.subsampling == m && solidForm s.desc w == solid) <|
    settle (parseWordRun s s.port.arg0 w) fun _ => Results.none

/-- HEADER_NORMAL_NONE (R96). -/
def execHeaderNormalNone (ptr : BitVec 32) (sizes : Vector (BitVec 6) 16) (s : State) :
    Host.Outcome State Fault Refusal :=
  headerElement .NONE false (Instr.headerNormalNone ptr sizes).bits s

/-- HEADER_NORMAL_S420 (R96). -/
def execHeaderNormalS420 (ptr : BitVec 28) (sizes : Vector (BitVec 5) 20) (s : State) :
    Host.Outcome State Fault Refusal :=
  headerElement .S420 false (Instr.headerNormalS420 ptr sizes).bits s

/-- HEADER_NORMAL_S422 (R96). -/
def execHeaderNormalS422 (ptr : BitVec 32) (sizes : Vector (BitVec 4) 24) (s : State) :
    Host.Outcome State Fault Refusal :=
  headerElement .S422 false (Instr.headerNormalS422 ptr sizes).bits s

/-- HEADER_SOLID (R98). -/
def execHeaderSolid (m : Subsampling) (h : BitVec 128) (s : State) : Host.Outcome State Fault Refusal :=
  headerElement m true (Instr.headerSolid m h).bits s

/-! ### Size codes: ARG0 = mbnum, ARG1 = slot -/

/-- The resolved entry of slot `s` alone, and what it flags (44_header_address R244). -/
def resolveOne (d : Desc) (h : Hdr) (slot : Nat) : Hdr × List (Viol × Nat) :=
  let r := resolveSlot d { resolveSlots d h (List.range slot) with viols := [] } slot
  (h.setEntry slot (r.hdr.off.getD slot 0).toNat (r.hdr.size.getD slot 0).toNat (r.hdr.unc.getD slot false), r.viols)

/-- What taking `n` as the size code of slot `slot` does once the pointer and the earlier codes are known. -/
def takeCode (s : State) (slot n : Nat) : State :=
  let r := resolveOne s.desc { s.hdr.setCode slot n with solid := false } slot
  flagAll { s with hdr := r.1 } r.2

/-- Taking a size code, when the header lies in the buffer (20_memory R62). -/
def sizeRun (s : State) (slot n : Nat) : Ran Unit :=
  if headerFits s s.port.arg0 then .ok () (takeCode s slot n) else .fatal .bufOverflow (loseHdr s)

/-- The slot-0 code of the header that the size code `n` of slot `slot` is part of. -/
def slotZeroCode (h : Hdr) (slot n : Nat) : Nat := if slot = 0 then n else h.codeAt 0

/-- The pointer and the codes of the earlier slots have a defined value (10_state R38). -/
def earlierDefined (h : Hdr) (slot : Nat) : Bool := h.ptrOk && (List.range slot).all fun k => h.codeOk.getD k false

/-- A size code `n` of mode `m` (R97, R244). The size fields of a solid-colour header are no size codes (R98). -/
def sizeElement (m : Subsampling) (n : Nat) (s : State) : Host.Outcome State Fault Refusal :=
  let slot := s.port.arg1
  ifReady s <| ifInput s (s.desc.subsampling == m && decide (slot < s.desc.nsubblocks)) <|
    ifDefined (earlierDefined s.hdr slot) <|
      ifInput s (!(s.desc.allowSolid && slotZeroCode s.hdr slot n == 0)) <|
        settle (sizeRun s slot n) fun _ => Results.none

/-- SIZE_COPY (R97). -/
def execSizeCopy (m : Subsampling) (s : State) : Host.Outcome State Fault Refusal :=
  sizeElement m (Instr.sizeCopy m).bits s

/-- SIZE_UNCOMP (R97). -/
def execSizeUncomp (m : Subsampling) (s : State) : Host.Outcome State Fault Refusal :=
  sizeElement m (Instr.sizeUncomp m).bits s

/-- SIZE_COMP (R97). -/
def execSizeComp (m : Subsampling) (n : BitVec 6) (s : State) : Host.Outcome State Fault Refusal :=
  sizeElement m (Instr.sizeComp m n).bits s

/-! ### Whole subblocks: ARG0 = byte offset, ARG1 = plane -/

/-- The plane operand. -/
def argPlane (s : State) : Fin 2 := Fin.ofNat 2 s.port.arg1

/-- Whether `n` bits are exactly one subblock of the plane: the decoder consumes all of them and no more. -/
def isSubblock (s : State) (unc : Bool) (n bits : Nat) : Bool :=
  let st := decodeStream s.desc (bitsSource bits 0) n (argPlane s) unc s.codec
  !st.cur.exh && st.cur.pos == n

/-- A subblock that the instruction carries, decoded as DECODE_BLOCK decodes one in `FB` (41_subblock_decode R150; log 27). -/
def blockElement (unc : Bool) (n bits : Nat) (s : State) : Host.Outcome State Fault Refusal :=
  ifReady s <| ifInput s (decide (s.port.arg1 < s.desc.nplanes) && isSubblock s unc n bits) <|
    settle (decodeBlockRun s (bitsSource bits 0) (windowBits s s.port.arg0) (argPlane s) unc)
      (fun k => ⟨some (k : Int), none, some 0⟩) overflowResult

/-- BLOCK_UNCOMP (R100). -/
def execBlockUncomp (n bits : Nat) (s : State) : Host.Outcome State Fault Refusal :=
  blockElement true n (Instr.blockUncomp n bits).bits s

/-- BLOCK_COMP (R101). -/
def execBlockComp (n bits : Nat) (s : State) : Host.Outcome State Fault Refusal :=
  blockElement false n (Instr.blockComp n bits).bits s

/-! ### Fields of a compressed stream: ARG0 = byte offset of the subblock, ARG1 = component, ARG2 = quadrant or node -/

/-- The component operand. -/
def argComp (s : State) : Fin 4 := Fin.ofNat 4 s.port.arg1

/-- Whether the component operand is a present component. -/
def compOk (s : State) : Bool :=
  decide (s.port.arg1 < 4) && ((planeComps s.desc).map Prod.snd).contains (argComp s)

/-- `BCTREE[c][0]` of the component operand. -/
def rootCount (s : State) : Int := (s.codec.bctree[argComp s])[0]

/-- Whether `BCTREE[c][0]` has a defined value. -/
def rootCountOk (s : State) : Bool := (s.codec.bcOk[argComp s])[0]

/-- The stream of an element: its own bits, standing where the cursor is. -/
def ownBits (s : State) (bits : Nat) : Nat → Bool := bitsSource bits s.cur.pos.toNat

/-- The window of the subblock an element is part of. -/
def elementLimit (s : State) : Nat := windowBits s s.port.arg0

/-- What follows an element: exhaustion is fatal and drops the violations, else they are recorded (40_bitstream R139). -/
def finishElement (s : State) (st : DecState) : Ran Unit :=
  let s1 := { s with cur := st.cur.reg, codec := st.codec }
  if st.cur.exh then .fatal .bufOverflow (loseCodec s1 [argComp s] true true) else .ok () (flagAll s1 st.pend)

/-- An element of a stream: in a context where `fits` and `admits` hold and what it reads is `defined`, it does what `f`
does, from the cursor and the registers as they are. -/
def streamElement (s : State) (fits defined admits : Bool) (f : DecState → DecState) :
    Host.Outcome State Fault Refusal :=
  ifReady s <| ifInput s (compOk s && fits) <| ifDefined defined <| ifInput s admits <|
    settle (finishElement s (f ⟨s.cur.cursor, s.codec, []⟩)) fun _ => Results.none

/-- An `L3` code of width `w`, with the default colour in place of the root where the code says so (R103, R105). -/
def l3Element (w : L3Width) (bits : Nat) (s : State) : Host.Outcome State Fault Refusal :=
  let c := argComp s
  streamElement s (l3Bits s.desc.compbits[c] == w.bits) true true fun st =>
    let st1 := readL3 s.desc (ownBits s bits) (elementLimit s) c st
    if (st1.codec.bctree[c])[0] = -2 then writeLeaves s.desc c (defaultRoot s.desc c st1) else st1

/-- L3_UNIFORM_W2 (R103). -/
def execL3UniformW2 (s : State) : Host.Outcome State Fault Refusal := l3Element .w2 Instr.l3UniformW2.bits s

/-- L3_DEFAULT_W2 (R103). -/
def execL3DefaultW2 (s : State) : Host.Outcome State Fault Refusal := l3Element .w2 Instr.l3DefaultW2.bits s

/-- L3_LITERAL_W2 (R103). -/
def execL3LiteralW2 (code : BitVec 2) (s : State) : Host.Outcome State Fault Refusal :=
  l3Element .w2 (Instr.l3LiteralW2 code).bits s

/-- L3_UNIFORM_W3 (R103). -/
def execL3UniformW3 (s : State) : Host.Outcome State Fault Refusal := l3Element .w3 Instr.l3UniformW3.bits s

/-- L3_DEFAULT_W3 (R103). -/
def execL3DefaultW3 (s : State) : Host.Outcome State Fault Refusal := l3Element .w3 Instr.l3DefaultW3.bits s

/-- L3_LITERAL_W3 (R103). -/
def execL3LiteralW3 (code : BitVec 3) (s : State) : Host.Outcome State Fault Refusal :=
  l3Element .w3 (Instr.l3LiteralW3 code).bits s

/-- L3_UNIFORM_W4 (R103). -/
def execL3UniformW4 (s : State) : Host.Outcome State Fault Refusal := l3Element .w4 Instr.l3UniformW4.bits s

/-- L3_DEFAULT_W4 (R103). -/
def execL3DefaultW4 (s : State) : Host.Outcome State Fault Refusal := l3Element .w4 Instr.l3DefaultW4.bits s

/-- L3_LITERAL_W4 (R103). -/
def execL3LiteralW4 (code : BitVec 4) (s : State) : Host.Outcome State Fault Refusal :=
  l3Element .w4 (Instr.l3LiteralW4 code).bits s

/-- L3_UNIFORM_W5 (R103). -/
def execL3UniformW5 (s : State) : Host.Outcome State Fault Refusal := l3Element .w5 Instr.l3UniformW5.bits s

/-- L3_DEFAULT_W5 (R103). -/
def execL3DefaultW5 (s : State) : Host.Outcome State Fault Refusal := l3Element .w5 Instr.l3DefaultW5.bits s

/-- L3_LITERAL_W5 (R103). -/
def execL3LiteralW5 (code : BitVec 5) (s : State) : Host.Outcome State Fault Refusal :=
  l3Element .w5 (Instr.l3LiteralW5 code).bits s

/-- L4D (R104), of quadrant `ARG2`; present when `l3 >= 0` (R101). -/
def execL4d (d : BitVec 2) (s : State) : Host.Outcome State Fault Refusal :=
  streamElement s (decide (s.port.arg2 < 4)) (rootCountOk s) (decide (0 ≤ rootCount s)) fun st =>
    readL4D s.desc (ownBits s (Instr.l4d d).bits) (elementLimit s) (argComp s) (Fin.ofNat 4 s.port.arg2) st

/-- ROOT (R105) of `w` bits; present when `l3 != -2` (R101). With `l3 = -1` the component ends here (R103). -/
def execRoot (w v : Nat) (s : State) : Host.Outcome State Fault Refusal :=
  let c := argComp s
  streamElement s (w == s.desc.compbits[c]) (rootCountOk s) (decide (rootCount s ≠ -2)) fun st =>
    let st1 := readRoot s.desc (ownBits s (Instr.root w v).bits) (elementLimit s) c st
    if rootCount s < 0 then writeLeaves s.desc c st1 else st1

/-- The node operand. -/
def argNode (s : State) : Fin 5 := Fin.ofNat 5 s.port.arg2

/-- Whether what NODE(k) reads has a defined value: its count, and the tree where the leaves follow. -/
def nodeDefined (s : State) : Bool :=
  rootCountOk s && (s.codec.bcOk[argComp s])[argNode s] &&
    (decide (argNode s ≠ 4) || s.codec.mtOk[argComp s])

/-- NODE of bit-count `b`, node `ARG2` (R106); present when `l3 >= 0`. With NODE(4) the component ends (R101, R159). -/
def nodeElement (b bits : Nat) (s : State) : Host.Outcome State Fault Refusal :=
  let c := argComp s
  let k := argNode s
  streamElement s (decide (s.port.arg2 < 5)) (nodeDefined s)
    (decide (0 ≤ rootCount s) && nodeCount s.codec c k == b) fun st =>
      let st1 := readNode (ownBits s bits) (elementLimit s) c k st
      if k = 4 then writeLeaves s.desc c st1 else st1

/-- NODE_B0 (R106). -/
def execNodeB0 (s : State) : Host.Outcome State Fault Refusal := nodeElement 0 Instr.nodeB0.bits s

/-- NODE_B1 (R106). -/
def execNodeB1 (d : BitVec 4) (s : State) : Host.Outcome State Fault Refusal := nodeElement 1 (Instr.nodeB1 d).bits s

/-- NODE_BN (R106). -/
def execNodeBN (b : Nat) (z : BitVec 2) (planes : Nat) (s : State) : Host.Outcome State Fault Refusal :=
  nodeElement b (Instr.nodeBN b z planes).bits s

/-- PAD (R107): "not read by the decoder". No effect (log 28). -/
def execPad (s : State) : Host.Outcome State Fault Refusal := ifReady s <| .next (completeOp s Results.none)

end Sys2Proof.Machine
end

