-- ==== Sys2Proof/Machine/SubblockEncode.lean ====
section
/-! DEFINITION. The subblock encoder (42_subblock_encode R180 to R201): the reference algorithm, and ENCODE_BLOCK. -/

namespace Sys2Proof.Machine

/-! ### Steps 1 to 4: the trees -/

/-- The trees of one component: `mt` (R183) and `bc`, with the sentinels -1 and -2 at the root (R185, R189). -/
structure Tree where
  mt : Vector Nat 21
  bc : Vector Int 5
deriving DecidableEq, Repr

/-- Minimum of a node's four children. -/
def minOf (ch : List Nat) : Nat := ch.foldl min (ch.headD 0)

/-- Maximum of a node's four children. -/
def maxOf (ch : List Nat) : Nat := ch.foldl max 0

/-- The wrap heuristic (R184). -/
def wrapAdjust (encWrap : Bool) (ch : List Nat) (n : Nat) : List Nat :=
  if !encWrap || decide (n < 2) then ch
  else
    let lo := fun v => decide (v < 2 ^ (n - 2))
    let hi := fun v => decide (3 * 2 ^ (n - 2) ≤ v)
    if (ch.filter lo).length = 2 ∧ (ch.filter hi).length = 2 then
      ch.map fun v => if lo v then v + 2 ^ n else v
    else ch

/-- The four children of quadrant `q` of a block, leaf 0 first (R183). -/
def quadChildren (v : Vector Nat 16) (q : Nat) : List Nat := [0, 1, 2, 3].map fun l => v.getD (pix q l) 0

/-- One node of the build: the deltas, the bit-count and the minimum passed upward (R183). -/
def buildNode (encWrap : Bool) (ch : List Nat) (n : Nat) : List Nat × Nat × Nat :=
  let w := wrapAdjust encWrap ch n
  let mn := minOf w
  (w.map fun x => (x - mn) % 2 ^ n, bitlen (maxOf w - mn), mn % 2 ^ n)

/-- `build_tree` (R183). -/
def buildTree (encWrap : Bool) (v : Vector Nat 16) (n : Nat) : Tree :=
  let q := fun i => buildNode encWrap (quadChildren v i) n
  let root := buildNode encWrap [(q 0).2.2, (q 1).2.2, (q 2).2.2, (q 3).2.2] n
  { mt := Vector.ofFn fun k =>
      if k.val = 0 then root.2.2
      else if k.val ≤ 4 then root.1.getD (k.val - 1) 0
      else (q ((k.val - 5) / 4)).1.getD ((k.val - 5) % 4) 0
    bc := #v[(root.2.1 : Int), ((q 0).2.1 : Int), ((q 1).2.1 : Int), ((q 2).2.1 : Int), ((q 3).2.1 : Int)] }

/-- `crop` (R185): a constant block's root becomes -1. -/
def crop (t : Tree) : Tree :=
  if t.bc = #v[0, 0, 0, 0, 0] then { t with bc := #v[-1, 0, 0, 0, 0] } else t

/-- `constrain` (R186). -/
def constrain (t : Tree) : Tree :=
  if t.bc[0] < 0 then t
  else
    let root := max t.bc[0] (max (max t.bc[1] t.bc[2]) (max t.bc[3] t.bc[4]) - 1)
    let child := fun x : Int => max x (root - 2)
    { t with bc := #v[root, child t.bc[1], child t.bc[2], child t.bc[3], child t.bc[4]] }

/-- A quadrant count is within what the 2-bit delta can say of its parent (R187). -/
def pairOk (parent child : Int) : Bool := decide (parent - 2 ≤ child ∧ child ≤ parent + 1)

/-- The verification after `constrain` (R187). -/
def verifyTree (t : Tree) : Bool :=
  if t.bc[0] < 0 then true
  else pairOk t.bc[0] t.bc[1] && pairOk t.bc[0] t.bc[2] && pairOk t.bc[0] t.bc[3] && pairOk t.bc[0] t.bc[4]

/-- The default-colour mark (R189). -/
def markDefault (dflt : Nat) (t : Tree) : Tree :=
  if t.bc[0] = -1 ∧ t.mt[0] = dflt then { t with bc := t.bc.set 0 (-2) } else t

/-! ### Serialisation -/

/-- The low `n` bits of `v`, least significant first. -/
def toBits : Nat → Nat → List Bool
  | 0, _ => []
  | n + 1, v => (v % 2 == 1) :: toBits n (v / 2)

/-- The number whose bits a list holds, least significant first. -/
def ofBits : List Bool → Nat
  | [] => 0
  | b :: rest => b.toNat + 2 * ofBits rest

/-- Bits as `n` bytes, filled up with zero bits (R196). -/
def bitsToBytes : Nat → List Bool → List Byte
  | 0, _ => []
  | n + 1, bs => BitVec.ofNat 8 (ofBits (bs.take 8)) :: bitsToBytes n (bs.drop 8)

/-- Four one-bit deltas with the all-ones fix-up (R191, R193). -/
def fixOnes (d : List Nat) : List Nat := if d = [1, 1, 1, 1] then [0, 1, 1, 1] else d

/-- The zero-code: the least child whose delta is 0 (R192). -/
def zeroChild (deltas : List Nat) : Option Nat := [0, 1, 2, 3].find? fun j => deltas.getD j 0 == 0

/-- Bit-plane `i` of a node (R191). -/
def planeBits (deltas : List Nat) (z i : Nat) : List Bool :=
  ([0, 1, 2, 3].filter fun j => j != z).map fun j => (deltas.getD j 0).testBit i

/-- `node_encode` (R191); `none` where no child is zero (R192). -/
def nodeEncode (b : Nat) (deltas : List Nat) : Option (List Bool) :=
  if b = 0 then some []
  else if b = 1 then some ((fixOnes (deltas.map fun x => x % 2)).flatMap fun x => toBits 1 x)
  else match zeroChild deltas with
    | none => none
    | some z => some (toBits 2 z ++ (List.range b).flatMap fun i => planeBits deltas z i)

/-- The deltas of the children of node `k`. -/
def childDeltas (mt : Vector Nat 21) (k : Nat) : List Nat := [1, 2, 3, 4].map fun j => mt.getD (4 * k + j) 0

/-- The `L3` code of a root count (R190). -/
def l3Code (w : Nat) (bc0 : Int) : Nat :=
  if bc0 = -1 then 2 ^ w - 1 else if bc0 < 0 then 2 ^ w - 2 else bc0.toNat

/-- The `L4D` field of a quadrant count: two's complement in two bits (R190). -/
def l4dCode (bc0 bcj : Int) : Nat := ((bcj - bc0) % 4).toNat

/-- Several pieces one after another, if none fails. -/
def joinBits : List (Option (List Bool)) → Option (List Bool)
  | [] => some []
  | none :: _ => none
  | some x :: rest => (joinBits rest).map fun y => x ++ y

/-- `serialise_component` (R190) for a component of `n` compressed bits. -/
def serialiseComponent (n : Nat) (t : Tree) : Option (List Bool) :=
  let w := l3Bits n
  let l3 := toBits w (l3Code w t.bc[0])
  if t.bc[0] = -2 then some l3
  else if t.bc[0] < 0 then some (l3 ++ toBits n t.mt[0])
  else
    let l4 := [t.bc[1], t.bc[2], t.bc[3], t.bc[4]].flatMap fun x => toBits 2 (l4dCode t.bc[0] x)
    (joinBits ([0, 1, 2, 3, 4].map fun k => nodeEncode (t.bc.getD k 0).toNat (childDeltas t.mt k))).map
      fun nodes => l3 ++ l4 ++ toBits n t.mt[0] ++ nodes

/-- The uncompressed form (R197, 30_encoding R100). -/
def uncompressedBits (d : DescIn) (p : Fin 2) (blk : Vector (Vector Sample 16) 4) : List Bool :=
  allPixels.flatMap fun i => (comps d p).flatMap fun c => toBits (inBits d c) (sampleAt blk c i)

/-! ### The whole encoder -/

/-- What `encode_block` returns (R180). -/
structure Encoded where
  bytes : List Byte
  single : Option Nat
  unc : Bool
  trees : List (Fin 4 × Tree)
deriving DecidableEq, Repr

/-- Step 1 (R182): the block in the coded domain. -/
def codedBlock (d : DescIn) (p : Fin 2) (blk : Vector (Vector Sample 16) 4) : Vector (Vector Sample 16) 4 :=
  if ctApplies d p then ctForwardBlock (inBits d 0) blk else blk

/-- Steps 2 to 4 for one component (R183 to R186). -/
def componentTree (d : Desc) (t : Vector (Vector Sample 16) 4) (c : Fin 4) : Tree :=
  constrain (crop (buildTree d.encWrap ((t[c]).map BitVec.toNat) d.compbits[c]))

/-- Step 5 (R188): the combined colour of a block whose components are all uniform. -/
def singleColour (d : DescIn) (blk : Vector (Vector Sample 16) 4) (ts : List (Fin 4 × Tree)) : Option Nat :=
  if ts.all fun ct => ct.2.bc[0] == -1 then
    some (ofBits (ts.flatMap fun ct => toBits (inBits d ct.1) (sampleAt blk ct.1 0)))
  else none

/-- The declared size of a compressed subblock of `bits` bits (R194, 30_encoding R107). -/
def declaredSize (cbytes m : Nat) : Nat := max 2 (ceilDiv cbytes m) * m

/-- `encode_block` (R180) of a block in range; `none` where an internal invariant fails (R187, R192). -/
def encodeRun (d : Desc) (p : Fin 2) (blk : Vector (Vector Sample 16) 4) : Option Encoded :=
  let t := codedBlock d.toDescIn p blk
  let built := (comps d.toDescIn p).map fun c => (c, componentTree d t c)
  if built.all fun ct => verifyTree ct.2 then
    let single := singleColour d.toDescIn blk built
    let marked := built.map fun ct => (ct.1, markDefault d.defaultcolor[ct.1] ct.2)
    match joinBits (marked.map fun ct => serialiseComponent d.compbits[ct.1] ct.2) with
    | none => none
    | some bits =>
      let size := declaredSize (ceilDiv bits.length 8) (d.sbsMultiplier[p]).toNat
      if d.uncompSize[p] ≤ size then
        some ⟨bitsToBytes d.uncompSize[p] (uncompressedBits d.toDescIn p blk), single, true, marked⟩
      else some ⟨bitsToBytes size bits, single, false, marked⟩
  else none

/-- The trees an encoder built, written to `MINTREE` and `BCTREE` (R180). -/
def Codec.setTrees (x : Codec) : List (Fin 4 × Tree) → Codec
  | [] => x
  | (c, t) :: rest =>
    Codec.setTrees
      { x with
        mintree := x.mintree.set c t.mt
        bctree := x.bctree.set c t.bc
        mtOk := x.mtOk.set c true
        bcOk := x.bcOk.set c (Vector.replicate 5 true) } rest

/-- ENCODE_BLOCK's body (R180, R198): nothing is written where the bytes do not fit below `buf_size`. The cursor ends
after the last byte, or exhausted at the start (log 16). -/
def encodeBlockRun (s : State) (base : Nat) (p : Fin 2) : Ran Encoded :=
  let cs := comps s.desc.toDescIn p
  match encodeRun s.desc p s.codec.blk with
  | none => .fatal .internal (loseCodec { s with cur := ⟨0, false⟩ } cs false true)
  | some e =>
    if bufSize s < base + e.bytes.length then
      .fatal .bufOverflow (loseCodec { s with cur := ⟨0, true⟩ } cs false true)
    else
      .ok e { s with
        fb := memSetBytes s.fb base e.bytes
        codec := s.codec.setTrees e.trees
        cur := (⟨8 * e.bytes.length, false⟩ : Cursor).reg }

/-- The single colour as a result: -1 for none (R188). -/
def singleResult : Option Nat → Int
  | some v => v
  | none => -1

/-- ENCODE_BLOCK (R180): `ARG0` = byte offset; `RES0` = byte count, `RES1` = single colour or -1, `RES2` bit 0 = used
uncompressed. A sample not below `2^inputbits[c]` is refused (R199). -/
def execEncodeBlock (plane : Fin 2) (s : State) : Host.Outcome State Fault Refusal :=
  let cs := comps s.desc.toDescIn plane
  ifReady s <| ifInput s (decide (plane.val < s.desc.nplanes)) <| ifDefined (rowsDefined s.codec cs) <|
    ifInput s (rowsBelow s.codec.blk cs fun c => inBits s.desc.toDescIn c) <|
      settle (encodeBlockRun s s.port.arg0 plane)
        fun e => ⟨some (e.bytes.length : Int), some (singleResult e.single), flagResult e.unc⟩

end Sys2Proof.Machine
end

