-- ==== Sys2Proof/Machine/Superblock.lean ====
section
/-! DEFINITION. The superblock codec (43_superblock R210 to R233): DECODE_SUPERBLOCK and ENCODE_SUPERBLOCK. -/

namespace Sys2Proof.Machine

/-- `(dx, dy)` of the sixteen samples of a subblock. -/
def cells : List (Nat × Nat) := (List.range 4).flatMap fun dy => (List.range 4).map fun dx => (dx, dy)

/-- `place(s)` for one component (R219). -/
def placeRow (w : Nat) (sl : Slot) (row : Vector Sample 16) (sblk : Vector Sample 256) : Vector Sample 256 :=
  cells.foldl (fun a c => a.setIfInBounds ((sl.y + c.2) * w + (sl.x + c.1)) (row.getD (4 * c.2 + c.1) 0)) sblk

/-- The superblock buffer after `place(s)` (R219). -/
def placed (s : State) (sl : Slot) : Vector (Vector Sample 256) 4 :=
  Vector.ofFn fun c =>
    if (comps s.desc.toDescIn sl.plane).contains c then
      placeRow (pw s.desc sl.plane) sl s.codec.blk[c] s.sb.sblk[c]
    else s.sb.sblk[c]

/-- `place(s)` (R219). -/
def place (s : State) (sl : Slot) : State := { s with sb := { s.sb with sblk := placed s sl } }

/-- `size_check(s, consumed)` (R218). -/
def sizeCheck (s : State) (slot consumed : Nat) (p : Fin 2) : State :=
  let expected := if s.hdr.unc.getD slot false then s.desc.uncompSize[p]
    else declaredSize consumed (s.desc.sbsMultiplier[p]).toNat
  if expected ≠ (s.hdr.size.getD slot 0).toNat then flagV s .sizeMismatch 0 else s

/-- The samples of `comps(p)` all 0 (R216). -/
def zeroBlock (s : State) (p : Fin 2) : State :=
  let cs := comps s.desc.toDescIn p
  let blk := Vector.ofFn fun c => if cs.contains c then Vector.replicate 16 0 else s.codec.blk[c]
  let blkOk := Vector.ofFn fun c => if cs.contains c then true else s.codec.blkOk[c]
  { s with codec := { s.codec with blk := blk, blkOk := blkOk } }

/-- Whether slot `s` ends within the declared frame size (R216). -/
def slotInFrame (s : State) (slot : Nat) : Bool :=
  decide ((s.hdr.off.getD slot 0).toNat + (s.hdr.size.getD slot 0).toNat ≤ s.desc.frameSize.toNat)

/-- One slot of the decode loop (R210, R214 to R219). -/
def decodeSlot (s : State) (slot : Nat) : Ran Unit :=
  let sl := slotAt s.desc slot
  let s1 := { s with sb := { s.sb with slot := slot } }
  if slotInFrame s1 slot then
    let base := (s1.hdr.off.getD slot 0).toNat
    (decodeBlockRun s1 (fbSource s1.fb base) (windowBits s1 base) sl.plane (s1.hdr.unc.getD slot false)).bind
      fun consumed s2 => .ok () (place (sizeCheck s2 slot consumed sl.plane) sl)
  else if s1.desc.graceful then .ok () (place (recordViol (zeroBlock s1 sl.plane) .slotRange 0) sl)
  else .fatal .slotRange s1

/-- The slot loop (R214). -/
def decodeSlots (s : State) : List Nat → Ran Unit
  | [] => .ok () s
  | slot :: rest => (decodeSlot s slot).bind fun _ s1 => decodeSlots s1 rest

/-- The plane that holds component `c`, if it is present. -/
def planeOfComp (d : Desc) (c : Fin 4) : Option (Fin 2) :=
  ((planeComps d).find? fun pc => pc.2 == c).map Prod.fst

/-- The superblock buffer filled with the solid colours (R213). -/
def solidRows (s : State) : Vector (Vector Sample 256) 4 :=
  Vector.ofFn fun c =>
    match planeOfComp s.desc c with
    | none => s.sb.sblk[c]
    | some p => Vector.ofFn fun j =>
        if j.val < pw s.desc p * ph s.desc p then BitVec.ofNat 32 (s.hdr.solidVal[c]).toNat
        else (s.sb.sblk[c])[j]

/-- The solid colour broadcast over the regions (R213). -/
def fillSolid (s : State) : State := { s with sb := { s.sb with sblk := solidRows s } }

/-- The coordinates `(x, y)` of a plane's region, row by row. -/
def regionCells (d : Desc) (p : Fin 2) : List (Nat × Nat) :=
  (List.range (ph d p)).flatMap fun y => (List.range (pw d p)).map fun x => (x, y)

/-- The writeback of one sample (R220): a sample outside the frame is dropped. -/
def writeSample (s : State) (p : Fin 2) (row : Vector Sample 256) (m : Mem 32) (xy : Nat × Nat) : Mem 32 :=
  let gx := s.sb.mbx * pw s.desc p + xy.1
  let gy := s.sb.mby * ph s.desc p + xy.2
  if gx < cw s.desc p ∧ gy < chh s.desc p then
    memSet m (gy * cw s.desc p + gx) (row.getD (xy.2 * pw s.desc p + xy.1) 0)
  else m

/-- The writeback of one component (R220). -/
def writeComp (s : State) (out : Vector (Mem 32) 4) (pc : Fin 2 × Fin 4) : Vector (Mem 32) 4 :=
  out.set pc.2 ((regionCells s.desc pc.1).foldl (writeSample s pc.1 s.sb.sblk[pc.2]) out[pc.2])

/-- `writeback` (R220). -/
def writeback (s : State) : State := { s with out := (planeComps s.desc).foldl (writeComp s) s.out }

/-- A failed DECODE_SUPERBLOCK leaves the samples of its superblock open (U2, 60_exceptions R321): they hold free values, which
may be the ones they held, as R210 has it; every other sample stays (log 5). -/
def loseOut (s : State) : State :=
  { s with out := (writeback { s with sb := { s.sb with sblk := Config.freeOut s.free } }).out }

/-- The coordinate registers (R210, R225). -/
def setCoords (s : State) (mbx mby : Nat) : State :=
  { s with sb := { s.sb with mbx := mbx, mby := mby, mbnum := mbnumOf s.desc mbx mby } }

/-- What DECODE_SUPERBLOCK does after the header (R210, steps 3 to 5 and the writeback). -/
def decodeBody (s : State) : Ran Unit :=
  if s.hdr.solid then .ok () (writeback (stripeCount (fillSolid s) none))
  else (addressingChecks s).bind fun _ s1 =>
    (decodeSlots s1 (List.range s1.desc.nsubblocks)).bind fun _ s2 => .ok () (writeback s2)

/-- DECODE_SUPERBLOCK's body (R210). A fatal error loses the working registers and the superblock's samples (U2; log 5). -/
def decodeSuperblockRun (s : State) (mbx mby : Nat) : Ran Unit :=
  let s1 := setCoords s mbx mby
  let s2 := { s1 with sb := { s1.sb with slot := 0 } }
  ((parseHeaderRun s2 s2.sb.mbnum).bind fun _ s3 => decodeBody s3).onFatal
    fun t => loseAll (loseOut t)

/-- DECODE_SUPERBLOCK (R210): `ARG0` = mbx, `ARG1` = mby. -/
def execDecodeSuperblock (s : State) : Host.Outcome State Fault Refusal :=
  ifReady s <| ifInput s (inGrid s.desc s.port.arg0 s.port.arg1) <|
    settle (decodeSuperblockRun s s.port.arg0 s.port.arg1) fun _ => Results.none

/-! ### ENCODE_SUPERBLOCK -/

/-- The sample fetched for column `x`, row `y` of a plane's region: the edge is repeated (R226). -/
def fetchSample (s : State) (pc : Fin 2 × Fin 4) (x y : Nat) : Sample :=
  let gx := s.sb.mbx * pw s.desc pc.1 + x
  let gy := s.sb.mby * ph s.desc pc.1 + y
  memGet s.out[pc.2] (min gy (chh s.desc pc.1 - 1) * cw s.desc pc.1 + min gx (cw s.desc pc.1 - 1))

/-- The fetch of one component's region (R226). -/
def fetchRow (s : State) (pc : Fin 2 × Fin 4) (old : Vector Sample 256) : Vector Sample 256 :=
  Vector.ofFn fun j =>
    if j.val < pw s.desc pc.1 * ph s.desc pc.1 then fetchSample s pc (j.val % pw s.desc pc.1) (j.val / pw s.desc pc.1)
    else old[j]

/-- The superblock buffer after the fetch (R226). -/
def fetchedRows (s : State) : Vector (Vector Sample 256) 4 :=
  Vector.ofFn fun c =>
    match planeOfComp s.desc c with
    | none => s.sb.sblk[c]
    | some p => fetchRow s (p, c) s.sb.sblk[c]

/-- The fetch (R226). -/
def fetch (s : State) : State := { s with sb := { s.sb with sblk := fetchedRows s } }

/-- The samples of a component's region in `SBLK`. -/
def regionSamples (s : State) (pc : Fin 2 × Fin 4) : List Sample :=
  (s.sb.sblk[pc.2]).toList.take (pw s.desc pc.1 * ph s.desc pc.1)

/-- Every fetched sample is below `2^inputbits[c]` (R226). -/
def fetchInRange (s : State) : Bool :=
  (planeComps s.desc).all fun pc =>
    (regionSamples s pc).all fun v => decide (v.toNat < 2 ^ inBits s.desc.toDescIn pc.2)

/-- Every present component is constant over its region (R227). -/
def allConstant (s : State) : Bool :=
  (planeComps s.desc).all fun pc => (regionSamples s pc).all fun v => v == (s.sb.sblk[pc.2])[0]

/-- The 128 bits of the solid-colour header (R227). -/
def solidWord (s : State) : Nat :=
  ((planeComps s.desc).map fun pc => ((s.sb.sblk[pc.2])[0]).toNat * 2 ^ solidPos s.desc.toDescIn pc.2).sum

/-- The subblock of a slot, taken from `SBLK` (R225). -/
def loadBlock (s : State) (sl : Slot) : State :=
  let cs := comps s.desc.toDescIn sl.plane
  let w := pw s.desc sl.plane
  let row := fun c : Fin 4 => Vector.ofFn fun i : Fin 16 =>
    (s.sb.sblk[c]).getD ((sl.y + i.val / 4) * w + (sl.x + i.val % 4)) 0
  let blk := Vector.ofFn fun c => if cs.contains c then row c else s.codec.blk[c]
  let blkOk := Vector.ofFn fun c => if cs.contains c then true else s.codec.blkOk[c]
  { s with codec := { s.codec with blk := blk, blkOk := blkOk } }

/-- The last slot of a plane, as resolved, with its bytes (R225, R228). -/
structure LastSlot where
  slot : Nat
  bytes : List Byte
  unc : Bool
deriving DecidableEq, Repr

/-- The running state of the encode loop (R225). -/
structure EncLoop where
  off : Nat
  last : Vector (Option LastSlot) 2
  ord : Vector Nat 2
deriving DecidableEq, Repr

/-- `copy_allowed(s, p)` (R229). -/
def copyAllowed (d : DescIn) (slot ord : Nat) : Bool := d.copyDetect && !isSplit d slot && decide (ord % 4 ≠ 0)

/-- Whether this slot repeats the last one of its plane (R228). -/
def repeats (e : Encoded) (l : LastSlot) : Bool := e.bytes == l.bytes && e.unc == l.unc

/-- The slot that a copy code may refer to, if this slot is a copy (R228, R229). -/
def copySource (d : DescIn) (a : EncLoop) (slot : Nat) (p : Fin 2) (e : Encoded) : Option LastSlot :=
  match a.last[p] with
  | none => none
  | some l => if copyAllowed d slot a.ord[p] && repeats e l then some l else none

/-- A slot stored at `off`: bytes, resolved entry, size code (R225). A size without a code is an internal error (42_subblock_encode R201). -/
def storeSlot (s : State) (slot off : Nat) (p : Fin 2) (e : Encoded) : Ran Unit :=
  let n := e.bytes.length
  let m := (s.desc.sbsMultiplier[p]).toNat
  if bufSize s < off + n then .fatal .bufOverflow { s with cur := ⟨0, true⟩ }
  else
    let s1 := { s with
      fb := memSetBytes s.fb off e.bytes
      hdr := s.hdr.setEntry slot off n e.unc
      cur := (⟨8 * n, false⟩ : Cursor).reg }
    if !e.unc && (decide (n % m ≠ 0) || decide (2 ^ s.desc.sizeBits ≤ n / m)) then .fatal .internal s1
    else .ok () { s1 with hdr := s1.hdr.setCode slot (if e.unc then 1 else n / m) }

/-- One slot of the encode loop (R225). -/
def encodeSlot (s : State) (bodyPos slot : Nat) (a : EncLoop) : Ran EncLoop :=
  let d := s.desc
  let sl := slotAt d slot
  let p := sl.plane
  let off := if isSplit d.toDescIn slot then splitOffset d bodyPos else a.off
  let s1 := loadBlock { s with sb := { s.sb with slot := slot } } sl
  match encodeRun d p s1.codec.blk with
  | none => .fatal .internal s1
  | some e =>
    let s2 := { s1 with codec := s1.codec.setTrees e.trees, cur := (⟨8 * e.bytes.length, false⟩ : Cursor).reg }
    let last := a.last.set p (some ⟨slot, e.bytes, e.unc⟩)
    let ord := a.ord.set p (a.ord[p] + 1)
    match copySource d.toDescIn a slot p e with
    | some l => .ok ⟨off, last, ord⟩ { s2 with hdr := (s2.hdr.copyEntry slot l.slot).setCode slot 0 }
    | none => (storeSlot s2 slot off p e).bind fun _ s3 => .ok ⟨off + e.bytes.length, last, ord⟩ s3

/-- The encode loop (R225). -/
def encodeSlots (s : State) (bodyPos : Nat) (a : EncLoop) : List Nat → Ran Nat
  | [] => .ok a.off s
  | slot :: rest => (encodeSlot s bodyPos slot a).bind fun a1 s1 => encodeSlots s1 bodyPos a1 rest

/-- The solid-colour branch (R227). -/
def encodeSolid (s : State) (bodyPos : Nat) : Ran Nat :=
  if headerFits s s.sb.mbnum then
    .ok bodyPos { s with
      fb := memSetBytes s.fb (headerAddr s.sb.mbnum) (natToBytes 16 (solidWord s))
      hdr := { s.hdr with solid := true } }
  else .fatal .bufOverflow s

/-- The other branch: the slots, then the header (R225, R231). -/
def encodeNormal (s : State) (bodyPos : Nat) : Ran Nat :=
  let s1 := { s with hdr := { s.hdr with solid := false, ptr := BitVec.ofNat 32 bodyPos, ptrOk := true } }
  (encodeSlots s1 bodyPos ⟨bodyPos, Vector.replicate 2 none, Vector.replicate 2 0⟩ (List.range s1.desc.nsubblocks)).bind
    fun off s2 => (writeHeaderRun s2 s2.sb.mbnum).bind fun _ s3 => .ok off s3

/-- ENCODE_SUPERBLOCK's body (R225). -/
def encodeSuperblockRun (s : State) (mbx mby bodyPos : Nat) : Ran Nat :=
  let s1 := fetch (setCoords s mbx mby)
  let body : Ran Nat :=
    if !fetchInRange s1 || decide (2 ^ s1.desc.ptrBits ≤ bodyPos) then .fatal .badInput s1
    else if s1.desc.allowSolid && allConstant s1 then encodeSolid s1 bodyPos
    else encodeNormal s1 bodyPos
  body.onFatal loseAll

/-- ENCODE_SUPERBLOCK (R225): `ARG0` = mbx, `ARG1` = mby, `ARG2` = body_pos; `RES0` = new_body_pos. -/
def execEncodeSuperblock (s : State) : Host.Outcome State Fault Refusal :=
  ifReady s <| ifInput s (inGrid s.desc s.port.arg0 s.port.arg1) <|
    settle (encodeSuperblockRun s s.port.arg0 s.port.arg1 s.port.arg2) fun off => ⟨some (off : Int), none, none⟩

end Sys2Proof.Machine
end

