-- ==== Sys2Proof/Machine/Dispatch.lean ====
section
/-! DEFINITION. The dispatch: one arm per instruction, each one call of its meaning. -/

namespace Sys2Proof.Machine

def exec (i : Instr) (s : State) : Host.Outcome State Fault Refusal :=
  match i with
  | .bsRead nbits => Sys2Proof.Machine.execBsRead nbits s
  | .bsReadSigned nbits => Sys2Proof.Machine.execBsReadSigned nbits s
  | .bsWrite nbits => Sys2Proof.Machine.execBsWrite nbits s
  | .decodeBlock plane unc => Sys2Proof.Machine.execDecodeBlock plane unc s
  | .encodeBlock plane => Sys2Proof.Machine.execEncodeBlock plane s
  | .decodeSuperblock => Sys2Proof.Machine.execDecodeSuperblock s
  | .encodeSuperblock => Sys2Proof.Machine.execEncodeSuperblock s
  | .parseHeader => Sys2Proof.Machine.execParseHeader s
  | .writeHeader => Sys2Proof.Machine.execWriteHeader s
  | .resolveAddr => Sys2Proof.Machine.execResolveAddr s
  | .ctForward => Sys2Proof.Machine.execCtForward s
  | .ctInverse => Sys2Proof.Machine.execCtInverse s
  | .initDescriptor => Sys2Proof.Machine.execInitDescriptor s
  | .getMaxSbPayload => Sys2Proof.Machine.execGetMaxSbPayload s
  | .getMaxFrameSize => Sys2Proof.Machine.execGetMaxFrameSize s
  | .getUncompFrameSize => Sys2Proof.Machine.execGetUncompFrameSize s
  | .headerNormalNone ptr sizes => Sys2Proof.Machine.execHeaderNormalNone ptr sizes s
  | .headerNormalS420 ptr sizes => Sys2Proof.Machine.execHeaderNormalS420 ptr sizes s
  | .headerNormalS422 ptr sizes => Sys2Proof.Machine.execHeaderNormalS422 ptr sizes s
  | .headerSolid m h => Sys2Proof.Machine.execHeaderSolid m h s
  | .sizeCopy m => Sys2Proof.Machine.execSizeCopy m s
  | .sizeUncomp m => Sys2Proof.Machine.execSizeUncomp m s
  | .sizeComp m n => Sys2Proof.Machine.execSizeComp m n s
  | .blockUncomp n bits => Sys2Proof.Machine.execBlockUncomp n bits s
  | .blockComp n bits => Sys2Proof.Machine.execBlockComp n bits s
  | .l3UniformW2 => Sys2Proof.Machine.execL3UniformW2 s
  | .l3DefaultW2 => Sys2Proof.Machine.execL3DefaultW2 s
  | .l3LiteralW2 code => Sys2Proof.Machine.execL3LiteralW2 code s
  | .l3UniformW3 => Sys2Proof.Machine.execL3UniformW3 s
  | .l3DefaultW3 => Sys2Proof.Machine.execL3DefaultW3 s
  | .l3LiteralW3 code => Sys2Proof.Machine.execL3LiteralW3 code s
  | .l3UniformW4 => Sys2Proof.Machine.execL3UniformW4 s
  | .l3DefaultW4 => Sys2Proof.Machine.execL3DefaultW4 s
  | .l3LiteralW4 code => Sys2Proof.Machine.execL3LiteralW4 code s
  | .l3UniformW5 => Sys2Proof.Machine.execL3UniformW5 s
  | .l3DefaultW5 => Sys2Proof.Machine.execL3DefaultW5 s
  | .l3LiteralW5 code => Sys2Proof.Machine.execL3LiteralW5 code s
  | .l4d d => Sys2Proof.Machine.execL4d d s
  | .root w v => Sys2Proof.Machine.execRoot w v s
  | .nodeB0 => Sys2Proof.Machine.execNodeB0 s
  | .nodeB1 d => Sys2Proof.Machine.execNodeB1 d s
  | .nodeBN b z planes => Sys2Proof.Machine.execNodeBN b z planes s
  | .pad => Sys2Proof.Machine.execPad s

end Sys2Proof.Machine
end

