-- ==== Sys2Proof/Machine/Interface.lean ====
section
/-! DEFINITION. The command interface (30_encoding R92) and the host's side of it: what each pending host action does,
how a command word is taken, how an element of a stream is fetched (log 10, log 11), and the two frame passes of
30_encoding R113. -/

namespace Sys2Proof.Machine

/-! ### Commands -/

/-- A command word is written: the operation runs, or the word is illegal and "the block does nothing and completes
with `raise Fatal(BAD_COMMAND)`" (R92), even while `FATAL != 0` (60_exceptions R326), which it then leaves as it is. -/
def runCommand (w : Nat) (s : State) : Host.Outcome State Fault Refusal :=
  match decode .cmd w with
  | .ok i => exec i s
  | .error _ => .next (raiseFatal s .badCommand)

/-! ### Elements -/

/-- The stream position, counted in bits from `FB[0]`, where the element of a format stands: the header of `ARG0`
(20_memory R67), the size field of slot `ARG1` in it (R96), the subblock at byte `ARG0`, and the field at the cursor
inside that subblock. -/
def elementPos (s : State) : Form → Nat
  | .cmd => 0
  | .hdr _ _ => 8 * headerAddr s.port.arg0
  | .size m => 8 * headerAddr s.port.arg0 + m.ptrBits + m.sizeBits * s.port.arg1
  | .blockUncomp _ => 8 * s.port.arg0
  | .blockComp _ => 8 * s.port.arg0
  | .l3 _ => 8 * s.port.arg0 + s.cur.pos.toNat
  | .l4d => 8 * s.port.arg0 + s.cur.pos.toNat
  | .root _ => 8 * s.port.arg0 + s.cur.pos.toNat
  | .node _ => 8 * s.port.arg0 + s.cur.pos.toNat
  | .pad => 8 * s.port.arg0 + s.cur.pos.toNat

/-- The bits of the buffer; a bit at or beyond `8 * buf_size` is not read (20_memory R62). -/
def bufferBits (s : State) : Nat → Bool := fun b => decide (b < 8 * bufSize s) && fbBit s.fb 0 b

/-- The bits of the element of a format that stands in `FB`. -/
def fetchElement (s : State) (f : Form) : Nat := fieldAt (bufferBits s) (elementPos s f) f.width

/-- An element is presented: it is fetched, decoded and run. A command word is no element. -/
def runElement (f : Form) (s : State) : Host.Outcome State Fault Refusal :=
  if f = .cmd then .next (raiseFatal s .badCommand)
  else match decode f (fetchElement s f) with
  | .ok i => exec i s
  | .error _ => .next (raiseFatal s .badCommand)

/-! ### Host actions -/

/-- Write one operand register. -/
def Port.setArg (p : Port) (k : Fin 4) (v : Nat) : Port :=
  if k = 0 then { p with arg0 := v }
  else if k = 1 then { p with arg1 := v }
  else if k = 2 then { p with arg2 := v }
  else { p with arg3 := v }

/-- Write a row of `BLK`, which then has a defined value. -/
def Codec.hostBlk (x : Codec) (c : Fin 4) (row : Vector Sample 16) : Codec :=
  { x with blk := x.blk.set c row, blkOk := x.blkOk.set c true }

/-- Write `HDR_PTR` and `HDR_CODE[]`, which then have a defined value. -/
def Hdr.hostWrite (h : Hdr) (ptr : BitVec 32) (codes : Vector (BitVec 6) 24) : Hdr :=
  { h with ptr := ptr, code := codes, ptrOk := true, codeOk := Vector.replicate 24 true }

/-- Reset (70_reset_and_hazards R350, R351): `FB` and `OUT[c]` are "not affected by reset"; what the host has still to do,
and the model's counter of free values, are not the block's. -/
def applyReset (s : State) : State :=
  { State.reset with fb := s.fb, out := s.out, fbPhys := s.fbPhys, inbox := s.inbox, free := s.free }

/-- One host action between operations (20_memory R78). -/
def hostAction (e : Event) (s : State) : Host.Outcome State Fault Refusal :=
  match e with
  | .setArg k v => .next { s with port := s.port.setArg k v }
  | .setDescIn d => .next { s with port := { s.port with descIn := d } }
  | .writeFb a v => if a < s.fbPhys.toNat then .next { s with fb := memSet s.fb a v } else .fault .noSuchByte
  | .writeOut c i v => .next { s with out := s.out.set c (memSet s.out[c] i v) }
  | .writeBlk c row => .next { s with codec := s.codec.hostBlk c row }
  | .writeHdr ptr codes => .next { s with hdr := s.hdr.hostWrite ptr codes }
  | .command w => runCommand w.toNat s
  | .element f => runElement f s
  | .reset => .next (applyReset s)

/-- One step: the next host action happens; with none pending the block "is idle and waits for a command"
(70_reset_and_hazards R350). -/
def stepState (s : State) : Host.Outcome State Fault Refusal :=
  match s.inbox with
  | [] => .next s
  | e :: rest => hostAction e { s with inbox := rest }

/-! ### Placing an instruction where the next step runs it -/

/-- The instruction with the bits `w` is the next thing the host presents: a command word is written to `CMD`, an element
is stored where it is fetched (log 10, log 12). -/
def placeWord (s : State) (nbits w : Nat) : State :=
  if nbits = 32 then { s with inbox := .command (BitVec.ofNat 32 w) :: s.inbox }
  else
    let f := tableForm nbits w
    { s with fb := writeBits s.fb 0 (elementPos s f) nbits w, inbox := .element f :: s.inbox }

/-! ### The frame passes (30_encoding R113)

A pass "must be preceded by INIT_DESCRIPTOR" (R113; 70_reset_and_hazards R352). What one without an accepted descriptor does is the
model's choice (log 32): it runs over the grid that `DESC` then holds, so its first superblock operation fails, or nothing runs
where that grid is empty, as it is after reset. -/

/-- The superblocks in raster order, `mby` outer. -/
def rasterOrder (d : Desc) : List (Nat × Nat) :=
  (List.range d.mbh).flatMap fun mby => (List.range d.mbw).map fun mbx => (mbx, mby)

/-- The operand registers for a superblock operation. -/
def setCoordArgs (s : State) (xy : Nat × Nat) (pos : Nat) : State :=
  { s with port := { s.port with arg0 := xy.1, arg1 := xy.2, arg2 := pos } }

/-- DECODE_SUPERBLOCK over a list of superblocks, stopping at the first fatal error. -/
def decodePass (s : State) : List (Nat × Nat) → Host.Outcome State Fault Refusal
  | [] => .next s
  | xy :: rest =>
    match exec .decodeSuperblock (setCoordArgs s xy s.port.arg2) with
    | .next s1 => if s1.fat.code = 0 then decodePass s1 rest else .next s1
    | .fault r => .fault r
    | .refused r => .refused r

/-- DECODE_FRAME (R113). Without an accepted descriptor: the model's choice, log 32. -/
def decodeFrame (s : State) : Host.Outcome State Fault Refusal := decodePass s (rasterOrder s.desc)

/-- `cell(mbx, mby)` of the `k`-th superblock (R113). -/
def cellOf (d : Desc) (xy : Nat × Nat) (k : Nat) : Nat := if d.tiled then mbnumOf d xy.1 xy.2 else k

/-- Where ENCODE_FRAME places the `k`-th superblock when the last one ended at `pos` (R113). -/
def framePos (d : Desc) (xy : Nat × Nat) (k pos : Nat) : Nat :=
  if d.tiled || d.sparse then d.bodyBase + cellOf d xy k * d.maxpay else pos

/-- The result of an operation as a position. -/
def resPos (s : State) : Nat := (s.port.res.res0.getD 0).toNat

/-- ENCODE_SUPERBLOCK over a list of superblocks, stopping at the first fatal error (R113). R113 says that the final encoded byte
length is `end`, and not where a host finds it: that the pass leaves it in `RES0`, with status done, over the last operation's
own result, is the model's choice (log 32). -/
def encodePass (s : State) (k pos last : Nat) : List (Nat × Nat) → Host.Outcome State Fault Refusal
  | [] => .next (completeOp s ⟨some (last : Int), none, none⟩)
  | xy :: rest =>
    match exec .encodeSuperblock (setCoordArgs s xy (framePos s.desc xy k pos)) with
    | .next s1 =>
      if s1.fat.code = 0 then encodePass s1 (k + 1) (resPos s1) (max last (resPos s1)) rest else .next s1
    | .fault r => .fault r
    | .refused r => .refused r

/-- ENCODE_FRAME (R113). Without an accepted descriptor: the model's choice, log 32. Where the grid of `DESC` is then empty, it
completes with `RES0` = `DESC.body_base`, which is 0 after reset. -/
def encodeFrame (s : State) : Host.Outcome State Fault Refusal :=
  encodePass s 0 s.desc.bodyBase s.desc.bodyBase (rasterOrder s.desc)

end Sys2Proof.Machine
end

