-- ==== Sys2Proof/Machine/Step.lean ====
section
/-! DEFINITION. The step. -/

namespace Sys2Proof.Machine

/-- One step of the machine: the next host action, and with it at most one operation, which "runs to completion as one
atomic step" (00_scope R8). -/
def step (s : State) : Host.Outcome State Fault Refusal := stepState s

/-- `s` with the instruction of bits `w` placed where the next step runs it: the host is about to present it (log 10). -/
def State.withFetchWord (s : State) (nbits w : Nat) : State := placeWord s nbits w

end Sys2Proof.Machine
end

