-- ==== Sys2Proof/Safety.lean ====
section
/-! DEFINITION. What counts as a safe state and a safe run, in the terms that claims use. -/

namespace Sys2Proof.Machine

/-- No fatal error is standing and a descriptor is loaded: an operation runs (60_exceptions R323, 10_state R24). -/
def Ready (s : State) : Prop := s.fat.code = 0 ∧ s.descValid = true

/-- The state after an operation that completed. -/
def Completes (o : Host.Outcome State Fault Refusal) (t : State) : Prop := o = .next t ∧ t.port.status = .done

/-- Every byte of `FB` outside the `n` bytes at `a` reads as before. -/
def FbOutside (s t : State) (a n : Nat) : Prop := ∀ b, b < a ∨ a + n ≤ b → memGet t.fb b = memGet s.fb b

/-- Every byte of `FB` reads as before. -/
def SameFb (s t : State) : Prop := ∀ b, memGet t.fb b = memGet s.fb b

/-- Every sample of every `OUT[c]` reads as before. -/
def SameOut (s t : State) : Prop := ∀ (c : Fin 4) (i : Nat), memGet t.out[c] i = memGet s.out[c] i

/-- The memories are in their canonical form (log 1). -/
structure MemInv (s : State) : Prop where
  fb : s.fb.wf
  out : ∀ c : Fin 4, (s.out[c]).wf

/-- The status registers hold values the spec gives them: `FATAL` none of the codes "never written" (60_exceptions R322),
`VIOL_MASK` none of the bits that "read as 0" (R317) and set together with `FOUND_ERROR` (10_state R46), and after a fatal
error the last operation's status is "failed" (60_exceptions R321, R323). -/
structure StatusInv (s : State) : Prop where
  code : s.fat.code.toNat ≤ 8
  reserved : s.chk.violMask.toNat < 2 ^ 11
  found : s.chk.violMask ≠ 0 ↔ s.chk.foundError = true
  failed : s.fat.code ≠ 0 → s.port.status = .failed

/-- A valid descriptor is one INIT_DESCRIPTOR derives and accepts (46_descriptor R290, R298, R299), and the stripe bins are
the frame's (44_header_address R266). -/
structure DescInv (s : State) : Prop where
  derived : s.descValid = true → s.desc = derive s.desc.table s.desc.toDescIn
  valid : s.descValid = true → validDesc s.desc = true
  bins : s.descValid = true → s.chk.stripeBins.length = (initialBins s.desc).length

/-- The counters name a superblock of the frame and one of its slots (10_state R42). -/
structure PlaceInv (s : State) : Prop where
  grid : s.descValid = true → s.sb.mbx < s.desc.mbw ∧ s.sb.mby < s.desc.mbh
  slot : s.sb.slot < 24

/-- What every step keeps. -/
structure Inv (s : State) : Prop where
  mem : MemInv s
  status : StatusInv s
  desc : DescInv s
  place : PlaceInv s

/-- The trees that have a defined value hold counts and minima of the ranges of 10_state R33 and R34: a root count of -2
to 29, quadrant counts of 0 to 15, entries below `2^29`. -/
structure TreeInv (x : Codec) : Prop where
  root : ∀ c : Fin 4, (x.bcOk[c])[0] = true → -2 ≤ (x.bctree[c])[0] ∧ (x.bctree[c])[0] ≤ 29
  quads : ∀ (c : Fin 4) (j : Fin 4), (x.bcOk[c])[j.succ] = true →
    0 ≤ (x.bctree[c])[j.succ] ∧ (x.bctree[c])[j.succ] ≤ 15
  mins : ∀ c : Fin 4, x.mtOk[c] = true → ∀ k : Fin 21, (x.mintree[c])[k] < 2 ^ 29

/-- A state without what only the checker sees: its records, and whether it is on (10_state R29). -/
def withoutChecker (s : State) : State :=
  { s with chk := State.reset.chk, desc := { s.desc with errorCheck := false } }

/-! ### What claims are stated in -/

/-- `v` is the `n`-bit field at stream position `pos` of the window of `FB` at byte `base` (20_memory R64, R65): the first
bit is the least significant one, and bit `b` of the window is bit `b mod 8` of byte `base + b div 8`. -/
def IsField (s : State) (base pos n v : Nat) : Prop :=
  v < 2 ^ n ∧ ∀ i < n, v.testBit i = (memGet s.fb (base + (pos + i) / 8)).getLsbD ((pos + i) % 8)

/-- The operation that refused with fatal error `code` and did nothing else, from a state with `FATAL = 0` (60_exceptions
R321). -/
def refusedWith (s : State) (code : BitVec 4) : State :=
  { s with
    fat := ⟨code, s.sb.mbx, s.sb.mby, s.sb.slot⟩
    port := { s.port with res := Results.none, status := .failed } }

/-- `BITPOS` after a BS command from `s` whose new position is `n`: no window has 2^36 bits, and a position past 36 bits is
never formed in the register, which keeps what it held (10_state R41; log 15). -/
def posReg (s : State) (n : Nat) : BitVec 36 := if n < 2 ^ 36 then BitVec.ofNat 36 n else s.cur.pos

/-- `t` is `s` but for the cursor, the header registers, the checker and the command interface. -/
def OnlyHeader (s t : State) : Prop := t = { s with cur := t.cur, hdr := t.hdr, chk := t.chk, port := t.port }

/-- `t` is `s` but for the cursor, the subblock registers, the checker and the command interface. -/
def OnlyCodec (s t : State) : Prop := t = { s with cur := t.cur, codec := t.codec, chk := t.chk, port := t.port }

/-- The command interface after an operation that completed: the operands as before, the results of the operation. -/
def DoneWith (s t : State) (r : Results) : Prop := t.port = { s.port with res := r, status := .done }

/-- The command interface after an operation that failed. -/
def FailedWith (s t : State) (r : Results) : Prop := t.port = { s.port with res := r, status := .failed }

/-- The bits of the components of plane `p` before component `c`. -/
def bitsBefore (d : DescIn) (p : Fin 2) (c : Fin 4) : Nat :=
  (((comps d p).filter fun e => decide (e.val < c.val)).map fun e => inBits d e).sum

/-- The bits of the components before `c`, present in the frame or not (30_encoding R98). -/
def solidBefore (d : DescIn) (c : Fin 4) : Nat := (((List.range c.val).map fun e => inBits d (Fin.ofNat 4 e))).sum

/-- `HDR_CODE[k]` as a number. -/
def codeOf (s : State) (k : Nat) : Nat := (s.hdr.code.getD k 0).toNat

/-- The plane of slot `k` (46_descriptor R293). -/
def slotPlane (d : Desc) (k : Nat) : Fin 2 := (slotAt d k).plane

/-- The bytes that code `n` gives slot `k`, copies aside (30_encoding R97, 44_header_address R244). -/
def codeSize (d : Desc) (k n : Nat) : Nat :=
  if n = 0 then 0 else if n = 1 then d.uncompSize[slotPlane d k] else n * (d.sbsMultiplier[slotPlane d k]).toNat

/-- The running offset before slot `k`, with the split superblock's jump (44_header_address R244, R245). -/
def slotOffset (d : Desc) (ptr : Nat) (code : Nat → Nat) : Nat → Nat
  | 0 => if d.blockSplit ∧ d.splitSlot.toNat = 0 then ptr + d.maxpay / 2 else ptr
  | k + 1 =>
    if d.blockSplit ∧ d.splitSlot.toNat = k + 1 then ptr + d.maxpay / 2
    else slotOffset d ptr code k + codeSize d k (code k)

/-- Slot `j` is the source of a copy in slot `k`: the last earlier slot of the same plane whose code is not 0
(44_header_address R244). -/
def CopySource (d : Desc) (code : Nat → Nat) (k j : Nat) : Prop :=
  j < k ∧ slotPlane d j = slotPlane d k ∧ code j ≠ 0 ∧
    ∀ l, j < l → l < k → slotPlane d l = slotPlane d k → code l = 0

/-- Slot `k` has no slot to copy (44_header_address R246). -/
def NoSource (d : Desc) (code : Nat → Nat) (k : Nat) : Prop :=
  ∀ j < k, slotPlane d j = slotPlane d k → code j = 0

/-- Sample `i` of `OUT[c]` lies in the region of superblock `(mbx, mby)` (43_superblock R220), at `(x, y)` of the region. -/
def SampleOf (d : Desc) (mbx mby : Nat) (p : Fin 2) (c : Fin 4) (i x y : Nat) : Prop :=
  (p, c) ∈ planeComps d ∧ x < pw d p ∧ y < ph d p ∧ mbx * pw d p + x < cw d p ∧ mby * ph d p + y < chh d p ∧
    i = (mby * ph d p + y) * cw d p + (mbx * pw d p + x)

/-- Every sample of every `OUT[c]` outside superblock `(mbx, mby)` reads as before. -/
def OutOutside (s t : State) (mbx mby : Nat) : Prop :=
  ∀ (c : Fin 4) (i : Nat), (∀ p x y, ¬ SampleOf s.desc mbx mby p c i x y) → memGet t.out[c] i = memGet s.out[c] i

/-- The bits of `VIOL_MASK` that violation `x` adds when `cond` holds and checking is on (60_exceptions R316). -/
def flagged (s : State) (cond : Prop) [Decidable cond] (x : Viol) : BitVec 16 :=
  if s.desc.errorCheck = true ∧ cond then x.mask else 0

/-- The checker of `t` is that of `s` but that the violations `V` are flagged, each where checking is on (60_exceptions R316):
their bits of `VIOL_MASK`, `FOUND_ERROR`, and the optional `VLIST`; the sparse reference and the stripe bins are as before. -/
def Flags (s t : State) (V : Viol → Prop) : Prop :=
  t.chk = { s.chk with foundError := t.chk.foundError, violMask := t.chk.violMask, vlist := t.chk.vlist } ∧
  (t.chk.foundError = true ↔ s.chk.foundError = true ∨ s.desc.errorCheck = true ∧ ∃ x, V x) ∧
  ∀ k, t.chk.violMask.getLsbD k = true ↔
    s.chk.violMask.getLsbD k = true ∨ s.desc.errorCheck = true ∧ ∃ x, V x ∧ x.bit = k

/-! ### A compressed stream, told from its bits (30_encoding R101 to R106) -/

/-- The two-bit signed field at stream position `pos` (30_encoding R104). -/
def deltaAt (s : State) (base pos : Nat) : Int :=
  (((memGet s.fb (base + pos / 8)).getLsbD (pos % 8)).toNat : Int) -
    2 * (((memGet s.fb (base + (pos + 1) / 8)).getLsbD ((pos + 1) % 8)).toNat : Int)

/-- The bits from `pos` to `stop` are a NODE of bit-count `b` whose children have the deltas `delta` (30_encoding R106,
41_subblock_decode R157). -/
def NodeAt (s : State) (base pos stop b : Nat) (delta : Nat → Nat) : Prop :=
  (b = 0 → stop = pos ∧ ∀ j < 4, delta j = 0) ∧
  (b = 1 → stop = pos + 4 ∧ ∀ j < 4, IsField s base (pos + j) 1 (delta j)) ∧
  (2 ≤ b → stop = pos + 2 + 3 * b ∧ ∃ z < 4, IsField s base pos 2 z ∧ delta z = 0 ∧
    ∀ j < 4, j ≠ z → delta j < 2 ^ b ∧
      ∀ i < b, IsField s base (pos + 2 + 3 * i + if j < z then j else j - 1) 1 (delta j / 2 ^ i % 2))

/-- The bits from `pos` to `stop` are component `c` of a compressed subblock, and `x` holds its trees: the L3 code with its
sentinels, the four L4D (wrapped into 0 to 15), ROOT or the default colour, the five nodes (41_subblock_decode R152 to R157). -/
def ComponentAt (s : State) (base : Nat) (c : Fin 4) (x : Codec) (pos stop : Nat) : Prop :=
  let n := s.desc.compbits[c]
  let w := l3Bits n
  let entry := fun k => (x.mintree[c]).getD k 0
  ∃ code, IsField s base pos w code ∧
    (code = 2 ^ w - 1 → x.bctree[c] = #v[-1, 0, 0, 0, 0] ∧ IsField s base (pos + w) n (entry 0) ∧
      (∀ k, 1 ≤ k → k < 21 → entry k = 0) ∧ stop = pos + w + n) ∧
    (code = 2 ^ w - 2 → x.bctree[c] = #v[-2, 0, 0, 0, 0] ∧ entry 0 = s.desc.defaultcolor[c] ∧
      (∀ k, 1 ≤ k → k < 21 → entry k = 0) ∧ stop = pos + w) ∧
    (code < 2 ^ w - 2 → (x.bctree[c])[0] = (code : Int) ∧
      (∀ j : Fin 4,
        let raw := (code : Int) + deltaAt s base (pos + w + 2 * j.val)
        (x.bctree[c])[j.succ] = if raw < 0 then raw + 16 else raw % 16) ∧
      IsField s base (pos + w + 8) n (entry 0) ∧
      ∃ cut : Nat → Nat, cut 0 = pos + w + 8 + n ∧ stop = cut 5 ∧
        ∀ k : Fin 5, NodeAt s base (cut k.val) (cut (k.val + 1)) ((x.bctree[c])[k]).toNat fun j =>
          entry (4 * k.val + 1 + j))

/-- The bits at byte `base` are a compressed subblock of plane `p`, `x` holds its trees, and its `k`-th component takes the
bits from `cut k` to `cut (k + 1)` (30_encoding R101). -/
def StreamAt (s : State) (base : Nat) (p : Fin 2) (x : Codec) (cut : Nat → Nat) : Prop :=
  cut 0 = 0 ∧ ∀ k c, (comps s.desc.toDescIn p)[k]? = some c → ComponentAt s base c x (cut k) (cut (k + 1))

/-- The violations of such a stream: a count above `compbits`, a negative sum of a count, a node of four ones
(41_subblock_decode R152, R154, R157). -/
def StreamViol (s : State) (base : Nat) (p : Fin 2) (x : Codec) (cut : Nat → Nat) (v : Viol) : Prop :=
  ∃ k c, (comps s.desc.toDescIn p)[k]? = some c ∧
    let n : Nat := s.desc.compbits[c]
    let count := fun m : Fin 5 => (x.bctree[c])[m]
    (v = .bcRange ∧ ∃ m, (n : Int) < count m) ∨
    (v = .bcNeg ∧ 0 ≤ count 0 ∧ ∃ j < 4, count 0 + deltaAt s base (cut k + l3Bits n + 2 * j) < 0) ∨
    (v = .noZeroCode ∧ 0 ≤ count 0 ∧ ∃ m : Fin 5, count m = 1 ∧
      ∀ j < 4, (x.mintree[c]).getD (4 * m.val + 1 + j) 0 = 1)

/-- The sample of leaf `l` of quadrant `q` that the trees of component `c` give (41_subblock_decode R159). -/
def leafOfTrees (s : State) (x : Codec) (c : Fin 4) (q l : Nat) : Nat :=
  ((x.mintree[c]).getD 0 0 + (x.mintree[c]).getD (1 + q) 0 + (x.mintree[c]).getD (5 + 4 * q + l) 0) %
    2 ^ s.desc.compbits[c]

/-- What decoding the subblock at byte `ARG0` reads, before the end of the block is looked at (41_subblock_decode R150). -/
def streamOf (s : State) (p : Fin 2) (unc : Bool) : DecState :=
  decodeStream s.desc (fbSource s.fb s.port.arg0) (windowBits s s.port.arg0) p unc s.codec

/-- Decoding the subblock at byte `ARG0` reads past the buffer (40_bitstream R139). -/
def RunsOff (s : State) (p : Fin 2) (unc : Bool) : Prop := (streamOf s p unc).cur.exh = true

/-! ### A superblock with slots (43_superblock R210) -/

/-- `h` is `s` after PARSE_HEADER of superblock `(ARG0, ARG1)`, whose header is not in solid-colour form. -/
def SlotsParsed (s h : State) : Prop :=
  exec .parseHeader { s with port := { s.port with arg0 := mbnumOf s.desc s.port.arg0 s.port.arg1 } } = .next h ∧
    h.hdr.solid = false

/-- The first byte of the paging tile of superblock `(ARG0, ARG1)` (44_header_address R260). -/
def tileBase (s : State) : Nat :=
  s.desc.bodyBase + mbnumOf s.desc s.port.arg0 s.port.arg1 / 64 * (64 * s.desc.maxpay)

/-- In tiled mode the payload at `ptr` lies in its paging tile (44_header_address R260). -/
def TileBoundHolds (s : State) (ptr : Nat) : Prop :=
  s.desc.tiled = true → tileBase s ≤ ptr ∧ ptr + s.desc.maxpay ≤ tileBase s + 64 * s.desc.maxpay

/-- Slot `k` ends past the declared frame size (43_superblock R216). -/
def PastFrame (s h : State) (k : Nat) : Prop :=
  s.desc.frameSize.toNat < (h.hdr.off.getD k 0).toNat + (h.hdr.size.getD k 0).toNat

/-- DECODE_BLOCK of slot `k`, by itself (43_superblock R210, step 4). -/
def slotRun (s h : State) (k : Nat) : Host.Outcome State Fault Refusal :=
  exec (.decodeBlock (slotPlane s.desc k) (h.hdr.unc.getD k false))
    { s with port := { s.port with arg0 := (h.hdr.off.getD k 0).toNat } }

/-- Slot `k` can be decoded: it is zero-filled (43_superblock R216), or its DECODE_BLOCK completes, as it does where no colour
transform follows and the largest stream fits the buffer (70_reset_and_hazards R361). -/
def SlotDecodes (s h : State) (k : Nat) : Prop :=
  (PastFrame s h k ∧ s.desc.graceful = true) ∨
  (¬ PastFrame s h k ∧
    ((ctApplies s.desc.toDescIn (slotPlane s.desc k) = false ∧
        (h.hdr.off.getD k 0).toNat + 153 ≤ s.desc.bufSize.toNat) ∨
      ∃ u, slotRun s h k = .next u ∧ u.port.status = .done))

/-- The size that the header should declare for a compressed slot that consumed `m` bytes (43_superblock R218). -/
def expectedSize (d : Desc) (k m : Nat) : Nat :=
  let mult := (d.sbsMultiplier[slotPlane d k]).toNat
  max 2 ((m + mult - 1) / mult) * mult

/-- Operation `i` reads a register that has no defined value (10_state R38; log 4): the rows of `BLK`, the pointer and the
codes, the counts and the tree that it takes as its source, in a context where it comes to reading them. -/
def ReadsUndefined (i : Instr) (s : State) : Prop :=
  (∃ p : Fin 2, i = .encodeBlock p ∧ p.val < s.desc.nplanes ∧ ∃ c ∈ comps s.desc.toDescIn p, s.codec.blkOk[c] = false) ∨
  ((i = .ctForward ∨ i = .ctInverse) ∧ ctApplies s.desc.toDescIn 0 = true ∧
    ∃ c : Fin 4, c.val < 3 ∧ s.codec.blkOk[c] = false) ∨
  (i = .writeHeader ∧ headerAddr s.port.arg0 + 16 ≤ bufSize s ∧
    (s.hdr.ptrOk = false ∨ ∃ k < s.desc.nsubblocks, s.hdr.codeOk.getD k false = false)) ∨
  ((i = .sizeCopy s.desc.subsampling ∨ i = .sizeUncomp s.desc.subsampling ∨ ∃ n, i = .sizeComp s.desc.subsampling n) ∧
    s.port.arg1 < s.desc.nsubblocks ∧
    (s.hdr.ptrOk = false ∨ ∃ k < s.port.arg1, s.hdr.codeOk.getD k false = false)) ∨
  (compOk s = true ∧
    ((((∃ d, i = .l4d d) ∧ s.port.arg2 < 4 ∨ ∃ v, i = .root s.desc.compbits[argComp s] v) ∧
        (s.codec.bcOk[argComp s])[0] = false) ∨
      ((i = .nodeB0 ∨ (∃ d, i = .nodeB1 d) ∨ ∃ b z q, i = .nodeBN b z q) ∧ s.port.arg2 < 5 ∧
        ((s.codec.bcOk[argComp s])[0] = false ∨ (s.codec.bcOk[argComp s])[argNode s] = false ∨
          (s.port.arg2 = 4 ∧ s.codec.mtOk[argComp s] = false)))))

end Sys2Proof.Machine
end

