-- ==== Sys2Proof/Certificates/Slice0/Obligations.lean ====
section
/-! DEFINITION. The statements for the provers. Each says in its docstring which rule of spec/ it formalises. -/

open Sys2Proof Sys2Proof.Machine

/-! ### Encodings and the step -/

/-- Decoding what the encoder writes gives the instruction back, for every well-formed instruction of the 43
(30_encoding R92, R93, R96 to R107), read as bits and read as bytes. -/
def Obligations.DecodeEncodeRoundTrip : Prop :=
  ∀ i : Instr, i.wf = true →
    i.bits < 2 ^ i.form.width ∧ decode i.form i.bits = .ok i ∧ decodeBytes i.form (encode i) = .ok i

/-- Which command words are legal, and that no field of one is dropped (30_encoding R92, R93). -/
def Obligations.CommandWordsAccepted : Prop :=
  ∀ w : Nat, w < 2 ^ 32 →
    ((∃ i, decode .cmd w = .ok i) ↔
      w / 2 ^ 16 = 0 ∧ w / 2 ^ 10 % 2 ^ 6 ≤ 32 ∧
        w % 2 ^ 8 ∈ [0x01, 0x02, 0x03, 0x10, 0x11, 0x20, 0x21, 0x30, 0x31, 0x32, 0x40, 0x41, 0x50, 0x51, 0x52, 0x53]) ∧
    (∀ i, decode .cmd w = .ok i → i.wf = true ∧ i.form = .cmd ∧ i.bits % 2 ^ 8 = w % 2 ^ 8 ∧
      (∀ n, i = .bsRead n ∨ i = .bsReadSigned n ∨ i = .bsWrite n → n.toNat = w / 2 ^ 10 % 2 ^ 6) ∧
      (∀ p u, i = .decodeBlock p u → p.val = w / 2 ^ 8 % 2 ∧ u = (w / 2 ^ 9 % 2 == 1)) ∧
      (∀ p, i = .encodeBlock p → p.val = w / 2 ^ 8 % 2))

/-- A few words written out from 30_encoding R92, R93, R96 to R106 and what they stand for: BS_READ of 32 bits,
DECODE_BLOCK of plane 1 uncompressed, INIT_DESCRIPTOR, a reserved bit, an unknown operation, the header of 44_header_address
R240's example, the sentinels of a 4-bit L3, an L4D of -2, a ROOT of 42, a NODE of count 1. -/
def Obligations.SampleWordsDecode : Prop :=
  decode .cmd 0x00008001 = .ok (.bsRead 32) ∧
  decode .cmd 0x00000310 = .ok (.decodeBlock 1 true) ∧
  decode .cmd 0x00000050 = .ok .initDescriptor ∧
  decode .cmd 0x00010050 = .error .reservedBits ∧
  decode .cmd 0x00000004 = .error .unknownOp ∧
  decode (.hdr .NONE false) 0x0040004300000100 =
    .ok (.headerNormalNone 0x100 #v[3, 1, 0, 16, 0, 0, 0, 0, 0, 0, 0, 0, 0, 0, 0, 0]) ∧
  decode (.l3 .w4) 15 = .ok .l3UniformW4 ∧
  decode (.l3 .w4) 14 = .ok .l3DefaultW4 ∧
  decode .l4d 2 = .ok (.l4d 2) ∧
  decode (.root 8) 0x2A = .ok (.root 8 42) ∧
  decode (.node 1) 0b0110 = .ok (.nodeB1 6)

/-- A step runs the instruction that was presented: a legal command word, or the element of a stream that stands in `FB`;
with nothing presented the block is idle (30_encoding R92, 70_reset_and_hazards R350; how a host presents things is the
model's choice, log 10 and log 11). -/
def Obligations.StepRunsDecoded : Prop :=
  (∀ (s : State) (w : BitVec 32) (rest : List Event) (i : Instr), s.inbox = .command w :: rest →
    decode .cmd w.toNat = .ok i → step s = exec i { s with inbox := rest }) ∧
  (∀ (s : State) (f : Form) (rest : List Event) (i : Instr), s.inbox = .element f :: rest → f ≠ .cmd →
    decode f (fetchElement s f) = .ok i → step s = exec i { s with inbox := rest }) ∧
  (∀ s : State, s.inbox = [] → step s = .next s)

/-- "A CMD with an op not in rule R93, with a reserved bit set, or with nbits > 32 is illegal: the block does nothing and
completes with raise Fatal(BAD_COMMAND)" (30_encoding R92), the coordinates recorded (10_state R49; log 13) and no result (log
19); after an earlier fatal error FATAL* stay as they were (60_exceptions R321). -/
def Obligations.IllegalCommandIsBadCommand : Prop :=
  ∀ (s : State) (w : BitVec 32) (rest : List Event) (e : Reject), s.inbox = .command w :: rest →
    decode .cmd w.toNat = .error e →
    step s = .next { s with
      inbox := rest
      fat := if s.fat.code = 0 then ⟨7, s.sb.mbx, s.sb.mby, s.sb.slot⟩ else s.fat
      port := { s.port with res := Results.none, status := .failed } }

/-! ### Reset and invariants -/

/-- The reset table of 70_reset_and_hazards R350, at the state after reset and at the reset event; `FB` and `OUT[c]` are
kept. -/
def Obligations.ResetState : Prop :=
  (State.reset.descValid = false ∧ State.reset.cur = ⟨0, false⟩ ∧ State.reset.sb.mbx = 0 ∧ State.reset.sb.mby = 0 ∧
    State.reset.sb.mbnum = 0 ∧ State.reset.sb.slot = 0 ∧ State.reset.chk.foundError = false ∧
    State.reset.chk.violMask = 0 ∧ State.reset.chk.vlist = [] ∧ State.reset.chk.sparseFirstValid = false ∧
    State.reset.chk.stripeBins = [] ∧ State.reset.fat = ⟨0, 0, 0, 0⟩) ∧
  ∀ (s : State) (rest : List Event), s.inbox = .reset :: rest →
    ∃ t, step s = .next t ∧ t.fb = s.fb ∧ t.out = s.out ∧
      t.descValid = false ∧ t.cur = ⟨0, false⟩ ∧ t.sb.mbx = 0 ∧ t.sb.mby = 0 ∧ t.sb.mbnum = 0 ∧ t.sb.slot = 0 ∧
      t.chk.foundError = false ∧ t.chk.violMask = 0 ∧ t.chk.vlist = [] ∧ t.chk.sparseFirstValid = false ∧
      t.chk.stripeBins = [] ∧ t.fat = ⟨0, 0, 0, 0⟩

/-- The invariants hold after reset. -/
def Obligations.InvariantsAtReset : Prop := Inv State.reset ∧ TreeInv State.reset.codec

/-- Every step keeps the invariant: memories in canonical form (log 1), `FATAL` and `VIOL_MASK` within the codes of 60_exceptions
R317 and R322, a status that says "failed" after a fatal error (R321, R323), a descriptor that INIT_DESCRIPTOR derives and
accepts (46_descriptor R298, R299), one bin per stripe (44_header_address R266), coordinates inside the frame. -/
def Obligations.InvariantKeptByStep : Prop :=
  ∀ s t : State, Inv s → step s = .next t → Inv t

/-- Every step keeps the ranges of the trees: root counts -2 to 29, quadrant counts 0 to 15, entries below `2^29` (10_state
R33, R34). -/
def Obligations.TreeRangesKeptByStep : Prop :=
  ∀ s t : State, Inv s → TreeInv s.codec → step s = .next t → TreeInv t.codec

/-! ### BitStream -/

/-- BS_READ and BS_READ_SIGNED inside the window (40_bitstream R132, R134): the field, unsigned or sign-extended from its
final bit, and the cursor moved past it; nothing else changes. A 0-bit read never fails, wherever it stands (log 31), and
what `BITPOS` holds after one beyond 36 bits is the model's choice (posReg; log 15). -/
def Obligations.BsReadResults : Prop :=
  ∀ (n : BitVec 6) (s : State), s.fat.code = 0 → s.port.arg2 = 0 →
    let pos := s.port.arg1
    n = 0 ∨ pos + n.toNat ≤ windowBits s s.port.arg0 →
    ∃ v, IsField s s.port.arg0 pos n.toNat v ∧
      exec (.bsRead n) s = .next (completeOp { s with cur := ⟨posReg s (pos + n.toNat), false⟩ }
        ⟨some (v : Int), some ((pos + n.toNat : Nat) : Int), some 0⟩) ∧
      exec (.bsReadSigned n) s = .next (completeOp { s with cur := ⟨posReg s (pos + n.toNat), false⟩ }
        ⟨some (if n ≠ 0 ∧ v.testBit (n.toNat - 1) = true then (v : Int) - 2 ^ n.toNat else (v : Int)),
          some ((pos + n.toNat : Nat) : Int), some 0⟩)

/-- BS_WRITE inside the window (40_bitstream R136): exactly the addressed bits take the bits of the value, every other bit of
every byte keeps its value; the cursor moved past them; nothing else changes. A 0-bit write never fails, wherever it stands
(log 31), and what `BITPOS` holds after one beyond 36 bits is the model's choice (posReg; log 15). -/
def Obligations.BsWriteResult : Prop :=
  ∀ (n : BitVec 6) (s : State), s.fat.code = 0 → s.port.arg2 = 0 →
    let pos := s.port.arg1
    n = 0 ∨ pos + n.toNat ≤ windowBits s s.port.arg0 →
    ∃ m : Mem 8,
      exec (.bsWrite n) s = .next (completeOp { s with fb := m, cur := ⟨posReg s (pos + n.toNat), false⟩ }
        ⟨none, some ((pos + n.toNat : Nat) : Int), some 0⟩) ∧
      ∀ a k, k < 8 → (memGet m a).getLsbD k =
        if s.port.arg0 ≤ a ∧ pos ≤ 8 * (a - s.port.arg0) + k ∧ 8 * (a - s.port.arg0) + k < pos + n.toNat
        then s.port.arg3.testBit (8 * (a - s.port.arg0) + k - pos)
        else (memGet s.fb a).getLsbD k

/-- A BS command past the window, or with the exhausted flag in (40_bitstream R132, R133, R136): the reads give 0, no byte of
`FB` changes, the position stays (what RES1 then is, is the model's choice, log 15) and RES2 is 1; no fatal error
(60_exceptions R325). An `ARG1` of 2^36 or more is past every window: it exhausts too, and nothing wraps (10_state R41; log 15).
No 0-bit access is past the window (log 31). -/
def Obligations.BsExhausted : Prop :=
  ∀ (n : BitVec 6) (s : State), s.fat.code = 0 →
    let pos := s.port.arg1
    (s.port.arg2 ≠ 0 ∨ (n ≠ 0 ∧ windowBits s s.port.arg0 < pos + n.toNat)) →
    exec (.bsRead n) s = .next (completeOp { s with cur := ⟨posReg s pos, true⟩ }
      ⟨some 0, some (pos : Int), some 1⟩) ∧
    exec (.bsReadSigned n) s = .next (completeOp { s with cur := ⟨posReg s pos, true⟩ }
      ⟨some 0, some (pos : Int), some 1⟩) ∧
    exec (.bsWrite n) s = .next (completeOp { s with cur := ⟨posReg s pos, true⟩ }
      ⟨none, some (pos : Int), some 1⟩)

/-- The round trip of 40_bitstream R137: a BS_READ at the place of a successful BS_WRITE returns the low bits of the value
and changes no memory. -/
def Obligations.BsWriteThenRead : Prop :=
  ∀ (n : BitVec 6) (s t : State), s.fat.code = 0 → s.port.arg2 = 0 →
    n = 0 ∨ s.port.arg1 + n.toNat ≤ windowBits s s.port.arg0 → exec (.bsWrite n) s = .next t →
    ∃ u, exec (.bsRead n) t = .next u ∧ u.port.res.res0 = some ((s.port.arg3 % 2 ^ n.toNat : Nat) : Int) ∧
      u.port.res.res2 = some 0 ∧ SameFb t u

/-! ### The descriptor -/

/-- INIT_DESCRIPTOR (46_descriptor R290), at any time, also while `FATAL != 0` (60_exceptions R324): an accepted descriptor
starts a new frame, a refused one leaves `DESC_VALID = 0` and Fatal(BAD_INPUT). `FB`, `OUT[c]` and the working registers
`BLK`, `MINTREE`, `BCTREE`, `HDR_*`, `SBLK` are not touched. The layout table is the open parameter's (46_descriptor R293;
log 6). That a refused descriptor is written to DESC is the model's reading (log 18). -/
def Obligations.InitDescriptorResult : Prop :=
  ∀ s : State,
    let d := derive (layoutTable s.port.descIn.layout.toNat) s.port.descIn
    (validDesc d = true →
      exec .initDescriptor s = .next { s with
        descValid := true
        desc := d
        cur := ⟨0, false⟩
        sb := { s.sb with mbx := 0, mby := 0, mbnum := 0, slot := 0 }
        chk := { s.chk with
          foundError := false, violMask := 0, vlist := [], sparseFirstValid := false
          stripeBins := initialBins d }
        fat := ⟨0, 0, 0, 0⟩
        port := { s.port with res := Results.none, status := .done } }) ∧
    (validDesc d = false →
      exec .initDescriptor s = .next { s with
        descValid := false
        desc := d
        cur := ⟨0, false⟩
        sb := { s.sb with mbx := 0, mby := 0, mbnum := 0, slot := 0 }
        chk := { s.chk with
          foundError := false, violMask := 0, vlist := [], sparseFirstValid := false, stripeBins := [] }
        fat := ⟨6, 0, 0, 0⟩
        port := { s.port with res := Results.none, status := .failed } })

/-- What an accepted descriptor guarantees, under whatever layout table (46_descriptor R293): the slot counts of 10_state R23,
the header that 128 bits hold exactly (30_encoding R96), the depths of R26 and 46_descriptor R298, the region order of 20_memory
R66, the headers of the grid inside the header region and the buffer (44_header_address R255), the uncompressed sizes of R295,
and bins that count every superblock of the frame once (R266). -/
def Obligations.ValidDescriptorGeometry : Prop :=
  ∀ (l : Layout) (i : DescIn), validDesc (derive l i) = true →
    let d := derive l i
    (d.nsubblocks = 16 ∨ d.nsubblocks = 20 ∨ d.nsubblocks = 24) ∧
    d.ptrBits + d.sizeBits * d.nsubblocks = 128 ∧
    (∀ c : Fin 4, inBits i c ≤ d.compbits[c] ∧ d.compbits[c] ≤ inBits i c + 1 ∧ d.compbits[c] ≤ 15 ∧
      (inBits i c ≠ 0 → d.defaultcolor[c] < 2 ^ d.compbits[c])) ∧
    d.hdrArea ≤ d.bodyBase ∧ (d.tiled = true → d.bodyBase % 4096 = 0 ∧ d.mbwAl % 8 = 0 ∧ d.mbhAl % 8 = 0) ∧
    (∀ x y, x < d.mbw → y < d.mbh → headerAddr (mbnumOf d x y) + 16 ≤ d.hdrArea ∧ d.hdrArea ≤ d.bufSize.toNat) ∧
    (∀ p ∈ planes d, 2 ≤ d.uncompSize[p] ∧ d.uncompSize[p] ≤ 120 ∧ d.uncompSize[p] = 2 * planeBitsOf i p) ∧
    (d.stripeHeight ≠ 0 → ((initialBins d).map StripeBin.remaining).sum = d.mbw * d.mbh)

/-- "no operation writes a DESC field until the next INIT_DESCRIPTOR" (46_descriptor R299); of all that can happen, only
INIT_DESCRIPTOR and reset change the descriptor. -/
def Obligations.DescriptorReadOnly : Prop :=
  (∀ (i : Instr) (s t : State), i ≠ .initDescriptor → exec i s = .next t →
    t.desc = s.desc ∧ t.descValid = s.descValid) ∧
  ∀ s t : State, step s = .next t →
    (t.desc = s.desc ∧ t.descValid = s.descValid) ∨
    (∃ rest, s.inbox = .reset :: rest) ∨
    (∃ w rest, s.inbox = .command w :: rest ∧ decode .cmd w.toNat = .ok .initDescriptor)

/-- The three size queries (46_descriptor R300 to R303): with a descriptor, their result and no other change; without one,
NO_DESCRIPTOR, with the coordinates recorded (10_state R49; log 13). That RES1 and RES2, and every result of a query that
failed, are absent is the model's choice (log 19). -/
def Obligations.SizeQueries : Prop :=
  ∀ s : State, s.fat.code = 0 →
    (s.descValid = true →
      exec .getMaxSbPayload s = .next (completeOp s ⟨some (s.desc.maxpay : Int), none, none⟩) ∧
      exec .getMaxFrameSize s = .next (completeOp s
        ⟨some ((s.desc.bodyBase + s.desc.mbwAl * s.desc.mbhAl * s.desc.maxpay : Nat) : Int), none, none⟩) ∧
      exec .getUncompFrameSize s = .next (completeOp s
        ⟨some ((((planeComps s.desc).map fun pc =>
          cw s.desc pc.1 * chh s.desc pc.1 * ((inBits s.desc.toDescIn pc.2 + 7) / 8)).sum : Nat) : Int), none, none⟩)) ∧
    (s.descValid = false → ∀ i, i = .getMaxSbPayload ∨ i = .getMaxFrameSize ∨ i = .getUncompFrameSize →
      exec i s = .next (refusedWith s 8))

/-! ### Addresses -/

/-- RESOLVE_ADDR (44_header_address R255, R256): raster numbers, or the tile number and the interleaved low bits; a coordinate
out of range is Fatal(BAD_INPUT). -/
def Obligations.ResolveAddrResult : Prop :=
  ∀ s : State, Ready s →
    (s.port.arg0 < s.desc.mbw → s.port.arg1 < s.desc.mbh →
      ∃ n : Nat, exec .resolveAddr s = .next (completeOp s ⟨some (n : Int), some ((n * 16 : Nat) : Int), none⟩) ∧
        (s.desc.tiled = false → n = s.port.arg1 * s.desc.mbw + s.port.arg0) ∧
        (s.desc.tiled = true →
          n / 64 = s.port.arg1 / 8 * (s.desc.mbwAl / 8) + s.port.arg0 / 8 ∧
          ∀ k < 3, n.testBit (2 * k) = s.port.arg1.testBit k ∧ n.testBit (2 * k + 1) = s.port.arg0.testBit k)) ∧
    (s.desc.mbw ≤ s.port.arg0 ∨ s.desc.mbh ≤ s.port.arg1 → exec .resolveAddr s = .next (refusedWith s 6))

/-- 44_header_address R258: within a tile the numbers are a permutation of the tile's 64; on the whole grid, tiled or not, two
superblocks have different numbers, so different headers. -/
def Obligations.MbnumInjective : Prop :=
  ∀ (l : Layout) (i : DescIn),
    let d := derive l i
    (d.tiled = true → ∀ tx ty k, 8 * tx < d.mbwAl → k < 64 →
      ∃ q : Nat × Nat, (q.1 < 8 ∧ q.2 < 8 ∧
        mbnumOf d (8 * tx + q.1) (8 * ty + q.2) = (ty * (d.mbwAl / 8) + tx) * 64 + k) ∧
        ∀ r : Nat × Nat, r.1 < 8 → r.2 < 8 →
          mbnumOf d (8 * tx + r.1) (8 * ty + r.2) = (ty * (d.mbwAl / 8) + tx) * 64 + k → r = q) ∧
    ∀ x y x' y', x < d.mbw → y < d.mbh → x' < d.mbw → y' < d.mbh →
      mbnumOf d x y = mbnumOf d x' y' ∨ headerAddr (mbnumOf d x y) = headerAddr (mbnumOf d x' y') → x = x' ∧ y = y'

/-! ### Headers -/

/-- PARSE_HEADER (44_header_address R240): pointer and size codes are the header's fields (30_encoding R96), the cursor is the
fresh one of 10_state R41 (that it is not moved is the model's reading, log 29), and only the header registers and the checker
change. A header that is not in solid-colour form has `HDR_SOLID = 0`; one in solid-colour form (R247; 30_encoding R98) holds
the colours from bit 64 upward in ascending component order, and the resolved entries are not written. -/
def Obligations.ParseHeaderResult : Prop :=
  ∀ s : State, Inv s → Ready s → headerAddr s.port.arg0 + 16 ≤ bufSize s →
    (¬ (s.desc.allowSolid = true ∧ IsField s (headerAddr s.port.arg0) s.desc.ptrBits s.desc.sizeBits 0) →
      ∃ t, exec .parseHeader s = .next t ∧ DoneWith s t Results.none ∧ OnlyHeader s t ∧
        IsField s (headerAddr s.port.arg0) 0 s.desc.ptrBits t.hdr.ptr.toNat ∧
        (∀ k < s.desc.nsubblocks,
          IsField s (headerAddr s.port.arg0) (s.desc.ptrBits + s.desc.sizeBits * k) s.desc.sizeBits (codeOf t k)) ∧
        t.hdr.solid = false ∧ t.hdr.solidVal = s.hdr.solidVal ∧ t.cur = ⟨0, false⟩ ∧
        ((∀ k < s.desc.nsubblocks, codeOf t k ≠ 0) → t.chk = s.chk)) ∧
    (s.desc.allowSolid = true → IsField s (headerAddr s.port.arg0) s.desc.ptrBits s.desc.sizeBits 0 →
      ∃ t, exec .parseHeader s = .next t ∧ DoneWith s t Results.none ∧ OnlyHeader s t ∧ t.chk = s.chk ∧
        t.hdr.solid = true ∧
        (∀ c : Fin 4, IsField s (headerAddr s.port.arg0) (64 + solidBefore s.desc.toDescIn c) (inBits s.desc.toDescIn c)
          (t.hdr.solidVal[c]).toNat) ∧
        IsField s (headerAddr s.port.arg0) 0 s.desc.ptrBits t.hdr.ptr.toNat ∧
        (∀ k < s.desc.nsubblocks,
          IsField s (headerAddr s.port.arg0) (s.desc.ptrBits + s.desc.sizeBits * k) s.desc.sizeBits (codeOf t k)) ∧
        t.hdr.off = s.hdr.off ∧ t.hdr.size = s.hdr.size ∧ t.hdr.unc = s.hdr.unc)

/-- Size-code resolution (44_header_address R244 to R246), after PARSE_HEADER: code 1 is the plane's fixed size, n >= 2 is n
times the multiplier, both at the running offset; code 0 copies the entry of the last earlier slot of the plane whose code is
not 0; with none it is size 0 at the running offset, flagged COPY_NO_SOURCE; nothing else is flagged. -/
def Obligations.SlotResolution : Prop :=
  ∀ s t : State, Inv s → Ready s → headerAddr s.port.arg0 + 16 ≤ bufSize s → exec .parseHeader s = .next t →
    t.hdr.solid = false →
    (∀ k < s.desc.nsubblocks,
      (codeOf t k ≠ 0 →
        (t.hdr.off.getD k 0).toNat = slotOffset s.desc t.hdr.ptr.toNat (codeOf t) k ∧
        (t.hdr.size.getD k 0).toNat = codeSize s.desc k (codeOf t k) ∧
        t.hdr.unc.getD k false = decide (codeOf t k = 1)) ∧
      (codeOf t k = 0 → ∀ j, CopySource s.desc (codeOf t) k j →
        t.hdr.off.getD k 0 = t.hdr.off.getD j 0 ∧ t.hdr.size.getD k 0 = t.hdr.size.getD j 0 ∧
        t.hdr.unc.getD k false = t.hdr.unc.getD j false) ∧
      (codeOf t k = 0 → NoSource s.desc (codeOf t) k →
        (t.hdr.off.getD k 0).toNat = slotOffset s.desc t.hdr.ptr.toNat (codeOf t) k ∧
        t.hdr.size.getD k 0 = 0 ∧ t.hdr.unc.getD k false = false)) ∧
    Flags s t fun v => v = .copyNoSource ∧
      ∃ k < s.desc.nsubblocks, codeOf t k = 0 ∧ NoSource s.desc (codeOf t) k

/-- A header past `buf_size` is Fatal(BUF_OVERFLOW), read or written (44_header_address R240, R248; 20_memory R62): nothing
is written to memory and the fatal registers name the superblock. -/
def Obligations.HeaderPastBuffer : Prop :=
  ∀ (s : State) (i : Instr), Ready s → bufSize s < headerAddr s.port.arg0 + 16 → i = .parseHeader ∨ i = .writeHeader →
    ∃ t, exec i s = .next t ∧ FailedWith s t Results.none ∧ t.fat = ⟨1, s.sb.mbx, s.sb.mby, s.sb.slot⟩ ∧
      t.fb = s.fb ∧ t.out = s.out ∧ t.chk = s.chk ∧ t.desc = s.desc ∧ t.descValid = s.descValid ∧ t.sb = s.sb ∧
      t.codec = s.codec ∧ (i = .writeHeader → t.hdr = s.hdr)

/-- WRITE_HEADER (44_header_address R248): the sixteen bytes hold pointer and size codes in the fields of 30_encoding R96 and
no other byte changes; a field too wide for its width is refused with Fatal(BAD_INPUT), never truncated, and nothing is
written; that the refusal leaves the cursor too, is the model's choice (log 14). -/
def Obligations.WriteHeaderResult : Prop :=
  (∀ s : State, Inv s → Ready s → headerAddr s.port.arg0 + 16 ≤ bufSize s → s.hdr.ptrOk = true →
    (∀ k < s.desc.nsubblocks, s.hdr.codeOk.getD k false = true) → s.hdr.ptr.toNat < 2 ^ s.desc.ptrBits →
    (∀ k < s.desc.nsubblocks, codeOf s k < 2 ^ s.desc.sizeBits) →
    ∃ t, exec .writeHeader s = .next t ∧ DoneWith s t Results.none ∧
      t = { s with fb := t.fb, cur := ⟨0, false⟩, port := t.port } ∧
      IsField t (headerAddr s.port.arg0) 0 s.desc.ptrBits s.hdr.ptr.toNat ∧
      (∀ k < s.desc.nsubblocks,
        IsField t (headerAddr s.port.arg0) (s.desc.ptrBits + s.desc.sizeBits * k) s.desc.sizeBits (codeOf s k)) ∧
      FbOutside s t (headerAddr s.port.arg0) 16) ∧
  ∀ s : State, Ready s → headerAddr s.port.arg0 + 16 ≤ bufSize s → s.hdr.ptrOk = true →
    (∀ k < s.desc.nsubblocks, s.hdr.codeOk.getD k false = true) →
    (2 ^ s.desc.ptrBits ≤ s.hdr.ptr.toNat ∨ ∃ k < s.desc.nsubblocks, 2 ^ s.desc.sizeBits ≤ codeOf s k) →
    exec .writeHeader s = .next (refusedWith s 6)

/-- The header round trip of 44_header_address R250: for all legal size codes, copy and uncompressed among them, but for slot
0's code 0 where solid headers are allowed. -/
def Obligations.HeaderRoundTrip : Prop :=
  ∀ s : State, Inv s → Ready s → headerAddr s.port.arg0 + 16 ≤ bufSize s → s.hdr.ptrOk = true →
    (∀ k < s.desc.nsubblocks, s.hdr.codeOk.getD k false = true ∧ codeOf s k < 2 ^ s.desc.sizeBits) →
    s.hdr.ptr.toNat < 2 ^ s.desc.ptrBits → ¬ (s.desc.allowSolid = true ∧ codeOf s 0 = 0) →
    ∃ t u, exec .writeHeader s = .next t ∧ exec .parseHeader t = .next u ∧ u.port.status = .done ∧
      u.hdr.ptr = s.hdr.ptr ∧ (∀ k < s.desc.nsubblocks, codeOf u k = codeOf s k) ∧ u.hdr.solid = false

/-- Headers as elements of a stream (30_encoding R96, R98, 44_header_address R240; that an element is presented by itself is
the model's choice, log 11). Under the descriptor's mode, HEADER_NORMAL_NONE, HEADER_NORMAL_S420 and HEADER_NORMAL_S422 not in
solid-colour form give their fields as pointer and size codes; HEADER_SOLID gives the colours from bit 64 upward and leaves the
entries of the slots. -/
def Obligations.HeaderElements : Prop :=
  (∀ s : State, Ready s → headerAddr s.port.arg0 + 16 ≤ bufSize s →
    s.desc.ptrBits = s.desc.subsampling.ptrBits → s.desc.sizeBits = s.desc.subsampling.sizeBits →
    s.desc.nsubblocks = s.desc.subsampling.nslots →
    (∀ (p : BitVec 32) (cs : Vector (BitVec 6) 16), s.desc.subsampling = .NONE →
      ¬ (s.desc.allowSolid = true ∧ cs[0] = 0) →
      ∃ t, exec (.headerNormalNone p cs) s = .next t ∧ DoneWith s t Results.none ∧ OnlyHeader s t ∧
        t.hdr.solid = false ∧ t.hdr.ptr = p ∧ ∀ k : Fin 16, codeOf t k.val = (cs[k]).toNat) ∧
    (∀ (p : BitVec 28) (cs : Vector (BitVec 5) 20), s.desc.subsampling = .S420 →
      ¬ (s.desc.allowSolid = true ∧ cs[0] = 0) →
      ∃ t, exec (.headerNormalS420 p cs) s = .next t ∧ DoneWith s t Results.none ∧ OnlyHeader s t ∧
        t.hdr.solid = false ∧ t.hdr.ptr.toNat = p.toNat ∧ ∀ k : Fin 20, codeOf t k.val = (cs[k]).toNat) ∧
    (∀ (p : BitVec 32) (cs : Vector (BitVec 4) 24), s.desc.subsampling = .S422 →
      ¬ (s.desc.allowSolid = true ∧ cs[0] = 0) →
      ∃ t, exec (.headerNormalS422 p cs) s = .next t ∧ DoneWith s t Results.none ∧ OnlyHeader s t ∧
        t.hdr.solid = false ∧ t.hdr.ptr = p ∧ ∀ k : Fin 24, codeOf t k.val = (cs[k]).toNat)) ∧
  (∀ (s : State) (h : BitVec 128), Ready s → headerAddr s.port.arg0 + 16 ≤ bufSize s → s.desc.allowSolid = true →
    s.desc.ptrBits = s.desc.subsampling.ptrBits → s.desc.sizeBits = s.desc.subsampling.sizeBits →
    (∀ c : Fin 4, inBits s.desc.toDescIn c ≤ 15) →
    (Instr.headerSolid s.desc.subsampling h).wf = true →
    ∃ t, exec (.headerSolid s.desc.subsampling h) s = .next t ∧ DoneWith s t Results.none ∧ OnlyHeader s t ∧
      t.hdr.solid = true ∧ t.chk = s.chk ∧
      (∀ c : Fin 4, (t.hdr.solidVal[c]).toNat =
        h.toNat / 2 ^ (64 + solidBefore s.desc.toDescIn c) % 2 ^ inBits s.desc.toDescIn c) ∧
      t.hdr.off = s.hdr.off ∧ t.hdr.size = s.hdr.size ∧ t.hdr.unc = s.hdr.unc)

/-- PARSE_HEADER is what presenting the header that stands in `FB` does, in either form (44_header_address R240, 30_encoding
R96, R98; log 11). -/
def Obligations.HeaderElementIsParseHeader : Prop :=
  ∀ s : State, Ready s → headerAddr s.port.arg0 + 16 ≤ bufSize s →
    s.desc.ptrBits = s.desc.subsampling.ptrBits → s.desc.sizeBits = s.desc.subsampling.sizeBits →
    runElement (.hdr s.desc.subsampling s.desc.allowSolid) s = exec .parseHeader s

/-- SIZE_COPY, SIZE_UNCOMP and SIZE_COMP as elements (30_encoding R97, 44_header_address R244, R246; log 11), at slot ARG1 of
the header of ARG0 whose pointer and earlier codes are known. -/
def Obligations.SizeElements : Prop :=
  ∀ s : State, Inv s → Ready s → headerAddr s.port.arg0 + 16 ≤ bufSize s →
    let k := s.port.arg1
    let m := s.desc.subsampling
    let start := slotOffset s.desc s.hdr.ptr.toNat (codeOf s) k
    k < s.desc.nsubblocks → s.hdr.ptrOk = true → (∀ j < k, s.hdr.codeOk.getD j false = true) →
    (∀ j < k, codeOf s j < 2 ^ s.desc.sizeBits) → (s.desc.allowSolid = true → k ≠ 0 → codeOf s 0 ≠ 0) →
    (∃ t, exec (.sizeUncomp m) s = .next t ∧ DoneWith s t Results.none ∧ OnlyHeader s t ∧ t.cur = s.cur ∧
      codeOf t k = 1 ∧ (t.hdr.off.getD k 0).toNat = start ∧
      (t.hdr.size.getD k 0).toNat = s.desc.uncompSize[slotPlane s.desc k] ∧ t.hdr.unc.getD k false = true ∧
      t.chk = s.chk) ∧
    (∀ n : BitVec 6, (Instr.sizeComp m n).wf = true →
      ∃ t, exec (.sizeComp m n) s = .next t ∧ DoneWith s t Results.none ∧ OnlyHeader s t ∧ t.cur = s.cur ∧
        codeOf t k = n.toNat ∧ (t.hdr.off.getD k 0).toNat = start ∧
        (t.hdr.size.getD k 0).toNat = n.toNat * (s.desc.sbsMultiplier[slotPlane s.desc k]).toNat ∧
        t.hdr.unc.getD k false = false ∧ t.chk = s.chk) ∧
    (¬ (s.desc.allowSolid = true ∧ k = 0) →
      ∃ t, exec (.sizeCopy m) s = .next t ∧ DoneWith s t Results.none ∧ OnlyHeader s t ∧ t.cur = s.cur ∧
        codeOf t k = 0 ∧
        (∀ j, CopySource s.desc (codeOf s) k j →
          (t.hdr.off.getD k 0).toNat = slotOffset s.desc s.hdr.ptr.toNat (codeOf s) j ∧
          (t.hdr.size.getD k 0).toNat = codeSize s.desc j (codeOf s j) ∧
          t.hdr.unc.getD k false = decide (codeOf s j = 1) ∧ t.chk = s.chk) ∧
        (NoSource s.desc (codeOf s) k →
          (t.hdr.off.getD k 0).toNat = start ∧ t.hdr.size.getD k 0 = 0 ∧ t.hdr.unc.getD k false = false ∧
          Flags s t (· = .copyNoSource)))

/-! ### Subblocks, decoding -/

/-- DECODE_BLOCK of an uncompressed subblock (41_subblock_decode R158, 30_encoding R100): pixel outside, component inside;
`MINTREE` and `BCTREE` are not written, no violation is flagged and no colour transform runs. -/
def Obligations.DecodeBlockUncompressed : Prop :=
  ∀ (p : Fin 2) (s : State), Ready s → p.val < s.desc.nplanes →
    16 * planeBitsOf s.desc.toDescIn p ≤ windowBits s s.port.arg0 →
    ∃ t, exec (.decodeBlock p true) s = .next t ∧
      DoneWith s t ⟨some ((2 * planeBitsOf s.desc.toDescIn p : Nat) : Int), none, some 0⟩ ∧ OnlyCodec s t ∧
      t.chk = s.chk ∧ t.cur = ⟨BitVec.ofNat 36 (16 * planeBitsOf s.desc.toDescIn p), false⟩ ∧
      (∀ c ∈ comps s.desc.toDescIn p, ∀ i : Fin 16,
        IsField s s.port.arg0 (planeBitsOf s.desc.toDescIn p * i.val + bitsBefore s.desc.toDescIn p c)
          (inBits s.desc.toDescIn c) (t.codec.blk[c][i]).toNat) ∧
      (∀ c, c ∉ comps s.desc.toDescIn p → t.codec.blk[c] = s.codec.blk[c]) ∧
      t.codec.mintree = s.codec.mintree ∧ t.codec.bctree = s.codec.bctree

/-- DECODE_BLOCK of a compressed subblock with no colour transform (41_subblock_decode R150 to R159; 30_encoding R101 to R106):
the trees are the stream's, every sample is the sum of its three tree entries modulo `2^compbits` (R159), the violations of the
stream and no others are flagged (60_exceptions R316), the counts are in range (10_state R34), and the rows of other components
are not written. It completes wherever the stream ends inside the window, which is so where the largest stream fits
(70_reset_and_hazards R361: at most 1220 bits); DecodeBlockOffTheBuffer says what happens elsewhere. -/
def Obligations.DecodeBlockCompressed : Prop :=
  ∀ (p : Fin 2) (s : State), Inv s → Ready s → p.val < s.desc.nplanes →
    (1220 ≤ windowBits s s.port.arg0 → ¬ RunsOff s p false) ∧
    (ctApplies s.desc.toDescIn p = false → ¬ RunsOff s p false →
      ∃ (t : State) (n : Nat) (cut : Nat → Nat), exec (.decodeBlock p false) s = .next t ∧
        DoneWith s t ⟨some (n : Int), none, some 0⟩ ∧ OnlyCodec s t ∧ t.cur.exh = false ∧
        n = (t.cur.pos.toNat + 7) / 8 ∧ t.cur.pos.toNat ≤ 1220 ∧
        StreamAt s s.port.arg0 p t.codec cut ∧ t.cur.pos.toNat = cut (comps s.desc.toDescIn p).length ∧
        Flags s t (StreamViol s s.port.arg0 p t.codec cut) ∧
        (∀ c ∈ comps s.desc.toDescIn p,
          (-2 ≤ (t.codec.bctree[c])[0] ∧ (t.codec.bctree[c])[0] ≤ 29) ∧
          (∀ j : Fin 4, 0 ≤ (t.codec.bctree[c])[j.succ] ∧ (t.codec.bctree[c])[j.succ] ≤ 15) ∧
          ∀ q < 4, ∀ l < 4, ((t.codec.blk[c]).getD (pix q l) 0).toNat = leafOfTrees s t.codec c q l) ∧
        (∀ c, c ∉ comps s.desc.toDescIn p → t.codec.blk[c] = s.codec.blk[c] ∧
          t.codec.mintree[c] = s.codec.mintree[c] ∧ t.codec.bctree[c] = s.codec.bctree[c]))

/-- DECODE_BLOCK of a compressed subblock under the colour transform (41_subblock_decode R161; 45_color_transform R284, R285):
the stream's trees give the transformed samples; where every pixel's R, G, B are in range they replace rows 0 to 2 and row 3
holds the stream's own samples, else the violation CT_RANGE and then Fatal(CT_RANGE), and no memory changes. The violations of
the stream are flagged either way. -/
def Obligations.DecodeBlockTransformed : Prop :=
  ∀ (p : Fin 2) (s : State), Inv s → Ready s → p.val < s.desc.nplanes → ctApplies s.desc.toDescIn p = true →
    ¬ RunsOff s p false →
    ∃ (t : State) (x : Codec) (cut : Nat → Nat), exec (.decodeBlock p false) s = .next t ∧
      StreamAt s s.port.arg0 p x cut ∧
      let n := inBits s.desc.toDescIn 0
      let stop := cut (comps s.desc.toDescIn p).length
      let y := fun q l => (leafOfTrees s x 0 q l : Int)
      let u := fun q l => (leafOfTrees s x 1 q l : Int)
      let v := fun q l => (leafOfTrees s x 2 q l : Int)
      let g := fun q l => Int.fdiv (4 * y q l - u q l - v q l + 3 + 2 * 2 ^ n) 4
      let r := fun q l => u q l + g q l - 2 ^ n
      let b := fun q l => v q l + g q l - 2 ^ n
      let ok := fun q l => (0 ≤ r q l ∧ r q l < 2 ^ n) ∧ (0 ≤ g q l ∧ g q l < 2 ^ n) ∧ (0 ≤ b q l ∧ b q l < 2 ^ n)
      ((∀ q < 4, ∀ l < 4, ok q l) →
        DoneWith s t ⟨some (((stop + 7) / 8 : Nat) : Int), none, some 0⟩ ∧ OnlyCodec s t ∧
        t.cur = ⟨BitVec.ofNat 36 stop, false⟩ ∧ Flags s t (StreamViol s s.port.arg0 p x cut) ∧
        (∀ c ∈ comps s.desc.toDescIn p, t.codec.mintree[c] = x.mintree[c] ∧ t.codec.bctree[c] = x.bctree[c]) ∧
        (∀ q < 4, ∀ l < 4,
          (((t.codec.blk[(0 : Fin 4)]).getD (pix q l) 0).toNat : Int) = r q l ∧
          (((t.codec.blk[(1 : Fin 4)]).getD (pix q l) 0).toNat : Int) = g q l ∧
          (((t.codec.blk[(2 : Fin 4)]).getD (pix q l) 0).toNat : Int) = b q l ∧
          ((3 : Fin 4) ∈ comps s.desc.toDescIn p →
            ((t.codec.blk[(3 : Fin 4)]).getD (pix q l) 0).toNat = leafOfTrees s x 3 q l)) ∧
        (∀ c, c ∉ comps s.desc.toDescIn p → t.codec.blk[c] = s.codec.blk[c] ∧
          t.codec.mintree[c] = s.codec.mintree[c] ∧ t.codec.bctree[c] = s.codec.bctree[c])) ∧
      ((∃ q < 4, ∃ l < 4, ¬ ok q l) →
        FailedWith s t Results.none ∧ t.fat = ⟨2, s.sb.mbx, s.sb.mby, s.sb.slot⟩ ∧
        Flags s t (fun w => StreamViol s s.port.arg0 p x cut w ∨ w = .ctRange) ∧
        t.fb = s.fb ∧ t.out = s.out ∧ t.desc = s.desc ∧ t.hdr = s.hdr ∧ t.sb = s.sb)

/-- A subblock that runs off the buffer, compressed or not, at whatever bit (41_subblock_decode R160, 40_bitstream R139): RES2 =
1, Fatal(BUF_OVERFLOW), and none of its violations is recorded; a window that an uncompressed subblock does not fit, or of fewer
than two bits, is such a case. -/
def Obligations.DecodeBlockOffTheBuffer : Prop :=
  ∀ (p : Fin 2) (unc : Bool) (s : State), Inv s → Ready s → p.val < s.desc.nplanes →
    windowBits s s.port.arg0 < (if unc then 16 * planeBitsOf s.desc.toDescIn p else 2) ∨ RunsOff s p unc →
    ∃ t, exec (.decodeBlock p unc) s = .next t ∧ FailedWith s t ⟨none, none, some 1⟩ ∧
      t.fat = ⟨1, s.sb.mbx, s.sb.mby, s.sb.slot⟩ ∧ t.cur.exh = true ∧ t.chk = s.chk ∧ SameFb s t ∧ SameOut s t ∧
      t.desc = s.desc ∧ t.hdr = s.hdr ∧ t.sb = s.sb ∧
      ∀ c, c ∉ comps s.desc.toDescIn p → t.codec.blk[c] = s.codec.blk[c] ∧
        t.codec.mintree[c] = s.codec.mintree[c] ∧ t.codec.bctree[c] = s.codec.bctree[c]

/-- Constant blocks of a plane with one component (41_subblock_decode R152, R155, R162; 30_encoding R103, R105): an all-ones
L3 and a ROOT give sixteen samples of ROOT; the code below gives sixteen samples of the default colour and no ROOT is read. -/
def Obligations.ConstantBlocks : Prop :=
  ∀ (p : Fin 2) (c : Fin 4) (s : State), Inv s → Ready s → p.val < s.desc.nplanes →
    comps s.desc.toDescIn p = [c] → ctApplies s.desc.toDescIn p = false →
    let w := l3Bits s.desc.compbits[c]
    (∀ v, IsField s s.port.arg0 0 w (2 ^ w - 1) → IsField s s.port.arg0 w s.desc.compbits[c] v →
      w + s.desc.compbits[c] ≤ windowBits s s.port.arg0 →
      ∃ t, exec (.decodeBlock p false) s = .next t ∧
        DoneWith s t ⟨some (((w + s.desc.compbits[c] + 7) / 8 : Nat) : Int), none, some 0⟩ ∧
        t.chk = s.chk ∧ ∀ i : Fin 16, (t.codec.blk[c][i]).toNat = v) ∧
    (IsField s s.port.arg0 0 w (2 ^ w - 2) → w ≤ windowBits s s.port.arg0 →
      ∃ t, exec (.decodeBlock p false) s = .next t ∧
        DoneWith s t ⟨some (((w + 7) / 8 : Nat) : Int), none, some 0⟩ ∧
        t.chk = s.chk ∧ ∀ i : Fin 16, (t.codec.blk[c][i]).toNat = s.desc.defaultcolor[c])

/-- BLOCK_UNCOMP and BLOCK_COMP as elements (30_encoding R100, R101; log 11 and log 27): a whole uncompressed subblock gives
the samples its bits hold; a whole compressed one does what DECODE_BLOCK does when the same bits stand in `FB`, and completes
where no colour transform follows. -/
def Obligations.BlockElements : Prop :=
  ∀ (s : State) (n bits : Nat), Ready s → s.port.arg1 < s.desc.nplanes → s.port.arg1 < 2 →
    n ≤ windowBits s s.port.arg0 →
    (n = 16 * planeBitsOf s.desc.toDescIn (argPlane s) →
      ∃ t, exec (.blockUncomp n bits) s = .next t ∧
        DoneWith s t ⟨some ((2 * planeBitsOf s.desc.toDescIn (argPlane s) : Nat) : Int), none, some 0⟩ ∧
        OnlyCodec s t ∧ t.chk = s.chk ∧
        ∀ c ∈ comps s.desc.toDescIn (argPlane s), ∀ i : Fin 16, (t.codec.blk[c][i]).toNat =
          bits / 2 ^ (planeBitsOf s.desc.toDescIn (argPlane s) * i.val + bitsBefore s.desc.toDescIn (argPlane s) c) %
            2 ^ inBits s.desc.toDescIn c) ∧
    (isSubblock s false n bits = true →
      (ctApplies s.desc.toDescIn (argPlane s) = false →
        ∃ t, exec (.blockComp n bits) s = .next t ∧ DoneWith s t ⟨some (((n + 7) / 8 : Nat) : Int), none, some 0⟩ ∧
          OnlyCodec s t ∧ t.cur = ⟨BitVec.ofNat 36 n, false⟩) ∧
      (IsField s s.port.arg0 0 n bits → exec (.blockComp n bits) s = exec (.decodeBlock (argPlane s) false) s))

/-- The twelve L3 elements (30_encoding R102, R103, 41_subblock_decode R152; log 11), for a present component whose `L3` has
their width and a cursor with room: all ones is the sentinel -1, one below it -2 with the default colour in place of a root
and sixteen samples of it, any other code the literal count, flagged BC_RANGE above `compbits`, with the other counts, the tree
and the samples kept. -/
def Obligations.L3Elements : Prop :=
  ∀ (s : State) (w : L3Width), Inv s → Ready s → compOk s = true →
    let c := argComp s
    l3Bits s.desc.compbits[c] = w.bits → s.cur.exh = false → s.cur.pos.toNat + w.bits ≤ windowBits s s.port.arg0 →
    (∀ i, (i, w) ∈ [(Instr.l3UniformW2, L3Width.w2), (.l3UniformW3, .w3), (.l3UniformW4, .w4), (.l3UniformW5, .w5)] →
      ∃ t, exec i s = .next t ∧ DoneWith s t Results.none ∧ OnlyCodec s t ∧ t.chk = s.chk ∧
        t.cur = ⟨BitVec.ofNat 36 (s.cur.pos.toNat + w.bits), false⟩ ∧ t.codec.bctree = s.codec.bctree.set c #v[-1, 0, 0, 0, 0] ∧
        t.codec.mintree = s.codec.mintree ∧ t.codec.blk = s.codec.blk) ∧
    (∀ i, (i, w) ∈ [(Instr.l3DefaultW2, L3Width.w2), (.l3DefaultW3, .w3), (.l3DefaultW4, .w4), (.l3DefaultW5, .w5)] →
      ∃ t, exec i s = .next t ∧ DoneWith s t Results.none ∧ OnlyCodec s t ∧ t.chk = s.chk ∧
        t.cur = ⟨BitVec.ofNat 36 (s.cur.pos.toNat + w.bits), false⟩ ∧ t.codec.bctree = s.codec.bctree.set c #v[-2, 0, 0, 0, 0] ∧
        (∀ k < 21, (t.codec.mintree[c]).getD k 0 = if k = 0 then s.desc.defaultcolor[c] else 0) ∧
        (∀ i : Fin 16, (t.codec.blk[c][i]).toNat = s.desc.defaultcolor[c]) ∧
        ∀ e, e ≠ c → t.codec.mintree[e] = s.codec.mintree[e] ∧ t.codec.blk[e] = s.codec.blk[e]) ∧
    (∀ i n, i.wf = true → (w = .w2 ∧ (∃ x : BitVec 2, i = .l3LiteralW2 x ∧ n = x.toNat) ∨
        w = .w3 ∧ (∃ x : BitVec 3, i = .l3LiteralW3 x ∧ n = x.toNat) ∨
        w = .w4 ∧ (∃ x : BitVec 4, i = .l3LiteralW4 x ∧ n = x.toNat) ∨
        w = .w5 ∧ (∃ x : BitVec 5, i = .l3LiteralW5 x ∧ n = x.toNat)) →
      ∃ t, exec i s = .next t ∧ DoneWith s t Results.none ∧ OnlyCodec s t ∧
        Flags s t (fun v => v = .bcRange ∧ s.desc.compbits[c] < n) ∧
        t.cur = ⟨BitVec.ofNat 36 (s.cur.pos.toNat + w.bits), false⟩ ∧
        t.codec.bctree = s.codec.bctree.set c ((s.codec.bctree[c]).set 0 (n : Int)) ∧
        t.codec.mintree = s.codec.mintree ∧ t.codec.blk = s.codec.blk)

/-- L4D (30_encoding R104, 41_subblock_decode R154; log 11): the signed delta added to the root count, plus 16 where negative,
else masked to 4 bits; BC_NEG for a negative sum, BC_RANGE for a count above `compbits`. -/
def Obligations.L4dElement : Prop :=
  ∀ (s : State) (d : BitVec 2) (j : Fin 4), Ready s → compOk s = true → s.port.arg2 = j.val →
    let c := argComp s
    let raw := (s.codec.bctree[c])[0] + d.toInt
    let l4 := if raw < 0 then raw + 16 else raw % 16
    (s.codec.bcOk[c])[0] = true → 0 ≤ (s.codec.bctree[c])[0] → s.cur.exh = false →
    s.cur.pos.toNat + 2 ≤ windowBits s s.port.arg0 →
    ∃ t, exec (.l4d d) s = .next t ∧ DoneWith s t Results.none ∧ OnlyCodec s t ∧
      t.cur = ⟨BitVec.ofNat 36 (s.cur.pos.toNat + 2), false⟩ ∧
      t.codec.bctree = s.codec.bctree.set c ((s.codec.bctree[c]).set j.succ l4) ∧
      Flags s t (fun v => v = .bcNeg ∧ raw < 0 ∨ v = .bcRange ∧ (s.desc.compbits[c] : Int) < l4) ∧
      t.codec.mintree = s.codec.mintree ∧ t.codec.blk = s.codec.blk

/-- ROOT (30_encoding R105, 41_subblock_decode R155, R162; log 11): the root value with every other tree entry 0; after a
UNIFORM count the component ends and its samples all equal it. -/
def Obligations.RootElement : Prop :=
  ∀ (s : State) (w v : Nat), Inv s → Ready s → compOk s = true →
    let c := argComp s
    w = s.desc.compbits[c] → v < 2 ^ w → (s.codec.bcOk[c])[0] = true → (s.codec.bctree[c])[0] ≠ -2 →
    s.cur.exh = false → s.cur.pos.toNat + w ≤ windowBits s s.port.arg0 →
    ∃ t, exec (.root w v) s = .next t ∧ DoneWith s t Results.none ∧ OnlyCodec s t ∧ t.chk = s.chk ∧
      t.cur = ⟨BitVec.ofNat 36 (s.cur.pos.toNat + w), false⟩ ∧ t.codec.bctree = s.codec.bctree ∧
      (∀ k < 21, (t.codec.mintree[c]).getD k 0 = if k = 0 then v else 0) ∧
      ((s.codec.bctree[c])[0] < 0 → ∀ i : Fin 16, (t.codec.blk[c][i]).toNat = v) ∧
      (0 ≤ (s.codec.bctree[c])[0] → t.codec.blk = s.codec.blk) ∧
      ∀ e, e ≠ c → t.codec.mintree[e] = s.codec.mintree[e] ∧ t.codec.blk[e] = s.codec.blk[e]

/-- NODE_B0, NODE_B1 and NODE_BN (30_encoding R106, 41_subblock_decode R156, R157, R159; log 11). Bit-count 0: four deltas of 0
and no bits. Bit-count 1: one bit per child, flagged NO_ZERO_CODE when all four are 1. Bit-count b >= 2: the zero child's delta
is 0, and bit i of another child's delta is its bit of bit-plane i, the children ascending without the zero child. With node 4
the component's samples are written; every other tree entry, count and component stays. -/
def Obligations.NodeElements : Prop :=
  ∀ (s : State) (k : Fin 5), Inv s → Ready s → compOk s = true → s.port.arg2 = k.val →
    let c := argComp s
    nodeDefined s = true → 0 ≤ (s.codec.bctree[c])[0] → s.cur.exh = false →
    let leaves : State → Prop := fun t => k = 4 → ∀ q < 4, ∀ l < 4, ((t.codec.blk[c]).getD (pix q l) 0).toNat =
      ((t.codec.mintree[c]).getD 0 0 + (t.codec.mintree[c]).getD (1 + q) 0 +
        (t.codec.mintree[c]).getD (5 + 4 * q + l) 0) % 2 ^ s.desc.compbits[c]
    let others : State → Prop := fun t => t.codec.bctree = s.codec.bctree ∧ (k ≠ 4 → t.codec.blk = s.codec.blk) ∧
      (∀ m < 21, (m ≤ 4 * k.val ∨ 4 * k.val + 4 < m) → (t.codec.mintree[c]).getD m 0 = (s.codec.mintree[c]).getD m 0) ∧
      ∀ e, e ≠ c → t.codec.mintree[e] = s.codec.mintree[e] ∧ t.codec.blk[e] = s.codec.blk[e]
    ((s.codec.bctree[c])[k] = 0 →
      ∃ t, exec .nodeB0 s = .next t ∧ DoneWith s t Results.none ∧ OnlyCodec s t ∧ t.chk = s.chk ∧ t.cur = s.cur ∧
        (∀ j < 4, (t.codec.mintree[c]).getD (4 * k.val + 1 + j) 0 = 0) ∧ leaves t ∧ others t) ∧
    (∀ d : BitVec 4, (s.codec.bctree[c])[k] = 1 → s.cur.pos.toNat + 4 ≤ windowBits s s.port.arg0 →
      ∃ t, exec (.nodeB1 d) s = .next t ∧ DoneWith s t Results.none ∧ OnlyCodec s t ∧
        t.cur = ⟨BitVec.ofNat 36 (s.cur.pos.toNat + 4), false⟩ ∧
        Flags s t (fun v => v = .noZeroCode ∧ d = 15) ∧
        (∀ j < 4, (t.codec.mintree[c]).getD (4 * k.val + 1 + j) 0 = (d.getLsbD j).toNat) ∧ leaves t ∧ others t) ∧
    (∀ (b : Nat) (z : BitVec 2) (planes : Nat), 2 ≤ b → (s.codec.bctree[c])[k] = (b : Int) → planes < 2 ^ (3 * b) →
      s.cur.pos.toNat + 2 + 3 * b ≤ windowBits s s.port.arg0 →
      ∃ t, exec (.nodeBN b z planes) s = .next t ∧ DoneWith s t Results.none ∧ OnlyCodec s t ∧ t.chk = s.chk ∧
        t.cur = ⟨BitVec.ofNat 36 (s.cur.pos.toNat + (2 + 3 * b)), false⟩ ∧
        (∀ j < 4,
          (j = z.toNat → (t.codec.mintree[c]).getD (4 * k.val + 1 + j) 0 = 0) ∧
          (j ≠ z.toNat → (t.codec.mintree[c]).getD (4 * k.val + 1 + j) 0 < 2 ^ b ∧
            ∀ i < b, ((t.codec.mintree[c]).getD (4 * k.val + 1 + j) 0).testBit i =
              planes.testBit (3 * i + if j < z.toNat then j else j - 1))) ∧ leaves t ∧ others t)

/-- A padding bit is "not read by the decoder" (30_encoding R107; log 28): nothing but the completion status changes. -/
def Obligations.PadElement : Prop := ∀ s : State, Ready s → exec .pad s = .next (completeOp s Results.none)

/-! ### The colour transform -/

/-- CT_FORWARD (45_color_transform R282, R288): the sixteen pixels of rows 0 to 2, row 3 unchanged, with the ranges of the
results. -/
def Obligations.CtForwardResult : Prop :=
  ∀ s : State, Inv s → Ready s → ctApplies s.desc.toDescIn 0 = true →
    (∀ c : Fin 4, c.val < 3 → s.codec.blkOk[c] = true ∧
      ∀ i : Fin 16, (s.codec.blk[c][i]).toNat < 2 ^ inBits s.desc.toDescIn 0) →
    let n := inBits s.desc.toDescIn 0
    ∃ t, exec .ctForward s = .next t ∧ DoneWith s t Results.none ∧ OnlyCodec s t ∧ t.chk = s.chk ∧ t.cur = s.cur ∧
      t.codec.mintree = s.codec.mintree ∧ t.codec.bctree = s.codec.bctree ∧ t.codec.blk[(3 : Fin 4)] = s.codec.blk[(3 : Fin 4)] ∧
      ∀ i : Fin 16,
        let r := (s.codec.blk[(0 : Fin 4)][i]).toNat
        let g := (s.codec.blk[(1 : Fin 4)][i]).toNat
        let b := (s.codec.blk[(2 : Fin 4)][i]).toNat
        let y := (t.codec.blk[(0 : Fin 4)][i]).toNat
        let u := (t.codec.blk[(1 : Fin 4)][i]).toNat
        let v := (t.codec.blk[(2 : Fin 4)][i]).toNat
        y = (r + 2 * g + b) / 4 ∧ (u : Int) = r - g + 2 ^ n ∧ (v : Int) = b - g + 2 ^ n ∧
          y < 2 ^ n ∧ 1 ≤ u ∧ u < 2 ^ (n + 1) ∧ 1 ≤ v ∧ v < 2 ^ (n + 1)

/-- CT_INVERSE (45_color_transform R284, R285): where every pixel's R, G, B are in range, they replace rows 0 to 2; where one
is not, the violation CT_RANGE and then Fatal(CT_RANGE), and no memory changes. -/
def Obligations.CtInverseResult : Prop :=
  ∀ s : State, Ready s → ctApplies s.desc.toDescIn 0 = true →
    (∀ c : Fin 4, c.val < 3 → s.codec.blkOk[c] = true ∧ ∀ i : Fin 16, (s.codec.blk[c][i]).toNat < 2 ^ s.desc.compbits[c]) →
    let n := inBits s.desc.toDescIn 0
    let y := fun i : Fin 16 => ((s.codec.blk[(0 : Fin 4)][i]).toNat : Int)
    let u := fun i : Fin 16 => ((s.codec.blk[(1 : Fin 4)][i]).toNat : Int)
    let v := fun i : Fin 16 => ((s.codec.blk[(2 : Fin 4)][i]).toNat : Int)
    let g := fun i : Fin 16 => Int.fdiv (4 * y i - u i - v i + 3 + 2 * 2 ^ n) 4
    let r := fun i : Fin 16 => u i + g i - 2 ^ n
    let b := fun i : Fin 16 => v i + g i - 2 ^ n
    let ok := fun i : Fin 16 => (0 ≤ r i ∧ r i < 2 ^ n) ∧ (0 ≤ g i ∧ g i < 2 ^ n) ∧ (0 ≤ b i ∧ b i < 2 ^ n)
    ((∀ i, ok i) →
      ∃ t, exec .ctInverse s = .next t ∧ DoneWith s t Results.none ∧ OnlyCodec s t ∧ t.chk = s.chk ∧ t.cur = s.cur ∧
        t.codec.mintree = s.codec.mintree ∧ t.codec.bctree = s.codec.bctree ∧ t.codec.blk[(3 : Fin 4)] = s.codec.blk[(3 : Fin 4)] ∧
        ∀ i : Fin 16, ((t.codec.blk[(0 : Fin 4)][i]).toNat : Int) = r i ∧
          ((t.codec.blk[(1 : Fin 4)][i]).toNat : Int) = g i ∧ ((t.codec.blk[(2 : Fin 4)][i]).toNat : Int) = b i) ∧
    ((∃ i, ¬ ok i) →
      ∃ t, exec .ctInverse s = .next t ∧ FailedWith s t Results.none ∧ t.fat = ⟨2, s.sb.mbx, s.sb.mby, s.sb.slot⟩ ∧
        Flags s t (· = .ctRange) ∧ SameFb s t ∧ SameOut s t ∧
        t.codec.mintree = s.codec.mintree ∧ t.codec.bctree = s.codec.bctree)

/-- "For all R, G, B in 0 .. 2^n - 1, ct_inverse(ct_forward(R, G, B)) = (R, G, B) and the range check passes" (45_color_transform
R286), per pixel and for CT_INVERSE after CT_FORWARD. -/
def Obligations.CtExactInverse : Prop :=
  (∀ n r g b, r < 2 ^ n → g < 2 ^ n → b < 2 ^ n →
    ctInversePixel n (ctForward n r g b).1 (ctForward n r g b).2.1 (ctForward n r g b).2.2 = some (r, g, b)) ∧
  ∀ s : State, Inv s → Ready s → ctApplies s.desc.toDescIn 0 = true →
    (∀ c : Fin 4, c.val < 3 → s.codec.blkOk[c] = true ∧
      ∀ i : Fin 16, (s.codec.blk[c][i]).toNat < 2 ^ inBits s.desc.toDescIn 0) →
    ∃ t u, exec .ctForward s = .next t ∧ exec .ctInverse t = .next u ∧ u.port.status = .done ∧
      u.codec.blk = s.codec.blk

/-! ### Subblocks, encoding -/

/-- ENCODE_BLOCK completes for every block in range with room for the plane's uncompressed size (42_subblock_encode R180, R187,
R192, R195, R198): the byte count is below the uncompressed size, or equal to it with the uncompressed flag; only the counted
bytes change; no violation is flagged (60_exceptions R319). RES1 is the combined colour of a block whose components are all
constant, packed in ascending component order, else -1 (R188). -/
def Obligations.EncodeBlockCompletes : Prop :=
  ∀ (p : Fin 2) (s : State), Inv s → Ready s → p.val < s.desc.nplanes →
    (∀ c ∈ comps s.desc.toDescIn p, s.codec.blkOk[c] = true ∧
      ∀ i : Fin 16, (s.codec.blk[c][i]).toNat < 2 ^ inBits s.desc.toDescIn c) →
    s.port.arg0 + s.desc.uncompSize[p] ≤ bufSize s →
    ∃ (t : State) (n : Nat) (single : Int) (unc : Bool), exec (.encodeBlock p) s = .next t ∧
      DoneWith s t ⟨some (n : Int), some single, some (if unc then 1 else 0)⟩ ∧
      (if unc then n = s.desc.uncompSize[p] else
        n < s.desc.uncompSize[p] ∧ n % (s.desc.sbsMultiplier[p]).toNat = 0 ∧
          2 ≤ n / (s.desc.sbsMultiplier[p]).toNat ∧ n / (s.desc.sbsMultiplier[p]).toNat < 2 ^ s.desc.sizeBits) ∧
      FbOutside s t s.port.arg0 n ∧
      ((∀ c ∈ comps s.desc.toDescIn p, ∀ i : Fin 16, s.codec.blk[c][i] = s.codec.blk[c][(0 : Fin 16)]) →
        single = ((((comps s.desc.toDescIn p).map fun c =>
          (s.codec.blk[c][(0 : Fin 16)]).toNat * 2 ^ bitsBefore s.desc.toDescIn p c).sum : Nat) : Int)) ∧
      ((∃ c ∈ comps s.desc.toDescIn p, ∃ i : Fin 16, s.codec.blk[c][i] ≠ s.codec.blk[c][(0 : Fin 16)]) → single = -1) ∧
      t = { s with fb := t.fb, cur := t.cur, codec := t.codec, port := t.port } ∧ t.codec.blk = s.codec.blk ∧
      (∀ c, c ∉ comps s.desc.toDescIn p →
        t.codec.mintree[c] = s.codec.mintree[c] ∧ t.codec.bctree[c] = s.codec.bctree[c])

/-- What ENCODE_BLOCK refuses (42_subblock_encode R198, R199): a sample at or above `2^inputbits` is Fatal(BAD_INPUT), bytes
that do not fit below `buf_size` in the count the encoder chose (which is never below 2) are Fatal(BUF_OVERFLOW); either way no
byte is written. -/
def Obligations.EncodeBlockRefusals : Prop :=
  ∀ (p : Fin 2) (s : State), Inv s → Ready s → p.val < s.desc.nplanes →
    (∀ c ∈ comps s.desc.toDescIn p, s.codec.blkOk[c] = true) →
    ((∃ c ∈ comps s.desc.toDescIn p, ∃ i : Fin 16, 2 ^ inBits s.desc.toDescIn c ≤ (s.codec.blk[c][i]).toNat) →
      exec (.encodeBlock p) s = .next (refusedWith s 6)) ∧
    ((∀ c ∈ comps s.desc.toDescIn p, ∀ i : Fin 16, (s.codec.blk[c][i]).toNat < 2 ^ inBits s.desc.toDescIn c) →
      (bufSize s < s.port.arg0 + 2 ∨
        ∃ e, encodeRun s.desc p s.codec.blk = some e ∧ bufSize s < s.port.arg0 + e.bytes.length) →
      ∃ t, exec (.encodeBlock p) s = .next t ∧ FailedWith s t Results.none ∧
        t.fat = ⟨1, s.sb.mbx, s.sb.mby, s.sb.slot⟩ ∧ SameFb s t ∧ SameOut s t ∧ t.chk = s.chk ∧
        t.codec.blk = s.codec.blk)

/-- The round trip of a subblock (42_subblock_encode R181, R200): DECODE_BLOCK of what ENCODE_BLOCK wrote, in the form it
chose, restores the block with no violation and consumes no more than the declared size. -/
def Obligations.EncodeDecodeRoundTrip : Prop :=
  ∀ (p : Fin 2) (s t : State) (n single : Int) (unc : Bool), Inv s → Ready s → p.val < s.desc.nplanes →
    (∀ c ∈ comps s.desc.toDescIn p, s.codec.blkOk[c] = true ∧
      ∀ i : Fin 16, (s.codec.blk[c][i]).toNat < 2 ^ inBits s.desc.toDescIn c) →
    s.port.arg0 + s.desc.uncompSize[p] ≤ bufSize s → exec (.encodeBlock p) s = .next t →
    t.port.res = ⟨some n, some single, some (if unc then 1 else 0)⟩ →
    ∃ (u : State) (m : Int), exec (.decodeBlock p unc) t = .next u ∧ DoneWith t u ⟨some m, none, some 0⟩ ∧ m ≤ n ∧
      u.chk = s.chk ∧ ∀ c ∈ comps s.desc.toDescIn p, u.codec.blk[c] = s.codec.blk[c]

/-! ### Superblocks -/

/-- DECODE_SUPERBLOCK of a solid-colour header (43_superblock R213, R220; 30_encoding R98): every sample of the superblock
inside the frame is its component's colour, every other sample of every `OUT[c]` and every byte of `FB` is as before, the body
is not consulted, and of the violations only the two of a stripe can be flagged (44_header_address R267, R268). -/
def Obligations.DecodeSuperblockSolid : Prop :=
  ∀ s : State, Inv s → Ready s → s.port.arg0 < s.desc.mbw → s.port.arg1 < s.desc.mbh → s.desc.allowSolid = true →
    let n := mbnumOf s.desc s.port.arg0 s.port.arg1
    IsField s (headerAddr n) s.desc.ptrBits s.desc.sizeBits 0 →
    ∃ t, exec .decodeSuperblock s = .next t ∧ DoneWith s t Results.none ∧ t.fat = s.fat ∧ SameFb s t ∧
      t.sb.mbx = s.port.arg0 ∧ t.sb.mby = s.port.arg1 ∧ t.sb.mbnum = n ∧ t.hdr.solid = true ∧
      (∀ p c i x y, SampleOf s.desc s.port.arg0 s.port.arg1 p c i x y →
        IsField s (headerAddr n) (64 + solidBefore s.desc.toDescIn c) (inBits s.desc.toDescIn c)
          (memGet t.out[c] i).toNat) ∧
      OutOutside s t s.port.arg0 s.port.arg1 ∧ t.codec = s.codec ∧ t.desc = s.desc ∧
      ∀ k, k ≠ 8 → k ≠ 9 → t.chk.violMask.getLsbD k = s.chk.violMask.getLsbD k

/-- DECODE_SUPERBLOCK of a header with slots (43_superblock R210, R214 to R216, R218 to R220), tiled or not, transformed or not,
where the payload keeps the tile bound and every slot can be decoded: it completes; the samples of a slot, inside the frame, are
those that DECODE_BLOCK of that slot gives, a copy slot's those of the bytes it shares (R215), or 0 in graceful mode where the
slot ends past the frame size, which is recorded whatever `error_check` is; every sample of the superblock belongs to a slot;
SIZE_MISMATCH is flagged for a compressed slot whose size is not the one its consumed bytes give; nothing else of memory
changes. -/
def Obligations.DecodeSuperblockNormal : Prop :=
  ∀ (s h : State), Inv s → Ready s → s.port.arg0 < s.desc.mbw → s.port.arg1 < s.desc.mbh → SlotsParsed s h →
    TileBoundHolds s h.hdr.ptr.toNat → (∀ k < s.desc.nsubblocks, SlotDecodes s h k) →
    ∃ t, exec .decodeSuperblock s = .next t ∧ DoneWith s t Results.none ∧ t.fat = s.fat ∧ SameFb s t ∧
      t.hdr = h.hdr ∧ t.sb.slot + 1 = s.desc.nsubblocks ∧ t.desc = s.desc ∧
      (∀ k < s.desc.nsubblocks,
        let sl := slotAt s.desc k
        ∀ c ∈ comps s.desc.toDescIn sl.plane, ∀ i, ∀ dx < 4, ∀ dy < 4,
          SampleOf s.desc s.port.arg0 s.port.arg1 sl.plane c i (sl.x + dx) (sl.y + dy) →
          (PastFrame s h k → memGet t.out[c] i = 0) ∧
          (¬ PastFrame s h k → ∃ u, slotRun s h k = .next u ∧ u.port.status = .done ∧
            memGet t.out[c] i = (u.codec.blk[c]).getD (4 * dy + dx) 0)) ∧
      (∀ p c i x y, SampleOf s.desc s.port.arg0 s.port.arg1 p c i x y →
        memGet t.out[c] i = (t.sb.sblk[c]).getD (y * pw s.desc p + x) 0 ∧
        ∃ k < s.desc.nsubblocks, (slotAt s.desc k).plane = p ∧
          (slotAt s.desc k).x ≤ x ∧ x < (slotAt s.desc k).x + 4 ∧ (slotAt s.desc k).y ≤ y ∧ y < (slotAt s.desc k).y + 4) ∧
      OutOutside s t s.port.arg0 s.port.arg1 ∧
      (t.chk.violMask.getLsbD 10 = true ↔
        s.chk.violMask.getLsbD 10 = true ∨ ∃ k < s.desc.nsubblocks, PastFrame s h k) ∧
      ((∃ k < s.desc.nsubblocks, PastFrame s h k) → t.chk.foundError = true) ∧
      (t.chk.violMask.getLsbD 3 = true ↔ s.chk.violMask.getLsbD 3 = true ∨ s.desc.errorCheck = true ∧
        ∃ k < s.desc.nsubblocks, ¬ PastFrame s h k ∧ h.hdr.unc.getD k false = false ∧
          ∃ (u : State) (m : Nat), slotRun s h k = .next u ∧ u.port.res.res0 = some (m : Int) ∧
            expectedSize s.desc k m ≠ (h.hdr.size.getD k 0).toNat)

/-- A slot that cannot be decoded (43_superblock R216, R217): past the frame size with `graceful = 0` it is Fatal(SLOT_RANGE), and
a DECODE_BLOCK that ends in a fatal error ends the superblock with the same one, in both modes; the fatal registers name the slot
(10_state R49), and no byte of `FB` and no sample outside the superblock changes (60_exceptions R321; what becomes of the
superblock's own samples is left open by 93_implementation_defined U2, log 5). -/
def Obligations.SlotFailureIsFatal : Prop :=
  ∀ (s h : State) (k : Nat) (code : BitVec 4), Inv s → Ready s → s.port.arg0 < s.desc.mbw → s.port.arg1 < s.desc.mbh →
    SlotsParsed s h → TileBoundHolds s h.hdr.ptr.toNat → k < s.desc.nsubblocks → (∀ j < k, SlotDecodes s h j) →
    ((PastFrame s h k ∧ s.desc.graceful = false ∧ code = 4) ∨
      (¬ PastFrame s h k ∧ ∃ u, slotRun s h k = .next u ∧ u.fat.code = code ∧ code ≠ 0)) →
    ∃ t, exec .decodeSuperblock s = .next t ∧ FailedWith s t Results.none ∧
      t.fat = ⟨code, s.port.arg0, s.port.arg1, k⟩ ∧ OutOutside s t s.port.arg0 s.port.arg1 ∧ SameFb s t ∧ t.desc = s.desc

/-- The tile bound (44_header_address R260): in tiled mode a payload that does not lie in its paging tile is fatal whatever
`error_check` is, the fatal registers name the superblock with slot 0, and no byte of `FB` and no sample outside the superblock
changes (its own samples are open: 93_implementation_defined U2, log 5). -/
def Obligations.TileBoundIsFatal : Prop :=
  ∀ s : State, Inv s → Ready s → s.port.arg0 < s.desc.mbw → s.port.arg1 < s.desc.mbh → s.desc.tiled = true →
    let n := mbnumOf s.desc s.port.arg0 s.port.arg1
    let start := s.desc.bodyBase + n / 64 * (64 * s.desc.maxpay)
    ∀ ptr, IsField s (headerAddr n) 0 s.desc.ptrBits ptr →
    ¬ (s.desc.allowSolid = true ∧ IsField s (headerAddr n) s.desc.ptrBits s.desc.sizeBits 0) →
    ¬ (start ≤ ptr ∧ ptr + s.desc.maxpay ≤ start + 64 * s.desc.maxpay) →
    ∃ t, exec .decodeSuperblock s = .next t ∧ FailedWith s t Results.none ∧
      t.fat = ⟨3, s.port.arg0, s.port.arg1, 0⟩ ∧ OutOutside s t s.port.arg0 s.port.arg1 ∧ SameFb s t ∧ t.desc = s.desc

/-- ENCODE_SUPERBLOCK completes for samples in range, a body position that fits the pointer, and room for the largest payload
(43_superblock R225, R226, R231, R232): only the superblock's sixteen header bytes and the `maxpay` bytes at `body_pos` can
change, the new position lies in them, and no violation is flagged (60_exceptions R319). -/
def Obligations.EncodeSuperblockCompletes : Prop :=
  ∀ s : State, Inv s → Ready s → s.port.arg0 < s.desc.mbw → s.port.arg1 < s.desc.mbh →
    s.port.arg2 < 2 ^ s.desc.ptrBits → s.port.arg2 + s.desc.maxpay ≤ bufSize s →
    (∀ p c i x y, SampleOf s.desc s.port.arg0 s.port.arg1 p c i x y →
      (memGet s.out[c] i).toNat < 2 ^ inBits s.desc.toDescIn c) →
    let n := mbnumOf s.desc s.port.arg0 s.port.arg1
    ∃ (t : State) (pos : Nat), exec .encodeSuperblock s = .next t ∧ DoneWith s t ⟨some (pos : Int), none, none⟩ ∧
      s.port.arg2 ≤ pos ∧ pos ≤ s.port.arg2 + s.desc.maxpay ∧ t.fat = s.fat ∧ t.chk = s.chk ∧ t.out = s.out ∧
      t.desc = s.desc ∧ t.sb.mbx = s.port.arg0 ∧ t.sb.mby = s.port.arg1 ∧ t.sb.mbnum = n ∧
      ∀ b, (b < headerAddr n ∨ headerAddr n + 16 ≤ b) → (b < s.port.arg2 ∨ s.port.arg2 + s.desc.maxpay ≤ b) →
        memGet t.fb b = memGet s.fb b

/-- The test property of 43_superblock R227: a superblock whose components are all constant encodes, where solid headers are
allowed, to a header with a zero pointer and a zero first size field and no body byte, and decodes back to the same samples. -/
def Obligations.SolidSuperblockRoundTrip : Prop :=
  ∀ (s : State) (v : Fin 4 → Sample), Inv s → Ready s → s.port.arg0 < s.desc.mbw → s.port.arg1 < s.desc.mbh →
    s.port.arg2 < 2 ^ s.desc.ptrBits → s.desc.allowSolid = true →
    (∀ p c i x y, SampleOf s.desc s.port.arg0 s.port.arg1 p c i x y →
      memGet s.out[c] i = v c ∧ (v c).toNat < 2 ^ inBits s.desc.toDescIn c) →
    let a := headerAddr (mbnumOf s.desc s.port.arg0 s.port.arg1)
    ∃ t u, exec .encodeSuperblock s = .next t ∧ DoneWith s t ⟨some (s.port.arg2 : Int), none, none⟩ ∧
      IsField t a 0 s.desc.ptrBits 0 ∧ IsField t a s.desc.ptrBits s.desc.sizeBits 0 ∧ FbOutside s t a 16 ∧
      exec .decodeSuperblock t = .next u ∧ u.port.status = .done ∧ SameOut s u

/-- The round trip of a superblock, solid or not, under any descriptor (43_superblock R233): where the payload lies behind the
header area, within the frame size and, tiled, in its paging tile (R232: the caller's duty), DECODE_SUPERBLOCK of what
ENCODE_SUPERBLOCK wrote restores every sample of the superblock, whatever `OUT[c]` held in between, with no fatal error and no
violation of the subblock, header or slot kind. -/
def Obligations.SuperblockRoundTrip : Prop :=
  ∀ (s : State) (o : Vector (Mem 32) 4), Inv s → Ready s → s.port.arg0 < s.desc.mbw → s.port.arg1 < s.desc.mbh →
    s.port.arg2 < 2 ^ s.desc.ptrBits → s.desc.hdrArea ≤ s.port.arg2 →
    s.port.arg2 + s.desc.maxpay ≤ s.desc.frameSize.toNat → TileBoundHolds s s.port.arg2 →
    (∀ p c i x y, SampleOf s.desc s.port.arg0 s.port.arg1 p c i x y →
      (memGet s.out[c] i).toNat < 2 ^ inBits s.desc.toDescIn c) →
    (∀ c : Fin 4, (o[c]).wf) →
    ∃ t u, exec .encodeSuperblock s = .next t ∧ t.port.status = .done ∧
      exec .decodeSuperblock { t with out := o } = .next u ∧ u.port.status = .done ∧ u.fat = s.fat ∧
      (∀ p c i x y, SampleOf s.desc s.port.arg0 s.port.arg1 p c i x y → memGet u.out[c] i = memGet s.out[c] i) ∧
      ∀ k, k < 6 ∨ k = 10 → u.chk.violMask.getLsbD k = s.chk.violMask.getLsbD k

/-- The stripe update and the sparse check (44_header_address R264, R267, R268): the first superblock sets the reference, a
payload off its grid is flagged; a bin takes the payload start into its range and counts down, and when it reaches 0 its span
and alignment are judged. DECODE_SUPERBLOCK runs them (R270): in a completed one with slots the sparse reference, the bins and the
bits 6 to 9 of `VIOL_MASK` are what TILE_START (R261) and these checks make of the payload start; in a solid one only the stripe
countdown runs. -/
def Obligations.StripeAndSparseChecks : Prop :=
  (∀ (s : State) (ptr : Nat),
    let t := sparseCheck s ptr
    let first := if s.chk.sparseFirstValid then s.chk.sparseFirst else ptr
    t.chk.sparseFirstValid = true ∧ t.chk.sparseFirst = first ∧
      t.chk.violMask = s.chk.violMask ||| flagged s (((ptr : Int) - first) % s.desc.maxpay ≠ 0) .sparseAlign ∧
      t.chk.stripeBins = s.chk.stripeBins) ∧
  (∀ (s : State) (b : StripeBin) (ptr : Option Nat), s.desc.stripeHeight ≠ 0 → s.desc.errorCheck = true →
    let rows := s.desc.stripeHeight / s.desc.sbH
    s.chk.stripeBins[s.sb.mby / rows]? = some b →
    let t := stripeCount s ptr
    let lo := match ptr with
      | none => b.lo
      | some a => if b.seen then min b.lo a else a
    let hi := match ptr with
      | none => b.hi
      | some a => if b.seen then max b.hi a else a
    let closes := b.remaining = 1 ∧ (b.seen = true ∨ ptr ≠ none)
    (b.remaining = 0 → t = s) ∧
    (b.remaining ≠ 0 →
      t.chk.stripeBins[s.sb.mby / rows]? = some ⟨lo, hi, b.seen || ptr.isSome, b.remaining - 1⟩ ∧
      (∀ j, j ≠ s.sb.mby / rows → t.chk.stripeBins[j]? = s.chk.stripeBins[j]?) ∧
      t.chk.violMask = s.chk.violMask |||
        flagged s (closes ∧ rows * s.desc.mbw * s.desc.maxpay < hi - lo) .stripeSpan |||
        flagged s (closes ∧ s.desc.checkStripeAlign = true ∧ lo % s.desc.stripeAlign.toNat ≠ 0) .stripeAlign)) ∧
  ∀ s t : State, Inv s → Ready s → s.port.arg0 < s.desc.mbw → s.port.arg1 < s.desc.mbh →
    exec .decodeSuperblock s = .next t → t.port.status = .done →
    let at0 : State := { s with sb := { s.sb with mbx := s.port.arg0, mby := s.port.arg1, slot := 0 } }
    let n := mbnumOf s.desc s.port.arg0 s.port.arg1
    let ptr := t.hdr.ptr.toNat
    let on := s.desc.errorCheck = true
    let sparse := on ∧ s.desc.sparse = true
    let first := if s.chk.sparseFirstValid then s.chk.sparseFirst else ptr
    (t.hdr.solid = true → t.chk = (stripeCount at0 none).chk) ∧
    (t.hdr.solid = false →
      (sparse → t.chk.sparseFirstValid = true ∧ t.chk.sparseFirst = first) ∧
      (¬ sparse → t.chk.sparseFirstValid = s.chk.sparseFirstValid ∧ t.chk.sparseFirst = s.chk.sparseFirst) ∧
      t.chk.stripeBins = (stripeCount at0 (some ptr)).chk.stripeBins ∧
      (t.chk.violMask.getLsbD 6 = true ↔ s.chk.violMask.getLsbD 6 = true ∨
        on ∧ s.desc.tiled = true ∧ s.desc.checkTileStart = true ∧ n % 64 = 0 ∧ ptr ≠ tileBase s) ∧
      (t.chk.violMask.getLsbD 7 = true ↔ s.chk.violMask.getLsbD 7 = true ∨
        sparse ∧ ((ptr : Int) - first) % s.desc.maxpay ≠ 0) ∧
      ∀ k, k = 8 ∨ k = 9 → t.chk.violMask.getLsbD k = (stripeCount at0 (some ptr)).chk.violMask.getLsbD k)

/-! ### Failures and the whole machine -/

/-- After a fatal error every operation other than INIT_DESCRIPTOR "does nothing and completes with status failed without
changing FATAL*", the BS commands too, and a frame pass stops at the first fatal error (60_exceptions R323). That the results are
then absent is the model's choice (log 19), and so is that an element presented by itself, being run as an operation, is refused
like one (log 11). -/
def Obligations.FailedStateRefuses : Prop :=
  (∀ (i : Instr) (s : State), s.fat.code ≠ 0 → i ≠ .initDescriptor →
    exec i s = .next { s with port := { s.port with res := Results.none, status := .failed } }) ∧
  (∀ (s t : State) (xy : Nat × Nat) (rest : List (Nat × Nat)),
    exec .decodeSuperblock { s with port := { s.port with arg0 := xy.1, arg1 := xy.2 } } = .next t → t.fat.code ≠ 0 →
    decodePass s (xy :: rest) = .next t)

/-- `DESC_VALID` (10_state R24): 1 after an INIT_DESCRIPTOR that accepted, 0 after one that refused and after reset; without
it every operation but INIT_DESCRIPTOR and the three BS commands does nothing and completes with NO_DESCRIPTOR, the coordinates
recorded (10_state R49; log 13). That the results are then absent is the model's choice (log 19), and so is that an element
presented by itself is refused like an operation (log 11). -/
def Obligations.NoDescriptor : Prop :=
  State.reset.descValid = false ∧
  (∀ (s t : State) (rest : List Event), s.inbox = .reset :: rest → step s = .next t → t.descValid = false) ∧
  (∀ s t : State, exec .initDescriptor s = .next t →
    t.descValid = validDesc (derive (layoutTable s.port.descIn.layout.toNat) s.port.descIn)) ∧
  ∀ (i : Instr) (s : State), s.fat.code = 0 → s.descValid = false → i ≠ .initDescriptor →
    (∀ n, i ≠ .bsRead n ∧ i ≠ .bsReadSigned n ∧ i ≠ .bsWrite n) →
    exec i s = .next (refusedWith s 8)

/-- `raise Fatal(x)` (10_state R49, 60_exceptions R321, R322): an operation that fails says so, its code is one of 1 to 8, and the
fatal registers hold the coordinates and the slot, whatever the code (log 13); an operation that does not fail says it is done. -/
def Obligations.FatalRegistersNameThePlace : Prop :=
  ∀ (i : Instr) (s t : State), s.fat.code = 0 → exec i s = .next t →
    (t.fat.code = 0 → t.port.status = .done ∧ (i ≠ .initDescriptor → t.fat = s.fat)) ∧
    (t.fat.code ≠ 0 → t.port.status = .failed ∧ t.fat.code.toNat ≤ 8 ∧
      t.fat.mbx = t.sb.mbx ∧ t.fat.mby = t.sb.mby ∧ t.fat.slot = t.sb.slot)

/-- "The only way out of the failed state is INIT_DESCRIPTOR or reset; both clear FATAL* and the checker state" (60_exceptions
R324). -/
def Obligations.RecoveryOnlyByInitOrReset : Prop :=
  ∀ s t : State, s.fat.code ≠ 0 → step s = .next t → t.fat ≠ s.fat →
    ((∃ rest, s.inbox = .reset :: rest) ∨
      (∃ w rest, s.inbox = .command w :: rest ∧ decode .cmd w.toNat = .ok .initDescriptor)) ∧
    (t.fat.code = 0 ∨ t.fat.code = 6) ∧ t.fat.mbx = 0 ∧ t.fat.mby = 0 ∧ t.fat.slot = 0 ∧
    t.chk.foundError = false ∧ t.chk.violMask = 0 ∧ t.chk.vlist = [] ∧ t.chk.sparseFirstValid = false

/-- The checker's flags are sticky (10_state R45, 60_exceptions R316): no operation but INIT_DESCRIPTOR clears one; and
encoding, header writing and the forward transform raise none (60_exceptions R319). -/
def Obligations.StickyChecker : Prop :=
  ∀ (i : Instr) (s t : State), i ≠ .initDescriptor → exec i s = .next t →
    (s.chk.foundError = true → t.chk.foundError = true) ∧
    (∀ k, s.chk.violMask.getLsbD k = true → t.chk.violMask.getLsbD k = true) ∧
    ((∃ p, i = .encodeBlock p) ∨ i = .encodeSuperblock ∨ i = .writeHeader ∨ i = .ctForward → t.chk = s.chk)

/-- Who writes memory (20_memory R61, R62): `FB` only BS_WRITE, ENCODE_BLOCK, ENCODE_SUPERBLOCK and WRITE_HEADER, and no byte
at or beyond `buf_size`; `OUT[c]` only DECODE_SUPERBLOCK, only the samples of its superblock (43_superblock R220; 60_exceptions
R321 and 93_implementation_defined U2 where it ends in a fatal error, log 5), and none where it is refused: after a fatal error,
without a descriptor, or outside the grid. -/
def Obligations.MemoryWriters : Prop :=
  ∀ (i : Instr) (s t : State), exec i s = .next t →
    ((∀ n, i ≠ .bsWrite n) → (∀ p, i ≠ .encodeBlock p) → i ≠ .encodeSuperblock → i ≠ .writeHeader → SameFb s t) ∧
    (∀ a, bufSize s ≤ a → memGet t.fb a = memGet s.fb a) ∧
    (i ≠ .decodeSuperblock → SameOut s t) ∧
    (¬ (Ready s ∧ s.port.arg0 < s.desc.mbw ∧ s.port.arg1 < s.desc.mbh) → SameOut s t) ∧
    (i = .decodeSuperblock → OutOutside s t s.port.arg0 s.port.arg1)

/-- No instruction stops but with the fault undefinedRegister, at a source register of its own that has no defined value in the
sense of 10_state R38 (that the model keeps a flag for it is log 4): it does so exactly in the cases of `ReadsUndefined`, which
name the register for each of the twelve instructions; in every other case every instruction has a next state. A step stops
besides only where the host writes a byte that `FB` does not have, with noSuchByte (20_memory R60; log 10), and refuses
nothing. -/
def Obligations.StopsOnlyAtUndefinedRegisters : Prop :=
  (∀ (i : Instr) (s : State),
    (Ready s ∧ ReadsUndefined i s → exec i s = .fault .undefinedRegister) ∧
    (¬ (Ready s ∧ ReadsUndefined i s) → ∃ t, exec i s = .next t)) ∧
  ∀ s : State, (∃ t, step s = .next t) ∨ step s = .fault .undefinedRegister ∨
    (step s = .fault .noSuchByte ∧ ∃ a v rest, s.inbox = .writeFb a v :: rest ∧ s.fbPhys.toNat ≤ a)

/-- The checker never changes what is decoded (10_state R29, 60_exceptions R316, 41_subblock_decode R164): from two states that
differ in the checker's records and in `error_check` alone, every operation gives states that differ in nothing else. -/
def Obligations.CheckerNeverChangesResults : Prop :=
  ∀ (i : Instr) (s t : State), exec i s = .next t →
    ∃ u, exec i (withoutChecker s) = .next u ∧ withoutChecker u = withoutChecker t
end

