-- ==== Sys2Proof/Laws/Memory.lean ====
section
/-! SUPPORT. The sparse memory: reading after writing, and the canonical form that every memory operation keeps. -/

namespace Sys2Proof.Machine

variable {w : Nat}

/-! ### Reading -/

@[simp] theorem memGet_nil (a : Nat) : memGet ([] : Mem w) a = 0 := rfl

theorem memGet_cons (p : Nat × BitVec w) (m : Mem w) (a : Nat) :
    memGet (p :: m) a = if p.1 = a then p.2 else memGet m a := by
  cases p; rfl

/-- An address below every listed one reads 0. -/
theorem memGet_of_lt {m : Mem w} {a : Nat} (h : ∀ c ∈ m, a < c.1) : memGet m a = 0 := by
  induction m with
  | nil => rfl
  | cons p m ih =>
    have hp := h p (by simp)
    rw [memGet_cons, if_neg (by omega)]
    exact ih fun c hc => h c (by simp [hc])

/-- A cell that is not listed reads 0. -/
theorem memGet_of_not_mem {m : Mem w} {a : Nat} (h : ∀ c ∈ m, c.1 ≠ a) : memGet m a = 0 := by
  induction m with
  | nil => rfl
  | cons p m ih =>
    rw [memGet_cons, if_neg (h p (by simp))]
    exact ih fun c hc => h c (by simp [hc])

/-! ### Writing one cell -/

theorem memGet_filter_ne (m : Mem w) (a b : Nat) (h : b ≠ a) :
    memGet (m.filter fun c => c.1 != a) b = memGet m b := by
  induction m with
  | nil => rfl
  | cons p m ih =>
    by_cases hp : p.1 = a
    · simp [hp, memGet_cons, ih, Ne.symm h]
    · simp [hp, memGet_cons, ih]

theorem memGet_filter_self (m : Mem w) (a : Nat) : memGet (m.filter fun c => c.1 != a) a = 0 :=
  memGet_of_not_mem fun c hc => by simpa using (List.mem_filter.mp hc).2

theorem memGet_memInsert_self (m : Mem w) (a : Nat) (v : BitVec w) (h : ∀ c ∈ m, c.1 ≠ a) :
    memGet (memInsert m a v) a = v := by
  induction m with
  | nil => simp [memInsert, memGet_cons]
  | cons p m ih =>
    simp only [memInsert]
    split
    · simp [memGet_cons]
    · rw [memGet_cons, if_neg (h p (by simp))]
      exact ih fun c hc => h c (by simp [hc])

theorem memGet_memInsert_ne (m : Mem w) (a b : Nat) (v : BitVec w) (h : b ≠ a) :
    memGet (memInsert m a v) b = memGet m b := by
  induction m with
  | nil => simp [memInsert, memGet_cons, Ne.symm h]
  | cons p m ih =>
    simp only [memInsert]
    split
    · simp [memGet_cons, Ne.symm h]
    · simp only [memGet_cons, ih]

/-- A write is read back. -/
theorem memGet_memSet_self (m : Mem w) (a : Nat) (v : BitVec w) : memGet (memSet m a v) a = v := by
  unfold memSet
  split
  · next h => rw [memGet_filter_self, h]
  · exact memGet_memInsert_self _ _ _ fun c hc => by simpa using (List.mem_filter.mp hc).2

/-- A write leaves every other cell alone. -/
theorem memGet_memSet_ne (m : Mem w) (a b : Nat) (v : BitVec w) (h : b ≠ a) :
    memGet (memSet m a v) b = memGet m b := by
  unfold memSet
  split
  · exact memGet_filter_ne m a b h
  · rw [memGet_memInsert_ne _ _ _ _ h, memGet_filter_ne m a b h]

/-- What a read sees after a write. -/
theorem memGet_memSet (m : Mem w) (a b : Nat) (v : BitVec w) :
    memGet (memSet m a v) b = if b = a then v else memGet m b := by
  split
  · next h => rw [h, memGet_memSet_self]
  · next h => exact memGet_memSet_ne m a b v h

/-! ### Writing bytes and bits -/

/-- What a read sees after bytes are written at rising addresses. -/
theorem memGet_memSetBytes (m : Mem 8) (a b : Nat) (bs : List Byte) :
    memGet (memSetBytes m a bs) b = if a ≤ b ∧ b < a + bs.length then bs.getD (b - a) 0 else memGet m b := by
  induction bs generalizing m a with
  | nil => rw [memSetBytes, if_neg (by simp only [List.length_nil]; omega)]
  | cons v rest ih =>
    rw [memSetBytes, ih, memGet_memSet, List.length_cons]
    by_cases h : b = a
    · subst h
      rw [if_neg (by omega), if_pos rfl, if_pos (by omega), Nat.sub_self, List.getD_cons_zero]
    · rw [if_neg h]
      by_cases h2 : a + 1 ≤ b ∧ b < a + 1 + rest.length
      · rw [if_pos h2, if_pos (by omega), show b - a = (b - (a + 1)) + 1 by omega, List.getD_cons_succ]
      · rw [if_neg h2, if_neg (by omega)]

/-- Every byte outside the written ones is as before. -/
theorem memGet_memSetBytes_outside {m : Mem 8} {a b : Nat} {bs : List Byte} (h : b < a ∨ a + bs.length ≤ b) :
    memGet (memSetBytes m a bs) b = memGet m b := by
  rw [memGet_memSetBytes, if_neg (by omega)]

/-! ### The canonical form -/

theorem wf_nil : Mem.wf ([] : Mem w) := ⟨List.Pairwise.nil, by simp⟩

theorem wf_filter {m : Mem w} (h : m.wf) (p : Nat × BitVec w → Bool) : Mem.wf (m.filter p) :=
  ⟨h.1.filter p, fun c hc => h.2 c (List.mem_filter.mp hc).1⟩

theorem mem_memInsert {m : Mem w} {a : Nat} {v : BitVec w} {c : Nat × BitVec w} (h : c ∈ memInsert m a v) :
    c = (a, v) ∨ c ∈ m := by
  induction m with
  | nil => simpa [memInsert] using h
  | cons p m ih =>
    simp only [memInsert] at h
    split at h
    · simpa using h
    · rcases List.mem_cons.mp h with rfl | h
      · exact .inr (by simp)
      · rcases ih h with rfl | h
        · exact .inl rfl
        · exact .inr (by simp [h])

theorem pairwise_memInsert {m : Mem w} {a : Nat} {v : BitVec w} (h : m.Pairwise fun x y => x.1 < y.1)
    (hn : ∀ c ∈ m, c.1 ≠ a) : (memInsert m a v).Pairwise fun x y => x.1 < y.1 := by
  induction m with
  | nil => simp [memInsert]
  | cons p m ih =>
    obtain ⟨hp, hm⟩ := List.pairwise_cons.mp h
    simp only [memInsert]
    split
    · next hlt =>
      refine List.pairwise_cons.mpr ⟨fun c hc => ?_, h⟩
      rcases List.mem_cons.mp hc with rfl | hc
      · exact hlt
      · exact Nat.lt_trans hlt (hp c hc)
    · next hge =>
      refine List.pairwise_cons.mpr ⟨fun c hc => ?_, ih hm fun c hc => hn c (by simp [hc])⟩
      rcases mem_memInsert hc with rfl | hc
      · exact Nat.lt_of_le_of_ne (Nat.le_of_not_lt hge) (hn p (by simp))
      · exact hp c hc

/-- A write keeps the canonical form. -/
theorem wf_memSet {m : Mem w} (h : m.wf) (a : Nat) (v : BitVec w) : (memSet m a v).wf := by
  have hf := wf_filter h fun c => c.1 != a
  unfold memSet
  split
  · exact hf
  · next hv =>
    refine ⟨pairwise_memInsert hf.1 fun c hc => by simpa using (List.mem_filter.mp hc).2, fun c hc => ?_⟩
    rcases mem_memInsert hc with rfl | hc
    · exact hv
    · exact hf.2 c hc

theorem wf_memSetBytes {m : Mem 8} (h : m.wf) (a : Nat) (bs : List Byte) : (memSetBytes m a bs).wf := by
  induction bs generalizing m a with
  | nil => exact h
  | cons v rest ih => exact ih (wf_memSet h a v) (a + 1)

theorem wf_setFbBit {m : Mem 8} (h : m.wf) (base b : Nat) (x : Bool) : (setFbBit m base b x).wf := wf_memSet h _ _

theorem wf_writeBits {m : Mem 8} (h : m.wf) (base pos n v : Nat) : (writeBits m base pos n v).wf := by
  induction n generalizing m pos v with
  | zero => exact h
  | succ n ih => exact ih (wf_setFbBit h base pos _) (pos + 1) (v / 2)

/-- BsWrite keeps the canonical form. -/
theorem wf_bsWrite {m : Mem 8} (h : m.wf) (base lim v n : Nat) (k : Cursor) : (bsWrite m base lim v n k).1.wf := by
  unfold bsWrite
  split
  · exact h
  · split
    · exact wf_writeBits h base k.pos n v
    · exact h

/-- A list of writes at places computed from its elements keeps the canonical form. -/
theorem wf_foldl {α : Type} (f : Mem w → α → Mem w) (hf : ∀ m x, Mem.wf m → (f m x).wf) {m : Mem w} (h : m.wf)
    (l : List α) : (l.foldl f m).wf := by
  induction l generalizing m with
  | nil => exact h
  | cons x rest ih => exact ih (hf m x h)

/-- The memories at reset are canonical. -/
theorem wf_reset : State.reset.fb.wf ∧ ∀ c : Fin 4, (State.reset.out[c]).wf := by
  refine ⟨wf_nil, fun c => ?_⟩
  have : State.reset.out[c] = [] := by simp [State.reset]
  exact this ▸ wf_nil

end Sys2Proof.Machine
end

