-- ==== Sys2Proof/Laws/Bits.lean ====
section
/-! SUPPORT. Bit fields: what a read of a bit source gives, said bit by bit and as a number; what a write of bits leaves in
`FB`; the header as one number. -/

namespace Sys2Proof.Machine

variable {src src' : Nat → Bool} {lim n pos : Nat} {k : Cursor}

/-! ### Fields of a source (20_memory R65, R76) -/

theorem fieldAt_lt (src : Nat → Bool) (pos n : Nat) : fieldAt src pos n < 2 ^ n := by
  induction n generalizing pos with
  | zero => simp [fieldAt]
  | succ n ih =>
    have := ih (pos + 1)
    rw [fieldAt, Nat.pow_succ]
    cases src pos <;> simp <;> omega

theorem testBit_fieldAt (src : Nat → Bool) (pos n i : Nat) :
    (fieldAt src pos n).testBit i = (decide (i < n) && src (pos + i)) := by
  induction n generalizing pos i with
  | zero => simp [fieldAt]
  | succ n ih =>
    rw [fieldAt]
    cases i with
    | zero => cases src pos <;> simp [Nat.testBit_zero]
    | succ i =>
      have e : ((src pos).toNat + 2 * fieldAt src (pos + 1) n) / 2 = fieldAt src (pos + 1) n := by
        cases src pos <;> (simp; try omega)
      rw [Nat.testBit_succ, e, ih, show pos + 1 + i = pos + (i + 1) by omega]
      simp

/-- A number is the field when its bits are. -/
theorem eq_fieldAt {v : Nat} (h : v < 2 ^ n) (b : ∀ i < n, v.testBit i = src (pos + i)) : v = fieldAt src pos n := by
  refine Nat.eq_of_testBit_eq fun i => ?_
  rw [testBit_fieldAt]
  by_cases hi : i < n
  · simp [hi, b i hi]
  · simp [hi, Nat.testBit_lt_two_pow (Nat.lt_of_lt_of_le h (Nat.pow_le_pow_right (by decide) (Nat.le_of_not_lt hi)))]

theorem fieldAt_congr (h : ∀ i < n, src (pos + i) = src' (pos + i)) : fieldAt src pos n = fieldAt src' pos n :=
  eq_fieldAt (fieldAt_lt _ _ _) fun i hi => by rw [testBit_fieldAt]; simp [hi, h i hi]

theorem fieldAt_add (src : Nat → Bool) (pos n m : Nat) :
    fieldAt src pos (n + m) = fieldAt src pos n + 2 ^ n * fieldAt src (pos + n) m := by
  induction n generalizing pos with
  | zero => simp [fieldAt]
  | succ n ih =>
    rw [show n + 1 + m = n + m + 1 by omega, fieldAt, ih, fieldAt, show pos + 1 + n = pos + (n + 1) by omega, Nat.pow_succ]
    ring

/-- The bits that an instruction carries, read from where they stand. -/
theorem fieldAt_bitsSource (v p k n : Nat) : fieldAt (bitsSource v p) (p + k) n = v / 2 ^ k % 2 ^ n := by
  refine (eq_fieldAt (Nat.mod_lt _ (Nat.two_pow_pos n)) fun i hi => ?_).symm
  rw [Nat.testBit_mod_two_pow, Nat.testBit_div_two_pow, bitsSource]
  simp [hi, show p ≤ p + k + i by omega, show p + k + i - p = i + k by omega]

theorem fieldAt_bitsSource_zero (v k n : Nat) : fieldAt (bitsSource v 0) k n = v / 2 ^ k % 2 ^ n := by
  simpa using fieldAt_bitsSource v 0 k n

/-- The declarative form of a field of `FB` is the computed one. -/
theorem isField_iff (s : State) (base pos n v : Nat) :
    IsField s base pos n v ↔ v = fieldAt (fbSource s.fb base) pos n := by
  constructor
  · rintro ⟨h, b⟩
    exact eq_fieldAt h b
  · rintro rfl
    refine ⟨fieldAt_lt _ _ _, fun i hi => ?_⟩
    rw [testBit_fieldAt]
    simp [hi, fbSource, fbBit]

theorem isField_fieldAt (s : State) (base pos n : Nat) :
    IsField s base pos n (fieldAt (fbSource s.fb base) pos n) := (isField_iff _ _ _ _ _).mpr rfl

/-! ### BsRead and BsReadSigned (40_bitstream R132, R134) -/

/-- A 0-bit access fits anywhere; any other fits when it ends inside the window. -/
@[simp] theorem fitsWindow_zero (lim pos : Nat) : fitsWindow lim pos 0 = true := rfl

theorem fitsWindow_of_le {lim pos n : Nat} (h : pos + n ≤ lim) : fitsWindow lim pos n = true := by
  simp [fitsWindow, h]

theorem fitsWindow_short {lim pos n : Nat} (hn : n ≠ 0) (h : lim < pos + n) : fitsWindow lim pos n = false := by
  simp only [fitsWindow, Bool.or_eq_false_iff, beq_eq_false_iff_ne, decide_eq_false_iff_not]
  omega

theorem fitsWindow_iff {lim pos n : Nat} : fitsWindow lim pos n = true ↔ n = 0 ∨ pos + n ≤ lim := by
  simp [fitsWindow]

/-! ### The cursor and its registers (10_state R41) -/

theorem windowBits_lt (s : State) (base : Nat) : windowBits s base < 2 ^ 36 := by
  have h : bufSize s < 2 ^ 33 := by
    unfold bufSize
    split
    · exact s.desc.bufSize.isLt
    · exact s.fbPhys.isLt
  unfold windowBits
  omega

theorem cursor_lt (r : CursorReg) : r.cursor.pos < 2 ^ 36 := r.pos.isLt

/-- A cursor inside any window fits its registers. -/
theorem cursor_reg (h : k.pos < 2 ^ 36) : k.reg.cursor = k := by
  simp only [Cursor.reg, CursorReg.cursor, BitVec.toNat_ofNat, Nat.mod_eq_of_lt h]

@[simp] theorem reg_cursor (r : CursorReg) : r.cursor.reg = r := by
  simp [Cursor.reg, CursorReg.cursor]

theorem take_of_lt (r : CursorReg) (h : k.pos < 2 ^ 36) : r.take k = k.reg := if_pos h

theorem take_of_ge (r : CursorReg) (h : 2 ^ 36 ≤ k.pos) : r.take k = ⟨r.pos, k.exh⟩ := if_neg (Nat.not_lt.mpr h)

@[simp] theorem take_exh (r : CursorReg) (k : Cursor) : (r.take k).exh = k.exh := by
  unfold CursorReg.take
  split <;> rfl

/-- A command's cursor, in the terms of the statements. -/
theorem take_eq (s : State) (k : Cursor) : s.cur.take k = ⟨posReg s k.pos, k.exh⟩ := by
  unfold CursorReg.take posReg
  split <;> rfl

/-- BsRead never forms a position the registers cannot hold. -/
theorem bsRead_pos_lt (hk : k.pos < 2 ^ 36) (hl : lim < 2 ^ 36) : (bsRead src lim n k).2.pos < 2 ^ 36 := by
  unfold bsRead
  split
  · exact hk
  · split
    · next h =>
      rcases fitsWindow_iff.mp h with rfl | h
      · exact hk
      · exact h.trans_lt hl
    · exact hk

/-- Everything BsRead can do when it succeeds. -/
theorem bsRead_ok (e : k.exh = false) (h : k.pos + n ≤ lim) :
    bsRead src lim n k = (fieldAt src k.pos n, ⟨k.pos + n, false⟩) := by
  unfold bsRead
  rw [if_neg (by simp [e]), if_pos (fitsWindow_of_le h)]
  simp [e]

/-- A 0-bit read succeeds wherever the cursor stands and leaves it there (R132's corner cases; D4). -/
theorem bsRead_zero (e : k.exh = false) : bsRead src lim 0 k = (0, k) := by
  unfold bsRead
  rw [if_neg (by simp [e]), if_pos (fitsWindow_zero _ _)]
  rfl

/-- Everything BsRead can do when it fails. -/
theorem bsRead_short (e : k.exh = false) (hn : n ≠ 0) (h : lim < k.pos + n) :
    bsRead src lim n k = (0, ⟨k.pos, true⟩) := by
  unfold bsRead
  rw [if_neg (by simp [e]), if_neg (by simp [fitsWindow_short hn h])]

/-- Once exhausted, BsRead is a no-op returning 0 (R133). -/
theorem bsRead_exh (e : k.exh = true) : bsRead src lim n k = (0, k) := if_pos e

theorem bsRead_lt (src : Nat → Bool) (lim n : Nat) (k : Cursor) : (bsRead src lim n k).1 < 2 ^ n := by
  unfold bsRead
  split
  · exact Nat.two_pow_pos n
  · split
    · exact fieldAt_lt _ _ _
    · exact Nat.two_pow_pos n

theorem bsReadSigned_ok (e : k.exh = false) (h : k.pos + n ≤ lim) :
    bsReadSigned src lim n k =
      (if n = 0 then 0 else sext n (fieldAt src k.pos n), ⟨k.pos + n, false⟩) := by
  unfold bsReadSigned
  rw [bsRead_ok e h]
  by_cases hn : n = 0 <;> simp [hn]

theorem bsReadSigned_exh (e : k.exh = true) : bsReadSigned src lim n k = (0, k) := by
  unfold bsReadSigned
  rw [bsRead_exh e]
  simp [e]

/-- Sign extension is decided by the final bit. -/
theorem sext_testBit {n v : Nat} (h : v < 2 ^ n) (hn : n ≠ 0) :
    sext n v = if v.testBit (n - 1) = true then (v : Int) - 2 ^ n else (v : Int) := by
  obtain ⟨m, rfl⟩ : ∃ m, n = m + 1 := ⟨n - 1, by omega⟩
  have e : v.testBit (m + 1 - 1) = decide (2 ^ m ≤ v) := by
    rw [Nat.add_sub_cancel, Nat.testBit_eq_decide_div_mod_eq]
    have p := Nat.two_pow_pos m
    rw [Nat.pow_succ] at h
    by_cases hv : 2 ^ m ≤ v
    · have : v / 2 ^ m = 1 := by
        rw [Nat.div_eq_iff p]
        omega
      simp [this, hv]
    · simp [Nat.div_eq_of_lt (Nat.lt_of_not_le hv), hv]
  rw [e, sext, Nat.pow_succ]
  by_cases hv : 2 ^ m ≤ v
  · rw [if_neg (by omega), if_pos (by simpa using hv)]
  · rw [if_pos (by omega), if_neg (by simpa using hv)]

/-! ### Writing bits (40_bitstream R136) -/

theorem getLsbD_putBit (v : Byte) (k j : Nat) (x : Bool) (hk : k < 8) (hj : j < 8) :
    (putBit v k x).getLsbD j = if j = k then x else v.getLsbD j := by
  have key : ∀ k : Fin 8, ∀ j : Fin 8, ∀ x : Bool,
      (putBit v k x).getLsbD j.val = if j = k then x else v.getLsbD j.val := by
    intro k j x
    unfold putBit
    fin_cases k <;> fin_cases j <;> cases x <;> simp
  have := key ⟨k, hk⟩ ⟨j, hj⟩ x
  simpa [Fin.ext_iff] using this

/-- Bits written at rising positions: the bits of every byte afterwards. -/
theorem getLsbD_writeBits (m : Mem 8) (base pos n v a j : Nat) (hj : j < 8) :
    (memGet (writeBits m base pos n v) a).getLsbD j =
      if base ≤ a ∧ pos ≤ 8 * (a - base) + j ∧ 8 * (a - base) + j < pos + n
      then v.testBit (8 * (a - base) + j - pos) else (memGet m a).getLsbD j := by
  induction n generalizing m pos v with
  | zero => rw [writeBits, if_neg (by omega)]
  | succ n ih =>
    rw [writeBits, ih, setFbBit, memGet_memSet]
    by_cases ha : a = base + pos / 8
    · rw [if_pos ha, getLsbD_putBit _ _ _ _ (Nat.mod_lt _ (by decide)) hj, ← ha]
      have hb : a - base = pos / 8 := by omega
      rw [hb]
      by_cases hp : j = pos % 8
      · rw [if_pos hp, if_neg (by omega), if_pos (by omega), show 8 * (pos / 8) + j - pos = 0 by omega, Nat.testBit_zero]
        rcases Nat.mod_two_eq_zero_or_one v with h | h <;> rw [h] <;> rfl
      · rw [if_neg hp]
        by_cases hc : base ≤ a ∧ pos + 1 ≤ 8 * (pos / 8) + j ∧ 8 * (pos / 8) + j < pos + 1 + n
        · rw [if_pos hc, if_pos (by omega), ← Nat.testBit_succ, show (8 * (pos / 8) + j - (pos + 1)).succ =
            8 * (pos / 8) + j - pos by omega]
        · rw [if_neg hc, if_neg (by omega)]
    · rw [if_neg ha]
      by_cases hc : base ≤ a ∧ pos + 1 ≤ 8 * (a - base) + j ∧ 8 * (a - base) + j < pos + 1 + n
      · rw [if_pos hc, if_pos (by omega), ← Nat.testBit_succ, show (8 * (a - base) + j - (pos + 1)).succ =
          8 * (a - base) + j - pos by omega]
      · rw [if_neg hc, if_neg (by omega)]

/-- The stream bits of the window after bits were written into it. -/
theorem fbBit_writeBits (m : Mem 8) (base pos n v b : Nat) :
    fbBit (writeBits m base pos n v) base b =
      if pos ≤ b ∧ b < pos + n then v.testBit (b - pos) else fbBit m base b := by
  unfold fbBit
  rw [getLsbD_writeBits _ _ _ _ _ _ _ (Nat.mod_lt _ (by decide))]
  have e : 8 * (base + b / 8 - base) + b % 8 = b := by omega
  rw [e]
  by_cases h : pos ≤ b ∧ b < pos + n
  · rw [if_pos ⟨by omega, h⟩, if_pos h]
  · rw [if_neg (fun c => h c.2), if_neg h]

/-! ### Bytes as one number (20_memory R76) -/

theorem testBit_bytesToNat (bs : List Byte) (i : Nat) :
    (bytesToNat bs).testBit i = (bs.getD (i / 8) 0).getLsbD (i % 8) := by
  induction bs generalizing i with
  | nil => simp [bytesToNat]
  | cons b rest ih =>
    have e : bytesToNat (b :: rest) = 2 ^ 8 * bytesToNat rest + b.toNat := by
      rw [bytesToNat]
      omega
    rw [e, Nat.testBit_two_pow_mul_add _ b.isLt]
    by_cases h : i < 8
    · rw [if_pos h, Nat.div_eq_of_lt h, Nat.mod_eq_of_lt h]
      rfl
    · rw [if_neg h, ih, show i / 8 = (i - 8) / 8 + 1 by omega, show (i - 8) % 8 = i % 8 by omega]
      rfl

theorem testBit_headerWord (m : Mem 8) (mbnum i : Nat) (h : i < 128) :
    (headerWord m mbnum).testBit i = fbBit m (headerAddr mbnum) i := by
  rw [headerWord, testBit_bytesToNat, memBytes, List.getD_eq_getElem?_getD, List.getElem?_map,
    List.getElem?_range (by omega)]
  rfl

/-- A slice of the header's number is the field of the stream (44_header_address R241). -/
theorem bitField_headerWord (m : Mem 8) (mbnum lo n : Nat) (h : lo + n ≤ 128) :
    bitField (headerWord m mbnum) lo n = fieldAt (fbSource m (headerAddr mbnum)) lo n := by
  refine eq_fieldAt (Nat.mod_lt _ (Nat.two_pow_pos n)) fun i hi => ?_
  rw [bitField, Nat.testBit_mod_two_pow, Nat.testBit_shiftRight, testBit_headerWord _ _ _ (by omega)]
  simp [hi, fbSource]

theorem bitField_lt (v lo n : Nat) : bitField v lo n < 2 ^ n := Nat.mod_lt _ (Nat.two_pow_pos n)

theorem isField_headerWord (s : State) (mbnum lo n : Nat) (h : lo + n ≤ 128) :
    IsField s (headerAddr mbnum) lo n (bitField (headerWord s.fb mbnum) lo n) := by
  rw [isField_iff, bitField_headerWord _ _ _ _ h]

end Sys2Proof.Machine
end

