-- ==== Sys2Proof/Laws/State.lean ====
section
/-! SUPPORT. One lemma per field of the state per update, and for the updates of the checker one lemma that says once
what they can change, so that no later proof unfolds a record update. -/

namespace Sys2Proof.Machine

variable (s : State)

/-! ### completeOp -/

@[simp] theorem completeOp_descValid (r : Results) : (completeOp s r).descValid = s.descValid := rfl
@[simp] theorem completeOp_desc (r : Results) : (completeOp s r).desc = s.desc := rfl
@[simp] theorem completeOp_cur (r : Results) : (completeOp s r).cur = s.cur := rfl
@[simp] theorem completeOp_codec (r : Results) : (completeOp s r).codec = s.codec := rfl
@[simp] theorem completeOp_hdr (r : Results) : (completeOp s r).hdr = s.hdr := rfl
@[simp] theorem completeOp_sb (r : Results) : (completeOp s r).sb = s.sb := rfl
@[simp] theorem completeOp_chk (r : Results) : (completeOp s r).chk = s.chk := rfl
@[simp] theorem completeOp_fat (r : Results) : (completeOp s r).fat = s.fat := rfl
@[simp] theorem completeOp_fb (r : Results) : (completeOp s r).fb = s.fb := rfl
@[simp] theorem completeOp_out (r : Results) : (completeOp s r).out = s.out := rfl
@[simp] theorem completeOp_fbPhys (r : Results) : (completeOp s r).fbPhys = s.fbPhys := rfl
@[simp] theorem completeOp_port (r : Results) : (completeOp s r).port = { s.port with res := r, status := .done } := rfl
@[simp] theorem completeOp_inbox (r : Results) : (completeOp s r).inbox = s.inbox := rfl
@[simp] theorem completeOp_free (r : Results) : (completeOp s r).free = s.free := rfl

/-! ### failOp -/

@[simp] theorem failOp_descValid (r : Results) : (failOp s r).descValid = s.descValid := rfl
@[simp] theorem failOp_desc (r : Results) : (failOp s r).desc = s.desc := rfl
@[simp] theorem failOp_cur (r : Results) : (failOp s r).cur = s.cur := rfl
@[simp] theorem failOp_codec (r : Results) : (failOp s r).codec = s.codec := rfl
@[simp] theorem failOp_hdr (r : Results) : (failOp s r).hdr = s.hdr := rfl
@[simp] theorem failOp_sb (r : Results) : (failOp s r).sb = s.sb := rfl
@[simp] theorem failOp_chk (r : Results) : (failOp s r).chk = s.chk := rfl
@[simp] theorem failOp_fat (r : Results) : (failOp s r).fat = s.fat := rfl
@[simp] theorem failOp_fb (r : Results) : (failOp s r).fb = s.fb := rfl
@[simp] theorem failOp_out (r : Results) : (failOp s r).out = s.out := rfl
@[simp] theorem failOp_fbPhys (r : Results) : (failOp s r).fbPhys = s.fbPhys := rfl
@[simp] theorem failOp_port (r : Results) : (failOp s r).port = { s.port with res := r, status := .failed } := rfl
@[simp] theorem failOp_inbox (r : Results) : (failOp s r).inbox = s.inbox := rfl
@[simp] theorem failOp_free (r : Results) : (failOp s r).free = s.free := rfl

/-! ### raiseFatal -/

@[simp] theorem raiseFatal_descValid (x : FatalCode) (r : Results) : (raiseFatal s x r).descValid = s.descValid := rfl
@[simp] theorem raiseFatal_desc (x : FatalCode) (r : Results) : (raiseFatal s x r).desc = s.desc := rfl
@[simp] theorem raiseFatal_cur (x : FatalCode) (r : Results) : (raiseFatal s x r).cur = s.cur := rfl
@[simp] theorem raiseFatal_codec (x : FatalCode) (r : Results) : (raiseFatal s x r).codec = s.codec := rfl
@[simp] theorem raiseFatal_hdr (x : FatalCode) (r : Results) : (raiseFatal s x r).hdr = s.hdr := rfl
@[simp] theorem raiseFatal_sb (x : FatalCode) (r : Results) : (raiseFatal s x r).sb = s.sb := rfl
@[simp] theorem raiseFatal_chk (x : FatalCode) (r : Results) : (raiseFatal s x r).chk = s.chk := rfl
@[simp] theorem raiseFatal_fat (x : FatalCode) (r : Results) : (raiseFatal s x r).fat = s.fat.after x s.sb.mbx s.sb.mby s.sb.slot := rfl
@[simp] theorem raiseFatal_fb (x : FatalCode) (r : Results) : (raiseFatal s x r).fb = s.fb := rfl
@[simp] theorem raiseFatal_out (x : FatalCode) (r : Results) : (raiseFatal s x r).out = s.out := rfl
@[simp] theorem raiseFatal_fbPhys (x : FatalCode) (r : Results) : (raiseFatal s x r).fbPhys = s.fbPhys := rfl
@[simp] theorem raiseFatal_port (x : FatalCode) (r : Results) : (raiseFatal s x r).port = { s.port with res := r, status := .failed } := rfl
@[simp] theorem raiseFatal_inbox (x : FatalCode) (r : Results) : (raiseFatal s x r).inbox = s.inbox := rfl
@[simp] theorem raiseFatal_free (x : FatalCode) (r : Results) : (raiseFatal s x r).free = s.free := rfl

/-! ### startCursor -/

@[simp] theorem startCursor_descValid : (startCursor s).descValid = s.descValid := rfl
@[simp] theorem startCursor_desc : (startCursor s).desc = s.desc := rfl
@[simp] theorem startCursor_cur : (startCursor s).cur = ⟨0, false⟩ := rfl
@[simp] theorem startCursor_codec : (startCursor s).codec = s.codec := rfl
@[simp] theorem startCursor_hdr : (startCursor s).hdr = s.hdr := rfl
@[simp] theorem startCursor_sb : (startCursor s).sb = s.sb := rfl
@[simp] theorem startCursor_chk : (startCursor s).chk = s.chk := rfl
@[simp] theorem startCursor_fat : (startCursor s).fat = s.fat := rfl
@[simp] theorem startCursor_fb : (startCursor s).fb = s.fb := rfl
@[simp] theorem startCursor_out : (startCursor s).out = s.out := rfl
@[simp] theorem startCursor_fbPhys : (startCursor s).fbPhys = s.fbPhys := rfl
@[simp] theorem startCursor_port : (startCursor s).port = s.port := rfl
@[simp] theorem startCursor_inbox : (startCursor s).inbox = s.inbox := rfl
@[simp] theorem startCursor_free : (startCursor s).free = s.free := rfl

/-! ### clearFrame -/

@[simp] theorem clearFrame_descValid : (clearFrame s).descValid = s.descValid := rfl
@[simp] theorem clearFrame_desc : (clearFrame s).desc = s.desc := rfl
@[simp] theorem clearFrame_cur : (clearFrame s).cur = ⟨0, false⟩ := rfl
@[simp] theorem clearFrame_codec : (clearFrame s).codec = s.codec := rfl
@[simp] theorem clearFrame_hdr : (clearFrame s).hdr = s.hdr := rfl
@[simp] theorem clearFrame_sb : (clearFrame s).sb = { s.sb with mbx := 0, mby := 0, mbnum := 0, slot := 0 } := rfl
@[simp] theorem clearFrame_chk : (clearFrame s).chk = { s.chk with foundError := false, violMask := 0, vlist := [], sparseFirstValid := false, stripeBins := [] } := rfl
@[simp] theorem clearFrame_fat : (clearFrame s).fat = ⟨0, 0, 0, 0⟩ := rfl
@[simp] theorem clearFrame_fb : (clearFrame s).fb = s.fb := rfl
@[simp] theorem clearFrame_out : (clearFrame s).out = s.out := rfl
@[simp] theorem clearFrame_fbPhys : (clearFrame s).fbPhys = s.fbPhys := rfl
@[simp] theorem clearFrame_port : (clearFrame s).port = s.port := rfl
@[simp] theorem clearFrame_inbox : (clearFrame s).inbox = s.inbox := rfl
@[simp] theorem clearFrame_free : (clearFrame s).free = s.free := rfl

/-! ### recordViol -/

@[simp] theorem recordViol_descValid (x : Viol) (c : Nat) : (recordViol s x c).descValid = s.descValid := rfl
@[simp] theorem recordViol_desc (x : Viol) (c : Nat) : (recordViol s x c).desc = s.desc := rfl
@[simp] theorem recordViol_cur (x : Viol) (c : Nat) : (recordViol s x c).cur = s.cur := rfl
@[simp] theorem recordViol_codec (x : Viol) (c : Nat) : (recordViol s x c).codec = s.codec := rfl
@[simp] theorem recordViol_hdr (x : Viol) (c : Nat) : (recordViol s x c).hdr = s.hdr := rfl
@[simp] theorem recordViol_sb (x : Viol) (c : Nat) : (recordViol s x c).sb = s.sb := rfl
@[simp] theorem recordViol_fat (x : Viol) (c : Nat) : (recordViol s x c).fat = s.fat := rfl
@[simp] theorem recordViol_fb (x : Viol) (c : Nat) : (recordViol s x c).fb = s.fb := rfl
@[simp] theorem recordViol_out (x : Viol) (c : Nat) : (recordViol s x c).out = s.out := rfl
@[simp] theorem recordViol_fbPhys (x : Viol) (c : Nat) : (recordViol s x c).fbPhys = s.fbPhys := rfl
@[simp] theorem recordViol_port (x : Viol) (c : Nat) : (recordViol s x c).port = s.port := rfl
@[simp] theorem recordViol_inbox (x : Viol) (c : Nat) : (recordViol s x c).inbox = s.inbox := rfl
@[simp] theorem recordViol_free (x : Viol) (c : Nat) : (recordViol s x c).free = s.free := rfl

/-! ### losePos -/

@[simp] theorem losePos_descValid : (losePos s).descValid = s.descValid := rfl
@[simp] theorem losePos_desc : (losePos s).desc = s.desc := rfl
@[simp] theorem losePos_cur : (losePos s).cur = s.cur.lose s.free := rfl
@[simp] theorem losePos_codec : (losePos s).codec = s.codec := rfl
@[simp] theorem losePos_hdr : (losePos s).hdr = s.hdr := rfl
@[simp] theorem losePos_sb : (losePos s).sb = s.sb := rfl
@[simp] theorem losePos_chk : (losePos s).chk = s.chk := rfl
@[simp] theorem losePos_fat : (losePos s).fat = s.fat := rfl
@[simp] theorem losePos_fb : (losePos s).fb = s.fb := rfl
@[simp] theorem losePos_out : (losePos s).out = s.out := rfl
@[simp] theorem losePos_fbPhys : (losePos s).fbPhys = s.fbPhys := rfl
@[simp] theorem losePos_port : (losePos s).port = s.port := rfl
@[simp] theorem losePos_inbox : (losePos s).inbox = s.inbox := rfl
@[simp] theorem losePos_free : (losePos s).free = s.free + 1 := rfl

/-! ### loseCodec -/

@[simp] theorem loseCodec_descValid (cs : List (Fin 4)) (b t : Bool) : (loseCodec s cs b t).descValid = s.descValid := rfl
@[simp] theorem loseCodec_desc (cs : List (Fin 4)) (b t : Bool) : (loseCodec s cs b t).desc = s.desc := rfl
@[simp] theorem loseCodec_cur (cs : List (Fin 4)) (b t : Bool) : (loseCodec s cs b t).cur = s.cur.lose s.free := rfl
@[simp] theorem loseCodec_codec (cs : List (Fin 4)) (b t : Bool) : (loseCodec s cs b t).codec = s.codec.lose cs s.free b t := rfl
@[simp] theorem loseCodec_hdr (cs : List (Fin 4)) (b t : Bool) : (loseCodec s cs b t).hdr = s.hdr := rfl
@[simp] theorem loseCodec_sb (cs : List (Fin 4)) (b t : Bool) : (loseCodec s cs b t).sb = s.sb := rfl
@[simp] theorem loseCodec_chk (cs : List (Fin 4)) (b t : Bool) : (loseCodec s cs b t).chk = s.chk := rfl
@[simp] theorem loseCodec_fat (cs : List (Fin 4)) (b t : Bool) : (loseCodec s cs b t).fat = s.fat := rfl
@[simp] theorem loseCodec_fb (cs : List (Fin 4)) (b t : Bool) : (loseCodec s cs b t).fb = s.fb := rfl
@[simp] theorem loseCodec_out (cs : List (Fin 4)) (b t : Bool) : (loseCodec s cs b t).out = s.out := rfl
@[simp] theorem loseCodec_fbPhys (cs : List (Fin 4)) (b t : Bool) : (loseCodec s cs b t).fbPhys = s.fbPhys := rfl
@[simp] theorem loseCodec_port (cs : List (Fin 4)) (b t : Bool) : (loseCodec s cs b t).port = s.port := rfl
@[simp] theorem loseCodec_inbox (cs : List (Fin 4)) (b t : Bool) : (loseCodec s cs b t).inbox = s.inbox := rfl
@[simp] theorem loseCodec_free (cs : List (Fin 4)) (b t : Bool) : (loseCodec s cs b t).free = s.free + 1 := rfl

/-! ### loseHdr -/

@[simp] theorem loseHdr_descValid : (loseHdr s).descValid = s.descValid := rfl
@[simp] theorem loseHdr_desc : (loseHdr s).desc = s.desc := rfl
@[simp] theorem loseHdr_cur : (loseHdr s).cur = s.cur.lose s.free := rfl
@[simp] theorem loseHdr_codec : (loseHdr s).codec = s.codec := rfl
@[simp] theorem loseHdr_hdr : (loseHdr s).hdr = Hdr.lose s.free := rfl
@[simp] theorem loseHdr_sb : (loseHdr s).sb = s.sb := rfl
@[simp] theorem loseHdr_chk : (loseHdr s).chk = s.chk := rfl
@[simp] theorem loseHdr_fat : (loseHdr s).fat = s.fat := rfl
@[simp] theorem loseHdr_fb : (loseHdr s).fb = s.fb := rfl
@[simp] theorem loseHdr_out : (loseHdr s).out = s.out := rfl
@[simp] theorem loseHdr_fbPhys : (loseHdr s).fbPhys = s.fbPhys := rfl
@[simp] theorem loseHdr_port : (loseHdr s).port = s.port := rfl
@[simp] theorem loseHdr_inbox : (loseHdr s).inbox = s.inbox := rfl
@[simp] theorem loseHdr_free : (loseHdr s).free = s.free + 1 := rfl

/-! ### loseAll -/

@[simp] theorem loseAll_descValid : (loseAll s).descValid = s.descValid := rfl
@[simp] theorem loseAll_desc : (loseAll s).desc = s.desc := rfl
@[simp] theorem loseAll_cur : (loseAll s).cur = s.cur.lose s.free := rfl
@[simp] theorem loseAll_hdr : (loseAll s).hdr = Hdr.lose s.free := rfl
@[simp] theorem loseAll_sb : (loseAll s).sb = { s.sb with sblk := Config.freeSblk s.free } := rfl
@[simp] theorem loseAll_chk : (loseAll s).chk = s.chk := rfl
@[simp] theorem loseAll_fat : (loseAll s).fat = s.fat := rfl
@[simp] theorem loseAll_fb : (loseAll s).fb = s.fb := rfl
@[simp] theorem loseAll_out : (loseAll s).out = s.out := rfl
@[simp] theorem loseAll_fbPhys : (loseAll s).fbPhys = s.fbPhys := rfl
@[simp] theorem loseAll_port : (loseAll s).port = s.port := rfl
@[simp] theorem loseAll_inbox : (loseAll s).inbox = s.inbox := rfl
@[simp] theorem loseAll_free : (loseAll s).free = s.free + 1 := rfl

/-! ### setCoords -/

@[simp] theorem setCoords_descValid (x y : Nat) : (setCoords s x y).descValid = s.descValid := rfl
@[simp] theorem setCoords_desc (x y : Nat) : (setCoords s x y).desc = s.desc := rfl
@[simp] theorem setCoords_cur (x y : Nat) : (setCoords s x y).cur = s.cur := rfl
@[simp] theorem setCoords_codec (x y : Nat) : (setCoords s x y).codec = s.codec := rfl
@[simp] theorem setCoords_hdr (x y : Nat) : (setCoords s x y).hdr = s.hdr := rfl
@[simp] theorem setCoords_sb (x y : Nat) : (setCoords s x y).sb = { s.sb with mbx := x, mby := y, mbnum := mbnumOf s.desc x y } := rfl
@[simp] theorem setCoords_chk (x y : Nat) : (setCoords s x y).chk = s.chk := rfl
@[simp] theorem setCoords_fat (x y : Nat) : (setCoords s x y).fat = s.fat := rfl
@[simp] theorem setCoords_fb (x y : Nat) : (setCoords s x y).fb = s.fb := rfl
@[simp] theorem setCoords_out (x y : Nat) : (setCoords s x y).out = s.out := rfl
@[simp] theorem setCoords_fbPhys (x y : Nat) : (setCoords s x y).fbPhys = s.fbPhys := rfl
@[simp] theorem setCoords_port (x y : Nat) : (setCoords s x y).port = s.port := rfl
@[simp] theorem setCoords_inbox (x y : Nat) : (setCoords s x y).inbox = s.inbox := rfl
@[simp] theorem setCoords_free (x y : Nat) : (setCoords s x y).free = s.free := rfl

/-! ### place -/

@[simp] theorem place_descValid (sl : Slot) : (place s sl).descValid = s.descValid := rfl
@[simp] theorem place_desc (sl : Slot) : (place s sl).desc = s.desc := rfl
@[simp] theorem place_cur (sl : Slot) : (place s sl).cur = s.cur := rfl
@[simp] theorem place_codec (sl : Slot) : (place s sl).codec = s.codec := rfl
@[simp] theorem place_hdr (sl : Slot) : (place s sl).hdr = s.hdr := rfl
@[simp] theorem place_sb (sl : Slot) : (place s sl).sb = { s.sb with sblk := placed s sl } := rfl
@[simp] theorem place_chk (sl : Slot) : (place s sl).chk = s.chk := rfl
@[simp] theorem place_fat (sl : Slot) : (place s sl).fat = s.fat := rfl
@[simp] theorem place_fb (sl : Slot) : (place s sl).fb = s.fb := rfl
@[simp] theorem place_out (sl : Slot) : (place s sl).out = s.out := rfl
@[simp] theorem place_fbPhys (sl : Slot) : (place s sl).fbPhys = s.fbPhys := rfl
@[simp] theorem place_port (sl : Slot) : (place s sl).port = s.port := rfl
@[simp] theorem place_inbox (sl : Slot) : (place s sl).inbox = s.inbox := rfl
@[simp] theorem place_free (sl : Slot) : (place s sl).free = s.free := rfl

/-! ### fillSolid -/

@[simp] theorem fillSolid_descValid : (fillSolid s).descValid = s.descValid := rfl
@[simp] theorem fillSolid_desc : (fillSolid s).desc = s.desc := rfl
@[simp] theorem fillSolid_cur : (fillSolid s).cur = s.cur := rfl
@[simp] theorem fillSolid_codec : (fillSolid s).codec = s.codec := rfl
@[simp] theorem fillSolid_hdr : (fillSolid s).hdr = s.hdr := rfl
@[simp] theorem fillSolid_sb : (fillSolid s).sb = { s.sb with sblk := solidRows s } := rfl
@[simp] theorem fillSolid_chk : (fillSolid s).chk = s.chk := rfl
@[simp] theorem fillSolid_fat : (fillSolid s).fat = s.fat := rfl
@[simp] theorem fillSolid_fb : (fillSolid s).fb = s.fb := rfl
@[simp] theorem fillSolid_out : (fillSolid s).out = s.out := rfl
@[simp] theorem fillSolid_fbPhys : (fillSolid s).fbPhys = s.fbPhys := rfl
@[simp] theorem fillSolid_port : (fillSolid s).port = s.port := rfl
@[simp] theorem fillSolid_inbox : (fillSolid s).inbox = s.inbox := rfl
@[simp] theorem fillSolid_free : (fillSolid s).free = s.free := rfl

/-! ### fetch -/

@[simp] theorem fetch_descValid : (fetch s).descValid = s.descValid := rfl
@[simp] theorem fetch_desc : (fetch s).desc = s.desc := rfl
@[simp] theorem fetch_cur : (fetch s).cur = s.cur := rfl
@[simp] theorem fetch_codec : (fetch s).codec = s.codec := rfl
@[simp] theorem fetch_hdr : (fetch s).hdr = s.hdr := rfl
@[simp] theorem fetch_sb : (fetch s).sb = { s.sb with sblk := fetchedRows s } := rfl
@[simp] theorem fetch_chk : (fetch s).chk = s.chk := rfl
@[simp] theorem fetch_fat : (fetch s).fat = s.fat := rfl
@[simp] theorem fetch_fb : (fetch s).fb = s.fb := rfl
@[simp] theorem fetch_out : (fetch s).out = s.out := rfl
@[simp] theorem fetch_fbPhys : (fetch s).fbPhys = s.fbPhys := rfl
@[simp] theorem fetch_port : (fetch s).port = s.port := rfl
@[simp] theorem fetch_inbox : (fetch s).inbox = s.inbox := rfl
@[simp] theorem fetch_free : (fetch s).free = s.free := rfl

/-! ### zeroBlock -/

@[simp] theorem zeroBlock_descValid (p : Fin 2) : (zeroBlock s p).descValid = s.descValid := rfl
@[simp] theorem zeroBlock_desc (p : Fin 2) : (zeroBlock s p).desc = s.desc := rfl
@[simp] theorem zeroBlock_cur (p : Fin 2) : (zeroBlock s p).cur = s.cur := rfl
@[simp] theorem zeroBlock_hdr (p : Fin 2) : (zeroBlock s p).hdr = s.hdr := rfl
@[simp] theorem zeroBlock_sb (p : Fin 2) : (zeroBlock s p).sb = s.sb := rfl
@[simp] theorem zeroBlock_chk (p : Fin 2) : (zeroBlock s p).chk = s.chk := rfl
@[simp] theorem zeroBlock_fat (p : Fin 2) : (zeroBlock s p).fat = s.fat := rfl
@[simp] theorem zeroBlock_fb (p : Fin 2) : (zeroBlock s p).fb = s.fb := rfl
@[simp] theorem zeroBlock_out (p : Fin 2) : (zeroBlock s p).out = s.out := rfl
@[simp] theorem zeroBlock_fbPhys (p : Fin 2) : (zeroBlock s p).fbPhys = s.fbPhys := rfl
@[simp] theorem zeroBlock_port (p : Fin 2) : (zeroBlock s p).port = s.port := rfl
@[simp] theorem zeroBlock_inbox (p : Fin 2) : (zeroBlock s p).inbox = s.inbox := rfl
@[simp] theorem zeroBlock_free (p : Fin 2) : (zeroBlock s p).free = s.free := rfl

/-! ### loadBlock -/

@[simp] theorem loadBlock_descValid (sl : Slot) : (loadBlock s sl).descValid = s.descValid := rfl
@[simp] theorem loadBlock_desc (sl : Slot) : (loadBlock s sl).desc = s.desc := rfl
@[simp] theorem loadBlock_cur (sl : Slot) : (loadBlock s sl).cur = s.cur := rfl
@[simp] theorem loadBlock_hdr (sl : Slot) : (loadBlock s sl).hdr = s.hdr := rfl
@[simp] theorem loadBlock_sb (sl : Slot) : (loadBlock s sl).sb = s.sb := rfl
@[simp] theorem loadBlock_chk (sl : Slot) : (loadBlock s sl).chk = s.chk := rfl
@[simp] theorem loadBlock_fat (sl : Slot) : (loadBlock s sl).fat = s.fat := rfl
@[simp] theorem loadBlock_fb (sl : Slot) : (loadBlock s sl).fb = s.fb := rfl
@[simp] theorem loadBlock_out (sl : Slot) : (loadBlock s sl).out = s.out := rfl
@[simp] theorem loadBlock_fbPhys (sl : Slot) : (loadBlock s sl).fbPhys = s.fbPhys := rfl
@[simp] theorem loadBlock_port (sl : Slot) : (loadBlock s sl).port = s.port := rfl
@[simp] theorem loadBlock_inbox (sl : Slot) : (loadBlock s sl).inbox = s.inbox := rfl
@[simp] theorem loadBlock_free (sl : Slot) : (loadBlock s sl).free = s.free := rfl

/-! ### writeback -/

@[simp] theorem writeback_descValid : (writeback s).descValid = s.descValid := rfl
@[simp] theorem writeback_desc : (writeback s).desc = s.desc := rfl
@[simp] theorem writeback_cur : (writeback s).cur = s.cur := rfl
@[simp] theorem writeback_codec : (writeback s).codec = s.codec := rfl
@[simp] theorem writeback_hdr : (writeback s).hdr = s.hdr := rfl
@[simp] theorem writeback_sb : (writeback s).sb = s.sb := rfl
@[simp] theorem writeback_chk : (writeback s).chk = s.chk := rfl
@[simp] theorem writeback_fat : (writeback s).fat = s.fat := rfl
@[simp] theorem writeback_fb : (writeback s).fb = s.fb := rfl
@[simp] theorem writeback_out : (writeback s).out = (planeComps s.desc).foldl (writeComp s) s.out := rfl
@[simp] theorem writeback_fbPhys : (writeback s).fbPhys = s.fbPhys := rfl
@[simp] theorem writeback_port : (writeback s).port = s.port := rfl
@[simp] theorem writeback_inbox : (writeback s).inbox = s.inbox := rfl
@[simp] theorem writeback_free : (writeback s).free = s.free := rfl

/-! ### loseOut -/

@[simp] theorem loseOut_descValid : (loseOut s).descValid = s.descValid := rfl
@[simp] theorem loseOut_desc : (loseOut s).desc = s.desc := rfl
@[simp] theorem loseOut_cur : (loseOut s).cur = s.cur := rfl
@[simp] theorem loseOut_codec : (loseOut s).codec = s.codec := rfl
@[simp] theorem loseOut_hdr : (loseOut s).hdr = s.hdr := rfl
@[simp] theorem loseOut_sb : (loseOut s).sb = s.sb := rfl
@[simp] theorem loseOut_chk : (loseOut s).chk = s.chk := rfl
@[simp] theorem loseOut_fat : (loseOut s).fat = s.fat := rfl
@[simp] theorem loseOut_fb : (loseOut s).fb = s.fb := rfl
@[simp] theorem loseOut_out :
    (loseOut s).out = (writeback { s with sb := { s.sb with sblk := Config.freeOut s.free } }).out := rfl
@[simp] theorem loseOut_fbPhys : (loseOut s).fbPhys = s.fbPhys := rfl
@[simp] theorem loseOut_port : (loseOut s).port = s.port := rfl
@[simp] theorem loseOut_inbox : (loseOut s).inbox = s.inbox := rfl
@[simp] theorem loseOut_free : (loseOut s).free = s.free := rfl

/-! ### The checker: nothing but `chk` changes (60_exceptions R316), and its records only grow (10_state R45, R46) -/

/-- `k'` is `k` with violations added: `VIOL_MASK` has more bits, none of them reserved, `FOUND_ERROR` is set with them,
and there are as many stripe bins as before. -/
def Grows (k k' : Checker) : Prop :=
  (∃ m : BitVec 16, m.toNat < 2 ^ 11 ∧ k'.violMask = k.violMask ||| m ∧
    k'.foundError = (k.foundError || decide (m ≠ 0))) ∧ k'.stripeBins.length = k.stripeBins.length

theorem Grows.refl (k : Checker) : Grows k k := ⟨⟨0, by decide, by simp, by simp⟩, rfl⟩

theorem or_lt_two_pow {m n : BitVec 16} (hm : m.toNat < 2 ^ 11) (hn : n.toNat < 2 ^ 11) : (m ||| n).toNat < 2 ^ 11 := by
  rw [BitVec.toNat_or]
  exact Nat.or_lt_two_pow hm hn

theorem or_ne_zero_iff (m n : BitVec 16) : m ||| n ≠ 0 ↔ m ≠ 0 ∨ n ≠ 0 := by
  exact (not_congr BitVec.or_eq_zero_iff).trans not_and_or

theorem Grows.trans {k l n : Checker} (h : Grows k l) (g : Grows l n) : Grows k n := by
  obtain ⟨⟨m, hm, e1, e2⟩, e3⟩ := h
  obtain ⟨⟨m', hm', e1', e2'⟩, e3'⟩ := g
  refine ⟨⟨m ||| m', or_lt_two_pow hm hm', by rw [e1', e1, BitVec.or_assoc], ?_⟩, e3'.trans e3⟩
  rw [e2', e2, Bool.or_assoc, decide_eq_decide.mpr (or_ne_zero_iff m m'), Bool.decide_or]

/-- Whatever the rest of the checker: the same violations and as many bins. -/
theorem Grows.of_eq {k k' : Checker} (h1 : k'.violMask = k.violMask) (h2 : k'.foundError = k.foundError)
    (h3 : k'.stripeBins.length = k.stripeBins.length) : Grows k k' :=
  ⟨⟨0, by decide, by simp [h1], by simp [h2]⟩, h3⟩

/-- `t` is `s` with a checker that has grown. -/
structure OnlyChk (s t : State) : Prop where
  grows : Grows s.chk t.chk
  same : t = { s with chk := t.chk }

theorem OnlyChk.refl : OnlyChk s s := ⟨.refl _, rfl⟩

theorem OnlyChk.trans {s t u : State} (h : OnlyChk s t) (g : OnlyChk t u) : OnlyChk s u := by
  refine ⟨h.grows.trans g.grows, ?_⟩
  rw [g.same, h.same]

theorem OnlyChk.ite {s t u : State} {p : Prop} [Decidable p] (h : OnlyChk s t) (g : OnlyChk s u) :
    OnlyChk s (if p then t else u) := by
  split
  · exact h
  · exact g

/-- `recordViol` changes the checker only. -/
theorem recordViol_only_chk (x : Viol) (c : Nat) : OnlyChk s (recordViol s x c) := by
  refine ⟨⟨⟨x.mask, ?_, rfl, ?_⟩, rfl⟩, rfl⟩
  · cases x <;> decide
  · have h : x.mask ≠ 0 := by cases x <;> decide
    rw [decide_eq_true h, Bool.or_true]
    rfl

/-- `flagV` changes the checker only. -/
theorem flagV_only_chk (x : Viol) (c : Nat) : OnlyChk s (flagV s x c) := by
  exact .ite (recordViol_only_chk s x c) (.refl s)

@[simp] theorem flagV_descValid (x : Viol) (c : Nat) : (flagV s x c).descValid = s.descValid := by
  rw [(flagV_only_chk s x c).same]
@[simp] theorem flagV_desc (x : Viol) (c : Nat) : (flagV s x c).desc = s.desc := by
  rw [(flagV_only_chk s x c).same]
@[simp] theorem flagV_cur (x : Viol) (c : Nat) : (flagV s x c).cur = s.cur := by
  rw [(flagV_only_chk s x c).same]
@[simp] theorem flagV_codec (x : Viol) (c : Nat) : (flagV s x c).codec = s.codec := by
  rw [(flagV_only_chk s x c).same]
@[simp] theorem flagV_hdr (x : Viol) (c : Nat) : (flagV s x c).hdr = s.hdr := by
  rw [(flagV_only_chk s x c).same]
@[simp] theorem flagV_sb (x : Viol) (c : Nat) : (flagV s x c).sb = s.sb := by
  rw [(flagV_only_chk s x c).same]
@[simp] theorem flagV_fat (x : Viol) (c : Nat) : (flagV s x c).fat = s.fat := by
  rw [(flagV_only_chk s x c).same]
@[simp] theorem flagV_fb (x : Viol) (c : Nat) : (flagV s x c).fb = s.fb := by
  rw [(flagV_only_chk s x c).same]
@[simp] theorem flagV_out (x : Viol) (c : Nat) : (flagV s x c).out = s.out := by
  rw [(flagV_only_chk s x c).same]
@[simp] theorem flagV_fbPhys (x : Viol) (c : Nat) : (flagV s x c).fbPhys = s.fbPhys := by
  rw [(flagV_only_chk s x c).same]
@[simp] theorem flagV_port (x : Viol) (c : Nat) : (flagV s x c).port = s.port := by
  rw [(flagV_only_chk s x c).same]
@[simp] theorem flagV_inbox (x : Viol) (c : Nat) : (flagV s x c).inbox = s.inbox := by
  rw [(flagV_only_chk s x c).same]
@[simp] theorem flagV_free (x : Viol) (c : Nat) : (flagV s x c).free = s.free := by
  rw [(flagV_only_chk s x c).same]

/-- `flagAll` changes the checker only. -/
theorem flagAll_only_chk (l : List (Viol × Nat)) : OnlyChk s (flagAll s l) := by
  induction l generalizing s with
  | nil => exact .refl s
  | cons v rest ih => exact (flagV_only_chk s _ _).trans (ih _)

@[simp] theorem flagAll_descValid (l : List (Viol × Nat)) : (flagAll s l).descValid = s.descValid := by
  rw [(flagAll_only_chk s l).same]
@[simp] theorem flagAll_desc (l : List (Viol × Nat)) : (flagAll s l).desc = s.desc := by
  rw [(flagAll_only_chk s l).same]
@[simp] theorem flagAll_cur (l : List (Viol × Nat)) : (flagAll s l).cur = s.cur := by
  rw [(flagAll_only_chk s l).same]
@[simp] theorem flagAll_codec (l : List (Viol × Nat)) : (flagAll s l).codec = s.codec := by
  rw [(flagAll_only_chk s l).same]
@[simp] theorem flagAll_hdr (l : List (Viol × Nat)) : (flagAll s l).hdr = s.hdr := by
  rw [(flagAll_only_chk s l).same]
@[simp] theorem flagAll_sb (l : List (Viol × Nat)) : (flagAll s l).sb = s.sb := by
  rw [(flagAll_only_chk s l).same]
@[simp] theorem flagAll_fat (l : List (Viol × Nat)) : (flagAll s l).fat = s.fat := by
  rw [(flagAll_only_chk s l).same]
@[simp] theorem flagAll_fb (l : List (Viol × Nat)) : (flagAll s l).fb = s.fb := by
  rw [(flagAll_only_chk s l).same]
@[simp] theorem flagAll_out (l : List (Viol × Nat)) : (flagAll s l).out = s.out := by
  rw [(flagAll_only_chk s l).same]
@[simp] theorem flagAll_fbPhys (l : List (Viol × Nat)) : (flagAll s l).fbPhys = s.fbPhys := by
  rw [(flagAll_only_chk s l).same]
@[simp] theorem flagAll_port (l : List (Viol × Nat)) : (flagAll s l).port = s.port := by
  rw [(flagAll_only_chk s l).same]
@[simp] theorem flagAll_inbox (l : List (Viol × Nat)) : (flagAll s l).inbox = s.inbox := by
  rw [(flagAll_only_chk s l).same]
@[simp] theorem flagAll_free (l : List (Viol × Nat)) : (flagAll s l).free = s.free := by
  rw [(flagAll_only_chk s l).same]

/-- `sizeCheck` changes the checker only. -/
theorem sizeCheck_only_chk (slot n : Nat) (p : Fin 2) : OnlyChk s (sizeCheck s slot n p) := by
  unfold sizeCheck
  exact .ite (flagV_only_chk s _ _) (.refl s)

@[simp] theorem sizeCheck_descValid (slot n : Nat) (p : Fin 2) : (sizeCheck s slot n p).descValid = s.descValid := by
  rw [(sizeCheck_only_chk s slot n p).same]
@[simp] theorem sizeCheck_desc (slot n : Nat) (p : Fin 2) : (sizeCheck s slot n p).desc = s.desc := by
  rw [(sizeCheck_only_chk s slot n p).same]
@[simp] theorem sizeCheck_cur (slot n : Nat) (p : Fin 2) : (sizeCheck s slot n p).cur = s.cur := by
  rw [(sizeCheck_only_chk s slot n p).same]
@[simp] theorem sizeCheck_codec (slot n : Nat) (p : Fin 2) : (sizeCheck s slot n p).codec = s.codec := by
  rw [(sizeCheck_only_chk s slot n p).same]
@[simp] theorem sizeCheck_hdr (slot n : Nat) (p : Fin 2) : (sizeCheck s slot n p).hdr = s.hdr := by
  rw [(sizeCheck_only_chk s slot n p).same]
@[simp] theorem sizeCheck_sb (slot n : Nat) (p : Fin 2) : (sizeCheck s slot n p).sb = s.sb := by
  rw [(sizeCheck_only_chk s slot n p).same]
@[simp] theorem sizeCheck_fat (slot n : Nat) (p : Fin 2) : (sizeCheck s slot n p).fat = s.fat := by
  rw [(sizeCheck_only_chk s slot n p).same]
@[simp] theorem sizeCheck_fb (slot n : Nat) (p : Fin 2) : (sizeCheck s slot n p).fb = s.fb := by
  rw [(sizeCheck_only_chk s slot n p).same]
@[simp] theorem sizeCheck_out (slot n : Nat) (p : Fin 2) : (sizeCheck s slot n p).out = s.out := by
  rw [(sizeCheck_only_chk s slot n p).same]
@[simp] theorem sizeCheck_fbPhys (slot n : Nat) (p : Fin 2) : (sizeCheck s slot n p).fbPhys = s.fbPhys := by
  rw [(sizeCheck_only_chk s slot n p).same]
@[simp] theorem sizeCheck_port (slot n : Nat) (p : Fin 2) : (sizeCheck s slot n p).port = s.port := by
  rw [(sizeCheck_only_chk s slot n p).same]
@[simp] theorem sizeCheck_inbox (slot n : Nat) (p : Fin 2) : (sizeCheck s slot n p).inbox = s.inbox := by
  rw [(sizeCheck_only_chk s slot n p).same]
@[simp] theorem sizeCheck_free (slot n : Nat) (p : Fin 2) : (sizeCheck s slot n p).free = s.free := by
  rw [(sizeCheck_only_chk s slot n p).same]

/-- `sparseCheck` changes the checker only. -/
theorem sparseCheck_only_chk (ptr : Nat) : OnlyChk s (sparseCheck s ptr) := by
  have h : OnlyChk s (if s.chk.sparseFirstValid then s
      else { s with chk := { s.chk with sparseFirst := ptr, sparseFirstValid := true } }) :=
    .ite (.refl s) ⟨.of_eq rfl rfl rfl, rfl⟩
  exact .ite (h.trans (flagV_only_chk _ _ _)) h

@[simp] theorem sparseCheck_descValid (ptr : Nat) : (sparseCheck s ptr).descValid = s.descValid := by
  rw [(sparseCheck_only_chk s ptr).same]
@[simp] theorem sparseCheck_desc (ptr : Nat) : (sparseCheck s ptr).desc = s.desc := by
  rw [(sparseCheck_only_chk s ptr).same]
@[simp] theorem sparseCheck_cur (ptr : Nat) : (sparseCheck s ptr).cur = s.cur := by
  rw [(sparseCheck_only_chk s ptr).same]
@[simp] theorem sparseCheck_codec (ptr : Nat) : (sparseCheck s ptr).codec = s.codec := by
  rw [(sparseCheck_only_chk s ptr).same]
@[simp] theorem sparseCheck_hdr (ptr : Nat) : (sparseCheck s ptr).hdr = s.hdr := by
  rw [(sparseCheck_only_chk s ptr).same]
@[simp] theorem sparseCheck_sb (ptr : Nat) : (sparseCheck s ptr).sb = s.sb := by
  rw [(sparseCheck_only_chk s ptr).same]
@[simp] theorem sparseCheck_fat (ptr : Nat) : (sparseCheck s ptr).fat = s.fat := by
  rw [(sparseCheck_only_chk s ptr).same]
@[simp] theorem sparseCheck_fb (ptr : Nat) : (sparseCheck s ptr).fb = s.fb := by
  rw [(sparseCheck_only_chk s ptr).same]
@[simp] theorem sparseCheck_out (ptr : Nat) : (sparseCheck s ptr).out = s.out := by
  rw [(sparseCheck_only_chk s ptr).same]
@[simp] theorem sparseCheck_fbPhys (ptr : Nat) : (sparseCheck s ptr).fbPhys = s.fbPhys := by
  rw [(sparseCheck_only_chk s ptr).same]
@[simp] theorem sparseCheck_port (ptr : Nat) : (sparseCheck s ptr).port = s.port := by
  rw [(sparseCheck_only_chk s ptr).same]
@[simp] theorem sparseCheck_inbox (ptr : Nat) : (sparseCheck s ptr).inbox = s.inbox := by
  rw [(sparseCheck_only_chk s ptr).same]
@[simp] theorem sparseCheck_free (ptr : Nat) : (sparseCheck s ptr).free = s.free := by
  rw [(sparseCheck_only_chk s ptr).same]

/-- `stripeClose` changes the checker only. -/
theorem stripeClose_only_chk (b : StripeBin) : OnlyChk s (stripeClose s b) := by
  have h := OnlyChk.ite (p := stripeRows s.desc * s.desc.mbw * s.desc.maxpay < b.hi - b.lo)
    (flagV_only_chk s .stripeSpan 0) (.refl s)
  exact .ite (h.trans (flagV_only_chk _ _ _)) h

@[simp] theorem stripeClose_descValid (b : StripeBin) : (stripeClose s b).descValid = s.descValid := by
  rw [(stripeClose_only_chk s b).same]
@[simp] theorem stripeClose_desc (b : StripeBin) : (stripeClose s b).desc = s.desc := by
  rw [(stripeClose_only_chk s b).same]
@[simp] theorem stripeClose_cur (b : StripeBin) : (stripeClose s b).cur = s.cur := by
  rw [(stripeClose_only_chk s b).same]
@[simp] theorem stripeClose_codec (b : StripeBin) : (stripeClose s b).codec = s.codec := by
  rw [(stripeClose_only_chk s b).same]
@[simp] theorem stripeClose_hdr (b : StripeBin) : (stripeClose s b).hdr = s.hdr := by
  rw [(stripeClose_only_chk s b).same]
@[simp] theorem stripeClose_sb (b : StripeBin) : (stripeClose s b).sb = s.sb := by
  rw [(stripeClose_only_chk s b).same]
@[simp] theorem stripeClose_fat (b : StripeBin) : (stripeClose s b).fat = s.fat := by
  rw [(stripeClose_only_chk s b).same]
@[simp] theorem stripeClose_fb (b : StripeBin) : (stripeClose s b).fb = s.fb := by
  rw [(stripeClose_only_chk s b).same]
@[simp] theorem stripeClose_out (b : StripeBin) : (stripeClose s b).out = s.out := by
  rw [(stripeClose_only_chk s b).same]
@[simp] theorem stripeClose_fbPhys (b : StripeBin) : (stripeClose s b).fbPhys = s.fbPhys := by
  rw [(stripeClose_only_chk s b).same]
@[simp] theorem stripeClose_port (b : StripeBin) : (stripeClose s b).port = s.port := by
  rw [(stripeClose_only_chk s b).same]
@[simp] theorem stripeClose_inbox (b : StripeBin) : (stripeClose s b).inbox = s.inbox := by
  rw [(stripeClose_only_chk s b).same]
@[simp] theorem stripeClose_free (b : StripeBin) : (stripeClose s b).free = s.free := by
  rw [(stripeClose_only_chk s b).same]

/-- `stripeBinStep` changes the checker only. -/
theorem stripeBinStep_only_chk (t : Nat) (b : StripeBin) (ptr : Option Nat) : OnlyChk s (stripeBinStep s t b ptr) := by
  have h : ∀ b' : StripeBin,
      OnlyChk s { s with chk := { s.chk with stripeBins := s.chk.stripeBins.set t b' } } := fun b' =>
    ⟨.of_eq rfl rfl (by simp), rfl⟩
  exact .ite (.refl s) (.ite ((h _).trans (stripeClose_only_chk _ _)) (h _))

@[simp] theorem stripeBinStep_descValid (t : Nat) (b : StripeBin) (ptr : Option Nat) : (stripeBinStep s t b ptr).descValid = s.descValid := by
  rw [(stripeBinStep_only_chk s t b ptr).same]
@[simp] theorem stripeBinStep_desc (t : Nat) (b : StripeBin) (ptr : Option Nat) : (stripeBinStep s t b ptr).desc = s.desc := by
  rw [(stripeBinStep_only_chk s t b ptr).same]
@[simp] theorem stripeBinStep_cur (t : Nat) (b : StripeBin) (ptr : Option Nat) : (stripeBinStep s t b ptr).cur = s.cur := by
  rw [(stripeBinStep_only_chk s t b ptr).same]
@[simp] theorem stripeBinStep_codec (t : Nat) (b : StripeBin) (ptr : Option Nat) : (stripeBinStep s t b ptr).codec = s.codec := by
  rw [(stripeBinStep_only_chk s t b ptr).same]
@[simp] theorem stripeBinStep_hdr (t : Nat) (b : StripeBin) (ptr : Option Nat) : (stripeBinStep s t b ptr).hdr = s.hdr := by
  rw [(stripeBinStep_only_chk s t b ptr).same]
@[simp] theorem stripeBinStep_sb (t : Nat) (b : StripeBin) (ptr : Option Nat) : (stripeBinStep s t b ptr).sb = s.sb := by
  rw [(stripeBinStep_only_chk s t b ptr).same]
@[simp] theorem stripeBinStep_fat (t : Nat) (b : StripeBin) (ptr : Option Nat) : (stripeBinStep s t b ptr).fat = s.fat := by
  rw [(stripeBinStep_only_chk s t b ptr).same]
@[simp] theorem stripeBinStep_fb (t : Nat) (b : StripeBin) (ptr : Option Nat) : (stripeBinStep s t b ptr).fb = s.fb := by
  rw [(stripeBinStep_only_chk s t b ptr).same]
@[simp] theorem stripeBinStep_out (t : Nat) (b : StripeBin) (ptr : Option Nat) : (stripeBinStep s t b ptr).out = s.out := by
  rw [(stripeBinStep_only_chk s t b ptr).same]
@[simp] theorem stripeBinStep_fbPhys (t : Nat) (b : StripeBin) (ptr : Option Nat) : (stripeBinStep s t b ptr).fbPhys = s.fbPhys := by
  rw [(stripeBinStep_only_chk s t b ptr).same]
@[simp] theorem stripeBinStep_port (t : Nat) (b : StripeBin) (ptr : Option Nat) : (stripeBinStep s t b ptr).port = s.port := by
  rw [(stripeBinStep_only_chk s t b ptr).same]
@[simp] theorem stripeBinStep_inbox (t : Nat) (b : StripeBin) (ptr : Option Nat) : (stripeBinStep s t b ptr).inbox = s.inbox := by
  rw [(stripeBinStep_only_chk s t b ptr).same]
@[simp] theorem stripeBinStep_free (t : Nat) (b : StripeBin) (ptr : Option Nat) : (stripeBinStep s t b ptr).free = s.free := by
  rw [(stripeBinStep_only_chk s t b ptr).same]

/-- `stripeCount` changes the checker only. -/
theorem stripeCount_only_chk (ptr : Option Nat) : OnlyChk s (stripeCount s ptr) := by
  unfold stripeCount
  split
  · dsimp only
    split
    · exact .refl s
    · exact stripeBinStep_only_chk s _ _ _
  · exact .refl s

@[simp] theorem stripeCount_descValid (ptr : Option Nat) : (stripeCount s ptr).descValid = s.descValid := by
  rw [(stripeCount_only_chk s ptr).same]
@[simp] theorem stripeCount_desc (ptr : Option Nat) : (stripeCount s ptr).desc = s.desc := by
  rw [(stripeCount_only_chk s ptr).same]
@[simp] theorem stripeCount_cur (ptr : Option Nat) : (stripeCount s ptr).cur = s.cur := by
  rw [(stripeCount_only_chk s ptr).same]
@[simp] theorem stripeCount_codec (ptr : Option Nat) : (stripeCount s ptr).codec = s.codec := by
  rw [(stripeCount_only_chk s ptr).same]
@[simp] theorem stripeCount_hdr (ptr : Option Nat) : (stripeCount s ptr).hdr = s.hdr := by
  rw [(stripeCount_only_chk s ptr).same]
@[simp] theorem stripeCount_sb (ptr : Option Nat) : (stripeCount s ptr).sb = s.sb := by
  rw [(stripeCount_only_chk s ptr).same]
@[simp] theorem stripeCount_fat (ptr : Option Nat) : (stripeCount s ptr).fat = s.fat := by
  rw [(stripeCount_only_chk s ptr).same]
@[simp] theorem stripeCount_fb (ptr : Option Nat) : (stripeCount s ptr).fb = s.fb := by
  rw [(stripeCount_only_chk s ptr).same]
@[simp] theorem stripeCount_out (ptr : Option Nat) : (stripeCount s ptr).out = s.out := by
  rw [(stripeCount_only_chk s ptr).same]
@[simp] theorem stripeCount_fbPhys (ptr : Option Nat) : (stripeCount s ptr).fbPhys = s.fbPhys := by
  rw [(stripeCount_only_chk s ptr).same]
@[simp] theorem stripeCount_port (ptr : Option Nat) : (stripeCount s ptr).port = s.port := by
  rw [(stripeCount_only_chk s ptr).same]
@[simp] theorem stripeCount_inbox (ptr : Option Nat) : (stripeCount s ptr).inbox = s.inbox := by
  rw [(stripeCount_only_chk s ptr).same]
@[simp] theorem stripeCount_free (ptr : Option Nat) : (stripeCount s ptr).free = s.free := by
  rw [(stripeCount_only_chk s ptr).same]

end Sys2Proof.Machine
end

