-- ==== Sys2Proof/Laws/Checker.lean ====
section
/-! SUPPORT. What flagging a violation does to each register of the checker. -/

namespace Sys2Proof.Machine

variable (s : State) (x : Viol) (c : Nat)

theorem flagV_violMask : (flagV s x c).chk.violMask = s.chk.violMask ||| flagged s True x := by
  unfold flagV flagged
  cases h : s.desc.errorCheck
  · simp
  · simp [recordViol]

theorem flagV_foundError : (flagV s x c).chk.foundError = (s.chk.foundError || s.desc.errorCheck) := by
  unfold flagV
  cases h : s.desc.errorCheck
  · simp
  · simp [recordViol]

@[simp] theorem flagV_stripeBins : (flagV s x c).chk.stripeBins = s.chk.stripeBins := by
  unfold flagV
  split <;> rfl

@[simp] theorem flagV_sparseFirst : (flagV s x c).chk.sparseFirst = s.chk.sparseFirst := by
  unfold flagV
  split <;> rfl

@[simp] theorem flagV_sparseFirstValid : (flagV s x c).chk.sparseFirstValid = s.chk.sparseFirstValid := by
  unfold flagV
  split <;> rfl

/-- Flagging under a condition. -/
theorem ite_flagV_violMask (p : Prop) [Decidable p] :
    (if p then flagV s x c else s).chk.violMask = s.chk.violMask ||| flagged s p x := by
  by_cases h : p
  · rw [if_pos h, flagV_violMask]
    simp [flagged, h]
  · rw [if_neg h]
    simp [flagged, h]

theorem flagged_congr {s t : State} (h : t.desc.errorCheck = s.desc.errorCheck) (p : Prop) [Decidable p] :
    flagged t p x = flagged s p x := by
  simp [flagged, h]

theorem flagAll_append (l m : List (Viol × Nat)) : flagAll s (l ++ m) = flagAll (flagAll s l) m := by
  induction l generalizing s with
  | nil => rfl
  | cons v l ih => exact ih _

/-- Pending violations that stand under a condition. -/
theorem flagAll_ite_violMask (p : Prop) [Decidable p] :
    (flagAll s (if p then [(x, c)] else [])).chk.violMask = s.chk.violMask ||| flagged s p x := by
  by_cases h : p
  · rw [if_pos h]
    show (flagV s x c).chk.violMask = _
    rw [flagV_violMask]
    simp [flagged, h]
  · rw [if_neg h]
    simp [flagAll, flagged, h]

theorem getLsbD_mask (x : Viol) (k : Nat) : x.mask.getLsbD k = true ↔ x.bit = k := by
  constructor
  · intro h
    have hk : k < 16 := by
      by_contra hn
      rw [BitVec.getLsbD_of_ge _ _ (by omega)] at h
      cases h
    have : ∀ (x : Viol) (k : Fin 16), x.mask.getLsbD k.val = true → x.bit = k.val := by
      intro x
      cases x <;> decide
    exact this x ⟨k, hk⟩ h
  · rintro rfl
    cases x <;> decide

theorem Flags.refl (s : State) : Flags s s fun _ => False := by
  simp [Flags]

theorem Flags.congr {s t : State} {V W : Viol → Prop} (h : Flags s t V) (e : ∀ x, V x ↔ W x) : Flags s t W := by
  simpa only [Flags, e] using h

theorem Flags.trans {s t u : State} {V W : Viol → Prop} (h : Flags s t V) (k : Flags t u W)
    (hd : t.desc.errorCheck = s.desc.errorCheck) : Flags s u fun x => V x ∨ W x := by
  obtain ⟨h1, h2, h3⟩ := h
  obtain ⟨k1, k2, k3⟩ := k
  refine ⟨?_, ?_, fun n => ?_⟩
  · rw [k1, h1]
  · rw [k2, h2, hd]
    simp only [exists_or, or_assoc, ← and_or_left]
  · rw [k3, h3, hd]
    simp only [or_and_right, exists_or, or_assoc, ← and_or_left]

theorem flagV_flags (s : State) (x : Viol) (c : Nat) : Flags s (flagV s x c) (· = x) := by
  unfold flagV
  cases h : s.desc.errorCheck
  · simp [Flags, h]
  · refine ⟨rfl, by simp [recordViol, h], fun k => ?_⟩
    simp only [if_true, recordViol, BitVec.getLsbD_or, Bool.or_eq_true, getLsbD_mask, h, true_and, exists_eq_left]

@[simp] theorem flagV_errorCheck (s : State) (x : Viol) (c : Nat) :
    (flagV s x c).desc.errorCheck = s.desc.errorCheck := by
  unfold flagV
  split <;> rfl

/-- Everything that recording the pending violations of an operation does to the checker. -/
theorem flagAll_flags (s : State) (l : List (Viol × Nat)) : Flags s (flagAll s l) fun x => x ∈ l.map Prod.fst := by
  induction l generalizing s with
  | nil => exact (Flags.refl s).congr (by simp)
  | cons v l ih =>
    exact ((flagV_flags s v.1 v.2).trans (ih _) (flagV_errorCheck s v.1 v.2)).congr (by simp)

end Sys2Proof.Machine
end

