-- ==== Sys2Proof/Laws/Ops.lean ====
section
/-! SUPPORT. The shared operations around an operation's body: what each can do, said once, for citing instead of
unfolding. -/

namespace Sys2Proof.Machine

variable {s t : State} {α β : Type}

/-! ### Bodies -/

@[simp] theorem bind_ok (a : α) (s : State) (f : α → State → Ran β) : (Ran.ok a s).bind f = f a s := rfl

@[simp] theorem bind_fatal (x : FatalCode) (s : State) (f : α → State → Ran β) :
    (Ran.fatal x s : Ran α).bind f = .fatal x s := rfl

@[simp] theorem onFatal_ok (a : α) (s : State) (f : State → State) : (Ran.ok a s).onFatal f = .ok a s := rfl

@[simp] theorem onFatal_fatal (x : FatalCode) (s : State) (f : State → State) :
    (Ran.fatal x s : Ran α).onFatal f = .fatal x (f s) := rfl

/-- The state a body ends in. -/
def Ran.state : Ran α → State
  | .ok _ s => s
  | .fatal _ s => s

@[simp] theorem state_ok (a : α) (s : State) : (Ran.ok a s).state = s := rfl

@[simp] theorem state_fatal (x : FatalCode) (s : State) : (Ran.fatal x s : Ran α).state = s := rfl

/-! ### Outcomes -/

@[simp] theorem settle_ok (a : α) (s : State) (res : α → Results) (bad : FatalCode → Results) :
    settle (.ok a s) res bad = .next (completeOp s (res a)) := rfl

@[simp] theorem settle_fatal (x : FatalCode) (s : State) (res : α → Results) (bad : FatalCode → Results) :
    settle (.fatal x s : Ran α) res bad = .next (raiseFatal s x (bad x)) := rfl

/-- A body always comes to a next state. -/
theorem settle_next (r : Ran α) (res : α → Results) (bad : FatalCode → Results) :
    (∃ a, r = .ok a r.state ∧ settle r res bad = .next (completeOp r.state (res a))) ∨
    (∃ x, r = .fatal x r.state ∧ settle r res bad = .next (raiseFatal r.state x (bad x))) := by
  cases r with
  | ok a s => exact .inl ⟨a, rfl, rfl⟩
  | fatal x s => exact .inr ⟨x, rfl, rfl⟩

/-- `P` holds of the next state, if there is one. -/
def NextAll (P : State → Prop) (o : Host.Outcome State Fault Refusal) : Prop := ∀ t, o = .next t → P t

theorem nextAll_next {P : State → Prop} : NextAll P (.next s) ↔ P s :=
  ⟨fun h => h s rfl, fun h _ e => by cases e; exact h⟩

theorem nextAll_fault {P : State → Prop} (r : Fault) : NextAll P (.fault r) := fun _ e => by cases e

theorem nextAll_settle {P : State → Prop} (r : Ran α) (res : α → Results) (bad : FatalCode → Results)
    (ok : ∀ a s, r = .ok a s → P (completeOp s (res a)))
    (fatal : ∀ x s, r = .fatal x s → P (raiseFatal s x (bad x))) : NextAll P (settle r res bad) := by
  cases r with
  | ok a s => exact nextAll_next.mpr (ok a s rfl)
  | fatal x s => exact nextAll_next.mpr (fatal x s rfl)

/-! ### The gates of an operation (60_exceptions R326) -/

variable {k : Host.Outcome State Fault Refusal}

@[simp] theorem ifNotFailed_zero (h : s.fat.code = 0) : ifNotFailed s k = k := by simp [ifNotFailed, h]

@[simp] theorem ifNotFailed_failed (h : s.fat.code ≠ 0) : ifNotFailed s k = .next (failOp s Results.none) :=
  if_pos h

@[simp] theorem ifReady_ready (h : s.fat.code = 0) (d : s.descValid = true) : ifReady s k = k := by
  simp [ifReady, h, d]

@[simp] theorem ifReady_failed (h : s.fat.code ≠ 0) : ifReady s k = .next (failOp s Results.none) :=
  if_pos h

@[simp] theorem ifReady_noDescriptor (h : s.fat.code = 0) (d : s.descValid = false) :
    ifReady s k = .next (raiseFatal s .noDescriptor) := by simp [ifReady, h, d]

@[simp] theorem ifInput_true : ifInput s true k = k := rfl

@[simp] theorem ifInput_false : ifInput s false k = .next (raiseFatal s .badInput) := rfl

@[simp] theorem ifDefined_true : ifDefined true k = k := rfl

@[simp] theorem ifDefined_false : ifDefined false k = .fault .undefinedRegister := rfl

/-- Everything the gate of most operations can do. -/
theorem nextAll_ifReady {P : State → Prop} (failed : s.fat.code ≠ 0 → P (failOp s Results.none))
    (absent : s.fat.code = 0 → s.descValid = false → P (raiseFatal s .noDescriptor))
    (ready : s.fat.code = 0 → s.descValid = true → NextAll P k) : NextAll P (ifReady s k) := by
  by_cases h : s.fat.code = 0
  · cases d : s.descValid
    · rw [ifReady_noDescriptor h d]
      exact nextAll_next.mpr (absent h d)
    · rw [ifReady_ready h d]
      exact ready h d
  · rw [ifReady_failed h]
    exact nextAll_next.mpr (failed h)

theorem nextAll_ifNotFailed {P : State → Prop} (failed : s.fat.code ≠ 0 → P (failOp s Results.none))
    (ready : s.fat.code = 0 → NextAll P k) : NextAll P (ifNotFailed s k) := by
  by_cases h : s.fat.code = 0
  · rw [ifNotFailed_zero h]
    exact ready h
  · rw [ifNotFailed_failed h]
    exact nextAll_next.mpr (failed h)

theorem nextAll_ifInput {P : State → Prop} {b : Bool} (bad : P (raiseFatal s .badInput))
    (good : b = true → NextAll P k) : NextAll P (ifInput s b k) := by
  cases b
  · exact nextAll_next.mpr bad
  · exact good rfl

theorem nextAll_ifDefined {P : State → Prop} {b : Bool} (good : b = true → NextAll P k) :
    NextAll P (ifDefined b k) := by
  cases b
  · exact nextAll_fault _
  · exact good rfl

theorem nextAll_ifCtApplies {P : State → Prop} (bad : P (raiseFatal s .badCommand))
    (good : ctApplies s.desc.toDescIn 0 = true → NextAll P k) : NextAll P (ifCtApplies s k) := by
  unfold ifCtApplies
  split
  · next h => exact good h
  · exact nextAll_next.mpr bad

/-! ### Fatal errors -/

theorem after_of_zero {f : FatalRegs} (h : f.code = 0) (x : FatalCode) (a b c : Nat) :
    f.after x a b c = ⟨x.value, a, b, c⟩ := if_pos h

/-- The first fatal error wins (60_exceptions R321). -/
theorem after_of_ne {f : FatalRegs} (h : f.code ≠ 0) (x : FatalCode) (a b c : Nat) : f.after x a b c = f :=
  if_neg h

theorem value_ne_zero (x : FatalCode) : x.value ≠ 0 := by cases x <;> decide

theorem value_le (x : FatalCode) : x.value.toNat ≤ 8 := by cases x <;> decide

theorem after_code (f : FatalRegs) (x : FatalCode) (a b c : Nat) :
    (f.after x a b c).code = if f.code = 0 then x.value else f.code := by
  unfold FatalRegs.after
  split <;> rfl

theorem after_code_ne (f : FatalRegs) (x : FatalCode) (a b c : Nat) : (f.after x a b c).code ≠ 0 := by
  rw [after_code]
  split
  · exact value_ne_zero x
  · assumption

/-! ### Violations -/

/-- What recording a violation does to the checker (60_exceptions R316). -/
theorem recordViol_chk (s : State) (x : Viol) (c : Nat) :
    (recordViol s x c).chk.foundError = true ∧ (recordViol s x c).chk.violMask = s.chk.violMask ||| x.mask ∧
    (recordViol s x c).chk.sparseFirstValid = s.chk.sparseFirstValid ∧
    (recordViol s x c).chk.sparseFirst = s.chk.sparseFirst ∧
    (recordViol s x c).chk.stripeBins = s.chk.stripeBins := ⟨rfl, rfl, rfl, rfl, rfl⟩

/-- `flag V(x)` does nothing when checking is off (60_exceptions R316). -/
theorem flagV_off (h : s.desc.errorCheck = false) (x : Viol) (c : Nat) : flagV s x c = s := by simp [flagV, h]

theorem flagV_on (h : s.desc.errorCheck = true) (x : Viol) (c : Nat) : flagV s x c = recordViol s x c := by
  simp [flagV, h]

@[simp] theorem flagAll_nil (s : State) : flagAll s [] = s := rfl

theorem flagAll_off (h : s.desc.errorCheck = false) (l : List (Viol × Nat)) : flagAll s l = s := by
  induction l with
  | nil => rfl
  | cons v rest ih => rw [flagAll, flagV_off h, ih]

end Sys2Proof.Machine
end

