-- ==== Sys2Proof/Laws/Colour.lean ====
section
/-! SUPPORT. What the colour transform can do: one pixel, a block, the range check. -/

namespace Sys2Proof.Machine

theorem mem_allPixels (i : Fin 16) : i ∈ allPixels := by
  fin_cases i <;> decide

theorem mem_ctComps {c : Fin 4} (h : c.val < 3) : c ∈ ctComps := by
  fin_cases c
  · decide
  · decide
  · decide
  · exact absurd h (by decide)

theorem rowsBelow_iff (blk : Vector (Vector Sample 16) 4) (cs : List (Fin 4)) (bits : Fin 4 → Nat) :
    rowsBelow blk cs bits = true ↔ ∀ c ∈ cs, ∀ i : Fin 16, (blk[c][i]).toNat < 2 ^ bits c := by
  simp only [rowsBelow, List.all_eq_true, sampleAt]
  exact ⟨fun h c hc i => of_decide_eq_true (h c hc i (mem_allPixels i)), fun h c hc i _ => decide_eq_true (h c hc i)⟩

theorem rowsDefined_iff (k : Codec) (cs : List (Fin 4)) : rowsDefined k cs = true ↔ ∀ c ∈ cs, k.blkOk[c] = true := by
  simp [rowsDefined]

theorem inRange_iff (n : Nat) (x : Int) : inRange n x = true ↔ 0 ≤ x ∧ x < 2 ^ n := by
  simp [inRange]

/-- One pixel there and back. -/
theorem ctInversePixel_forward {n r g b : Nat} (hr : r < 2 ^ n) (hg : g < 2 ^ n) (hb : b < 2 ^ n) :
    ctInversePixel n (ctForward n r g b).1 (ctForward n r g b).2.1 (ctForward n r g b).2.2 = some (r, g, b) := by
  have e : ((2 ^ n : Nat) : Int) = 2 ^ n := by norm_cast
  have h : ctInverse n ((r + 2 * g + b) / 4 : Nat) (r + 2 ^ n - g : Nat) (b + 2 ^ n - g : Nat) = ((r : Int), (g : Int), (b : Int)) := by
    unfold ctInverse
    rw [← e]
    generalize 2 ^ n = p at *
    simp only [Prod.mk.injEq]
    omega
  unfold ctInversePixel ctForward
  simp only [h, inRange, Int.toNat_natCast]
  rw [if_pos]
  rw [← e]
  simp only [Bool.and_eq_true, decide_eq_true_eq]
  omega

/-- The results of the forward transform. -/
theorem ctForward_range {n r g b : Nat} (hr : r < 2 ^ n) (hg : g < 2 ^ n) (hb : b < 2 ^ n) :
    (ctForward n r g b).1 < 2 ^ n ∧ 1 ≤ (ctForward n r g b).2.1 ∧ (ctForward n r g b).2.1 < 2 ^ (n + 1) ∧
      1 ≤ (ctForward n r g b).2.2 ∧ (ctForward n r g b).2.2 < 2 ^ (n + 1) := by
  unfold ctForward
  rw [pow_succ]
  generalize 2 ^ n = p at *
  simp only
  omega

theorem ctInversePixel_some {n y u v : Nat} (h : (ctInversePixel n y u v).isSome = true) :
    ∃ r g b : Nat, ctInversePixel n y u v = some (r, g, b) ∧ ctInverse n y u v = ((r : Int), (g : Int), (b : Int)) ∧
      r < 2 ^ n ∧ g < 2 ^ n ∧ b < 2 ^ n := by
  unfold ctInversePixel at *
  simp only at *
  split at h
  · rename_i c
    simp only [Bool.and_eq_true, inRange_iff] at c
    obtain ⟨⟨⟨a1, a2⟩, b1, b2⟩, c1, c2⟩ := c
    have e : ((2 ^ n : Nat) : Int) = 2 ^ n := by norm_cast
    refine ⟨(ctInverse n y u v).1.toNat, (ctInverse n y u v).2.1.toNat, (ctInverse n y u v).2.2.toNat, ?_, ?_, ?_⟩
    · rw [if_pos (by simp [inRange_iff, a1, a2, b1, b2, c1, c2])]
    · rw [Int.toNat_of_nonneg a1, Int.toNat_of_nonneg b1, Int.toNat_of_nonneg c1]
    · rw [← e] at a2 b2 c2
      omega
  · cases h

/-- The inverse of a block: every pixel in range, and the rows that replace rows 0 to 2; or none. -/
theorem ctInverseBlock_cases (n : Nat) (blk : Vector (Vector Sample 16) 4) :
    (ctInverseBlock n blk = none ∧ ∃ i, ctInversePixel n (sampleAt blk 0 i) (sampleAt blk 1 i) (sampleAt blk 2 i) = none) ∨
    ∃ b, ctInverseBlock n blk = some b ∧ b[(3 : Fin 4)] = blk[(3 : Fin 4)] ∧
      ∀ i, ∃ t, ctInversePixel n (sampleAt blk 0 i) (sampleAt blk 1 i) (sampleAt blk 2 i) = some t ∧
        ∀ c : Fin 4, c.val < 3 → b[c][i] = BitVec.ofNat 32 (pick3 t c) := by
  unfold ctInverseBlock
  simp only
  split
  · rename_i h
    rw [List.all_eq_true] at h
    refine .inr ⟨_, rfl, by simp, fun i => ?_⟩
    obtain ⟨t, ht⟩ := Option.isSome_iff_exists.mp (h i (mem_allPixels i))
    refine ⟨t, ht, fun c hc => ?_⟩
    simp [hc, ht]
  · rename_i h
    refine .inl ⟨rfl, ?_⟩
    simp only [List.all_eq_true, not_forall] at h
    obtain ⟨i, -, hi⟩ := h
    exact ⟨i, by simpa using hi⟩

/-- The inverse transform over the block buffer, when every pixel passes the range check. -/
theorem ctInverseRun_some {s : State} {blk : Vector (Vector Sample 16) 4} (cs : List (Fin 4)) (trees : Bool)
    (h : ctInverseBlock (inBits s.desc.toDescIn 0) s.codec.blk = some blk) :
    ctInverseRun s cs trees = .ok () { s with codec := { s.codec with blk := blk } } := by
  unfold ctInverseRun
  simp only [h]

/-- The inverse transform over the block buffer, when a pixel fails the range check. -/
theorem ctInverseRun_none {s : State} (cs : List (Fin 4)) (trees : Bool)
    (h : ctInverseBlock (inBits s.desc.toDescIn 0) s.codec.blk = none) :
    ctInverseRun s cs trees = .fatal .ctRange (loseCodec (flagV s .ctRange 0) cs true trees) := by
  unfold ctInverseRun
  simp only [h]

end Sys2Proof.Machine
end

