-- ==== Sys2Proof/Laws/Descriptor.lean ====
section
/-! SUPPORT. What a descriptor that INIT_DESCRIPTOR accepts guarantees, as facts that later proofs take apart. -/

namespace Sys2Proof.Machine

theorem mem_allComps (c : Fin 4) : c ∈ allComps := by
  revert c
  decide

/-- All that is known of `LAYOUT[k]`: the open parameter's table, well-formed, or the example in its place (log 6). -/
theorem layoutTable_cases (k : Nat) : layoutTable k = layout0 ∨
    (layoutTable k = Config.openLayout k ∧ layoutOk (Config.openLayout k) = true ∧
      (k = 0 → (Config.openLayout k).subsampling = .NONE)) := by
  unfold layoutTable
  by_cases h : (layoutOk (Config.openLayout k) && (k != 0 || (Config.openLayout k).subsampling == .NONE)) = true
  · refine .inr ⟨if_pos h, ?_⟩
    simp only [Bool.and_eq_true, Bool.or_eq_true, bne_iff_ne, beq_iff_eq] at h
    exact ⟨h.1, fun hk => h.2.resolve_left (absurd hk)⟩
  · exact .inl (if_neg h)

theorem layoutTable_wf (k : Nat) : layoutOk (layoutTable k) = true := by
  obtain h | ⟨h, hw, -⟩ := layoutTable_cases k
  · rw [h]; decide +kernel
  · rw [h]; exact hw

theorem layoutTable_zero : (layoutTable 0).subsampling = .NONE := by
  obtain h | ⟨h, -, hz⟩ := layoutTable_cases 0
  · rw [h]; rfl
  · rw [h]; exact hz rfl

/-- The conditions of 46_descriptor R293 and R298, spelled out. -/
structure DescFacts (d : Desc) : Prop where
  derived : d = derive d.table d.toDescIn
  ptr : d.ptrBits = d.subsampling.ptrBits
  size : d.sizeBits = d.subsampling.sizeBits
  count : d.nsubblocks = d.subsampling.nslots
  slots : d.table.slots.length = d.nsubblocks
  slotOk : ∀ sl ∈ d.table.slots, Machine.slotOk d.table sl = true
  region : d.sbW = 16 ∧ d.sbH = 16 ∨ d.sbW = 32 ∧ d.sbH = 8
  nplanes : d.nplanes = if d.subsampling = .NONE then 1 else 2
  inBits_le : ∀ c : Fin 4, inBits d.toDescIn c ≤ d.compbits[c]
  compbits_le : ∀ c : Fin 4, d.compbits[c] ≤ 15
  ncomp : ∀ p ∈ planes d, 1 ≤ (d.ncomp[p]).toNat ∧ (d.firstComp[p]).toNat + (d.ncomp[p]).toNat ≤ 4
  disjoint : d.nplanes = 2 → (d.firstComp[0]).toNat + (d.ncomp[0]).toNat ≤ (d.firstComp[1]).toNat
  firstComp : d.firstComp[0] = 0
  present : ∀ c, held d c = true → 1 ≤ inBits d.toDescIn c ∧ inBits d.toDescIn c ≤ 15
  absent : ∀ c, held d c = false → inBits d.toDescIn c = 0
  depth : ctApplies d.toDescIn 0 = true → inBits d.toDescIn 1 = inBits d.toDescIn 0 ∧ inBits d.toDescIn 2 = inBits d.toDescIn 0
  multiplier : ∀ p ∈ planes d, 1 ≤ (d.sbsMultiplier[p]).toNat ∧
    ceilDiv d.uncompSize[p] (d.sbsMultiplier[p]).toNat ≤ 2 ^ d.sizeBits
  stripes : d.stripeHeight % d.sbH = 0
  split : d.blockSplit = true → 1 ≤ d.splitSlot.toNat ∧ d.splitSlot.toNat ≤ d.nsubblocks - 1 ∧
    payloadOf d.toDescIn (d.table.slots.take d.splitSlot.toNat) ≤ d.maxpay / 2 ∧
    payloadOf d.toDescIn (d.table.slots.drop d.splitSlot.toNat) ≤ d.maxpay - d.maxpay / 2
  sizes : 1 ≤ d.width ∧ 1 ≤ d.height ∧ d.layout.toNat ≤ 6 ∧ d.frameSize.toNat ≤ d.bufSize.toNat ∧
    d.bufSize.toNat ≤ 2 ^ 32 ∧ d.hdrArea ≤ d.bufSize.toNat

theorem descFacts (l : Layout) (i : DescIn) (h : validDesc (derive l i) = true) : DescFacts (derive l i) := by
  simp only [validDesc, layoutOk, Bool.and_eq_true, decide_eq_true_eq, Bool.or_eq_true, List.all_eq_true] at h
  obtain ⟨⟨⟨⟨⟨⟨⟨⟨hsizes, hlay⟩, hsub⟩, hcomp⟩, hdep⟩, htr⟩, hmul⟩, hstr⟩, hspl⟩ := h
  obtain ⟨⟨⟨⟨hsz, hslot⟩, htile⟩, hlen⟩, hnp⟩ := hlay
  simp only [componentsOk, Bool.and_eq_true, List.all_eq_true, planeInside, decide_eq_true_eq, beq_iff_eq,
    Bool.or_eq_true] at hcomp
  obtain ⟨⟨⟨c1, c2⟩, c3⟩, c4⟩ := hcomp
  simp only [depthsOk, List.all_eq_true, decide_eq_true_eq] at hdep
  refine ⟨rfl, rfl, rfl, hlen, rfl, hslot, hsz, hnp, fun c => (hdep c (mem_allComps c)).1,
    fun c => (hdep c (mem_allComps c)).2, fun p hp => c1 p hp, fun h2 => c3.resolve_left fun h => h h2, c2, fun c hc => ?_,
    fun c hc => ?_, fun ht => ?_, fun p hp => ?_, ?_, fun hb => ?_, of_decide_eq_true hsizes⟩
  · have := c4 c (mem_allComps c)
    rw [hc] at this
    simpa using this
  · have := c4 c (mem_allComps c)
    rw [hc] at this
    simpa using this
  · rw [transformOk, ht] at htr
    simp only [Bool.not_true, Bool.false_or, Bool.and_eq_true, beq_iff_eq] at htr
    exact ⟨congrArg BitVec.toNat htr.1.symm, congrArg BitVec.toNat (htr.1.trans htr.2).symm⟩
  · exact of_decide_eq_true (hmul p hp)
  · exact (of_decide_eq_true hstr).1
  · rw [splitOk] at hspl
    simp only [hb, Bool.not_true, Bool.false_or] at hspl
    exact of_decide_eq_true hspl

theorem Inv.facts {s : State} (hi : Inv s) (hr : Ready s) : DescFacts s.desc := by
  have h := hi.desc.valid hr.2
  rw [hi.desc.derived hr.2] at h ⊢
  exact descFacts _ _ h

variable {d : Desc} (f : DescFacts d)
include f

theorem DescFacts.fields : d.ptrBits + d.sizeBits * d.nsubblocks = 128 := by
  rw [f.ptr, f.size, f.count]
  cases d.subsampling <;> rfl

theorem DescFacts.narrow : d.ptrBits ≤ 32 ∧ d.sizeBits ≤ 6 ∧ 16 ≤ d.nsubblocks ∧ d.nsubblocks ≤ 24 ∧
    d.ptrBits + d.sizeBits ≤ 64 := by
  rw [f.ptr, f.size, f.count]
  cases d.subsampling <;> decide

theorem DescFacts.compbits_eq (c : Fin 4) : d.compbits[c] = compBitsOf d.toDescIn c := by
  have h := congrArg (fun x : Desc => x.compbits[c]) f.derived
  simpa [derive] using h

theorem DescFacts.defaultcolor_eq (c : Fin 4) : d.defaultcolor[c] = defaultColorOf d.toDescIn d.nplanes c := by
  have h := congrArg (fun x : Desc => x.defaultcolor[c]) f.derived
  have h2 := congrArg (fun x : Desc => x.nplanes) f.derived
  simp only [derive] at h h2
  rw [h, h2]
  simp

theorem DescFacts.inBits_le_15 (c : Fin 4) : inBits d.toDescIn c ≤ 15 := (f.inBits_le c).trans (f.compbits_le c)

theorem DescFacts.defaultcolor_lt {c : Fin 4} (h : held d c = true) : d.defaultcolor[c] < 2 ^ d.compbits[c] := by
  have h1 := (f.present c h).1
  have h2 := f.inBits_le c
  rw [f.defaultcolor_eq, f.compbits_eq] at *
  unfold defaultColorOf
  rw [if_neg (by omega)]
  have hp := Nat.two_pow_pos (compBitsOf d.toDescIn c)
  split
  · exact Nat.pow_lt_pow_right (by decide) (by omega)
  · omega

theorem DescFacts.uncomp_eq (p : Fin 2) : d.uncompSize[p] = 2 * planeBitsOf d.toDescIn p := by
  have h := congrArg (fun x : Desc => x.uncompSize[p]) f.derived
  simp only [derive, Fin.getElem_fin, Vector.getElem_ofFn, Fin.eta, uncompSizeOf, ceilDiv] at h
  rw [show d.uncompSize[p] = d.uncompSize[p.val] from rfl, h]
  omega

theorem DescFacts.maxpay_eq : d.maxpay = payloadOf d.toDescIn d.table.slots :=
  congrArg (fun x : Desc => x.maxpay) f.derived

theorem DescFacts.hdrArea_eq : d.hdrArea = d.mbwAl * d.mbhAl * 16 := by
  rw [f.derived]
  rfl

omit f in
theorem mem_planes {p : Fin 2} (h : p.val < d.nplanes) (h2 : d.nplanes ≤ 2) : p ∈ planes d := by
  unfold planes
  split
  · fin_cases p <;> simp
  · have : p = 0 := by
      apply Fin.ext
      show p.val = 0
      omega
    simp [this]

theorem DescFacts.nplanes_le : d.nplanes ≤ 2 := by
  rw [f.nplanes]
  split <;> decide

theorem DescFacts.plane {p : Fin 2} (h : p.val < d.nplanes) : p ∈ planes d := mem_planes h f.nplanes_le

omit f in
theorem held_of_mem {p : Fin 2} {c : Fin 4} (hp : p ∈ planes d) (hc : c ∈ comps d.toDescIn p) : held d c = true := by
  simp only [held, List.any_eq_true]
  exact ⟨p, hp, by simpa using hc⟩

theorem DescFacts.comps_ne_nil {p : Fin 2} (hp : p ∈ planes d) : ∃ c, c ∈ comps d.toDescIn p := by
  have h := f.ncomp p hp
  refine ⟨⟨(d.firstComp[p]).toNat, (d.firstComp[p]).isLt⟩, ?_⟩
  simp only [comps, List.mem_filter, decide_eq_true_eq]
  exact ⟨mem_allComps _, le_rfl, by omega⟩

omit f in
theorem comps_length (i : DescIn) (p : Fin 2) : (comps i p).length ≤ 4 := List.length_filter_le _ _

omit f in
theorem comps_nodup (i : DescIn) (p : Fin 2) : (comps i p).Nodup := List.Nodup.filter _ (by decide)

theorem DescFacts.planeBits {p : Fin 2} (hp : p ∈ planes d) : 1 ≤ planeBitsOf d.toDescIn p ∧ planeBitsOf d.toDescIn p ≤ 60 := by
  constructor
  · obtain ⟨c, hc⟩ := f.comps_ne_nil hp
    have h1 := (f.present c (held_of_mem hp hc)).1
    exact h1.trans (List.le_sum_of_mem (List.mem_map_of_mem hc))
  · have h : ∀ l : List (Fin 4), (l.map fun c => inBits d.toDescIn c).sum ≤ 15 * l.length := by
      intro l
      induction l with
      | nil => simp
      | cons a l ih =>
        simp only [List.map_cons, List.sum_cons, List.length_cons]
        have := f.inBits_le_15 a
        omega
    have h1 := h (comps d.toDescIn p)
    have h2 := comps_length d.toDescIn p
    unfold planeBitsOf
    omega

end Sys2Proof.Machine
end

