-- ==== Sys2Proof/Laws/Encoding.lean ====
section
/-! SUPPORT. What the bytes and the packed fields of an encoding hold: reading back what was laid out. -/

namespace Sys2Proof

theorem bitField_zero {v n : Nat} (h : v < 2 ^ n) : bitField v 0 n = v := by
  unfold bitField
  simpa using Nat.mod_eq_of_lt h

theorem bytesToNat_natToBytes (k v : Nat) : bytesToNat (natToBytes k v) = v % 256 ^ k := by
  induction k generalizing v with
  | zero => simp [natToBytes, bytesToNat, Nat.mod_one]
  | succ k ih =>
    rw [natToBytes, bytesToNat, ih, pow_succ, mul_comm (256 ^ k), Nat.mod_mul]
    simp [BitVec.toNat_ofNat]

theorem packCodes_lt {w : Nat} {l : List Nat} (h : ∀ c ∈ l, c < 2 ^ w) : packCodes w l < 2 ^ (w * l.length) := by
  induction l with
  | nil => simp [packCodes]
  | cons c rest ih =>
    have h1 := h c (by simp)
    have h2 := ih fun x hx => h x (by simp [hx])
    rw [packCodes, List.length_cons, Nat.mul_succ, pow_add]
    have : 2 ^ w * packCodes w rest + 2 ^ w ≤ 2 ^ w * 2 ^ (w * rest.length) := by
      rw [← Nat.mul_succ]
      exact Nat.mul_le_mul_left _ h2
    rw [mul_comm (2 ^ (w * rest.length))]
    omega

theorem packCodes_get {w : Nat} {l : List Nat} (h : ∀ c ∈ l, c < 2 ^ w) (k : Nat) (hk : k < l.length) :
    packCodes w l / 2 ^ (w * k) % 2 ^ w = l[k] := by
  induction l generalizing k with
  | nil => simp at hk
  | cons c rest ih =>
    have h1 := h c (by simp)
    cases k with
    | zero => simp [packCodes, Nat.mod_eq_of_lt h1]
    | succ k =>
      have e : packCodes w (c :: rest) / 2 ^ (w * (k + 1)) = packCodes w rest / 2 ^ (w * k) := by
        rw [packCodes, Nat.mul_succ, Nat.add_comm (w * k), pow_add, ← Nat.div_div_eq_div_mul,
          Nat.add_mul_div_left _ _ (Nat.two_pow_pos w), Nat.div_eq_of_lt h1, Nat.zero_add]
      rw [e, List.getElem_cons_succ]
      exact ih (fun x hx => h x (by simp [hx])) k _

/-- A header's value is below the power of its width. -/
theorem header_lt {pb w p : Nat} {l : List Nat} (hp : p < 2 ^ pb) (h : ∀ c ∈ l, c < 2 ^ w) :
    p + 2 ^ pb * packCodes w l < 2 ^ (pb + w * l.length) := by
  have h1 := packCodes_lt h
  have h2 : 2 ^ pb * packCodes w l + 2 ^ pb ≤ 2 ^ pb * 2 ^ (w * l.length) := by
    rw [← Nat.mul_succ]
    exact Nat.mul_le_mul_left _ h1
  rw [pow_add]
  omega

/-- The pointer field of a packed header. -/
theorem header_ptr {pb p : Nat} (w : Nat) (l : List Nat) (hp : p < 2 ^ pb) :
    bitField (p + 2 ^ pb * packCodes w l) 0 pb = p := by
  unfold bitField
  simp [Nat.mod_eq_of_lt hp]

/-- The size field of slot `k` of a packed header. -/
theorem header_code {pb w p : Nat} {l : List Nat} (hp : p < 2 ^ pb) (h : ∀ c ∈ l, c < 2 ^ w) (k : Nat)
    (hk : k < l.length) : bitField (p + 2 ^ pb * packCodes w l) (pb + w * k) w = l[k] := by
  unfold bitField
  rw [Nat.shiftRight_eq_div_pow, pow_add, ← Nat.div_div_eq_div_mul, Nat.add_mul_div_left _ _ (Nat.two_pow_pos pb),
    Nat.div_eq_of_lt hp, Nat.zero_add, packCodes_get h k hk]

theorem codes_lt {n w : Nat} (cs : Vector (BitVec w) n) : ∀ c ∈ cs.toList.map BitVec.toNat, c < 2 ^ w := by
  intro c hc
  obtain ⟨x, _, rfl⟩ := List.mem_map.mp hc
  exact x.isLt

/-- A header built from fields of the right widths fits its 128 bits. -/
theorem headerBits_lt {pb w n : Nat} (p : BitVec pb) (cs : Vector (BitVec w) n) (e : pb + w * n = 128) :
    p.toNat + 2 ^ pb * packCodes w (cs.toList.map BitVec.toNat) < 2 ^ 128 := by
  have h := header_lt p.isLt (codes_lt cs)
  rwa [List.length_map, Vector.length_toList, e] at h

end Sys2Proof
end

