-- ==== Sys2Proof/Laws/Runs.lean ====
section
/-! SUPPORT. What the body of each operation can change. A decoding body changes the working registers, the cursor and the
checker (`DecodeChange`), an encoding body the working registers, the cursor and `FB` (`EncodeChange`); everything else
is as before, however the body ends. -/

namespace Sys2Proof.Machine

/-- The superblock registers differ at most in the samples and in the slot, which is one of the layout's. -/
def SbKeeps (s : State) (b : Sb) : Prop :=
  b.mbx = s.sb.mbx ∧ b.mby = s.sb.mby ∧ b.mbnum = s.sb.mbnum ∧ (b.slot = s.sb.slot ∨ b.slot < s.desc.nsubblocks)

/-- `FB` keeps its canonical form and its bytes at and beyond the buffer's end (20_memory R62). -/
structure FbKeeps (s : State) (m : Mem 8) : Prop where
  wf : s.fb.wf → m.wf
  below : ∀ a, bufSize s ≤ a → memGet m a = memGet s.fb a

/-- Only the cursor, the working registers, the checker's records and the count of free values differ. -/
structure DecodeChange (s t : State) : Prop where
  sb : SbKeeps s t.sb
  grows : Grows s.chk t.chk
  same : t = { s with cur := t.cur, codec := t.codec, hdr := t.hdr, sb := t.sb, chk := t.chk, free := t.free }

/-- Only the cursor, the working registers, `FB` and the count of free values differ. -/
structure EncodeChange (s t : State) : Prop where
  sb : SbKeeps s t.sb
  fb : FbKeeps s t.fb
  same : t = { s with cur := t.cur, codec := t.codec, hdr := t.hdr, sb := t.sb, fb := t.fb, free := t.free }

theorem FbKeeps.refl (s : State) : FbKeeps s s.fb := ⟨id, fun _ _ => rfl⟩

/-- Bytes written inside the buffer. -/
theorem FbKeeps.bytes {s : State} {a : Nat} {bs : List Byte} (h : a + bs.length ≤ bufSize s) :
    FbKeeps s (memSetBytes s.fb a bs) :=
  ⟨fun w => wf_memSetBytes w a bs, fun _ hb => memGet_memSetBytes_outside (.inr (by omega))⟩

theorem length_natToBytes (n v : Nat) : (natToBytes n v).length = n := by
  induction n generalizing v with
  | zero => rfl
  | succ n ih => rw [natToBytes, List.length_cons, ih]

theorem SbKeeps.refl (s : State) : SbKeeps s s.sb := ⟨rfl, rfl, rfl, .inl rfl⟩

theorem SbKeeps.samples (s : State) (v : Vector (Vector Sample 256) 4) : SbKeeps s { s.sb with sblk := v } :=
  ⟨rfl, rfl, rfl, .inl rfl⟩

theorem DecodeChange.refl (s : State) : DecodeChange s s := ⟨.refl s, .refl _, rfl⟩

theorem EncodeChange.refl (s : State) : EncodeChange s s := ⟨.refl s, .refl s, rfl⟩

theorem SbKeeps.trans {s t : State} {b : Sb} (h : SbKeeps s t.sb) (d : t.desc = s.desc) (g : SbKeeps t b) :
    SbKeeps s b := by
  obtain ⟨h1, h2, h3, h4⟩ := h
  obtain ⟨g1, g2, g3, g4⟩ := g
  refine ⟨g1.trans h1, g2.trans h2, g3.trans h3, ?_⟩
  rcases g4 with g4 | g4
  · rw [g4]
    exact h4
  · rw [d] at g4
    exact .inr g4

theorem DecodeChange.trans {s t u : State} (h : DecodeChange s t) (g : DecodeChange t u) : DecodeChange s u := by
  refine ⟨h.sb.trans (by rw [h.same]) g.sb, h.grows.trans g.grows, ?_⟩
  rw [g.same, h.same]

theorem EncodeChange.trans {s t u : State} (h : EncodeChange s t) (g : EncodeChange t u) : EncodeChange s u := by
  have e : bufSize t = bufSize s := by rw [h.same]; rfl
  refine ⟨h.sb.trans (by rw [h.same]) g.sb,
    ⟨g.fb.wf ∘ h.fb.wf, fun a ha => (g.fb.below a (e ▸ ha)).trans (h.fb.below a ha)⟩, ?_⟩
  rw [g.same, h.same]

/-- Moving on to a slot of the layout. -/
theorem DecodeChange.slot {s : State} {n : Nat} (h : n < s.desc.nsubblocks) :
    DecodeChange s { s with sb := { s.sb with slot := n } } := ⟨⟨rfl, rfl, rfl, .inr h⟩, .refl _, rfl⟩

theorem EncodeChange.slot {s : State} {n : Nat} (h : n < s.desc.nsubblocks) :
    EncodeChange s { s with sb := { s.sb with slot := n } } := ⟨⟨rfl, rfl, rfl, .inr h⟩, .refl _, rfl⟩

theorem OnlyChk.decodeChange {s t : State} (h : OnlyChk s t) : DecodeChange s t := by
  refine ⟨?_, h.grows, ?_⟩
  · rw [h.same]
    exact .refl s
  · rw [h.same]

/-- A chain of bodies changes what its parts change. -/
theorem bind_state {α β : Type} {R : State → State → Prop} (tr : ∀ {s t u}, R s t → R t u → R s u) {s : State}
    {r : Ran α} {f : α → State → Ran β} (h : R s r.state) (g : ∀ a t, r = .ok a t → R t (f a t).state) :
    R s (r.bind f).state := by
  cases r with
  | ok a t => exact tr h (g a t rfl)
  | fatal x t => exact h

theorem onFatal_state {α : Type} {R : State → State → Prop} (tr : ∀ {s t u}, R s t → R t u → R s u) {s : State}
    {r : Ran α} {f : State → State} (h : R s r.state) (g : ∀ t, R t (f t)) : R s (r.onFatal f).state := by
  cases r with
  | ok a t => exact h
  | fatal x t => exact tr h (g t)

theorem OnlyChk.bind {α β : Type} {s : State} {r : Ran α} {f : α → State → Ran β} (h : OnlyChk s r.state)
    (g : ∀ a t, r = .ok a t → OnlyChk t (f a t).state) : OnlyChk s (r.bind f).state :=
  bind_state (R := OnlyChk) OnlyChk.trans h g

theorem DecodeChange.bind {α β : Type} {s : State} {r : Ran α} {f : α → State → Ran β} (h : DecodeChange s r.state)
    (g : ∀ a t, r = .ok a t → DecodeChange t (f a t).state) : DecodeChange s (r.bind f).state :=
  bind_state (R := DecodeChange) DecodeChange.trans h g

theorem EncodeChange.bind {α β : Type} {s : State} {r : Ran α} {f : α → State → Ran β} (h : EncodeChange s r.state)
    (g : ∀ a t, r = .ok a t → EncodeChange t (f a t).state) : EncodeChange s (r.bind f).state :=
  bind_state (R := EncodeChange) EncodeChange.trans h g

theorem EncodeChange.onFatal {α : Type} {s : State} {r : Ran α} {f : State → State} (h : EncodeChange s r.state)
    (g : ∀ t, EncodeChange t (f t)) : EncodeChange s (r.onFatal f).state :=
  onFatal_state (R := EncodeChange) EncodeChange.trans h g

/-! ### Subblocks -/

theorem startCursor_change (s : State) : DecodeChange s (startCursor s) := ⟨.refl s, .refl _, rfl⟩

theorem loseCodec_change (s : State) (cs : List (Fin 4)) (b t : Bool) : DecodeChange s (loseCodec s cs b t) :=
  ⟨.refl s, .refl _, rfl⟩

theorem loseHdr_change (s : State) : DecodeChange s (loseHdr s) := ⟨.refl s, .refl _, rfl⟩

theorem loseAll_change (s : State) : DecodeChange s (loseAll s) := ⟨.samples s _, .refl _, rfl⟩

theorem loseAll_encode (s : State) : EncodeChange s (loseAll s) := ⟨.samples s _, .refl _, rfl⟩

theorem ctInverseRun_change (s : State) (cs : List (Fin 4)) (trees : Bool) :
    DecodeChange s (ctInverseRun s cs trees).state := by
  unfold ctInverseRun
  split
  · exact ⟨.refl s, .refl _, rfl⟩
  · exact (flagV_only_chk s _ _).decodeChange.trans (loseCodec_change _ _ _ _)

theorem finishBlock_change (s : State) (p : Fin 2) (unc : Bool) (st : DecState) :
    DecodeChange s (finishBlock s p unc st).state := by
  have h : DecodeChange s { s with cur := st.cur.reg, codec := st.codec } := ⟨.refl s, .refl _, rfl⟩
  have h2 := h.trans (flagAll_only_chk { s with cur := st.cur.reg, codec := st.codec } st.pend).decodeChange
  simp only [finishBlock]
  split
  · exact h.trans (loseCodec_change _ _ _ _)
  · split
    · exact h2.trans (DecodeChange.bind (ctInverseRun_change _ _ _) fun _ _ _ => DecodeChange.refl _)
    · exact h2

theorem decodeBlockRun_change (s : State) (src : Nat → Bool) (lim : Nat) (p : Fin 2) (unc : Bool) :
    DecodeChange s (decodeBlockRun s src lim p unc).state := finishBlock_change s p unc _

theorem encodeBlockRun_change (s : State) (base : Nat) (p : Fin 2) : EncodeChange s (encodeBlockRun s base p).state := by
  simp only [encodeBlockRun]
  split
  · exact ⟨.refl s, .refl _, rfl⟩
  · split
    · exact ⟨.refl s, .refl _, rfl⟩
    · next h => exact ⟨.refl s, .bytes (by omega), rfl⟩

/-! ### Headers -/

theorem hdr_change (s : State) (h : Hdr) : DecodeChange s { s with hdr := h } := ⟨.refl s, .refl _, rfl⟩

theorem parseWord_change (s : State) (w : Nat) : DecodeChange s (parseWord s w) := by
  simp only [parseWord]
  split
  · exact ⟨.refl s, .refl _, rfl⟩
  · exact (hdr_change s _).trans (flagAll_only_chk _ _).decodeChange

theorem parseWordRun_change (s : State) (mbnum w : Nat) : DecodeChange s (parseWordRun s mbnum w).state := by
  unfold parseWordRun
  split
  · exact (startCursor_change s).trans (parseWord_change _ w)
  · exact (startCursor_change s).trans (loseHdr_change _)

theorem parseHeaderRun_change (s : State) (mbnum : Nat) : DecodeChange s (parseHeaderRun s mbnum).state :=
  parseWordRun_change s mbnum _

theorem writeHeaderRun_change (s : State) (mbnum : Nat) : EncodeChange s (writeHeaderRun s mbnum).state := by
  simp only [writeHeaderRun]
  split
  · next hf =>
    split
    · exact ⟨.refl s, .bytes (by simpa [headerFits, length_natToBytes] using hf), rfl⟩
    · exact ⟨.refl s, .refl _, rfl⟩
  · exact ⟨.refl s, .refl _, rfl⟩

theorem takeCode_change (s : State) (slot n : Nat) : DecodeChange s (takeCode s slot n) :=
  (hdr_change s _).trans (flagAll_only_chk _ _).decodeChange

theorem sizeRun_change (s : State) (slot n : Nat) : DecodeChange s (sizeRun s slot n).state := by
  unfold sizeRun
  split
  · exact takeCode_change s slot n
  · exact loseHdr_change s

theorem finishElement_change (s : State) (st : DecState) : DecodeChange s (finishElement s st).state := by
  have h : DecodeChange s { s with cur := st.cur.reg, codec := st.codec } := ⟨.refl s, .refl _, rfl⟩
  simp only [finishElement]
  split
  · exact h.trans (loseCodec_change _ _ _ _)
  · exact h.trans (flagAll_only_chk _ _).decodeChange

/-! ### DECODE_SUPERBLOCK -/

theorem tiledCheck_only_chk (s : State) (mbnum ptr : Nat) : OnlyChk s (tiledCheck s mbnum ptr).state := by
  unfold tiledCheck
  split
  · exact .ite (flagV_only_chk s _ _) (.refl s)
  · exact .refl s

theorem addressingChecks_only_chk (s : State) : OnlyChk s (addressingChecks s).state := by
  unfold addressingChecks
  refine OnlyChk.bind ?_ fun _ s1 _ => ?_
  · split
    · exact tiledCheck_only_chk s _ _
    · exact .refl s
  · exact .trans (.ite (sparseCheck_only_chk s1 _) (.refl s1)) (stripeCount_only_chk _ _)

theorem place_change (s : State) (sl : Slot) : DecodeChange s (place s sl) := ⟨.samples s _, .refl _, rfl⟩

theorem decodeSlot_change {s : State} {slot : Nat} (hs : slot < s.desc.nsubblocks) :
    DecodeChange s (decodeSlot s slot).state := by
  have h := DecodeChange.slot hs
  simp only [decodeSlot]
  split
  · exact h.trans (.bind (decodeBlockRun_change _ _ _ _ _) fun n t _ =>
      (sizeCheck_only_chk t _ _ _).decodeChange.trans (place_change _ _))
  · split
    · have hz : DecodeChange { s with sb := { s.sb with slot := slot } }
          (zeroBlock { s with sb := { s.sb with slot := slot } } (slotAt s.desc slot).plane) :=
        ⟨.refl _, .refl _, rfl⟩
      exact h.trans (hz.trans ((recordViol_only_chk _ _ _).decodeChange.trans (place_change _ _)))
    · exact h

theorem decodeSlots_change {l : List Nat} {s : State} (hl : ∀ n ∈ l, n < s.desc.nsubblocks) :
    DecodeChange s (decodeSlots s l).state := by
  induction l generalizing s with
  | nil => exact .refl s
  | cons slot rest ih =>
    have h := decodeSlot_change (hl slot (by simp))
    refine .bind h fun _ t e => ih fun n hn => ?_
    rw [e, state_ok] at h
    rw [h.same]
    exact hl n (by simp [hn])

theorem mem_regionCells {d : Desc} {p : Fin 2} {xy : Nat × Nat} : xy ∈ regionCells d p ↔ xy.1 < pw d p ∧ xy.2 < ph d p := by
  rcases xy with ⟨x, y⟩
  simp [regionCells, and_comm]

theorem writeComp_wf (s : State) (pc : Fin 2 × Fin 4) {out : Vector (Mem 32) 4} (h : ∀ c : Fin 4, (out[c]).wf) (c : Fin 4) :
    ((writeComp s out pc)[c]).wf := by
  unfold writeComp
  simp only [Fin.getElem_fin, Vector.getElem_set]
  split
  · refine wf_foldl _ (fun m xy hm => ?_) (h pc.2) _
    unfold writeSample
    dsimp only
    split
    · exact wf_memSet hm _ _
    · exact hm
  · exact h c

/-- The writeback keeps the canonical form of the sample buffers. -/
theorem writeback_wf (s : State) (h : ∀ c : Fin 4, (s.out[c]).wf) (c : Fin 4) : ((writeback s).out[c]).wf := by
  rw [writeback_out]
  generalize planeComps s.desc = l
  generalize s.out = out at h
  induction l generalizing out with
  | nil => exact h c
  | cons pc rest ih => exact ih _ (writeComp_wf s pc h)

theorem writeComp_outside (s : State) {pc : Fin 2 × Fin 4} (hpc : pc ∈ planeComps s.desc) (out : Vector (Mem 32) 4)
    {c : Fin 4} {i : Nat} (hi : ∀ p x y, ¬ SampleOf s.desc s.sb.mbx s.sb.mby p c i x y) :
    memGet (writeComp s out pc)[c] i = memGet out[c] i := by
  unfold writeComp
  simp only [Fin.getElem_fin, Vector.getElem_set]
  split
  · next hc =>
    obtain rfl : pc.2 = c := Fin.ext hc
    have key : ∀ (l : List (Nat × Nat)) (m : Mem 32), (∀ xy ∈ l, xy ∈ regionCells s.desc pc.1) →
        memGet (l.foldl (writeSample s pc.1 s.sb.sblk[pc.2]) m) i = memGet m i := by
      intro l
      induction l with
      | nil => intros; rfl
      | cons xy rest ih =>
        intro m hl
        rw [List.foldl_cons, ih _ fun z hz => hl z (by simp [hz])]
        unfold writeSample
        dsimp only
        split
        · next hf =>
          have hr := mem_regionCells.mp (hl xy (by simp))
          exact memGet_memSet_ne _ _ _ _ fun e => hi pc.1 xy.1 xy.2 ⟨hpc, hr.1, hr.2, hf.1, hf.2, e⟩
        · rfl
    exact key _ _ fun _ h => h
  · rfl

/-- The writeback leaves every sample outside the superblock alone. -/
theorem writeback_outside (s : State) : OutOutside s (writeback s) s.sb.mbx s.sb.mby := by
  intro c i hi
  rw [writeback_out]
  have key : ∀ (l : List (Fin 2 × Fin 4)) (out : Vector (Mem 32) 4), (∀ pc ∈ l, pc ∈ planeComps s.desc) →
      memGet (l.foldl (writeComp s) out)[c] i = memGet out[c] i := by
    intro l
    induction l with
    | nil => intros; rfl
    | cons pc rest ih =>
      intro out hl
      rw [List.foldl_cons, ih _ fun z hz => hl z (by simp [hz]), writeComp_outside s (hl pc (by simp)) out hi]
  exact key _ _ fun _ h => h

/-- The samples lost by a failed DECODE_SUPERBLOCK are the superblock's. -/
theorem loseOut_outside (s : State) : OutOutside s (loseOut s) s.sb.mbx s.sb.mby :=
  writeback_outside { s with sb := { s.sb with sblk := Config.freeOut s.free } }

theorem loseOut_wf (s : State) (h : ∀ c : Fin 4, (s.out[c]).wf) (c : Fin 4) : ((loseOut s).out[c]).wf :=
  writeback_wf { s with sb := { s.sb with sblk := Config.freeOut s.free } } h c

/-- DECODE_SUPERBLOCK's body after the header: a decoding change, and `OUT` written at the end if it ran to it. -/
theorem decodeBody_cases (s : State) :
    (∃ t, DecodeChange s t ∧ decodeBody s = .ok () (writeback t)) ∨
    (∃ x t, DecodeChange s t ∧ decodeBody s = .fatal x t) := by
  unfold decodeBody
  split
  · have hf : DecodeChange s (fillSolid s) := ⟨.samples s _, .refl _, rfl⟩
    exact .inl ⟨_, hf.trans (stripeCount_only_chk _ _).decodeChange, rfl⟩
  · have h1 := (addressingChecks_only_chk s).decodeChange
    cases e1 : addressingChecks s with
    | fatal x t => exact .inr ⟨x, t, by simpa [e1] using h1, rfl⟩
    | ok _ t =>
      have h2 : DecodeChange t (decodeSlots t (List.range t.desc.nsubblocks)).state :=
        decodeSlots_change fun n hn => List.mem_range.mp hn
      simp only [e1, state_ok] at h1
      simp only [bind_ok]
      cases e2 : decodeSlots t (List.range t.desc.nsubblocks) with
      | fatal x u => exact .inr ⟨x, u, h1.trans (by simpa [e2] using h2), rfl⟩
      | ok _ u => exact .inl ⟨u, h1.trans (by simpa [e2] using h2), rfl⟩

/-- The state in which DECODE_SUPERBLOCK reads the header: the coordinates are set and the slot is 0. -/
def atSuperblock (s : State) (mbx mby : Nat) : State :=
  { setCoords s mbx mby with sb := { (setCoords s mbx mby).sb with slot := 0 } }

/-- DECODE_SUPERBLOCK's body: a decoding change, and `OUT` written at the end, or its samples lost where it failed. -/
theorem decodeSuperblockRun_cases (s : State) (mbx mby : Nat) :
    (∃ t, DecodeChange (atSuperblock s mbx mby) t ∧ decodeSuperblockRun s mbx mby = .ok () (writeback t)) ∨
    (∃ x t, DecodeChange (atSuperblock s mbx mby) t ∧ decodeSuperblockRun s mbx mby = .fatal x (loseAll (loseOut t))) := by
  have e0 : decodeSuperblockRun s mbx mby =
      ((parseHeaderRun (atSuperblock s mbx mby) (mbnumOf s.desc mbx mby)).bind fun _ s3 => decodeBody s3).onFatal
        fun t => loseAll (loseOut t) := rfl
  rw [e0]
  generalize atSuperblock s mbx mby = s2
  generalize mbnumOf s.desc mbx mby = n
  have h1 := parseHeaderRun_change s2 n
  cases e : parseHeaderRun s2 n with
  | fatal x t => exact .inr ⟨x, t, by simpa [e] using h1, rfl⟩
  | ok _ t =>
    simp only [e, state_ok] at h1
    rcases decodeBody_cases t with ⟨u, hu, eu⟩ | ⟨x, u, hu, eu⟩
    · exact .inl ⟨u, h1.trans hu, by simp [eu]⟩
    · exact .inr ⟨x, u, h1.trans hu, by simp [eu]⟩

/-! ### ENCODE_SUPERBLOCK -/

theorem storeSlot_change (s : State) (slot off : Nat) (p : Fin 2) (e : Encoded) :
    EncodeChange s (storeSlot s slot off p e).state := by
  simp only [storeSlot]
  split
  · exact ⟨.refl s, .refl _, rfl⟩
  · next h => split <;> exact ⟨.refl s, .bytes (by omega), rfl⟩

theorem codec_change (s : State) (x : Codec) (k : CursorReg) : EncodeChange s { s with codec := x, cur := k } :=
  ⟨.refl s, .refl _, rfl⟩

theorem encodeSlot_change {s : State} {slot : Nat} (hs : slot < s.desc.nsubblocks) (bodyPos : Nat) (a : EncLoop) :
    EncodeChange s (encodeSlot s bodyPos slot a).state := by
  have h := EncodeChange.slot hs
  have hl : EncodeChange s (loadBlock { s with sb := { s.sb with slot := slot } } (slotAt s.desc slot)) :=
    h.trans ⟨.refl _, .refl _, rfl⟩
  simp only [encodeSlot]
  generalize loadBlock { s with sb := { s.sb with slot := slot } } (slotAt s.desc slot) = u at hl
  split
  · exact hl
  · split
    · exact hl.trans ⟨.refl _, .refl _, rfl⟩
    · exact hl.trans ((codec_change u _ _).trans (.bind (storeSlot_change _ _ _ _ _) fun _ t _ => .refl t))

theorem encodeSlots_change {l : List Nat} {s : State} (hl : ∀ n ∈ l, n < s.desc.nsubblocks) (bodyPos : Nat)
    (a : EncLoop) : EncodeChange s (encodeSlots s bodyPos a l).state := by
  induction l generalizing s a with
  | nil => exact .refl s
  | cons slot rest ih =>
    have h := encodeSlot_change (hl slot (by simp)) bodyPos a
    refine .bind h fun a1 t e => ih (fun n hn => ?_) a1
    rw [e, state_ok] at h
    rw [h.same]
    exact hl n (by simp [hn])

theorem encodeNormal_change (s : State) (bodyPos : Nat) : EncodeChange s (encodeNormal s bodyPos).state := by
  have h : EncodeChange s { s with hdr := { s.hdr with solid := false, ptr := BitVec.ofNat 32 bodyPos, ptrOk := true } } :=
    ⟨.refl _, .refl _, rfl⟩
  unfold encodeNormal
  exact h.trans (.bind (encodeSlots_change (fun n hn => List.mem_range.mp hn) _ _) fun _ t _ =>
    .bind (writeHeaderRun_change t _) fun _ v _ => .refl v)

theorem encodeSolid_change (s : State) (bodyPos : Nat) : EncodeChange s (encodeSolid s bodyPos).state := by
  unfold encodeSolid
  split
  · next hf => exact ⟨.refl _, .bytes (by simpa [headerFits, length_natToBytes] using hf), rfl⟩
  · exact .refl s

/-- ENCODE_SUPERBLOCK's body: an encoding change from the state with the samples fetched. -/
theorem encodeSuperblockRun_change (s : State) (mbx mby bodyPos : Nat) :
    EncodeChange (setCoords s mbx mby) (encodeSuperblockRun s mbx mby bodyPos).state := by
  have h0 : EncodeChange (setCoords s mbx mby) (fetch (setCoords s mbx mby)) := ⟨.samples _ _, .refl _, rfl⟩
  unfold encodeSuperblockRun
  dsimp only
  refine .onFatal (h0.trans ?_) loseAll_encode
  generalize fetch (setCoords s mbx mby) = u
  split
  · exact .refl u
  · split
    · exact encodeSolid_change u bodyPos
    · exact encodeNormal_change u bodyPos

end Sys2Proof.Machine
end

