-- ==== Sys2Proof/Laws/Exec.lean ====
section
/-! SUPPORT. Everything an instruction other than INIT_DESCRIPTOR can do, said once for all of them (`exec_cases`), for
the statements about the whole machine. -/

namespace Sys2Proof.Machine

/-- The three BS commands. -/
def isBs : Instr → Bool
  | .bsRead _ => true
  | .bsReadSigned _ => true
  | .bsWrite _ => true
  | _ => false

/-- The instructions that may write `FB`. -/
def writesFb : Instr → Bool
  | .bsWrite _ => true
  | .encodeBlock _ => true
  | .encodeSuperblock => true
  | .writeHeader => true
  | _ => false

/-- The instructions that flag no violation because they only encode (60_exceptions R319). -/
def onlyEncodes : Instr → Bool
  | .encodeBlock _ => true
  | .encodeSuperblock => true
  | .writeHeader => true
  | .ctForward => true
  | _ => false

/-- The instructions that read a register which 10_state R38 may leave undefined. -/
def mayStop : Instr → Bool
  | .encodeBlock _ => true
  | .ctForward => true
  | .ctInverse => true
  | .writeHeader => true
  | .sizeCopy _ => true
  | .sizeUncomp _ => true
  | .sizeComp _ _ => true
  | .l4d _ => true
  | .root _ _ => true
  | .nodeB0 => true
  | .nodeB1 _ => true
  | .nodeBN _ _ _ => true
  | _ => false

/-- The state an encoding body starts from. -/
def encodeStart (i : Instr) (s : State) : State :=
  if i = .encodeSuperblock then setCoords s s.port.arg0 s.port.arg1 else s

/-- What an instruction other than INIT_DESCRIPTOR comes to. -/
inductive ExecCase (i : Instr) (s : State) : Prop where
  /-- a fatal error stands -/
  | failed (h : s.fat.code ≠ 0) (e : exec i s = .next (failOp s Results.none))
  /-- a BS command runs -/
  | bits (m : Mem 8) (k : CursorReg) (r : Results) (h : s.fat.code = 0) (b : isBs i = true) (fb : FbKeeps s m)
      (w : writesFb i = false → m = s.fb) (e : exec i s = .next (completeOp { s with fb := m, cur := k } r))
  /-- there is no descriptor -/
  | absent (h : s.fat.code = 0) (d : s.descValid = false) (b : isBs i = false)
      (e : exec i s = .next (raiseFatal s .noDescriptor))
  /-- an operand is refused -/
  | input (h : Ready s) (b : isBs i = false) (e : exec i s = .next (raiseFatal s .badInput))
  /-- the colour transform does not apply -/
  | command (h : Ready s) (c : i = .ctForward ∨ i = .ctInverse) (e : exec i s = .next (raiseFatal s .badCommand))
  /-- an undefined register is read -/
  | undefined (h : Ready s) (c : mayStop i = true) (e : exec i s = .fault .undefinedRegister)
  /-- a decoding body runs to its end -/
  | decoded (t : State) (r : Results) (h : Ready s) (b : isBs i = false) (n : i ≠ .decodeSuperblock)
      (o : onlyEncodes i = false) (w : writesFb i = false) (c : DecodeChange s t) (e : exec i s = .next (completeOp t r))
  /-- a decoding body ends in a fatal error -/
  | decodeFailed (x : FatalCode) (t : State) (r : Results) (h : Ready s) (b : isBs i = false)
      (n : i ≠ .decodeSuperblock) (o : onlyEncodes i = false) (w : writesFb i = false) (c : DecodeChange s t)
      (e : exec i s = .next (raiseFatal t x r))
  /-- an encoding body runs to its end -/
  | encoded (t : State) (r : Results) (h : Ready s) (o : onlyEncodes i = true)
      (g : i = .encodeSuperblock → inGrid s.desc s.port.arg0 s.port.arg1 = true) (c : EncodeChange (encodeStart i s) t)
      (w : writesFb i = false → t.fb = s.fb) (e : exec i s = .next (completeOp t r))
  /-- an encoding body ends in a fatal error -/
  | encodeFailed (x : FatalCode) (t : State) (r : Results) (h : Ready s) (o : onlyEncodes i = true)
      (g : i = .encodeSuperblock → inGrid s.desc s.port.arg0 s.port.arg1 = true) (c : EncodeChange (encodeStart i s) t)
      (w : writesFb i = true) (e : exec i s = .next (raiseFatal t x r))
  /-- DECODE_SUPERBLOCK runs to its end -/
  | superblock (t : State) (h : Ready s) (d : i = .decodeSuperblock)
      (g : inGrid s.desc s.port.arg0 s.port.arg1 = true)
      (c : DecodeChange (atSuperblock s s.port.arg0 s.port.arg1) t)
      (e : exec i s = .next (completeOp (writeback t) Results.none))
  /-- DECODE_SUPERBLOCK ends in a fatal error -/
  | superblockFailed (x : FatalCode) (t : State) (h : Ready s) (d : i = .decodeSuperblock)
      (g : inGrid s.desc s.port.arg0 s.port.arg1 = true)
      (c : DecodeChange (atSuperblock s s.port.arg0 s.port.arg1) t)
      (e : exec i s = .next (raiseFatal (loseAll (loseOut t)) x Results.none))

/-! ### The gates -/

variable {i : Instr} {s : State} {k : Host.Outcome State Fault Refusal} {c : Bool} {α : Type}

theorem ExecCase.ofReady (b : isBs i = false) (e : exec i s = ifReady s k)
    (g : Ready s → exec i s = k → ExecCase i s) : ExecCase i s := by
  by_cases h : s.fat.code = 0
  · cases d : s.descValid
    · exact .absent h d b (by rw [e, ifReady_noDescriptor h d])
    · exact g ⟨h, d⟩ (by rw [e, ifReady_ready h d])
  · exact .failed h (by rw [e, ifReady_failed h])

theorem ExecCase.ofInput (b : isBs i = false) (h : Ready s) (e : exec i s = ifInput s c k)
    (g : exec i s = k → ExecCase i s) : ExecCase i s := by
  cases c
  · exact .input h b e
  · exact g e

theorem ExecCase.ofDefined (m : mayStop i = true) (h : Ready s) (e : exec i s = ifDefined c k)
    (g : exec i s = k → ExecCase i s) : ExecCase i s := by
  cases c
  · exact .undefined h m e
  · exact g e

theorem ExecCase.ofDecode (b : isBs i = false) (n : i ≠ .decodeSuperblock) (o : onlyEncodes i = false)
    (w : writesFb i = false) (h : Ready s) {r : Ran α} {res : α → Results} {bad : FatalCode → Results}
    (e : exec i s = settle r res bad) (d : DecodeChange s r.state) : ExecCase i s := by
  cases r with
  | ok a t => exact .decoded t _ h b n o w d e
  | fatal x t => exact .decodeFailed x t _ h b n o w d e

theorem ExecCase.ofEncode (o : onlyEncodes i = true) (w : writesFb i = true) (h : Ready s)
    (g : i = .encodeSuperblock → inGrid s.desc s.port.arg0 s.port.arg1 = true) {r : Ran α} {res : α → Results}
    {bad : FatalCode → Results} (e : exec i s = settle r res bad) (d : EncodeChange (encodeStart i s) r.state)
    : ExecCase i s := by
  have nw : writesFb i = false → r.state.fb = s.fb := fun z => by rw [w] at z; cases z
  cases r with
  | ok a t => exact .encoded t _ h o g d nw e
  | fatal x t => exact .encodeFailed x t _ h o g d w e

/-- A state in which nothing but results were returned. -/
theorem ExecCase.ofResults (b : isBs i = false) (n : i ≠ .decodeSuperblock) (o : onlyEncodes i = false)
    (w : writesFb i = false) (h : Ready s) {r : Results} (e : exec i s = .next (completeOp s r)) : ExecCase i s :=
  .decoded s r h b n o w (.refl s) e

/-! ### The elements -/

theorem ExecCase.ofStream (b : isBs i = false) (n : i ≠ .decodeSuperblock) (o : onlyEncodes i = false)
    (w : writesFb i = false) {fits defined admits : Bool} {f : DecState → DecState} (m : mayStop i = true ∨ defined = true)
    (e : exec i s = streamElement s fits defined admits f) : ExecCase i s := by
  refine .ofReady b e fun h e => .ofInput b h e fun e => ?_
  have last : exec i s = ifInput s admits (settle (finishElement s (f ⟨s.cur.cursor, s.codec, []⟩)) fun _ => Results.none) →
      ExecCase i s := fun e => .ofInput b h e fun e =>
    .ofDecode b n o w h e (finishElement_change s _)
  rcases m with m | rfl
  · exact .ofDefined m h e last
  · exact last e

theorem ExecCase.ofHeader {m : Subsampling} {sol : Bool} {v : Nat} (b : isBs i = false) (n : i ≠ .decodeSuperblock)
    (o : onlyEncodes i = false) (w : writesFb i = false) (e : exec i s = headerElement m sol v s) : ExecCase i s :=
  .ofReady b e fun h e => .ofInput b h e fun e =>
    .ofDecode b n o w h e (parseWordRun_change s _ _)

theorem ExecCase.ofSize {m : Subsampling} {v : Nat} (b : isBs i = false) (n : i ≠ .decodeSuperblock)
    (o : onlyEncodes i = false) (w : writesFb i = false) (u : mayStop i = true) (e : exec i s = sizeElement m v s) :
    ExecCase i s :=
  .ofReady b e fun h e => .ofInput b h e fun e => .ofDefined u h e fun e => .ofInput b h e fun e =>
    .ofDecode b n o w h e (sizeRun_change s _ _)

theorem ExecCase.ofBlock {unc : Bool} {n v : Nat} (b : isBs i = false) (d : i ≠ .decodeSuperblock)
    (o : onlyEncodes i = false) (w : writesFb i = false) (e : exec i s = blockElement unc n v s) : ExecCase i s :=
  .ofReady b e fun h e => .ofInput b h e fun e =>
    .ofDecode b d o w h e (decodeBlockRun_change s _ _ _ _)

/-! ### All of them -/

theorem bsWrite_keeps (s : State) (base v n : Nat) (k : Cursor) :
    FbKeeps s (bsWrite s.fb base (windowBits s base) v n k).1 := by
  refine ⟨fun w => wf_bsWrite w _ _ _ _ _, fun a ha => ?_⟩
  unfold bsWrite
  split
  · rfl
  · split
    · next h =>
      have key : ∀ n v pos (m : Mem 8), pos + n ≤ windowBits s base → memGet (writeBits m base pos n v) a = memGet m a := by
        intro n
        induction n with
        | zero => intros; rfl
        | succ n ih =>
          intro v pos m hb
          rw [writeBits, ih _ _ _ (by omega), setFbBit, memGet_memSet_ne]
          unfold windowBits at hb
          omega
      by_cases hn : n = 0
      · subst hn
        rfl
      · refine key _ _ _ _ ?_
        simp only [fitsWindow, Bool.or_eq_true, beq_iff_eq, decide_eq_true_eq] at h
        omega
    · rfl

/-- Everything an instruction other than INIT_DESCRIPTOR can do. -/
theorem exec_cases (i : Instr) (s : State) (hi : i ≠ .initDescriptor) : ExecCase i s := by
  cases i
  case initDescriptor => exact absurd rfl hi
  case bsRead n =>
    by_cases h : s.fat.code = 0
    · exact .bits s.fb _ _ h rfl (.refl s) (fun _ => rfl) (ifNotFailed_zero h)
    · exact .failed h (ifNotFailed_failed h)
  case bsReadSigned n =>
    by_cases h : s.fat.code = 0
    · exact .bits s.fb _ _ h rfl (.refl s) (fun _ => rfl) (ifNotFailed_zero h)
    · exact .failed h (ifNotFailed_failed h)
  case bsWrite n =>
    by_cases h : s.fat.code = 0
    · exact .bits _ _ _ h rfl (bsWrite_keeps s s.port.arg0 s.port.arg3 n.toNat (argCursor s)) (fun w => by cases w)
        (ifNotFailed_zero h)
    · exact .failed h (ifNotFailed_failed h)
  case decodeBlock p u =>
    exact .ofReady rfl rfl fun h e => .ofInput rfl h e fun e =>
      .ofDecode rfl (by simp) rfl rfl h e (decodeBlockRun_change s _ _ _ _)
  case encodeBlock p =>
    exact .ofReady rfl rfl fun h e => .ofInput rfl h e fun e => .ofDefined rfl h e fun e => .ofInput rfl h e fun e =>
      .ofEncode rfl rfl h (by simp) e (by simpa [encodeStart] using encodeBlockRun_change s _ _)
  case decodeSuperblock =>
    refine .ofReady rfl rfl fun h e => ?_
    cases g : inGrid s.desc s.port.arg0 s.port.arg1
    · exact .input h rfl (by rw [e, g, ifInput_false])
    · rw [g, ifInput_true] at e
      rcases decodeSuperblockRun_cases s s.port.arg0 s.port.arg1 with ⟨t, ht, et⟩ | ⟨x, t, ht, et⟩
      · exact .superblock t h rfl g ht (by rw [e, et, settle_ok])
      · exact .superblockFailed x t h rfl g ht (by rw [e, et, settle_fatal])
  case encodeSuperblock =>
    refine .ofReady rfl rfl fun h e => ?_
    cases g : inGrid s.desc s.port.arg0 s.port.arg1
    · exact .input h rfl (by rw [e, g, ifInput_false])
    · rw [g, ifInput_true] at e
      exact .ofEncode rfl rfl h (fun _ => g) e (by simpa [encodeStart] using encodeSuperblockRun_change s _ _ _)
  case parseHeader =>
    exact .ofReady rfl rfl fun h e =>
      .ofDecode rfl (by simp) rfl rfl h e (parseHeaderRun_change s _)
  case writeHeader =>
    exact .ofReady rfl rfl fun h e => .ofDefined rfl h e fun e =>
      .ofEncode rfl rfl h (by simp) e (by simpa [encodeStart] using writeHeaderRun_change s _)
  case resolveAddr => exact .ofReady rfl rfl fun h e => .ofInput rfl h e fun e => .ofResults rfl (by simp) rfl rfl h e
  case ctForward =>
    refine .ofReady rfl rfl fun h e => ?_
    cases g : ctApplies s.desc.toDescIn 0
    · exact .command h (.inl rfl) (by rw [e, ifCtApplies, g]; rfl)
    · rw [ifCtApplies, g, if_pos rfl] at e
      exact .ofDefined rfl h e fun e => .ofInput rfl h e fun e =>
        .encoded { s with codec := { s.codec with blk := ctForwardBlock (inBits s.desc.toDescIn 0) s.codec.blk } }
          Results.none h rfl (by simp) (by simpa [encodeStart] using codec_change s _ s.cur) (fun _ => rfl) e
  case ctInverse =>
    refine .ofReady rfl rfl fun h e => ?_
    cases g : ctApplies s.desc.toDescIn 0
    · exact .command h (.inr rfl) (by rw [e, ifCtApplies, g]; rfl)
    · rw [ifCtApplies, g, if_pos rfl] at e
      exact .ofDefined rfl h e fun e => .ofInput rfl h e fun e =>
        .ofDecode rfl (by simp) rfl rfl h e (ctInverseRun_change s _ _)
  case getMaxSbPayload => exact .ofReady rfl rfl fun h e => .ofResults rfl (by simp) rfl rfl h e
  case getMaxFrameSize => exact .ofReady rfl rfl fun h e => .ofResults rfl (by simp) rfl rfl h e
  case getUncompFrameSize => exact .ofReady rfl rfl fun h e => .ofResults rfl (by simp) rfl rfl h e
  case pad => exact .ofReady rfl rfl fun h e => .ofResults rfl (by simp) rfl rfl h e
  case headerNormalNone p c =>
    have e : exec (.headerNormalNone p c) s = execHeaderNormalNone p c s := rfl
    unfold execHeaderNormalNone at e
    exact .ofHeader rfl (by simp) rfl rfl e
  case headerNormalS420 p c =>
    have e : exec (.headerNormalS420 p c) s = execHeaderNormalS420 p c s := rfl
    unfold execHeaderNormalS420 at e
    exact .ofHeader rfl (by simp) rfl rfl e
  case headerNormalS422 p c =>
    have e : exec (.headerNormalS422 p c) s = execHeaderNormalS422 p c s := rfl
    unfold execHeaderNormalS422 at e
    exact .ofHeader rfl (by simp) rfl rfl e
  case headerSolid m w =>
    have e : exec (.headerSolid m w) s = execHeaderSolid m w s := rfl
    unfold execHeaderSolid at e
    exact .ofHeader rfl (by simp) rfl rfl e
  case sizeCopy m =>
    have e : exec (.sizeCopy m) s = execSizeCopy m s := rfl
    unfold execSizeCopy at e
    exact .ofSize rfl (by simp) rfl rfl rfl e
  case sizeUncomp m =>
    have e : exec (.sizeUncomp m) s = execSizeUncomp m s := rfl
    unfold execSizeUncomp at e
    exact .ofSize rfl (by simp) rfl rfl rfl e
  case sizeComp m n =>
    have e : exec (.sizeComp m n) s = execSizeComp m n s := rfl
    unfold execSizeComp at e
    exact .ofSize rfl (by simp) rfl rfl rfl e
  case blockUncomp n v =>
    have e : exec (.blockUncomp n v) s = execBlockUncomp n v s := rfl
    unfold execBlockUncomp at e
    exact .ofBlock rfl (by simp) rfl rfl e
  case blockComp n v =>
    have e : exec (.blockComp n v) s = execBlockComp n v s := rfl
    unfold execBlockComp at e
    exact .ofBlock rfl (by simp) rfl rfl e
  case l3UniformW2 =>
    have e : exec .l3UniformW2 s = execL3UniformW2 s := rfl
    unfold execL3UniformW2 l3Element at e
    exact .ofStream rfl (by simp) rfl rfl (.inr rfl) e
  case l3DefaultW2 =>
    have e : exec .l3DefaultW2 s = execL3DefaultW2 s := rfl
    unfold execL3DefaultW2 l3Element at e
    exact .ofStream rfl (by simp) rfl rfl (.inr rfl) e
  case l3LiteralW2 c =>
    have e : exec (.l3LiteralW2 c) s = execL3LiteralW2 c s := rfl
    unfold execL3LiteralW2 l3Element at e
    exact .ofStream rfl (by simp) rfl rfl (.inr rfl) e
  case l3UniformW3 =>
    have e : exec .l3UniformW3 s = execL3UniformW3 s := rfl
    unfold execL3UniformW3 l3Element at e
    exact .ofStream rfl (by simp) rfl rfl (.inr rfl) e
  case l3DefaultW3 =>
    have e : exec .l3DefaultW3 s = execL3DefaultW3 s := rfl
    unfold execL3DefaultW3 l3Element at e
    exact .ofStream rfl (by simp) rfl rfl (.inr rfl) e
  case l3LiteralW3 c =>
    have e : exec (.l3LiteralW3 c) s = execL3LiteralW3 c s := rfl
    unfold execL3LiteralW3 l3Element at e
    exact .ofStream rfl (by simp) rfl rfl (.inr rfl) e
  case l3UniformW4 =>
    have e : exec .l3UniformW4 s = execL3UniformW4 s := rfl
    unfold execL3UniformW4 l3Element at e
    exact .ofStream rfl (by simp) rfl rfl (.inr rfl) e
  case l3DefaultW4 =>
    have e : exec .l3DefaultW4 s = execL3DefaultW4 s := rfl
    unfold execL3DefaultW4 l3Element at e
    exact .ofStream rfl (by simp) rfl rfl (.inr rfl) e
  case l3LiteralW4 c =>
    have e : exec (.l3LiteralW4 c) s = execL3LiteralW4 c s := rfl
    unfold execL3LiteralW4 l3Element at e
    exact .ofStream rfl (by simp) rfl rfl (.inr rfl) e
  case l3UniformW5 =>
    have e : exec .l3UniformW5 s = execL3UniformW5 s := rfl
    unfold execL3UniformW5 l3Element at e
    exact .ofStream rfl (by simp) rfl rfl (.inr rfl) e
  case l3DefaultW5 =>
    have e : exec .l3DefaultW5 s = execL3DefaultW5 s := rfl
    unfold execL3DefaultW5 l3Element at e
    exact .ofStream rfl (by simp) rfl rfl (.inr rfl) e
  case l3LiteralW5 c =>
    have e : exec (.l3LiteralW5 c) s = execL3LiteralW5 c s := rfl
    unfold execL3LiteralW5 l3Element at e
    exact .ofStream rfl (by simp) rfl rfl (.inr rfl) e
  case l4d d =>
    have e : exec (.l4d d) s = execL4d d s := rfl
    unfold execL4d at e
    exact .ofStream rfl (by simp) rfl rfl (.inl rfl) e
  case root v n =>
    have e : exec (.root v n) s = execRoot v n s := rfl
    unfold execRoot at e
    exact .ofStream rfl (by simp) rfl rfl (.inl rfl) e
  case nodeB0 =>
    have e : exec .nodeB0 s = execNodeB0 s := rfl
    unfold execNodeB0 nodeElement at e
    exact .ofStream rfl (by simp) rfl rfl (.inl rfl) e
  case nodeB1 d =>
    have e : exec (.nodeB1 d) s = execNodeB1 d s := rfl
    unfold execNodeB1 nodeElement at e
    exact .ofStream rfl (by simp) rfl rfl (.inl rfl) e
  case nodeBN n z v =>
    have e : exec (.nodeBN n z v) s = execNodeBN n z v s := rfl
    unfold execNodeBN nodeElement at e
    exact .ofStream rfl (by simp) rfl rfl (.inl rfl) e

end Sys2Proof.Machine
end

