-- ==== Sys2Proof/Laws/PerInstr.lean ====
section
/-! SUPPORT. Statements made per instruction. `Fits`: the bits of a well-formed instruction fit the width of its format
(30_encoding R92, R96 to R107). -/

namespace Sys2Proof.Laws

/-- The bits of a well-formed instruction fit its format. -/
def Fits.Statement (i : Instr) : Prop := i.wf = true → i.bits < 2 ^ i.form.width

/-- A command word with `nbits` in bits 15:10 has 32 bits. -/
theorem cmd_fits (op : Nat) (n : BitVec 6) (h : op < 2 ^ 8) : op + 2 ^ 10 * n.toNat < 2 ^ 32 := by
  have := n.isLt
  omega

theorem Fits.bsRead (n : BitVec 6) : Fits.Statement (.bsRead n) := fun _ => cmd_fits _ n (by decide)

theorem Fits.bsReadSigned (n : BitVec 6) : Fits.Statement (.bsReadSigned n) := fun _ => cmd_fits _ n (by decide)

theorem Fits.bsWrite (n : BitVec 6) : Fits.Statement (.bsWrite n) := fun _ => cmd_fits _ n (by decide)

theorem Fits.decodeBlock (p : Fin 2) (u : Bool) : Fits.Statement (.decodeBlock p u) := by
  revert p u
  unfold Fits.Statement
  decide

theorem Fits.encodeBlock (p : Fin 2) : Fits.Statement (.encodeBlock p) := by
  revert p
  unfold Fits.Statement
  decide

theorem Fits.decodeSuperblock : Fits.Statement .decodeSuperblock := fun _ => by decide

theorem Fits.encodeSuperblock : Fits.Statement .encodeSuperblock := fun _ => by decide

theorem Fits.parseHeader : Fits.Statement .parseHeader := fun _ => by decide

theorem Fits.writeHeader : Fits.Statement .writeHeader := fun _ => by decide

theorem Fits.resolveAddr : Fits.Statement .resolveAddr := fun _ => by decide

theorem Fits.ctForward : Fits.Statement .ctForward := fun _ => by decide

theorem Fits.ctInverse : Fits.Statement .ctInverse := fun _ => by decide

theorem Fits.initDescriptor : Fits.Statement .initDescriptor := fun _ => by decide

theorem Fits.getMaxSbPayload : Fits.Statement .getMaxSbPayload := fun _ => by decide

theorem Fits.getMaxFrameSize : Fits.Statement .getMaxFrameSize := fun _ => by decide

theorem Fits.getUncompFrameSize : Fits.Statement .getUncompFrameSize := fun _ => by decide

theorem Fits.headerNormalNone (p : BitVec 32) (cs : Vector (BitVec 6) 16) : Fits.Statement (.headerNormalNone p cs) := fun _ => headerBits_lt p cs rfl

theorem Fits.headerNormalS420 (p : BitVec 28) (cs : Vector (BitVec 5) 20) : Fits.Statement (.headerNormalS420 p cs) := fun _ => headerBits_lt p cs rfl

theorem Fits.headerNormalS422 (p : BitVec 32) (cs : Vector (BitVec 4) 24) : Fits.Statement (.headerNormalS422 p cs) := fun _ => headerBits_lt p cs rfl

theorem Fits.headerSolid (m : Subsampling) (h : BitVec 128) : Fits.Statement (.headerSolid m h) := fun _ => h.isLt

theorem Fits.sizeCopy (m : Subsampling) : Fits.Statement (.sizeCopy m) := fun _ => by cases m <;> decide

theorem Fits.sizeUncomp (m : Subsampling) : Fits.Statement (.sizeUncomp m) := fun _ => by cases m <;> decide

theorem Fits.sizeComp (m : Subsampling) (n : BitVec 6) : Fits.Statement (.sizeComp m n) := fun h => (of_decide_eq_true h).2

theorem Fits.blockUncomp (n v : Nat) : Fits.Statement (.blockUncomp n v) := fun h => of_decide_eq_true h

theorem Fits.blockComp (n v : Nat) : Fits.Statement (.blockComp n v) := fun h => of_decide_eq_true h

theorem Fits.l3UniformW2 : Fits.Statement .l3UniformW2 := fun _ => by decide

theorem Fits.l3DefaultW2 : Fits.Statement .l3DefaultW2 := fun _ => by decide

theorem Fits.l3LiteralW2 (c : BitVec 2) : Fits.Statement (.l3LiteralW2 c) := fun _ => c.isLt

theorem Fits.l3UniformW3 : Fits.Statement .l3UniformW3 := fun _ => by decide

theorem Fits.l3DefaultW3 : Fits.Statement .l3DefaultW3 := fun _ => by decide

theorem Fits.l3LiteralW3 (c : BitVec 3) : Fits.Statement (.l3LiteralW3 c) := fun _ => c.isLt

theorem Fits.l3UniformW4 : Fits.Statement .l3UniformW4 := fun _ => by decide

theorem Fits.l3DefaultW4 : Fits.Statement .l3DefaultW4 := fun _ => by decide

theorem Fits.l3LiteralW4 (c : BitVec 4) : Fits.Statement (.l3LiteralW4 c) := fun _ => c.isLt

theorem Fits.l3UniformW5 : Fits.Statement .l3UniformW5 := fun _ => by decide

theorem Fits.l3DefaultW5 : Fits.Statement .l3DefaultW5 := fun _ => by decide

theorem Fits.l3LiteralW5 (c : BitVec 5) : Fits.Statement (.l3LiteralW5 c) := fun _ => c.isLt

theorem Fits.l4d (d : BitVec 2) : Fits.Statement (.l4d d) := fun _ => d.isLt

theorem Fits.root (w v : Nat) : Fits.Statement (.root w v) := fun h => (of_decide_eq_true h).2.2

theorem Fits.nodeB0 : Fits.Statement .nodeB0 := fun _ => by decide

theorem Fits.nodeB1 (d : BitVec 4) : Fits.Statement (.nodeB1 d) := fun _ => d.isLt

theorem Fits.nodeBN (b : Nat) (z : BitVec 2) (planes : Nat) : Fits.Statement (.nodeBN b z planes) := by
  intro h
  obtain ⟨h1, -, h3⟩ := of_decide_eq_true h
  obtain ⟨b, rfl⟩ := Nat.exists_eq_add_of_le' h1
  have hz := z.isLt
  simp only [Instr.bits, Instr.form, Form.width, pow_add 2 2]
  omega

theorem Fits.pad : Fits.Statement .pad := fun _ => by decide

end Sys2Proof.Laws
end

