-- ==== Sys2Proof/Tests/Slice0.lean ====
section
/-! SUPPORT. The model's own tests: ill-formed terms refused, words written out from 30_encoding and decoded, the vectors
of 95_test_vectors.md one step at a time, and for every statement a state and operands that meet its hypotheses. -/

namespace Sys2Proof.Tests

set_option Elab.async false

open Sys2Proof.Machine

/-! ### States to test on -/

/-- Fixture `DA` of 95_test_vectors.md. -/
def descA : DescIn := { DescIn.zero with
  width := 16, height := 16, ncomp := #v[1, 0], inputbits := #v[8, 0, 0, 0], errorCheck := true
  sbsMultiplier := #v[1, 1], stripeAlign := 1, splitSlot := 8, bufSize := 272, frameSize := 272 }

/-- Fixture `DB`. -/
def descB : DescIn := { descA with ncomp := #v[3, 0], inputbits := #v[8, 8, 8, 0], bufSize := 784, frameSize := 784 }

/-- Fixture `DC`. -/
def descC : DescIn := { descB with yuvTransform := true }

/-- `DB` with the buffer of section 5. -/
def desc5 : DescIn := { descB with bufSize := 4096, frameSize := 4096 }

/-- The tiled descriptor of V6.2. -/
def descT : DescIn := { descB with
  width := 256, height := 48, tiled := true, ncomp := #v[4, 0], inputbits := #v[8, 8, 8, 8]
  bufSize := 0x100000, frameSize := 0x100000, checkTileStart := true }

/-- A frame of one sample per component. -/
def desc1 : DescIn := { desc5 with width := 1, height := 1, allowSolid := true, ncomp := #v[1, 0], inputbits := #v[8, 0, 0, 0] }

/-- Reset, then a descriptor in place, under a layout table. -/
def readyUnder (l : Layout) (i : DescIn) : State := { State.reset with
  descValid := true, desc := derive l i, chk := { State.reset.chk with stripeBins := initialBins (derive l i) } }

/-- Reset, then a descriptor in place, under the example table of 46_descriptor R294. -/
def ready (i : DescIn) : State := readyUnder layout0 i

/-- The slots of a region of `w` by `h` samples of a plane, row by row. -/
def slotGrid (p : Fin 2) (w h : Nat) : List Slot :=
  (List.range (h / 4)).flatMap fun y => (List.range (w / 4)).map fun x => ⟨p, 4 * x, 4 * y⟩

/-- A table of each subsampling mode (R293). -/
def tableOf : Subsampling → Layout
  | .NONE => layout0
  | .S420 => ⟨16, 16, .S420, 2, slotGrid 0 16 16 ++ slotGrid 1 8 8⟩
  | .S422 => ⟨32, 8, .S422, 2, slotGrid 0 32 8 ++ slotGrid 1 16 8⟩

/-- A descriptor of two planes. -/
def descM : DescIn := { desc5 with
  width := 40, height := 20, layout := 1, ncomp := #v[1, 2], firstComp := #v[0, 1], sbsMultiplier := #v[2, 2], errorCheck := false }

/-- The operand registers. -/
def args (s : State) (a : Nat) (b c d : Nat := 0) : State :=
  { s with port := { s.port with arg0 := a, arg1 := b, arg2 := c, arg3 := d } }

/-- Bytes placed in `FB`. -/
def bytesAt (s : State) (a : Nat) (l : List Nat) : State := { s with fb := memSetBytes s.fb a (l.map (BitVec.ofNat 8)) }

/-- Rows 0 to 2 of `BLK`, written by the host. -/
def withRows (s : State) (a b c : Vector Sample 16) : State :=
  { s with codec := ((s.codec.hostBlk 0 a).hostBlk 1 b).hostBlk 2 c }

/-- Sixteen equal samples. -/
def flat (v : Sample) : Vector Sample 16 := Vector.replicate 16 v

/-- Size codes in the first slots, 0 in the others. -/
def codes (l : List Nat) : Vector (BitVec 6) 24 := Vector.ofFn fun k => BitVec.ofNat 6 (l.getD k.val 0)

/-- The header registers, written by the host. -/
def withHdr (s : State) (p : Nat) (l : List Nat) : State := { s with hdr := s.hdr.hostWrite (BitVec.ofNat 32 p) (codes l) }

/-- Component 0 of the subblock registers, as a stream leaves them after a root count and a root. -/
def withTree (s : State) (bc : Vector Int 5) (root : Nat) : State :=
  { s with codec := { (s.codec.setRoot 0 root) with
      bctree := s.codec.bctree.set 0 bc, bcOk := s.codec.bcOk.set 0 (Vector.replicate 5 true) } }

/-- The next state, if there is one. -/
def nextOf (o : Host.Outcome State Fault Refusal) : Option State :=
  match o with
  | .next t => some t
  | .fault _ => none
  | .refused _ => none

/-- Whether a state meets the invariant, as a test that evaluates. -/
def invTest (s : State) : Bool :=
  decide s.fb.wf && allComps.all (fun c => decide (s.out[c]).wf) &&
  decide (s.fat.code.toNat ≤ 8) && decide (s.chk.violMask.toNat < 2 ^ 11) &&
  decide (s.chk.violMask ≠ 0 ↔ s.chk.foundError = true) && decide (s.fat.code ≠ 0 → s.port.status = .failed) &&
  decide (s.descValid = true → s.desc = derive s.desc.table s.desc.toDescIn) && decide (s.descValid = true → validDesc s.desc = true) &&
  decide (s.descValid = true → s.chk.stripeBins.length = (initialBins s.desc).length) &&
  decide (s.descValid = true → s.sb.mbx < s.desc.mbw ∧ s.sb.mby < s.desc.mbh) && decide (s.sb.slot < 24)

theorem inv_of_test {s : State} (h : invTest s = true) : Inv s := by
  simp only [invTest, Bool.and_eq_true, decide_eq_true_eq, allComps, List.all_cons, List.all_nil] at h
  obtain ⟨⟨⟨⟨⟨⟨⟨⟨⟨⟨h1, h2⟩, h3⟩, h4⟩, h5⟩, h6⟩, h7⟩, h8⟩, h9⟩, h10⟩, h11⟩ := h
  refine ⟨⟨h1, fun c => ?_⟩, ⟨h3, h4, h5, h6⟩, ⟨h7, h8, h9⟩, ⟨h10, h11⟩⟩
  fin_cases c
  · exact h2.1
  · exact h2.2.1
  · exact h2.2.2.1
  · exact h2.2.2.2.1

/-- Whether the state is ready and meets the invariant. -/
def good (s : State) : Bool := invTest s && (s.fat.code == 0 && s.descValid)

theorem good_spec {s : State} (h : good s = true) : Inv s ∧ Ready s := by
  simp only [good, Bool.and_eq_true, beq_iff_eq] at h
  exact ⟨inv_of_test h.1, h.2⟩

/-! ### WellFormed: an ill-formed term for each check -/

theorem test_wf_bsRead : (Instr.bsRead 33).wf = false ∧ (Instr.bsRead 32).wf = true := by decide
theorem test_wf_bsReadSigned : (Instr.bsReadSigned 63).wf = false := by decide
theorem test_wf_bsWrite : (Instr.bsWrite 33).wf = false := by decide
theorem test_wf_headerSolid : (Instr.headerSolid .NONE (1#128 <<< 32)).wf = false ∧ (Instr.headerSolid .S420 (1#128 <<< 28)).wf = false ∧
    (Instr.headerSolid .S422 (8#128 <<< 32)).wf = false ∧ (Instr.headerSolid .S422 (16#128 <<< 32)).wf = true := by decide
theorem test_wf_sizeComp : (Instr.sizeComp .NONE 1).wf = false ∧ (Instr.sizeComp .S422 16).wf = false ∧
    (Instr.sizeComp .S420 32).wf = false ∧ (Instr.sizeComp .NONE 63).wf = true := by decide
theorem test_wf_blockUncomp : (Instr.blockUncomp 8 256).wf = false := by decide
theorem test_wf_blockComp : (Instr.blockComp 4 16).wf = false := by decide
theorem test_wf_literals : (Instr.l3LiteralW2 2).wf = false ∧ (Instr.l3LiteralW3 6).wf = false ∧
    (Instr.l3LiteralW4 14).wf = false ∧ (Instr.l3LiteralW5 30).wf = false := by decide
theorem test_wf_root : (Instr.root 0 0).wf = false ∧ (Instr.root 16 0).wf = false ∧ (Instr.root 4 16).wf = false := by decide
theorem test_wf_nodeBN : (Instr.nodeBN 1 0 0).wf = false ∧ (Instr.nodeBN 30 0 0).wf = false ∧
    (Instr.nodeBN 2 0 64).wf = false ∧ (Instr.nodeBN 29 3 (2 ^ 87 - 1)).wf = true := by decide

/-! ### Words written out from 30_encoding, one for every constructor

The command words: op in bits 7:0, plane in bit 8, unc in bit 9, nbits in bits 15:10 (R92, R93). -/

theorem test_decode_bs : decode .cmd 0b1000_0000_0000_0001 = .ok (.bsRead 32) ∧
    decode .cmd 0b0001_1100_0000_0010 = .ok (.bsReadSigned 7) ∧ decode .cmd 0b0000_0100_0000_0011 = .ok (.bsWrite 1) := by decide
theorem test_decode_blocks : decode .cmd 0b10_0001_0000 = .ok (.decodeBlock 0 true) ∧
    decode .cmd 0b01_0001_0000 = .ok (.decodeBlock 1 false) ∧ decode .cmd 0b01_0001_0001 = .ok (.encodeBlock 1) := by decide
theorem test_decode_superblocks : decode .cmd 0x20 = .ok .decodeSuperblock ∧ decode .cmd 0x21 = .ok .encodeSuperblock := by decide
theorem test_decode_headers : decode .cmd 0x30 = .ok .parseHeader ∧ decode .cmd 0x31 = .ok .writeHeader ∧
    decode .cmd 0x32 = .ok .resolveAddr := by decide
theorem test_decode_transforms : decode .cmd 0x40 = .ok .ctForward ∧ decode .cmd 0x41 = .ok .ctInverse := by decide
theorem test_decode_descriptor : decode .cmd 0x50 = .ok .initDescriptor ∧ decode .cmd 0x51 = .ok .getMaxSbPayload ∧
    decode .cmd 0x52 = .ok .getMaxFrameSize ∧ decode .cmd 0x53 = .ok .getUncompFrameSize := by decide
theorem test_decode_illegal : decode .cmd 0x10020 = .error .reservedBits ∧ decode .cmd 0x8401 = .error .nbitsOver32 ∧
    decode .cmd 0x80000020 = .error .reservedBits ∧ decode .cmd 0 = .error .unknownOp ∧ decode .cmd 0x54 = .error .unknownOp := by decide

/-- V5.1's sixteen bytes: pointer 0x100 in bits 31:0, then six bits per slot. -/
theorem test_decode_header_none : decodeBytes (.hdr .NONE true) ([0x00, 0x01, 0x00, 0x00, 0x43, 0x00, 0x40, 0, 0, 0, 0, 0, 0, 0, 0, 0].map (BitVec.ofNat 8)) =
    .ok (.headerNormalNone 0x100 #v[3, 1, 0, 16, 0, 0, 0, 0, 0, 0, 0, 0, 0, 0, 0, 0]) := by decide +kernel

/-- V5.7's sixteen bytes: pointer 0x0ABCDEF in bits 27:0, then five bits per slot, codes 2 to 21. -/
theorem test_decode_header_s420 : decodeBytes (.hdr .S420 false)
      ([0xEF, 0xCD, 0xAB, 0x20, 0x06, 0x29, 0xE6, 0xA0, 0xA4, 0x16, 0x6B, 0xEE, 0xC1, 0x28, 0x27, 0xAD].map (BitVec.ofNat 8)) =
    .ok (.headerNormalS420 0x0ABCDEF #v[2, 3, 4, 5, 6, 7, 8, 9, 10, 11, 12, 13, 14, 15, 16, 17, 18, 19, 20, 21]) := by decide +kernel

/-- S422: pointer in bits 31:0, four bits per slot, slot 0 at bit 32, slot 23 at bits 127:124 (R96). -/
theorem test_decode_header_s422 : decode (.hdr .S422 true) 0xF0000000000000000000002112345678 =
    .ok (.headerNormalS422 0x12345678 #v[1, 2, 0, 0, 0, 0, 0, 0, 0, 0, 0, 0, 0, 0, 0, 0, 0, 0, 0, 0, 0, 0, 0, 15]) := by
  decide +kernel

/-- Solid form: slot-0 code 0 where allowed, else the normal form (R98). -/
theorem test_decode_header_solid : decode (.hdr .NONE true) 0x1EC80A0000004000000000 =
      .ok (.headerSolid .NONE 0x1EC80A0000004000000000) ∧
    decode (.hdr .NONE false) 0x1EC80A0000004000000000 =
      .ok (.headerNormalNone 0 #v[0, 1, 0, 0, 0, 40, 0, 50, 30, 0, 0, 0, 0, 0, 0, 0]) := by decide +kernel

/-- Size codes: 0 copies, 1 is uncompressed, the others are sizes, in fields of 6, 5 and 4 bits (R96, R97). -/
theorem test_decode_sizes : decode (.size .NONE) 0b000000 = .ok (.sizeCopy .NONE) ∧
    decode (.size .S420) 0b00001 = .ok (.sizeUncomp .S420) ∧ decode (.size .NONE) 0b111111 = .ok (.sizeComp .NONE 63) ∧
    decode (.size .S422) 0b0010 = .ok (.sizeComp .S422 2) := by decide

/-- A whole subblock's bits stand in the instruction (R100, R101); the second is V3.1's twelve bits. -/
theorem test_decode_whole_blocks : decode (.blockUncomp 16) 0x0201 = .ok (.blockUncomp 16 0x0201) ∧
    decodeBytes (.blockComp 12) [0xAF, 0x02] = .ok (.blockComp 12 0x2AF) := by decide

/-- All ones is UNIFORM, one below is DEFAULT, the rest are counts, in codes of 2 to 5 bits (R103). -/
theorem test_decode_l3_w2 : decode (.l3 .w2) 0b11 = .ok .l3UniformW2 ∧ decode (.l3 .w2) 0b10 = .ok .l3DefaultW2 ∧
    decode (.l3 .w2) 0b01 = .ok (.l3LiteralW2 1) := by decide
theorem test_decode_l3_w3 : decode (.l3 .w3) 0b111 = .ok .l3UniformW3 ∧ decode (.l3 .w3) 0b110 = .ok .l3DefaultW3 ∧
    decode (.l3 .w3) 0b101 = .ok (.l3LiteralW3 5) := by decide
theorem test_decode_l3_w4 : decode (.l3 .w4) 0b1111 = .ok .l3UniformW4 ∧ decode (.l3 .w4) 0b1110 = .ok .l3DefaultW4 ∧
    decode (.l3 .w4) 0b1101 = .ok (.l3LiteralW4 13) := by decide
theorem test_decode_l3_w5 : decode (.l3 .w5) 0b11111 = .ok .l3UniformW5 ∧ decode (.l3 .w5) 0b11110 = .ok .l3DefaultW5 ∧
    decode (.l3 .w5) 0b11101 = .ok (.l3LiteralW5 29) := by decide

/-- A two-bit delta, a root of eight bits, the three forms of a node, a padding bit (R104 to R107). -/
theorem test_decode_fields : decode .l4d 0b10 = .ok (.l4d 2) ∧ decode (.root 8) 0b10101010 = .ok (.root 8 170) ∧
    decode (.node 0) 0 = .ok .nodeB0 ∧ decode (.node 1) 0b1010 = .ok (.nodeB1 0b1010) ∧
    decode (.node 2) 0b100_011_01 = .ok (.nodeBN 2 1 0b100_011) ∧ decode .pad 0 = .ok .pad := by decide

/-- Encoding lays the same words out (R65: the byte at the lower address is the less significant). -/
theorem test_encode : encode (.bsRead 32) = [0x01, 0x80, 0, 0] ∧ encode (.decodeBlock 1 true) = [0x10, 0x03, 0, 0] ∧
    encode (.nodeBN 2 1 0b100_011) = [0b100_011_01] ∧ encode .nodeB0 = [] := by decide

/-- A table word is read in its sentinel context (log 12). -/
theorem test_tableWord : decodeTableWord 32 0x50 = some .initDescriptor ∧ decodeTableWord 32 0x10050 = none ∧
    decodeTableWord 8 15 = some .l3UniformW4 ∧ decodeTableWord 0 0 = some .nodeB0 := by decide

/-! ### One step at a time: the vectors of 95_test_vectors.md -/

/-- A command, issued by the host: the next state. -/
def issue (s : State) (i : Instr) : Option State := nextOf (step (s.withFetchWord 32 i.bits))

/-- Section 2's window. -/
def win5 : State := bytesAt { State.reset with fbPhys := 5 } 0 [0xA5, 0x3C, 0x0F, 0xF0, 0x81]

/-- V2.1, V2.5 -/
theorem test_bsRead : (issue (args win5 0 4) (.bsRead 8)).map (fun t => (t.port.res, t.cur)) =
      some (⟨some 0xCA, some 12, some 0⟩, ⟨12, false⟩) ∧
    (issue (args win5 0 9) (.bsRead 32)).map (fun t => (t.port.res.res0, t.port.res.res2, t.fat.code)) =
      some (some 0, some 1, 0) := by decide +kernel

/-- 92_eei_decisions D4: no bits never fail, also beyond the window; 10_state R41: nothing wraps at 36 bits -/
theorem test_bs_zero : (issue (args win5 0 100) (.bsRead 0)).map (fun t => (t.port.res, t.cur)) =
      some (⟨some 0, some 100, some 0⟩, ⟨100, false⟩) ∧
    (issue (args win5 0 100 0 7) (.bsWrite 0)).map (fun t => (t.port.res, t.fb)) = some (⟨none, some 100, some 0⟩, win5.fb) ∧
    (issue (args win5 0 (2 ^ 36 + 4)) (.bsRead 8)).map (fun t => (t.port.res, t.cur)) =
      some (⟨some 0, some (2 ^ 36 + 4), some 1⟩, ⟨0, true⟩) := by decide +kernel

/-- V2.12, V2.15 -/
theorem test_bsReadSigned : (issue (args win5 0 4) (.bsReadSigned 2)).map (fun t => t.port.res) =
      some ⟨some (-2), some 6, some 0⟩ ∧
    (issue (args win5 0 0) (.bsReadSigned 8)).map (fun t => t.port.res.res0) = some (some (-91)) := by decide +kernel

/-- V2.20, V2.22 -/
theorem test_bsWrite : (issue (args (bytesAt { State.reset with fbPhys := 2 } 0 [0xFF, 0x00]) 0 6 0 0b0101) (.bsWrite 4)).map
      (fun t => (memBytes t.fb 0 2, t.cur)) = some ([0x7F, 0x01], ⟨10, false⟩) ∧
    (issue (args (bytesAt { State.reset with fbPhys := 2 } 0 [0x00, 0xF0]) 0 12 0 0x1F) (.bsWrite 5)).map
      (fun t => (memBytes t.fb 0 2, t.cur.exh)) = some ([0x00, 0xF0], true) := by decide +kernel

/-- V3.3's stream. -/
def tree33 : State :=
  args (bytesAt (ready descA) 16 [0xA7, 0xAA, 0x00, 0x8A, 0x12, 0xA4, 0x06, 0, 0, 0, 0, 0, 0x25, 0]) 16

/-- The samples of V3.3 and V4.3. -/
def row33 : Vector Sample 16 := #v[10, 11, 20, 20, 12, 13, 20, 20, 10, 10, 100, 101, 10, 10, 100, 103]

/-- V3.3, V3.7 -/
theorem test_decodeBlock : (issue tree33 (.decodeBlock 0 false)).map
      (fun t => (t.port.res.res0, t.cur.pos, t.codec.bctree[(0 : Fin 4)], t.codec.blk[(0 : Fin 4)])) =
      some (some 14, 111, #v[7, 5, 5, 5, 5], row33) ∧
    (issue (args (bytesAt (ready { descA with bufSize := 17, frameSize := 17 }) 16 [0x0F]) 16) (.decodeBlock 0 false)).map
      (fun t => (t.port.res, t.fat.code, t.chk.foundError)) = some (⟨none, none, some 1⟩, 1, false) := by decide +kernel

/-- V4.3, V4.9 -/
theorem test_encodeBlock : (issue (args (withRows (ready descA) row33 (flat 0) (flat 0)) 16) (.encodeBlock 0)).map
      (fun t => (t.port.res, memBytes t.fb 16 14)) =
      some (⟨some 14, some (-1), some 0⟩, [0xA7, 0xAA, 0x00, 0x8A, 0x12, 0xA4, 0x06, 0, 0, 0, 0, 0, 0x25, 0]) ∧
    (issue (args (withRows (ready descB) (flat 10) (flat 200) (flat 30)) 16) (.encodeBlock 0)).map
      (fun t => (t.port.res, memBytes t.fb 16 6)) =
      some (⟨some 5, some 0x1EC80A, some 0⟩, [0xAF, 0xF0, 0xC8, 0xEF, 0x01, 0]) := by decide +kernel

/-- A solid header of colour 0x5A over a frame of one sample (R213, R220). -/
def solid1 : State := bytesAt (ready desc1) 8 [0x5A]

theorem test_decodeSuperblock : (issue solid1 .decodeSuperblock).map (fun t => (t.out[(0 : Fin 4)], t.hdr.solid, t.fat.code)) =
    some ([(0, 0x5A)], true, 0) := by decide +kernel

/-- The same superblock encoded (R227): no body byte, the colour from bit 64. -/
theorem test_encodeSuperblock :
    (issue (args { ready desc1 with out := #v[[(0, 0x5A)], [], [], []] } 0 0 16) .encodeSuperblock).map
      (fun t => (t.port.res.res0, t.fb)) = some (some 16, [(8, 0x5A)]) := by decide +kernel

/-- V5.1, V5.3 -/
theorem test_parseHeader : (issue (bytesAt (ready desc5) 0 [0x00, 0x01, 0x00, 0x00, 0x43, 0x00, 0x40]) .parseHeader).map
      (fun t => (t.hdr.ptr, (t.hdr.off.toList.take 5), t.hdr.size.toList.take 5, t.chk.foundError)) =
      some (0x100, [0x100, 0x103, 0x103, 0x133, 0x133], [3, 48, 48, 16, 16], false) ∧
    (issue (bytesAt (ready desc5) 0 [0x40, 0, 0, 0, 0, 0x40]) .parseHeader).map
      (fun t => (t.hdr.off.toList.take 4, t.hdr.size.toList.take 4, t.chk.violMask)) =
      some ([0x40, 0x40, 0x40, 0x40], [0, 0, 4, 4], 0x0010) := by decide +kernel

/-- V5.1 -/
theorem test_writeHeader : (issue (withHdr (ready desc5) 0x100 [3, 1, 0, 16]) .writeHeader).map
    (fun t => memBytes t.fb 0 16) = some [0x00, 0x01, 0x00, 0x00, 0x43, 0x00, 0x40, 0, 0, 0, 0, 0, 0, 0, 0, 0] := by
  decide +kernel

/-- V6.2 -/
theorem test_resolveAddr : (issue (args (ready descT) 9 2) .resolveAddr).map (fun t => t.port.res) =
      some ⟨some 70, some 1120, none⟩ ∧
    (issue (args (ready { desc5 with width := 40, height := 37 }) 2 1) .resolveAddr).map (fun t => t.port.res) =
      some ⟨some 5, some 80, none⟩ := by decide +kernel

/-- V7: (10, 200, 30) -/
theorem test_ctForward : (issue (withRows (ready descC) (flat 10) (flat 200) (flat 30)) .ctForward).map
    (fun t => t.codec.blk) = some #v[flat 110, flat 66, flat 86, flat 0] := by decide +kernel

/-- V7: back again, and (64, 511, 256) out of range -/
theorem test_ctInverse : (issue (withRows (ready descC) (flat 110) (flat 66) (flat 86)) .ctInverse).map
      (fun t => t.codec.blk) = some #v[flat 10, flat 200, flat 30, flat 0] ∧
    (issue (withRows (ready descC) (flat 64) (flat 511) (flat 256)) .ctInverse).map (fun t => (t.fat.code, t.chk.violMask)) =
      some (2, 0x0020) := by decide +kernel

/-- The fixture table: what DB derives under the example table; and a frame larger than its buffer is refused. -/
theorem test_initDescriptor :
    (fun d : Desc => (validDesc d, d.compbits, d.defaultcolor, d.uncompSize, d.maxpay, d.bodyBase)) (derive layout0 descB) =
      (true, #v[8, 8, 8, 0], #v[255, 255, 255, 0], #v[48, 0], 768, 16) ∧
    (issue { State.reset with port := { State.reset.port with descIn := { descB with frameSize := 785 } } } .initDescriptor).map
      (fun t => (t.descValid, t.fat.code)) = some (false, 6) := by decide +kernel

/-- A frame of one superblock whichever form of region `LAYOUT[0]` has. -/
def desc16 : DescIn := { descA with height := 8 }

theorem validDesc_desc16 {l : Layout} (h : layoutOk l = true) (hn : l.subsampling = .NONE) :
    validDesc (derive l desc16) = true := by
  obtain ⟨w, x, m, n, slots⟩ := l
  subst hn
  have h0 := h
  simp only [layoutOk, Bool.and_eq_true, Bool.or_eq_true, decide_eq_true_eq, if_true] at h
  obtain ⟨⟨⟨⟨h1, -⟩, -⟩, h4⟩, rfl⟩ := h
  unfold validDesc
  rcases h1 with ⟨rfl, rfl⟩ | ⟨rfl, rfl⟩ <;>
  · simp only [Bool.and_eq_true]
    exact ⟨⟨⟨⟨⟨⟨⟨⟨by simp [sizesOk, derive, desc16, descA, DescIn.zero, ceilDiv, roundUp], h0⟩, rfl⟩, rfl⟩, rfl⟩, rfl⟩,
      by with_unfolding_all rfl⟩, rfl⟩, rfl⟩

/-- Whatever the open parameter holds, INIT_DESCRIPTOR accepts that frame (46_descriptor R290), after a fatal error too. -/
theorem init_accepts (s : State) (h : s.port.descIn = desc16) :
    ∃ t, exec .initDescriptor s = .next t ∧ t.descValid = true ∧ t.fat = ⟨0, 0, 0, 0⟩ ∧ t.port.status = .done := by
  have hv : validDesc (derive (layoutTable s.port.descIn.layout.toNat) s.port.descIn) = true := by
    rw [h]; exact validDesc_desc16 (layoutTable_wf 0) layoutTable_zero
  exact ⟨_, if_pos hv, rfl, rfl, rfl⟩

/-- V8.1 -/
theorem test_getMaxSbPayload : (issue (ready descB) .getMaxSbPayload).map (fun t => t.port.res.res0) = some (some 768) := by
  decide +kernel
theorem test_getMaxFrameSize : (issue (ready descB) .getMaxFrameSize).map (fun t => t.port.res.res0) = some (some 784) := by
  decide +kernel
theorem test_getUncompFrameSize : (issue (ready descB) .getUncompFrameSize).map (fun t => t.port.res.res0) = some (some 768) := by
  decide +kernel

/-! Elements of a stream, run on the bits they carry (log 11). -/

/-- V5.1 as an element. -/
theorem test_headerNormalNone : (nextOf (exec (.headerNormalNone 0x100 #v[3, 1, 0, 16, 0, 0, 0, 0, 0, 0, 0, 0, 0, 0, 0, 0])
    (ready desc5))).map (fun t => (t.hdr.ptr, t.hdr.off.toList.take 4)) = some (0x100, [0x100, 0x103, 0x103, 0x133]) := by
  decide +kernel

/-- A state under another subsampling mode. -/
def modeState (m : Subsampling) : State := readyUnder (tableOf m) descM

/-- 46_descriptor R293: the example table and one of each subsampled mode are well-formed, the descriptors on them accepted -/
theorem test_layouts : layoutOk layout0 = true ∧ layoutOk (tableOf .S420) = true ∧ layoutOk (tableOf .S422) = true ∧
    good (modeState .S420) = true ∧ good (modeState .S422) = true := by decide +kernel

/-- V5.7's first codes. -/
theorem test_headerNormalS420 : (nextOf (exec (.headerNormalS420 0x0ABCDEF
    #v[2, 3, 4, 5, 6, 7, 8, 9, 10, 11, 12, 13, 14, 15, 16, 17, 18, 19, 20, 21]) (modeState .S420))).map
      (fun t => (t.hdr.ptr, t.hdr.code.toList.take 3, t.hdr.solid)) = some (0x0ABCDEF, [2, 3, 4], false) := by decide +kernel
theorem test_headerNormalS422 : (nextOf (exec (.headerNormalS422 0x12345678
    #v[1, 2, 1, 1, 1, 1, 1, 1, 1, 1, 1, 1, 1, 1, 1, 1, 1, 1, 1, 1, 1, 1, 1, 15]) (modeState .S422))).map
      (fun t => (t.hdr.ptr, t.hdr.codeAt 1, t.hdr.codeAt 23)) = some (0x12345678, 2, 15) := by decide +kernel

/-- V5.5: (10, 200, 30) -/
theorem test_headerSolid : (nextOf (exec (.headerSolid .NONE 0x1EC80A0000000000000000) (ready { desc5 with allowSolid := true }))).map
    (fun t => (t.hdr.solid, t.hdr.solidVal)) = some (true, #v[10, 200, 30, 0]) := by decide +kernel

/-- V5.1, slots 2, 1 and 3 -/
theorem test_sizeCopy : (nextOf (exec (.sizeCopy .NONE) (args (withHdr (ready desc5) 0x100 [3, 1]) 0 2))).map
    (fun t => (t.hdr.off.toList.getD 2 0, t.hdr.size.toList.getD 2 0, t.hdr.unc.toList.getD 2 false)) =
      some (0x103, 48, true) := by decide +kernel
theorem test_sizeUncomp : (nextOf (exec (.sizeUncomp .NONE) (args (withHdr (ready desc5) 0x100 [3]) 0 1))).map
    (fun t => (t.hdr.off.toList.getD 1 0, t.hdr.size.toList.getD 1 0, t.hdr.unc.toList.getD 1 false)) =
      some (0x103, 48, true) := by decide +kernel
theorem test_sizeComp : (nextOf (exec (.sizeComp .NONE 16) (args (withHdr (ready desc5) 0x100 [3, 1, 0]) 0 3))).map
    (fun t => (t.hdr.off.toList.getD 3 0, t.hdr.size.toList.getD 3 0, t.hdr.unc.toList.getD 3 true)) =
      some (0x133, 16, false) := by decide +kernel

/-- Sixteen bytes 0, 1, ..., 15 under DA (R158), and V3.1 -/
theorem test_blockUncomp : (nextOf (exec (.blockUncomp 128 0x0F0E0D0C0B0A09080706050403020100) (args (ready descA) 16))).map
    (fun t => (t.port.res.res0, t.codec.blk[(0 : Fin 4)])) =
      some (some 16, #v[0, 1, 2, 3, 4, 5, 6, 7, 8, 9, 10, 11, 12, 13, 14, 15]) := by decide +kernel
theorem test_blockComp : (nextOf (exec (.blockComp 12 0x2AF) (args (ready descA) 16))).map
    (fun t => (t.port.res.res0, t.cur.pos, t.codec.blk[(0 : Fin 4)])) = some (some 2, 12, flat 42) := by decide +kernel

/-- A descriptor of one component of `n` bits, whose `L3` has 2, 3, 4 or 5 bits for n = 1, 5, 8, 15 (R102). -/
def depth (n : Nat) : State := args (ready { descA with inputbits := #v[BitVec.ofNat 5 n, 0, 0, 0], bufSize := 4096 }) 16

/-- What an `L3` element leaves: the root count, the first sample, the cursor. -/
def l3Seen (n : Nat) (i : Instr) : Option (Int × Sample × BitVec 36) :=
  (nextOf (exec i (depth n))).map fun t => ((t.codec.bctree[(0 : Fin 4)])[0], (t.codec.blk[(0 : Fin 4)])[0], t.cur.pos)

theorem test_l3_w2 : l3Seen 1 .l3UniformW2 = some (-1, 0, 2) ∧ l3Seen 1 .l3DefaultW2 = some (-2, 1, 2) ∧
    l3Seen 1 (.l3LiteralW2 1) = some (1, 0, 2) := by decide +kernel
theorem test_l3_w3 : l3Seen 5 .l3UniformW3 = some (-1, 0, 3) ∧ l3Seen 5 .l3DefaultW3 = some (-2, 31, 3) ∧
    l3Seen 5 (.l3LiteralW3 5) = some (5, 0, 3) := by decide +kernel
theorem test_l3_w4 : l3Seen 8 .l3UniformW4 = some (-1, 0, 4) ∧ l3Seen 8 .l3DefaultW4 = some (-2, 255, 4) ∧
    l3Seen 8 (.l3LiteralW4 13) = some (13, 0, 4) := by decide +kernel
theorem test_l3_w5 : l3Seen 15 .l3UniformW5 = some (-1, 0, 5) ∧ l3Seen 15 .l3DefaultW5 = some (-2, 32767, 5) ∧
    l3Seen 15 (.l3LiteralW5 29) = some (29, 0, 5) := by decide +kernel

/-- V3.4: count 0 and delta -1 give 15, flagged BC_NEG and BC_RANGE; V3.3: 7 - 2 = 5 -/
theorem test_l4d : (nextOf (exec (.l4d 3) (withTree (depth 8) #v[0, 0, 0, 0, 0] 0))).map
      (fun t => (t.codec.bctree[(0 : Fin 4)], t.chk.violMask)) = some (#v[0, 15, 0, 0, 0], 3) ∧
    (nextOf (exec (.l4d 2) (args (withTree (depth 8) #v[7, 0, 0, 0, 0] 0) 16 0 3))).map
      (fun t => (t.codec.bctree[(0 : Fin 4)], t.chk.violMask)) = some (#v[7, 0, 0, 0, 5], 0) := by decide +kernel

/-- V3.1: after a uniform count the root is every sample -/
theorem test_root : (nextOf (exec (.root 8 42) (withTree (depth 8) #v[-1, 0, 0, 0, 0] 0))).map
    (fun t => (t.codec.blk[(0 : Fin 4)], t.cur.pos)) = some (flat 42, 8) := by decide +kernel

/-- The four children of node `k`. -/
def children (t : State) (k : Nat) : List Nat := [1, 2, 3, 4].map fun j => (t.codec.mintree[(0 : Fin 4)]).getD (4 * k + j) 99

/-- V3.5: four ones, kept and flagged; a count of 0 takes no bits -/
theorem test_nodeB1 : (nextOf (exec (.nodeB1 15) (withTree (depth 8) #v[1, 0, 0, 0, 0] 7))).map
    (fun t => (children t 0, t.chk.violMask, t.cur.pos)) = some ([1, 1, 1, 1], 4, 4) := by decide +kernel
theorem test_nodeB0 : (nextOf (exec .nodeB0 (args (withTree (depth 8) #v[1, 0, 0, 0, 0] 7) 16 0 4))).map
    (fun t => (children t 4, t.cur.pos, (t.codec.blk[(0 : Fin 4)])[15])) = some ([0, 0, 0, 0], 0, 7) := by decide +kernel

/-- V3.9's N1: z = 2, planes 011 000 000 110 of children 0, 1, 3 in stream order -/
theorem test_nodeBN : (nextOf (exec (.nodeBN 4 2 0b011_000_000_110) (args (withTree (depth 8) #v[3, 4, 1, 1, 1] 250) 16 0 1))).map
    (fun t => (children t 1, t.cur.pos)) = some ([8, 9, 0, 1], 14) := by decide +kernel

theorem test_pad : (nextOf (exec .pad (ready descA))).map (fun t => (t.cur, t.port.status)) = some (⟨0, false⟩, .done) := by
  decide +kernel

/-- 10_state R38: a register nothing has written is no operand -/
theorem test_undefined : nextOf (exec (.encodeBlock 0) (ready descA)) = none ∧ nextOf (exec .writeHeader (ready descA)) = none := by
  decide +kernel

/-- 60_exceptions R323, R324: after a fatal error nothing runs until INIT_DESCRIPTOR -/
theorem test_failed : (issue { ready descB with fat := ⟨1, 2, 3, 4⟩ } .getMaxSbPayload).map (fun t => (t.fat, t.port.status)) =
      some (⟨1, 2, 3, 4⟩, .failed) ∧
    (issue { ready descB with fat := ⟨1, 2, 3, 4⟩ } .initDescriptor).map (fun t => (t.fat, t.port.status)) =
      some (⟨6, 0, 0, 0⟩, .failed) := by decide +kernel

/-! ### Witnesses: what each statement assumes, met -/

theorem next_of {o : Host.Outcome State Fault Refusal} (p : State → Bool) (h : (nextOf o).any p = true) :
    ∃ t, o = .next t ∧ p t = true := by
  cases o with
  | next t => exact ⟨t, rfl, h⟩
  | fault r => cases h
  | refused r => cases h

/-- A state with one thing for the host to do. -/
def doing (s : State) (e : Event) : State := { s with inbox := [e] }

theorem witness_DecodeEncodeRoundTrip : (Instr.nodeBN 29 3 (2 ^ 87 - 1)).wf = true ∧ (Instr.bsRead 32).wf = true ∧
    (Instr.root 15 32767).wf = true ∧ (Instr.sizeComp .S422 15).wf = true ∧ (Instr.l3LiteralW5 29).wf = true := by decide

theorem witness_CommandWordsAccepted : 0xFFFFFFFF < 2 ^ 32 ∧ decode .cmd 0x8003 = .ok (.bsWrite 32) ∧
    decode .cmd 0x310 = .ok (.decodeBlock 1 true) ∧ decode .cmd 0x111 = .ok (.encodeBlock 1) := by decide

theorem witness_StepRunsDecoded : (doing (ready descB) (.command 0x51)).inbox = .command 0x51 :: [] ∧
    decode .cmd (0x51#32).toNat = .ok .getMaxSbPayload ∧
    (doing tree33 (.element (.l3 .w4))).inbox = .element (.l3 .w4) :: [] ∧ Form.l3 .w4 ≠ .cmd ∧
    decode (.l3 .w4) (fetchElement (doing tree33 (.element (.l3 .w4))) (.l3 .w4)) = .ok (.l3LiteralW4 7) ∧
    State.reset.inbox = [] := by decide +kernel

theorem witness_IllegalCommandIsBadCommand : (doing (ready descB) (.command 0x10020)).inbox = .command 0x10020 :: [] ∧
    decode .cmd (0x10020#32).toNat = .error .reservedBits ∧ decode .cmd (0x8401#32).toNat = .error .nbitsOver32 ∧
    decode .cmd (0x54#32).toNat = .error .unknownOp := by decide

theorem witness_ResetState : (doing (ready descB) .reset).inbox = .reset :: [] := rfl

theorem witness_InvariantKeptByStep : Inv (doing tree33 (.command 0x10)) ∧ ∃ t, step (doing tree33 (.command 0x10)) = .next t ∧
    (t.port.status == .done) = true := ⟨inv_of_test (by decide +kernel), next_of _ (by decide +kernel)⟩

/-- A state in the middle of a component. -/
def midTree : State := withTree (depth 8) #v[3, 4, 1, 1, 1] 250

theorem witness_TreeRangesKeptByStep : Inv (doing midTree (.element .l4d)) ∧ TreeInv (doing midTree (.element .l4d)).codec ∧
    ∃ t, step (doing midTree (.element .l4d)) = .next t ∧ (t.port.status == .done) = true :=
  ⟨inv_of_test (by decide +kernel), ⟨by decide +kernel, by decide +kernel, by decide +kernel⟩, next_of _ (by decide +kernel)⟩

theorem witness_BsReadResults : (args win5 0 8).fat.code = 0 ∧ (args win5 0 8).port.arg2 = 0 ∧
    (args win5 0 8).port.arg1 + (32#6).toNat ≤ windowBits (args win5 0 8) (args win5 0 8).port.arg0 ∧
    (args win5 0 100).fat.code = 0 ∧ (args win5 0 100).port.arg2 = 0 ∧ 8 * 5 < (args win5 0 100).port.arg1 ∧
    (args win5 0 (2 ^ 36)).fat.code = 0 ∧ (args win5 0 (2 ^ 36)).port.arg2 = 0 ∧ (0 : BitVec 6) = 0 := by decide +kernel

theorem witness_BsWriteResult : (args win5 1 0 0 7).fat.code = 0 ∧ (args win5 1 0 0 7).port.arg2 = 0 ∧
    (args win5 1 0 0 7).port.arg1 + (32#6).toNat ≤ windowBits (args win5 1 0 0 7) (args win5 1 0 0 7).port.arg0 ∧
    (args win5 1 33 0 7).fat.code = 0 ∧ (args win5 1 33 0 7).port.arg2 = 0 ∧ (0 : BitVec 6) = 0 := by
  decide +kernel

theorem witness_BsExhausted : (args win5 0 9).fat.code = 0 ∧ (32 : BitVec 6) ≠ 0 ∧
    windowBits (args win5 0 9) (args win5 0 9).port.arg0 < (args win5 0 9).port.arg1 + (32#6).toNat ∧
    (args win5 0 0 1).port.arg2 ≠ 0 ∧ (args win5 0 (2 ^ 36 + 8)).fat.code = 0 ∧
    windowBits (args win5 0 (2 ^ 36 + 8)) 0 < (args win5 0 (2 ^ 36 + 8)).port.arg1 + (32#6).toNat := by decide +kernel

theorem witness_BsWriteThenRead : (args win5 1 0 0 7).fat.code = 0 ∧ (args win5 1 0 0 7).port.arg2 = 0 ∧
    (args win5 1 0 0 7).port.arg1 + (32#6).toNat ≤ windowBits (args win5 1 0 0 7) (args win5 1 0 0 7).port.arg0 ∧
    ∃ t, exec (.bsWrite 32) (args win5 1 0 0 7) = .next t ∧ (t.port.status == .done) = true :=
  ⟨by decide +kernel, by decide +kernel, by decide +kernel, next_of _ (by decide +kernel)⟩

theorem witness_InitDescriptorResult : validDesc (derive (layoutTable desc16.layout.toNat) desc16) = true ∧
    validDesc (derive (layoutTable { descB with frameSize := 785 }.layout.toNat) { descB with frameSize := 785 }) = false :=
  ⟨validDesc_desc16 (layoutTable_wf 0) layoutTable_zero, by decide +kernel⟩

/-- The stripe descriptor of V6.5. -/
def descS : DescIn := { descB with
  width := 32, height := 48, stripeHeight := 32, checkStripeAlign := true, stripeAlign := 64, bufSize := 8000, frameSize := 8000 }

theorem witness_ValidDescriptorGeometry : validDesc (derive layout0 descT) = true ∧ (derive layout0 descT).tiled = true ∧
    15 < (derive layout0 descT).mbw ∧ 2 < (derive layout0 descT).mbh ∧ inBits descT 3 ≠ 0 ∧
    (0 : Fin 2) ∈ planes (derive layout0 descT) ∧
    validDesc (derive layout0 descS) = true ∧ (derive layout0 descS).stripeHeight ≠ 0 ∧
    validDesc (derive (tableOf .S420) descM) = true ∧ validDesc (derive (tableOf .S422) descM) = true ∧
    (1 : Fin 2) ∈ planes (derive (tableOf .S422) descM) := by decide +kernel

theorem witness_DescriptorReadOnly : Instr.decodeBlock 0 false ≠ .initDescriptor ∧
    (∃ t, exec (.decodeBlock 0 false) tree33 = .next t ∧ (t.port.status == .done) = true) ∧
    ∃ t, step (doing tree33 (.command 0x10)) = .next t ∧ (t.port.status == .done) = true :=
  ⟨by decide, next_of _ (by decide +kernel), next_of _ (by decide +kernel)⟩

theorem witness_SizeQueries : (ready descB).fat.code = 0 ∧ (ready descB).descValid = true ∧ State.reset.fat.code = 0 ∧
    State.reset.descValid = false := by decide +kernel

theorem witness_ResolveAddrResult : Ready (args (ready descT) 15 2) ∧ 15 < (args (ready descT) 15 2).desc.mbw ∧
    2 < (args (ready descT) 15 2).desc.mbh ∧ (args (ready descT) 15 2).desc.tiled = true ∧
    Ready (args (ready descS) 1 2) ∧ 1 < (ready descS).desc.mbw ∧ 2 < (ready descS).desc.mbh ∧ (ready descS).desc.tiled = false ∧
    (args (ready descS) 2 0).desc.mbw ≤ (args (ready descS) 2 0).port.arg0 ∧
    (args (ready descS) 0 3).desc.mbh ≤ (args (ready descS) 0 3).port.arg1 := by
  refine ⟨⟨?_, ?_⟩, ?_, ?_, ?_, ⟨?_, ?_⟩, ?_⟩ <;> decide +kernel

theorem witness_MbnumInjective : (derive layout0 descT).tiled = true ∧ 8 * 1 < (derive layout0 descT).mbwAl ∧ 63 < 64 ∧
    15 < (derive layout0 descT).mbw ∧ 2 < (derive layout0 descT).mbh ∧ mbnumOf (derive layout0 descT) 15 2 = mbnumOf (derive layout0 descT) 15 2 := by
  decide +kernel

/-- V5.1's header at superblock 0, solid headers allowed. -/
def hdr51 : State := bytesAt (ready { desc5 with allowSolid := true }) 0 [0x00, 0x01, 0x00, 0x00, 0x43, 0x00, 0x40]

/-- V5.3's header. -/
def hdr53 : State := bytesAt (ready desc5) 0 [0x40, 0, 0, 0, 0, 0x40]

theorem witness_ParseHeaderResult : Inv hdr51 ∧ Ready hdr51 ∧ headerAddr hdr51.port.arg0 + 16 ≤ bufSize hdr51 ∧
    ¬ (hdr51.desc.allowSolid = true ∧ IsField hdr51 (headerAddr hdr51.port.arg0) hdr51.desc.ptrBits hdr51.desc.sizeBits 0) ∧
    Inv (args hdr53 255) ∧ Ready (args hdr53 255) ∧ headerAddr (args hdr53 255).port.arg0 + 16 ≤ bufSize (args hdr53 255) := by
  have h1 := good_spec (s := hdr51) (by decide +kernel)
  have h2 := good_spec (s := args hdr53 255) (by decide +kernel)
  refine ⟨h1.1, h1.2, by decide +kernel, ?_, h2.1, h2.2, by decide +kernel⟩
  unfold Machine.IsField
  decide +kernel

theorem witness_SlotResolution : Inv hdr51 ∧ Ready hdr51 ∧ headerAddr hdr51.port.arg0 + 16 ≤ bufSize hdr51 ∧
    (∃ t, exec .parseHeader hdr51 = .next t ∧
      (!t.hdr.solid && codeOf t 1 == 1 && codeOf t 2 == 0 && codeOf t 3 == 16 && codeOf t 15 == 0) = true) ∧
    (∃ t, exec .parseHeader hdr53 = .next t ∧
      (!t.hdr.solid && codeOf t 0 == 0 && codeOf t 1 == 0 && slotPlane hdr53.desc 0 == slotPlane hdr53.desc 1) = true) := by
  have h := good_spec (s := hdr51) (by decide +kernel)
  exact ⟨h.1, h.2, by decide +kernel, next_of _ (by decide +kernel), next_of _ (by decide +kernel)⟩

/-- In V5.1 slot 1 is the source of slot 2's copy; in V5.3 slot 1 has none. -/
theorem witness_SlotResolution_sources : CopySource hdr51.desc (fun k => [3, 1, 0, 16].getD k 0) 2 1 ∧
    NoSource hdr53.desc (fun k => [0, 0, 4].getD k 0) 1 :=
  ⟨⟨by decide, by decide +kernel, by decide, fun l h1 h2 => by omega⟩, by unfold NoSource; decide +kernel⟩

/-- V5.5's header (10, 200, 30). -/
def hdr55 : State := bytesAt (ready { desc5 with allowSolid := true }) 8 [10, 200, 30]

theorem witness_ParseHeaderResult_solid : Inv hdr55 ∧ Ready hdr55 ∧ headerAddr hdr55.port.arg0 + 16 ≤ bufSize hdr55 ∧
    hdr55.desc.allowSolid = true ∧
    IsField hdr55 (headerAddr hdr55.port.arg0) hdr55.desc.ptrBits hdr55.desc.sizeBits 0 := by
  have h := good_spec (s := hdr55) (by decide +kernel)
  exact ⟨h.1, h.2, by decide +kernel, rfl, by decide +kernel, by decide +kernel⟩

theorem witness_HeaderPastBuffer : Ready (args (ready desc5) 256) ∧
    bufSize (args (ready desc5) 256) < headerAddr (args (ready desc5) 256).port.arg0 + 16 := by
  refine ⟨⟨?_, ?_⟩, ?_⟩ <;> decide +kernel

/-- V5.1's registers, at the last header that fits. -/
def out51 : State := args (withHdr (ready desc5) 0xFFFFFFFF [63, 1, 0, 16]) 255

theorem witness_WriteHeaderResult : Inv out51 ∧ Ready out51 ∧ headerAddr out51.port.arg0 + 16 ≤ bufSize out51 ∧
    out51.hdr.ptrOk = true ∧ (∀ k < out51.desc.nsubblocks, out51.hdr.codeOk.getD k false = true) ∧
    out51.hdr.ptr.toNat < 2 ^ out51.desc.ptrBits ∧ (∀ k < out51.desc.nsubblocks, codeOf out51 k < 2 ^ out51.desc.sizeBits) := by
  have h := good_spec (s := out51) (by decide +kernel)
  refine ⟨h.1, h.2, ?_⟩
  decide +kernel

/-- V5.8's refusals, under S420. -/
def out58 : State := withHdr (modeState .S420) (2 ^ 28) [3, 32]

theorem witness_WriteHeaderResult_refused : Ready out58 ∧ headerAddr out58.port.arg0 + 16 ≤ bufSize out58 ∧
    out58.hdr.ptrOk = true ∧ (∀ k < out58.desc.nsubblocks, out58.hdr.codeOk.getD k false = true) ∧
    2 ^ out58.desc.ptrBits ≤ out58.hdr.ptr.toNat ∧ 1 < out58.desc.nsubblocks ∧ 2 ^ out58.desc.sizeBits ≤ codeOf out58 1 :=
  ⟨⟨by decide +kernel, by decide +kernel⟩, by decide +kernel⟩

theorem witness_HeaderRoundTrip : Inv out51 ∧ Ready out51 ∧ headerAddr out51.port.arg0 + 16 ≤ bufSize out51 ∧
    out51.hdr.ptrOk = true ∧
    (∀ k < out51.desc.nsubblocks, out51.hdr.codeOk.getD k false = true ∧ codeOf out51 k < 2 ^ out51.desc.sizeBits) ∧
    out51.hdr.ptr.toNat < 2 ^ out51.desc.ptrBits ∧ ¬ (out51.desc.allowSolid = true ∧ codeOf out51 0 = 0) := by
  have h := good_spec (s := out51) (by decide +kernel)
  refine ⟨h.1, h.2, ?_⟩
  decide +kernel

/-- What the statements about header elements assume of a state of mode `m`. -/
abbrev HeaderContext (s : State) (m : Subsampling) : Prop :=
  headerAddr s.port.arg0 + 16 ≤ bufSize s ∧ s.desc.ptrBits = s.desc.subsampling.ptrBits ∧
    s.desc.sizeBits = s.desc.subsampling.sizeBits ∧ s.desc.nsubblocks = s.desc.subsampling.nslots ∧ s.desc.subsampling = m

theorem witness_HeaderElements : Ready hdr51 ∧ HeaderContext hdr51 .NONE ∧
    ¬ (hdr51.desc.allowSolid = true ∧ (Vector.replicate 16 1#6)[0] = 0) ∧
    Ready (modeState .S420) ∧ HeaderContext (modeState .S420) .S420 ∧ (modeState .S420).desc.allowSolid = false ∧
    Ready (modeState .S422) ∧ HeaderContext (modeState .S422) .S422 ∧ (modeState .S422).desc.allowSolid = false := by
  refine ⟨⟨?_, ?_⟩, ?_, ?_, ⟨?_, ?_⟩, ?_, ?_, ⟨?_, ?_⟩, ?_, ?_⟩ <;> decide +kernel

theorem witness_HeaderElements_solid : Ready hdr55 ∧ HeaderContext hdr55 .NONE ∧ hdr55.desc.allowSolid = true ∧
    (∀ c : Fin 4, inBits hdr55.desc.toDescIn c ≤ 15) ∧
    (Instr.headerSolid hdr55.desc.subsampling 0x1EC80A0000000000000000).wf = true := by
  refine ⟨⟨?_, ?_⟩, ?_, ?_, ?_, ?_⟩ <;> decide +kernel

theorem witness_HeaderElementIsParseHeader : Ready (args hdr55 255) ∧ HeaderContext (args hdr55 255) .NONE := by
  refine ⟨⟨?_, ?_⟩, ?_⟩ <;> decide +kernel

/-- V5.1's registers while slot `k` is taken. -/
def sizing (l : List Nat) (k : Nat) : State := args (withHdr (ready { desc5 with allowSolid := true }) 0x100 l) 0 k

theorem witness_SizeElements : Inv (sizing [3, 1] 15) ∧ Ready (sizing [3, 1] 15) ∧
    headerAddr (sizing [3, 1] 15).port.arg0 + 16 ≤ bufSize (sizing [3, 1] 15) ∧
    (sizing [3, 1] 15).port.arg1 < (sizing [3, 1] 15).desc.nsubblocks ∧ (sizing [3, 1] 15).hdr.ptrOk = true ∧
    (∀ j < 15, (sizing [3, 1] 15).hdr.codeOk.getD j false = true ∧ codeOf (sizing [3, 1] 15) j < 2 ^ 6) ∧
    codeOf (sizing [3, 1] 15) 0 ≠ 0 ∧ (Instr.sizeComp (sizing [3, 1] 15).desc.subsampling 63).wf = true ∧
    Inv (sizing [] 0) ∧ Ready (sizing [] 0) ∧ (sizing [] 0).port.arg1 = 0 ∧
    CopySource (sizing [3, 1] 2).desc (codeOf (sizing [3, 1] 2)) 2 1 ∧
    Inv (args hdr53 0 1) ∧ Ready (args hdr53 0 1) ∧ NoSource (args hdr53 0 1).desc (codeOf (args hdr53 0 1)) 1 := by
  have h1 := good_spec (s := sizing [3, 1] 15) (by decide +kernel)
  have h2 := good_spec (s := sizing [] 0) (by decide +kernel)
  have h3 := good_spec (s := args hdr53 0 1) (by decide +kernel)
  refine ⟨h1.1, h1.2, by decide +kernel, by decide +kernel, by decide +kernel, by decide +kernel, by decide +kernel,
    by decide +kernel, h2.1, h2.2, rfl, ⟨by decide, by decide +kernel, by decide +kernel, fun l h1 h2 => by omega⟩,
    h3.1, h3.2, ?_⟩
  unfold NoSource
  decide +kernel

/-- `DB` whose buffer ends with one uncompressed subblock at byte 16. -/
def tight : State := args (ready { descB with bufSize := 64, frameSize := 64 }) 16

theorem witness_DecodeBlockUncompressed : Ready tight ∧ (0 : Fin 2).val < tight.desc.nplanes ∧
    16 * planeBitsOf tight.desc.toDescIn 0 ≤ windowBits tight tight.port.arg0 := by
  refine ⟨⟨?_, ?_⟩, ?_⟩ <;> decide +kernel

theorem witness_DecodeBlockCompressed : Inv (args (ready desc5) 3943) ∧ Ready (args (ready desc5) 3943) ∧
    (0 : Fin 2).val < (ready desc5).desc.nplanes ∧ ctApplies (ready desc5).desc.toDescIn 0 = false ∧
    1220 ≤ windowBits (args (ready desc5) 3943) 3943 ∧
    Inv tree33 ∧ Ready tree33 ∧ ctApplies tree33.desc.toDescIn 0 = false ∧ ¬ RunsOff tree33 0 false := by
  have h := good_spec (s := args (ready desc5) 3943) (by decide +kernel)
  have h2 := good_spec (s := tree33) (by decide +kernel)
  refine ⟨h.1, h.2, by decide +kernel, by decide +kernel, by decide +kernel, h2.1, h2.2, by decide +kernel, ?_⟩
  unfold RunsOff
  decide +kernel

/-- V3.12, gray under the transform, and V3.11, out of range. -/
def gray : State := args (bytesAt (ready descC) 16
  [0xF6, 0x0F, 0x00, 0x00, 0xA0, 0x00, 0x40, 0x01, 0x80, 0x02, 0x00, 0x05, 0x00, 0xEA, 0x0E]) 16
def outOfRange : State := args (bytesAt (ready descC) 16 [0x0F, 0xF0, 0xFF, 0xFF, 0x3F, 0x38]) 16

/-- Rows of 0 16 32 48. -/
def ramp : Vector Sample 16 := #v[0, 16, 32, 48, 0, 16, 32, 48, 0, 16, 32, 48, 0, 16, 32, 48]

/-- V3.11: `VIOL_MASK`, `FATAL`; V3.12: (v, 256, 256) gives (v, v, v) -/
theorem test_transformed : (issue outOfRange (.decodeBlock 0 false)).map (fun t => (t.fat.code, t.chk.violMask, t.port.res)) =
      some (2, 0x0020, Results.none) ∧
    (issue gray (.decodeBlock 0 false)).map
      (fun t => (t.port.res.res0, t.cur.pos, t.codec.blk)) = some (some 15, 116, #v[ramp, ramp, ramp, flat 0]) := by decide +kernel

theorem witness_DecodeBlockTransformed : Inv gray ∧ Ready gray ∧ (0 : Fin 2).val < gray.desc.nplanes ∧
    ctApplies gray.desc.toDescIn 0 = true ∧ ¬ RunsOff gray 0 false ∧
    Inv outOfRange ∧ Ready outOfRange ∧ (0 : Fin 2).val < outOfRange.desc.nplanes ∧
    ctApplies outOfRange.desc.toDescIn 0 = true ∧ ¬ RunsOff outOfRange 0 false := by
  have h := good_spec (s := gray) (by decide +kernel)
  have h2 := good_spec (s := outOfRange) (by decide +kernel)
  unfold RunsOff
  exact ⟨h.1, h.2, by decide +kernel, by decide +kernel, by decide +kernel, h2.1, h2.2, by decide +kernel, by decide +kernel,
    by decide +kernel⟩

/-- V3.7: a stream that ends inside its ROOT. -/
def cutOff : State := args (bytesAt (ready { descA with bufSize := 17, frameSize := 17 }) 16 [0x0F]) 16

theorem witness_DecodeBlockOffTheBuffer : Inv (args tight 17) ∧ Ready (args tight 17) ∧ (0 : Fin 2).val < tight.desc.nplanes ∧
    windowBits (args tight 17) 17 < (if true then 16 * planeBitsOf tight.desc.toDescIn 0 else 2) ∧
    Inv (args tight 64) ∧ Ready (args tight 64) ∧ windowBits (args tight 64) 64 < (if false then 16 * planeBitsOf tight.desc.toDescIn 0 else 2) ∧
    Inv cutOff ∧ Ready cutOff ∧ (0 : Fin 2).val < cutOff.desc.nplanes ∧ RunsOff cutOff 0 false := by
  have h1 := good_spec (s := args tight 17) (by decide +kernel)
  have h2 := good_spec (s := args tight 64) (by decide +kernel)
  have h3 := good_spec (s := cutOff) (by decide +kernel)
  refine ⟨h1.1, h1.2, by decide +kernel, by decide +kernel, h2.1, h2.2, by decide +kernel, h3.1, h3.2, by decide +kernel, ?_⟩
  unfold RunsOff
  decide +kernel

/-- V3.1 and V3.2 with no byte to spare. -/
def uniform : State := args (bytesAt (ready { descA with bufSize := 18, frameSize := 18 }) 16 [0xAF, 0x02]) 16
def sentinel : State := args (bytesAt (ready { descA with bufSize := 17, frameSize := 17 }) 16 [0x0E]) 16

theorem witness_ConstantBlocks : Inv uniform ∧ Ready uniform ∧ comps uniform.desc.toDescIn 0 = [0] ∧
    ctApplies uniform.desc.toDescIn 0 = false ∧ IsField uniform 16 0 4 15 ∧ IsField uniform 16 4 8 42 ∧
    4 + 8 ≤ windowBits uniform 16 ∧ l3Bits (uniform.desc.compbits[(0 : Fin 4)]) = 4 ∧
    Inv sentinel ∧ Ready sentinel ∧ IsField sentinel 16 0 4 14 ∧ 4 ≤ windowBits sentinel 16 := by
  have h1 := good_spec (s := uniform) (by decide +kernel)
  have h2 := good_spec (s := sentinel) (by decide +kernel)
  exact ⟨h1.1, h1.2, by decide +kernel, by decide +kernel, ⟨by decide +kernel, by decide +kernel⟩,
    ⟨by decide +kernel, by decide +kernel⟩, by decide +kernel, by decide +kernel, h2.1, h2.2,
    ⟨by decide +kernel, by decide +kernel⟩, by decide +kernel⟩

theorem witness_BlockElements : Ready uniform ∧ uniform.port.arg1 < uniform.desc.nplanes ∧ uniform.port.arg1 < 2 ∧
    12 ≤ windowBits uniform uniform.port.arg0 ∧ isSubblock uniform false 12 0x2AF = true ∧
    ctApplies uniform.desc.toDescIn (argPlane uniform) = false ∧ IsField uniform uniform.port.arg0 0 12 0x2AF ∧
    Ready tight ∧ 384 = 16 * planeBitsOf tight.desc.toDescIn (argPlane tight) ∧ 384 ≤ windowBits tight tight.port.arg0 := by
  refine ⟨⟨?_, ?_⟩, ?_, ?_, ?_, ?_, ?_, ⟨?_, ?_⟩, ⟨?_, ?_⟩, ?_, ?_⟩ <;> decide +kernel

/-- One component of `n` bits whose `L3` of `w` bits ends with the buffer. -/
def l3At (n w : Nat) : State := { depth n with cur := ⟨BitVec.ofNat 36 (8 * 4080 - w), false⟩ }

theorem witness_L3Elements : ∀ nw ∈ [(1, L3Width.w2), (5, .w3), (8, .w4), (15, .w5)],
    good (l3At nw.1 nw.2.bits) = true ∧ compOk (l3At nw.1 nw.2.bits) = true ∧
      l3Bits ((l3At nw.1 nw.2.bits).desc.compbits[argComp (l3At nw.1 nw.2.bits)]) = nw.2.bits ∧
      (l3At nw.1 nw.2.bits).cur.exh = false ∧
      (l3At nw.1 nw.2.bits).cur.pos.toNat + nw.2.bits ≤ windowBits (l3At nw.1 nw.2.bits) (l3At nw.1 nw.2.bits).port.arg0 := by
  decide +kernel

theorem witness_L3Elements_literals : (Instr.l3LiteralW2 1).wf = true ∧ (Instr.l3LiteralW3 5).wf = true ∧
    (Instr.l3LiteralW4 13).wf = true ∧ (Instr.l3LiteralW5 29).wf = true := by decide

/-- In the middle of component 0, at quadrant or node `k`, with `left` bits of the window left. -/
def midAt (bc : Vector Int 5) (k left : Nat) : State :=
  { args (withTree (depth 8) bc 250) 16 0 k with cur := ⟨BitVec.ofNat 36 (8 * 4080 - left), false⟩ }

theorem witness_L4dElement : Ready (midAt #v[0, 0, 0, 0, 0] 3 2) ∧ compOk (midAt #v[0, 0, 0, 0, 0] 3 2) = true ∧
    (midAt #v[0, 0, 0, 0, 0] 3 2).port.arg2 = (3 : Fin 4).val ∧
    ((midAt #v[0, 0, 0, 0, 0] 3 2).codec.bcOk[(0 : Fin 4)])[0] = true ∧
    0 ≤ ((midAt #v[0, 0, 0, 0, 0] 3 2).codec.bctree[(0 : Fin 4)])[0] ∧ (midAt #v[0, 0, 0, 0, 0] 3 2).cur.exh = false ∧
    (midAt #v[0, 0, 0, 0, 0] 3 2).cur.pos.toNat + 2 ≤ windowBits (midAt #v[0, 0, 0, 0, 0] 3 2) 16 := by
  refine ⟨⟨?_, ?_⟩, ?_⟩ <;> decide +kernel

theorem witness_RootElement : Inv (midAt #v[-1, 0, 0, 0, 0] 0 8) ∧ Ready (midAt #v[-1, 0, 0, 0, 0] 0 8) ∧
    compOk (midAt #v[-1, 0, 0, 0, 0] 0 8) = true ∧ (midAt #v[-1, 0, 0, 0, 0] 0 8).desc.compbits[(0 : Fin 4)] = 8 ∧
    argComp (midAt #v[-1, 0, 0, 0, 0] 0 8) = 0 ∧ ((midAt #v[-1, 0, 0, 0, 0] 0 8).codec.bcOk[(0 : Fin 4)])[0] = true ∧
    (midAt #v[-1, 0, 0, 0, 0] 0 8).cur.exh = false ∧
    (midAt #v[-1, 0, 0, 0, 0] 0 8).cur.pos.toNat + 8 ≤ windowBits (midAt #v[-1, 0, 0, 0, 0] 0 8) 16 := by
  have h := good_spec (s := midAt #v[-1, 0, 0, 0, 0] 0 8) (by decide +kernel)
  refine ⟨h.1, h.2, ?_⟩
  decide +kernel

/-- What the statements about nodes assume, but for the bit-count. -/
def nodeTest (s : State) (k bits : Nat) : Bool :=
  good s && compOk s && s.port.arg2 == k && nodeDefined s && decide (0 ≤ (s.codec.bctree[argComp s])[0]) && !s.cur.exh &&
    decide (s.cur.pos.toNat + bits ≤ windowBits s s.port.arg0)

theorem witness_NodeElements : nodeTest (midAt #v[1, 0, 0, 0, 0] 4 0) 4 0 = true ∧
    ((midAt #v[1, 0, 0, 0, 0] 4 0).codec.bctree[(0 : Fin 4)])[(4 : Fin 5)] = 0 ∧
    nodeTest (midAt #v[1, 0, 0, 0, 0] 0 4) 0 4 = true ∧
    ((midAt #v[1, 0, 0, 0, 0] 0 4).codec.bctree[(0 : Fin 4)])[(0 : Fin 5)] = 1 ∧
    nodeTest (midAt #v[1, 0, 0, 0, 1] 4 4) 4 4 = true := by decide +kernel

theorem witness_NodeElements_bn : nodeTest (midAt #v[29, 0, 0, 0, 2] 0 89) 0 89 = true ∧
    ((midAt #v[29, 0, 0, 0, 2] 0 89).codec.bctree[(0 : Fin 4)])[(0 : Fin 5)] = 29 ∧
    nodeTest (midAt #v[29, 0, 0, 0, 2] 4 8) 4 8 = true ∧
    ((midAt #v[29, 0, 0, 0, 2] 4 8).codec.bctree[(0 : Fin 4)])[(4 : Fin 5)] = 2 ∧ 2 ^ 87 - 1 < 2 ^ (3 * 29) := by
  decide +kernel

theorem witness_PadElement : Ready (ready descA) := ⟨by decide +kernel, by decide +kernel⟩

/-- Extreme pixels under `DC`, and what they become. -/
def rgb : State := withRows (ready descC) (flat 255) (flat 0) (flat 255)
def yuv : State := withRows (ready descC) (flat 127) (flat 511) (flat 511)

theorem witness_CtForwardResult : Inv rgb ∧ Ready rgb ∧ ctApplies rgb.desc.toDescIn 0 = true ∧
    ∀ c : Fin 4, c.val < 3 → rgb.codec.blkOk[c] = true ∧
      ∀ i : Fin 16, (rgb.codec.blk[c][i]).toNat < 2 ^ inBits rgb.desc.toDescIn 0 := by
  have h := good_spec (s := rgb) (by decide +kernel)
  refine ⟨h.1, h.2, ?_⟩
  decide +kernel

/-- Rows that CT_INVERSE takes. -/
abbrev CtRows (s : State) : Prop := ∀ c : Fin 4, c.val < 3 → s.codec.blkOk[c] = true ∧
  ∀ i : Fin 16, (s.codec.blk[c][i]).toNat < 2 ^ s.desc.compbits[c]

theorem witness_CtInverseResult : Ready yuv ∧ ctApplies yuv.desc.toDescIn 0 = true ∧ CtRows yuv ∧
    (∀ i : Fin 16, ctInversePixel 8 (sampleAt yuv.codec.blk 0 i) (sampleAt yuv.codec.blk 1 i) (sampleAt yuv.codec.blk 2 i) =
      some (255, 0, 255)) ∧
    Ready (withRows (ready descC) (flat 64) (flat 511) (flat 256)) ∧
    CtRows (withRows (ready descC) (flat 64) (flat 511) (flat 256)) ∧ ctInversePixel 8 64 511 256 = none := by
  refine ⟨⟨?_, ?_⟩, ?_, ?_, ?_, ⟨?_, ?_⟩, ?_⟩ <;> decide +kernel

theorem witness_CtExactInverse : Inv rgb ∧ Ready rgb ∧ ctApplies rgb.desc.toDescIn 0 = true ∧ 255 < 2 ^ 8 := by
  have h := good_spec (s := rgb) (by decide +kernel)
  refine ⟨h.1, h.2, ?_⟩
  decide +kernel

/-- Rows of samples in range at byte 16, with room for the uncompressed size and no more. -/
abbrev EncodeContext (s : State) (p : Fin 2) : Prop := p.val < s.desc.nplanes ∧
  (∀ c ∈ comps s.desc.toDescIn p, s.codec.blkOk[c] = true ∧
    ∀ i : Fin 16, (s.codec.blk[c][i]).toNat < 2 ^ inBits s.desc.toDescIn c) ∧
  s.port.arg0 + s.desc.uncompSize[p] ≤ bufSize s

def rows48 : State := withRows tight row33 (flat 255) (flat 0)
def flat48 : State := withRows tight (flat 10) (flat 200) (flat 30)

theorem witness_EncodeBlockCompletes : Inv rows48 ∧ Ready rows48 ∧ EncodeContext rows48 0 ∧
    rows48.codec.blk[(0 : Fin 4)][(1 : Fin 16)] ≠ rows48.codec.blk[(0 : Fin 4)][(0 : Fin 16)] ∧
    Inv flat48 ∧ Ready flat48 ∧ EncodeContext flat48 0 ∧ ∀ c ∈ comps flat48.desc.toDescIn 0, ∀ i : Fin 16,
      flat48.codec.blk[c][i] = flat48.codec.blk[c][(0 : Fin 16)] := by
  have h := good_spec (s := rows48) (by decide +kernel)
  have h2 := good_spec (s := flat48) (by decide +kernel)
  exact ⟨h.1, h.2, by decide +kernel, by decide +kernel, h2.1, h2.2, by decide +kernel, by decide +kernel⟩

theorem witness_EncodeBlockRefusals : Inv (withRows tight (flat 256) (flat 0) (flat 0)) ∧ Ready (withRows tight (flat 256) (flat 0) (flat 0)) ∧
    (∀ c ∈ comps tight.desc.toDescIn 0, (withRows tight (flat 256) (flat 0) (flat 0)).codec.blkOk[c] = true) ∧
    2 ^ inBits tight.desc.toDescIn 0 ≤ ((withRows tight (flat 256) (flat 0) (flat 0)).codec.blk[(0 : Fin 4)][(0 : Fin 16)]).toNat ∧
    Inv (args rows48 63) ∧ Ready (args rows48 63) ∧
    (∀ c ∈ comps rows48.desc.toDescIn 0, ∀ i : Fin 16, (rows48.codec.blk[c][i]).toNat < 2 ^ inBits rows48.desc.toDescIn c) ∧
    bufSize (args rows48 63) < 63 + 2 := by
  have h1 := good_spec (s := withRows tight (flat 256) (flat 0) (flat 0)) (by decide +kernel)
  have h2 := good_spec (s := args rows48 63) (by decide +kernel)
  exact ⟨h1.1, h1.2, by decide +kernel, by decide +kernel, h2.1, h2.2, by decide +kernel, by decide +kernel⟩

/-- The sixteen bytes that the encoder chooses for `rows48` do not fit two before the end. -/
theorem witness_EncodeBlockRefusals_count : Inv (args rows48 62) ∧ Ready (args rows48 62) ∧
    ∃ e, encodeRun (args rows48 62).desc 0 (args rows48 62).codec.blk = some e ∧
      bufSize (args rows48 62) < (args rows48 62).port.arg0 + e.bytes.length := by
  have h := good_spec (s := args rows48 62) (by decide +kernel)
  have he : (encodeRun (args rows48 62).desc 0 (args rows48 62).codec.blk).any
      (fun e => decide (bufSize (args rows48 62) < (args rows48 62).port.arg0 + e.bytes.length)) = true := by decide +kernel
  obtain ⟨e, h1, h2⟩ := (Option.any_eq_true _ _).mp he
  exact ⟨h.1, h.2, e, h1, of_decide_eq_true h2⟩

/-- V4.8's block, which only the uncompressed form holds. -/
def row48 : Vector Sample 16 := #v[165, 77, 202, 24, 37, 48, 187, 29, 109, 19, 44, 222, 214, 35, 123, 46]

theorem witness_EncodeDecodeRoundTrip : Inv rows48 ∧ Ready rows48 ∧ EncodeContext rows48 0 ∧
    (∃ t, exec (.encodeBlock 0) rows48 = .next t ∧ (t.port.res == ⟨some 16, some (-1), some 0⟩) = true) ∧
    Inv (withRows (args (ready descA) 16) row48 (flat 0) (flat 0)) ∧
    EncodeContext (withRows (args (ready descA) 16) row48 (flat 0) (flat 0)) 0 ∧
    ∃ t, exec (.encodeBlock 0) (withRows (args (ready descA) 16) row48 (flat 0) (flat 0)) = .next t ∧
      (t.port.res == ⟨some 16, some (-1), some 1⟩) = true := by
  have h := good_spec (s := rows48) (by decide +kernel)
  have h2 := good_spec (s := withRows (args (ready descA) 16) row48 (flat 0) (flat 0)) (by decide +kernel)
  exact ⟨h.1, h.2, by decide +kernel, next_of _ (by decide +kernel), h2.1, by decide +kernel, next_of _ (by decide +kernel)⟩

theorem witness_DecodeSuperblockSolid : Inv solid1 ∧ Ready solid1 ∧ solid1.port.arg0 < solid1.desc.mbw ∧
    solid1.port.arg1 < solid1.desc.mbh ∧ solid1.desc.allowSolid = true ∧
    IsField solid1 (headerAddr (mbnumOf solid1.desc 0 0)) solid1.desc.ptrBits solid1.desc.sizeBits 0 ∧
    SampleOf solid1.desc 0 0 0 0 0 0 0 := by
  have h := good_spec (s := solid1) (by decide +kernel)
  refine ⟨h.1, h.2, by decide +kernel, by decide +kernel, by decide +kernel, ⟨by decide +kernel, by decide +kernel⟩, ?_⟩
  unfold SampleOf
  decide +kernel

/-- A header of sixteen slots of two bytes, all copies but the first, over a frame of one sample. -/
def normal1 : State := bytesAt (ready desc1) 0 [0x10, 0, 0, 0, 0x02, 0, 0, 0, 0, 0, 0, 0, 0, 0, 0, 0, 0xAF, 0x02]

/-- The same header in a tiled frame, its payload at the start of the paging tile. -/
def normalT : State := bytesAt (ready { descT with ncomp := #v[1, 0], inputbits := #v[8, 0, 0, 0] }) 0
  [0x00, 0x10, 0, 0, 0x02]

/-- The same under the colour transform, every slot V3.12's gray block, of fifteen bytes. -/
def normalC : State := bytesAt (bytesAt (ready { descC with bufSize := 4096, frameSize := 4096 }) 0 [0x10, 0, 0, 0, 0x0F]) 16
  [0xF6, 0x0F, 0x00, 0x00, 0xA0, 0x00, 0x40, 0x01, 0x80, 0x02, 0x00, 0x05, 0x00, 0xEA, 0x0E]

/-- Every slot past the frame size, in graceful mode and not. -/
def pastG : State := bytesAt (ready { desc1 with allowSolid := false, frameSize := 17, graceful := true }) 0 [0x10, 0, 0, 0, 0x02]
def pastF : State := bytesAt (ready { desc1 with allowSolid := false, frameSize := 17 }) 0 [0x10, 0, 0, 0, 0x02]

/-- Slots of two bytes whose stream the buffer cuts off after them. -/
def cutSlot : State := bytesAt (ready { descA with bufSize := 18, frameSize := 18 }) 0
  [0x10, 0, 0, 0, 0x02, 0, 0, 0, 0, 0, 0, 0, 0, 0, 0, 0, 0x07]

/-- What the statements about superblocks with slots assume. -/
def SlotContext (s : State) : Prop := Inv s ∧ Ready s ∧ s.port.arg0 < s.desc.mbw ∧ s.port.arg1 < s.desc.mbh ∧
  ∃ h, SlotsParsed s h ∧ TileBoundHolds s h.hdr.ptr.toNat ∧ ∀ k < s.desc.nsubblocks, SlotDecodes s h k

/-- `SlotContext`, as a test that evaluates. -/
def slotTest (s h : State) (k : Nat) : Bool :=
  let past := decide (s.desc.frameSize.toNat < (h.hdr.off.getD k 0).toNat + (h.hdr.size.getD k 0).toNat)
  past && s.desc.graceful || !past && ((nextOf (slotRun s h k)).any fun u => u.port.status == .done)

theorem slotDecodes_of_test {s h : State} {k : Nat} (ht : slotTest s h k = true) : SlotDecodes s h k := by
  simp only [slotTest, Bool.or_eq_true, Bool.and_eq_true, decide_eq_true_eq, Bool.not_eq_true', decide_eq_false_iff_not] at ht
  obtain ht | ⟨h1, h2⟩ := ht
  · exact .inl ht
  · obtain ⟨u, h3, h4⟩ := next_of _ h2
    exact .inr ⟨h1, .inr ⟨u, h3, by simpa using h4⟩⟩

theorem slotContext_of_test {s : State} (ht : (good s && decide (s.port.arg0 < s.desc.mbw ∧ s.port.arg1 < s.desc.mbh) &&
    (nextOf (exec .parseHeader { s with port := { s.port with arg0 := mbnumOf s.desc s.port.arg0 s.port.arg1 } })).any fun h =>
      !h.hdr.solid && (!s.desc.tiled || decide (tileBase s ≤ h.hdr.ptr.toNat ∧
        h.hdr.ptr.toNat + s.desc.maxpay ≤ tileBase s + 64 * s.desc.maxpay)) &&
      (List.range s.desc.nsubblocks).all (slotTest s h)) = true) : SlotContext s := by
  simp only [Bool.and_eq_true, decide_eq_true_eq] at ht
  obtain ⟨⟨hg, hx, hy⟩, hp⟩ := ht
  obtain ⟨h, h1, h2⟩ := next_of _ hp
  simp only [Bool.and_eq_true, Bool.not_eq_true', Bool.or_eq_true, decide_eq_true_eq, List.all_eq_true, List.mem_range] at h2
  exact ⟨(good_spec hg).1, (good_spec hg).2, hx, hy, h, ⟨h1, h2.1.1⟩, fun ht => h2.1.2.resolve_left (by simp [ht]),
    fun k hk => slotDecodes_of_test (h2.2 k hk)⟩

theorem witness_DecodeSuperblockNormal : SlotContext normal1 ∧ SlotContext normalT ∧ SlotContext normalC ∧ SlotContext pastG :=
  ⟨slotContext_of_test (by decide +kernel), slotContext_of_test (by decide +kernel), slotContext_of_test (by decide +kernel),
    slotContext_of_test (by decide +kernel)⟩

/-- 43_superblock R216: the zero-fill is recorded although `error_check` is 0 -/
theorem test_graceful : (issue { pastG with desc := { pastG.desc with errorCheck := false }, out := #v[[(0, 7)], [], [], []] }
    .decodeSuperblock).map (fun t => (t.out[(0 : Fin 4)], t.chk.violMask, t.chk.foundError, t.fat.code)) =
    some ([], 0x0400, true, 0) := by decide +kernel

theorem witness_SlotFailureIsFatal : (Inv pastF ∧ Ready pastF ∧ ∃ h, exec .parseHeader pastF = .next h ∧
      (!h.hdr.solid && decide (pastF.desc.frameSize.toNat < (h.hdr.off.getD 0 0).toNat + (h.hdr.size.getD 0 0).toNat)) = true) ∧
    pastF.desc.graceful = false ∧ pastF.desc.tiled = false ∧
    (Inv cutSlot ∧ Ready cutSlot ∧ ∃ h, exec .parseHeader cutSlot = .next h ∧
      (!h.hdr.solid && decide ((h.hdr.off.getD 0 0).toNat + (h.hdr.size.getD 0 0).toNat ≤ cutSlot.desc.frameSize.toNat) &&
        (nextOf (slotRun cutSlot h 0)).any (fun u => u.fat.code == 1)) = true) := by
  have h1 := good_spec (s := pastF) (by decide +kernel)
  have h2 := good_spec (s := cutSlot) (by decide +kernel)
  exact ⟨⟨h1.1, h1.2, next_of _ (by decide +kernel)⟩, rfl, rfl, h2.1, h2.2, next_of _ (by decide +kernel)⟩

/-- V6.3: superblock 63's payload one byte past the tile's end, 68609. -/
def late : State := args (bytesAt (ready descT) (63 * 16) [0x01, 0x0C, 0x01, 0x00, 2]) 7 7

/-- The grid of V6.2 with one superblock row more than eight. -/
def descT8 : DescIn := { descT with height := 128 }

theorem witness_TileBoundIsFatal :
    let s := { late with desc := derive layout0 descT8 }
    Inv s ∧ Ready s ∧ s.port.arg0 < s.desc.mbw ∧ s.port.arg1 < s.desc.mbh ∧ s.desc.tiled = true ∧
      mbnumOf s.desc 7 7 = 63 ∧ IsField s (headerAddr 63) 0 s.desc.ptrBits 68609 ∧ s.desc.allowSolid = false ∧
      ¬ (s.desc.bodyBase + 63 / 64 * (64 * s.desc.maxpay) ≤ 68609 ∧
        68609 + s.desc.maxpay ≤ s.desc.bodyBase + 63 / 64 * (64 * s.desc.maxpay) + 64 * s.desc.maxpay) := by
  have h := good_spec (s := { late with desc := derive layout0 descT8 }) (by decide +kernel)
  exact ⟨h.1, h.2, by decide +kernel, by decide +kernel, by decide +kernel, by decide +kernel,
    ⟨by decide +kernel, by decide +kernel⟩, by decide +kernel, by decide +kernel⟩

theorem memGet_reset (c : Fin 4) (i : Nat) : memGet ((State.reset.out)[c]) i = 0 := by
  fin_cases c <;> rfl

/-- An empty frame of one sample, the payload ending with the buffer. -/
def blank : State := args (ready desc1) 0 0 3840

theorem witness_EncodeSuperblockCompletes : Inv blank ∧ Ready blank ∧ blank.port.arg0 < blank.desc.mbw ∧
    blank.port.arg1 < blank.desc.mbh ∧ blank.port.arg2 < 2 ^ blank.desc.ptrBits ∧
    blank.port.arg2 + blank.desc.maxpay ≤ bufSize blank ∧
    ∀ p c i x y, SampleOf blank.desc 0 0 p c i x y → (memGet blank.out[c] i).toNat < 2 ^ inBits blank.desc.toDescIn c := by
  have h := good_spec (s := blank) (by decide +kernel)
  refine ⟨h.1, h.2, by decide +kernel, by decide +kernel, by decide +kernel, by decide +kernel, fun p c i x y _ => ?_⟩
  rw [show blank.out = State.reset.out from rfl, memGet_reset]
  exact Nat.two_pow_pos _

theorem witness_SolidSuperblockRoundTrip : Inv blank ∧ Ready blank ∧ blank.port.arg0 < blank.desc.mbw ∧
    blank.port.arg1 < blank.desc.mbh ∧ blank.port.arg2 < 2 ^ blank.desc.ptrBits ∧ blank.desc.allowSolid = true ∧
    ∀ p c i x y, SampleOf blank.desc 0 0 p c i x y →
      memGet blank.out[c] i = (fun _ => 0 : Fin 4 → Sample) c ∧ (0 : Sample).toNat < 2 ^ inBits blank.desc.toDescIn c := by
  have h := good_spec (s := blank) (by decide +kernel)
  refine ⟨h.1, h.2, by decide +kernel, by decide +kernel, by decide +kernel, rfl, fun p c i x y _ => ⟨?_, Nat.two_pow_pos _⟩⟩
  rw [show blank.out = State.reset.out from rfl, memGet_reset]

/-- The same frame where solid headers are not allowed, and other samples in `OUT[0]` before the decoding. -/
def blankN : State := args (ready { desc1 with allowSolid := false }) 0 0 3840

theorem witness_SuperblockRoundTrip : ∀ s ∈ [blank, blankN], Inv s ∧ Ready s ∧ s.port.arg0 < s.desc.mbw ∧
    s.port.arg1 < s.desc.mbh ∧ s.port.arg2 < 2 ^ s.desc.ptrBits ∧ s.desc.hdrArea ≤ s.port.arg2 ∧
    s.port.arg2 + s.desc.maxpay ≤ s.desc.frameSize.toNat ∧ TileBoundHolds s s.port.arg2 ∧
    (∀ p c i x y, SampleOf s.desc s.port.arg0 s.port.arg1 p c i x y → (memGet s.out[c] i).toNat < 2 ^ inBits s.desc.toDescIn c) ∧
    ∀ c : Fin 4, ((#v[[(0, 7)], [], [], []] : Vector (Mem 32) 4)[c]).wf := by
  intro s hs
  have ho : s.out = State.reset.out := by
    simp only [List.mem_cons, List.not_mem_nil, or_false] at hs
    obtain rfl | rfl := hs <;> rfl
  have hw : ∀ c : Fin 4, ((#v[[(0, 7)], [], [], []] : Vector (Mem 32) 4)[c]).wf := by decide +kernel
  have hr : ∀ p c i x y, SampleOf s.desc s.port.arg0 s.port.arg1 p c i x y →
      (memGet s.out[c] i).toNat < 2 ^ inBits s.desc.toDescIn c := by
    intro p c i x y _
    rw [ho, memGet_reset]
    exact Nat.two_pow_pos _
  simp only [List.mem_cons, List.not_mem_nil, or_false] at hs
  obtain rfl | rfl := hs
  · have h := good_spec (s := blank) (by decide +kernel)
    exact ⟨h.1, h.2, by decide +kernel, by decide +kernel, by decide +kernel, by decide +kernel, by decide +kernel,
      fun ht => absurd ht (by decide +kernel), hr, hw⟩
  · have h := good_spec (s := blankN) (by decide +kernel)
    exact ⟨h.1, h.2, by decide +kernel, by decide +kernel, by decide +kernel, by decide +kernel, by decide +kernel,
      fun ht => absurd ht (by decide +kernel), hr, hw⟩

/-- V6.5's first stripe with `n` superblocks still to come. -/
def stripes (n : Nat) : State :=
  { ready descS with chk := { (ready descS).chk with stripeBins := [⟨128, 3200, true, n⟩, ⟨0, 0, false, 2⟩] } }

theorem witness_StripeAndSparseChecks : (stripes 1).desc.stripeHeight ≠ 0 ∧ (stripes 1).desc.errorCheck = true ∧
    (stripes 1).chk.stripeBins[(stripes 1).sb.mby / ((stripes 1).desc.stripeHeight / (stripes 1).desc.sbH)]? =
      some ⟨128, 3200, true, 1⟩ ∧
    (stripes 0).chk.stripeBins[(stripes 0).sb.mby / ((stripes 0).desc.stripeHeight / (stripes 0).desc.sbH)]? =
      some ⟨128, 3200, true, 0⟩ := by decide +kernel

/-- Decoding that completes, with slots and solid. -/
theorem witness_StripeAndSparseChecks_run : Inv normal1 ∧ Ready normal1 ∧ Inv solid1 ∧ Ready solid1 ∧
    (∃ t, exec .decodeSuperblock normal1 = .next t ∧ (t.port.status == .done && !t.hdr.solid) = true) ∧
    ∃ t, exec .decodeSuperblock solid1 = .next t ∧ (t.port.status == .done && t.hdr.solid) = true := by
  have h1 := good_spec (s := normal1) (by decide +kernel)
  have h2 := good_spec (s := solid1) (by decide +kernel)
  exact ⟨h1.1, h1.2, h2.1, h2.2, next_of _ (by decide +kernel), next_of _ (by decide +kernel)⟩

/-- After a fatal error. -/
def broken : State := { ready descB with fat := ⟨1, 0, 0, 0⟩, port := { (ready descB).port with descIn := descB, status := .failed } }

theorem witness_FailedStateRefuses : broken.fat.code ≠ 0 ∧ Instr.bsRead 1 ≠ .initDescriptor ∧
    ∃ t, exec .decodeSuperblock { ready descB with port := { (ready descB).port with arg0 := 1, arg1 := 0 } } = .next t ∧
      (t.fat.code == 6) = true := ⟨by decide +kernel, by decide, next_of _ (by decide +kernel)⟩

theorem witness_NoDescriptor : State.reset.fat.code = 0 ∧ State.reset.descValid = false ∧ Instr.pad ≠ .initDescriptor ∧
    (∃ t, step (doing (ready descB) .reset) = .next t ∧ (t.port.status == .idle) = true) ∧
    (∀ n, Instr.pad ≠ .bsRead n ∧ Instr.pad ≠ .bsReadSigned n ∧ Instr.pad ≠ .bsWrite n) ∧
    ∃ t, exec .initDescriptor State.reset = .next t ∧ (t.port.status == .failed) = true :=
  ⟨rfl, rfl, by decide, next_of _ (by decide +kernel), fun n => ⟨by simp, by simp, by simp⟩, next_of _ (by decide +kernel)⟩

/-- One case for each way to stop, and the stop. -/
theorem witness_StopsOnlyAtUndefinedRegisters :
    (Ready (ready descC) ∧ ReadsUndefined (.encodeBlock 0) (ready descC) ∧ ReadsUndefined .ctForward (ready descC) ∧
      ReadsUndefined .writeHeader (ready descC) ∧ ReadsUndefined (.sizeUncomp .NONE) (ready descC) ∧
      ReadsUndefined (.l4d 0) (depth 8) ∧ ReadsUndefined (.root 8 0) (depth 8) ∧ ReadsUndefined .nodeB0 (depth 8)) ∧
    Ready (ready descB) ∧ ¬ ReadsUndefined .pad (ready descB) ∧
    (∃ t, step (doing { State.reset with fbPhys := 5 } (.writeFb 4 1)) = .next t ∧ (t.port.status == .idle) = true) ∧
    step (doing { State.reset with fbPhys := 5 } (.writeFb 5 1)) = .fault .noSuchByte := by
  refine ⟨⟨⟨by decide +kernel, by decide +kernel⟩, ?_⟩, ⟨by decide +kernel, by decide +kernel⟩, ?_,
    next_of _ (by decide +kernel), rfl⟩
  · refine ⟨.inl ⟨0, rfl, by decide +kernel, 0, by decide +kernel, rfl⟩,
      .inr (.inl ⟨.inl rfl, by decide +kernel, 0, by decide, rfl⟩),
      .inr (.inr (.inl ⟨rfl, by decide +kernel, .inl rfl⟩)),
      .inr (.inr (.inr (.inl ⟨.inr (.inl rfl), by decide +kernel, .inl rfl⟩))),
      .inr (.inr (.inr (.inr ⟨by decide +kernel, .inl ⟨.inl ⟨⟨0, rfl⟩, by decide +kernel⟩, rfl⟩⟩))),
      .inr (.inr (.inr (.inr ⟨by decide +kernel, .inl ⟨.inr ⟨0, by rw [show (depth 8).desc.compbits[argComp (depth 8)] = 8 from by decide +kernel]⟩, rfl⟩⟩))),
      .inr (.inr (.inr (.inr ⟨by decide +kernel, .inr ⟨.inl rfl, by decide +kernel, .inl rfl⟩⟩)))⟩
  · simp [ReadsUndefined]

theorem witness_FatalRegistersNameThePlace : (ready descB).fat.code = 0 ∧
    (∃ t, exec .parseHeader (args (ready descB) 49) = .next t ∧ (t.fat.code == 1) = true) ∧
    (∃ t, exec .ctForward (ready descB) = .next t ∧ (t.fat.code == 7) = true) ∧
    ∃ t, exec .getMaxSbPayload (ready descB) = .next t ∧ (t.fat.code == 0) = true :=
  ⟨rfl, next_of _ (by decide +kernel), next_of _ (by decide +kernel), next_of _ (by decide +kernel)⟩

theorem witness_RecoveryOnlyByInitOrReset : broken.fat.code ≠ 0 ∧
    (∃ t, step (doing { broken with port := { broken.port with descIn := desc16 } } (.command 0x50)) = .next t ∧ t.fat ≠ broken.fat) ∧
    (∃ t, step (doing { broken with port := { broken.port with descIn := DescIn.zero } } (.command 0x50)) = .next t ∧
      (t.fat != broken.fat) = true) ∧
    ∃ t, step (doing broken .reset) = .next t ∧ (t.fat != broken.fat) = true := by
  refine ⟨by decide +kernel, ?_, next_of _ (by decide +kernel), next_of _ (by decide +kernel)⟩
  obtain ⟨t, h, -, hf, -⟩ := init_accepts { broken with port := { broken.port with descIn := desc16 } } rfl
  exact ⟨t, h, by rw [hf]; decide +kernel⟩

theorem witness_StickyChecker : Instr.parseHeader ≠ .initDescriptor ∧
    (∃ t, exec .parseHeader { hdr51 with chk := { hdr51.chk with foundError := true, violMask := 1 } } = .next t ∧
      (t.port.status == .done) = true) ∧
    ∃ t, exec (.encodeBlock 0) rows48 = .next t ∧ (t.port.status == .done) = true :=
  ⟨by decide, next_of _ (by decide +kernel), next_of _ (by decide +kernel)⟩

theorem witness_MemoryWriters : (∃ t, exec (.bsWrite 32) (args win5 1 0 0 7) = .next t ∧ (t.port.status == .done) = true) ∧
    (∃ t, exec .decodeSuperblock solid1 = .next t ∧ (t.fat.code == 0) = true) ∧
    (∃ t, exec .decodeSuperblock { late with desc := derive layout0 descT8 } = .next t ∧ (t.fat.code != 0) = true) ∧
    ¬ (args solid1 1 0).port.arg0 < (args solid1 1 0).desc.mbw ∧
    ∃ t, exec .decodeSuperblock (args solid1 1 0) = .next t ∧ (t.fat.code == 6) = true :=
  ⟨next_of _ (by decide +kernel), next_of _ (by decide +kernel), next_of _ (by decide +kernel), by decide +kernel,
    next_of _ (by decide +kernel)⟩

theorem witness_CheckerNeverChangesResults : ∃ t, exec .parseHeader hdr53 = .next t ∧ t.chk.foundError = true :=
  next_of _ (by decide +kernel)

end Sys2Proof.Tests
end

namespace Sys2Proof.Machine

/-! ### DESC_VALID (10_state R24) -/

/-- Refusing with a fatal error where none stands. -/
theorem raiseFatal_eq_refusedWith {s : State} (h : s.fat.code = 0) (x : FatalCode) :
    raiseFatal s x = refusedWith s x.value := by
  simp only [raiseFatal, failOp, refusedWith, after_of_zero h]

/-- INIT_DESCRIPTOR leaves DESC_VALID saying whether it accepted the descriptor. -/
theorem initDescriptor_descValid (s : State) : NextAll
    (fun t => t.descValid = validDesc (derive (layoutTable s.port.descIn.layout.toNat) s.port.descIn))
    (exec .initDescriptor s) := by
  show NextAll _ (execInitDescriptor s)
  simp only [execInitDescriptor]
  split
  · next h => exact nextAll_next.mpr h.symm
  · next h => exact nextAll_next.mpr (Bool.eq_false_iff.mpr h).symm

/-- Without a descriptor every instruction but INIT_DESCRIPTOR and the BS commands is refused. -/
theorem exec_without_descriptor {i : Instr} {s : State} (h : s.fat.code = 0) (d : s.descValid = false)
    (hi : i ≠ .initDescriptor) (hb : isBs i = false) : exec i s = .next (refusedWith s 8) := by
  have nr : ¬ Ready s := fun r => by simpa [d] using r.2
  cases exec_cases i s hi
  case absent e => rw [e, raiseFatal_eq_refusedWith h]; rfl
  case failed h' _ => exact absurd h h'
  case bits b _ _ _ => rw [hb] at b; cases b
  all_goals exact absurd ‹Ready s› nr

/-- Settles O54: the reset state and INIT_DESCRIPTOR by evaluation, the rest by what an instruction can come to. -/
theorem noDescriptor : Obligations.NoDescriptor := by
  refine ⟨rfl, fun s t rest hin e => ?_, fun s => initDescriptor_descValid s, fun i s h d hi hb => ?_⟩
  · simp only [step, stepState, hin, hostAction, Host.Outcome.next.injEq] at e
    rw [← e]
    rfl
  · refine exec_without_descriptor h d hi ?_
    cases i
    case bsRead n => exact absurd rfl (hb n).1
    case bsReadSigned n => exact absurd rfl (hb n).2.1
    case bsWrite n => exact absurd rfl (hb n).2.2
    all_goals rfl

/-! ### The sticky checker (10_state R45, 60_exceptions R316, R319) -/

/-- The flags of `k` are flags of `k'`. -/
def FlagsKept (k k' : Checker) : Prop :=
  (k.foundError = true → k'.foundError = true) ∧ ∀ n, k.violMask.getLsbD n = true → k'.violMask.getLsbD n = true

theorem Grows.flagsKept {k k' : Checker} (h : Grows k k') : FlagsKept k k' := by
  obtain ⟨⟨m, -, hm, hf⟩, -⟩ := h
  refine ⟨fun e => by rw [hf, e, Bool.true_or], fun n e => ?_⟩
  rw [hm, BitVec.getLsbD_or, e, Bool.true_or]

theorem EncodeChange.chk {s t : State} (h : EncodeChange s t) : t.chk = s.chk := by rw [h.same]

@[simp] theorem encodeStart_chk (i : Instr) (s : State) : (encodeStart i s).chk = s.chk := by
  unfold encodeStart
  split <;> rfl

/-- Only decoding touches the checker, and decoding lets it grow. -/
theorem exec_chk {i : Instr} {s t : State} (hi : i ≠ .initDescriptor) (e : exec i s = .next t) :
    Grows s.chk t.chk ∧ (onlyEncodes i = true → t.chk = s.chk) := by
  suffices h : NextAll (fun t => t.chk = s.chk ∨ Grows s.chk t.chk ∧ onlyEncodes i = false) (exec i s) by
    rcases h t e with h | ⟨h, o⟩
    · exact ⟨h ▸ .refl _, fun _ => h⟩
    · exact ⟨h, fun o' => by rw [o] at o'; cases o'⟩
  cases exec_cases i s hi
  case undefined e => rw [e]; exact nextAll_fault _
  case decoded o _ c e => rw [e]; exact nextAll_next.mpr (.inr ⟨c.grows, o⟩)
  case decodeFailed o _ c e => rw [e]; exact nextAll_next.mpr (.inr ⟨c.grows, o⟩)
  case superblock d _ c e => rw [e]; exact nextAll_next.mpr (.inr ⟨c.grows, d ▸ rfl⟩)
  case superblockFailed d _ c e => rw [e]; exact nextAll_next.mpr (.inr ⟨c.grows, d ▸ rfl⟩)
  case encoded c _ e => rw [e]; exact nextAll_next.mpr (.inl (c.chk.trans (encodeStart_chk i s)))
  case encodeFailed c _ e => rw [e]; exact nextAll_next.mpr (.inl (c.chk.trans (encodeStart_chk i s)))
  all_goals
    rename_i e
    rw [e]
    exact nextAll_next.mpr (.inl rfl)

/-- Settles O57, from what each instruction does to the checker. -/
theorem stickyChecker : Obligations.StickyChecker := by
  intro i s t hi e
  obtain ⟨hg, ho⟩ := exec_chk hi e
  obtain ⟨hf, hm⟩ := hg.flagsKept
  refine ⟨hf, hm, ?_⟩
  rintro (⟨p, rfl⟩ | rfl | rfl | rfl) <;> exact ho rfl

end Sys2Proof.Machine

namespace Sys2Proof.Machine

/-! ### Where an instruction stops (10_state R38) -/

section Stops

variable {s : State} {k : Host.Outcome State Fault Refusal} {g : Bool} {r : Fault} {α : Type}

@[simp] theorem settle_eq_fault (b : Ran α) (res : α → Results) (bad : FatalCode → Results) :
    settle b res bad = .fault r ↔ False := by
  cases b <;> simp

@[simp] theorem ifInput_eq_fault : ifInput s g k = .fault r ↔ g = true ∧ k = .fault r := by
  cases g <;> simp

@[simp] theorem ifCtApplies_eq_fault :
    ifCtApplies s k = .fault r ↔ ctApplies s.desc.toDescIn 0 = true ∧ k = .fault r := by
  unfold ifCtApplies
  split <;> simp [*]

@[simp] theorem ifDefined_eq_fault :
    ifDefined g k = .fault .undefinedRegister ↔ g = false ∨ k = .fault .undefinedRegister := by
  cases g <;> simp

/-- In a ready state the gate lets the operation through. -/
theorem Ready.gate (h : Ready s) : ifReady s k = k := ifReady_ready h.1 h.2

theorem rowsDefined_eq_false (x : Codec) (cs : List (Fin 4)) :
    rowsDefined x cs = false ↔ ∃ c ∈ cs, x.blkOk[c] = false := by
  simp [rowsDefined]

theorem mem_ctComps_iff (c : Fin 4) : c ∈ ctComps ↔ c.val < 3 := by
  revert c
  decide

theorem fieldsDefined_eq_false (d : Desc) (h : Hdr) :
    fieldsDefined d h = false ↔ h.ptrOk = false ∨ ∃ k < d.nsubblocks, h.codeOk.getD k false = false := by
  simp [fieldsDefined, Bool.and_eq_false_iff, -Bool.and_eq_false_imp]

theorem earlierDefined_eq_false (h : Hdr) (slot : Nat) :
    earlierDefined h slot = false ↔ h.ptrOk = false ∨ ∃ k < slot, h.codeOk.getD k false = false := by
  simp [earlierDefined, Bool.and_eq_false_iff, -Bool.and_eq_false_imp]

/-- With the node operand in range, node 4 is `ARG2 = 4`. -/
theorem argNode_eq_four (h : s.port.arg2 < 5) : argNode s = 4 ↔ s.port.arg2 = 4 := by
  simp [argNode, Fin.ext_iff, Nat.mod_eq_of_lt h]

theorem nodeDefined_eq_false (h : s.port.arg2 < 5) :
    nodeDefined s = false ↔ (s.codec.bcOk[argComp s])[0] = false ∨ (s.codec.bcOk[argComp s])[argNode s] = false ∨
      (s.port.arg2 = 4 ∧ s.codec.mtOk[argComp s] = false) := by
  simp [nodeDefined, rootCountOk, argNode_eq_four h, or_assoc, Bool.and_eq_false_iff, -Bool.and_eq_false_imp]

/-! One lemma per group of instructions: where it stops, once the state is ready. -/

theorem encodeBlock_stops (h : Ready s) (p : Fin 2) :
    exec (.encodeBlock p) s = .fault .undefinedRegister ↔
      p.val < s.desc.nplanes ∧ ∃ c ∈ comps s.desc.toDescIn p, s.codec.blkOk[c] = false := by
  show execEncodeBlock p s = _ ↔ _
  simp only [execEncodeBlock, h.gate, ifInput_eq_fault, ifDefined_eq_fault, settle_eq_fault, and_false, or_false,
    decide_eq_true_eq, rowsDefined_eq_false]

theorem ctForward_stops (h : Ready s) : exec .ctForward s = .fault .undefinedRegister ↔
    ctApplies s.desc.toDescIn 0 = true ∧ ∃ c : Fin 4, c.val < 3 ∧ s.codec.blkOk[c] = false := by
  show execCtForward s = _ ↔ _
  simp only [execCtForward, h.gate, ifCtApplies_eq_fault, ifInput_eq_fault, ifDefined_eq_fault, reduceCtorEq,
    and_false, or_false, rowsDefined_eq_false, mem_ctComps_iff]

theorem ctInverse_stops (h : Ready s) : exec .ctInverse s = .fault .undefinedRegister ↔
    ctApplies s.desc.toDescIn 0 = true ∧ ∃ c : Fin 4, c.val < 3 ∧ s.codec.blkOk[c] = false := by
  show execCtInverse s = _ ↔ _
  simp only [execCtInverse, h.gate, ifCtApplies_eq_fault, ifInput_eq_fault, ifDefined_eq_fault, settle_eq_fault,
    and_false, or_false, rowsDefined_eq_false, mem_ctComps_iff]

theorem writeHeader_stops (h : Ready s) : exec .writeHeader s = .fault .undefinedRegister ↔
    headerAddr s.port.arg0 + 16 ≤ bufSize s ∧
      (s.hdr.ptrOk = false ∨ ∃ k < s.desc.nsubblocks, s.hdr.codeOk.getD k false = false) := by
  show execWriteHeader s = _ ↔ _
  simp only [execWriteHeader, h.gate, ifDefined_eq_fault, settle_eq_fault, or_false, Bool.or_eq_false_iff,
    Bool.not_eq_false', headerFits, decide_eq_true_eq, fieldsDefined_eq_false]

theorem sizeElement_stops (h : Ready s) (m : Subsampling) (n : Nat) :
    sizeElement m n s = .fault .undefinedRegister ↔ m = s.desc.subsampling ∧ s.port.arg1 < s.desc.nsubblocks ∧
      (s.hdr.ptrOk = false ∨ ∃ k < s.port.arg1, s.hdr.codeOk.getD k false = false) := by
  simp only [sizeElement, h.gate, ifInput_eq_fault, ifDefined_eq_fault, settle_eq_fault, and_false, or_false,
    Bool.and_eq_true, beq_iff_eq, decide_eq_true_eq, earlierDefined_eq_false, and_assoc, eq_comm (b := m)]

theorem streamElement_stops (h : Ready s) (fits defined admits : Bool) (f : DecState → DecState) :
    streamElement s fits defined admits f = .fault .undefinedRegister ↔
      compOk s = true ∧ fits = true ∧ defined = false := by
  simp only [streamElement, h.gate, ifInput_eq_fault, ifDefined_eq_fault, settle_eq_fault, and_false, or_false,
    Bool.and_eq_true, and_assoc]

theorem l4d_stops (h : Ready s) (d : BitVec 2) : exec (.l4d d) s = .fault .undefinedRegister ↔
    compOk s = true ∧ s.port.arg2 < 4 ∧ (s.codec.bcOk[argComp s])[0] = false := by
  show execL4d d s = _ ↔ _
  simp only [execL4d, streamElement_stops h, decide_eq_true_eq, rootCountOk]

theorem root_stops (h : Ready s) (w v : Nat) : exec (.root w v) s = .fault .undefinedRegister ↔
    compOk s = true ∧ w = s.desc.compbits[argComp s] ∧ (s.codec.bcOk[argComp s])[0] = false := by
  show execRoot w v s = _ ↔ _
  simp only [execRoot, streamElement_stops h, beq_iff_eq, rootCountOk]

theorem nodeElement_stops (h : Ready s) (b bits : Nat) : nodeElement b bits s = .fault .undefinedRegister ↔
    compOk s = true ∧ s.port.arg2 < 5 ∧
      ((s.codec.bcOk[argComp s])[0] = false ∨ (s.codec.bcOk[argComp s])[argNode s] = false ∨
        (s.port.arg2 = 4 ∧ s.codec.mtOk[argComp s] = false)) := by
  simp only [nodeElement, streamElement_stops h, decide_eq_true_eq]
  exact and_congr_right fun _ => and_congr_right nodeDefined_eq_false

/-- An instruction that reads no such register does not stop. -/
theorem not_stops_of_mayStop {i : Instr} (hi : mayStop i = false) : exec i s ≠ .fault .undefinedRegister := by
  intro e
  by_cases h : i = .initDescriptor
  · subst h
    revert e
    show execInitDescriptor s ≠ _
    simp only [execInitDescriptor]
    split <;> simp
  · cases exec_cases i s h
    case undefined c _ => rw [hi] at c; cases c
    all_goals
      rename_i e'
      rw [e] at e'
      cases e'

/-- In a ready state an instruction stops exactly where it reads a register without a defined value. -/
theorem exec_stops_iff (h : Ready s) (i : Instr) :
    exec i s = .fault .undefinedRegister ↔ ReadsUndefined i s := by
  cases i
  case encodeBlock p => rw [encodeBlock_stops h]; simp [ReadsUndefined]
  case ctForward => rw [ctForward_stops h]; simp [ReadsUndefined]
  case ctInverse => rw [ctInverse_stops h]; simp [ReadsUndefined]
  case writeHeader => rw [writeHeader_stops h]; simp [ReadsUndefined]
  case sizeCopy m => exact (sizeElement_stops h m _).trans (by simp [ReadsUndefined])
  case sizeUncomp m => exact (sizeElement_stops h m _).trans (by simp [ReadsUndefined])
  case sizeComp m n => exact (sizeElement_stops h m _).trans (by simp [ReadsUndefined])
  case l4d d => rw [l4d_stops h]; simp [ReadsUndefined]
  case root w v => rw [root_stops h]; simp [ReadsUndefined]
  case nodeB0 => exact (nodeElement_stops h 0 _).trans (by simp [ReadsUndefined])
  case nodeB1 d => exact (nodeElement_stops h 1 _).trans (by simp [ReadsUndefined])
  case nodeBN b z q => exact (nodeElement_stops h b _).trans (by simp [ReadsUndefined])
  all_goals exact iff_of_false (not_stops_of_mayStop rfl) (by simp [ReadsUndefined])

/-- An instruction has a next state or stops with `undefinedRegister`, and that in a ready state only. -/
theorem exec_next_or_stops (i : Instr) (s : State) :
    (∃ t, exec i s = .next t) ∨ Ready s ∧ exec i s = .fault .undefinedRegister := by
  by_cases h : i = .initDescriptor
  · subst h
    refine .inl ?_
    show ∃ t, execInitDescriptor s = .next t
    simp only [execInitDescriptor]
    split <;> exact ⟨_, rfl⟩
  · cases exec_cases i s h
    case undefined hr _ e => exact .inr ⟨hr, e⟩
    all_goals exact .inl ⟨_, by assumption⟩

theorem runCommand_next_or_stops (w : Nat) (s : State) :
    (∃ t, runCommand w s = .next t) ∨ runCommand w s = .fault .undefinedRegister := by
  unfold runCommand
  split
  · exact (exec_next_or_stops _ s).imp_right And.right
  · exact .inl ⟨_, rfl⟩

theorem runElement_next_or_stops (f : Form) (s : State) :
    (∃ t, runElement f s = .next t) ∨ runElement f s = .fault .undefinedRegister := by
  unfold runElement
  split
  · exact .inl ⟨_, rfl⟩
  · split
    · exact (exec_next_or_stops _ s).imp_right And.right
    · exact .inl ⟨_, rfl⟩

theorem hostAction_next_or_stops (e : Event) (s : State) :
    (∃ t, hostAction e s = .next t) ∨ hostAction e s = .fault .undefinedRegister ∨
      hostAction e s = .fault .noSuchByte ∧ ∃ a v, e = .writeFb a v ∧ s.fbPhys.toNat ≤ a := by
  cases e
  case writeFb a v =>
    by_cases h : a < s.fbPhys.toNat
    · exact .inl ⟨_, if_pos h⟩
    · exact .inr (.inr ⟨if_neg h, a, v, rfl, Nat.le_of_not_lt h⟩)
  case command w => exact (runCommand_next_or_stops w.toNat s).imp_right .inl
  case element f => exact (runElement_next_or_stops f s).imp_right .inl
  all_goals exact .inl ⟨_, rfl⟩

end Stops

/-- Settles O59: an instruction stops at an undefined register only, in exactly the cases of `ReadsUndefined`. -/
theorem stopsOnlyAtUndefinedRegisters : Obligations.StopsOnlyAtUndefinedRegisters := by
  refine ⟨fun i s => ⟨fun h => (exec_stops_iff h.1 i).mpr h.2, fun h => ?_⟩, fun s => ?_⟩
  · exact (exec_next_or_stops i s).resolve_right fun ⟨hr, e⟩ => h ⟨hr, (exec_stops_iff hr i).mp e⟩
  · cases hin : s.inbox with
    | nil => exact .inl ⟨s, by rw [step, stepState, hin]⟩
    | cons e rest =>
      have hs : step s = hostAction e { s with inbox := rest } := by rw [step, stepState, hin]
      rw [hs]
      rcases hostAction_next_or_stops e { s with inbox := rest } with h | h | ⟨h, a, v, rfl, ha⟩
      · exact .inl h
      · exact .inr (.inl h)
      · exact .inr (.inr ⟨h, a, v, rest, rfl, ha⟩)

end Sys2Proof.Machine

namespace Sys2Proof.Machine

/-! ### What an accepted descriptor guarantees (46_descriptor R298) -/

section Geometry

variable {d : Desc}

theorem le_roundUp (a : Nat) {b : Nat} (hb : 0 < b) : a ≤ roundUp a b := by
  unfold roundUp ceilDiv
  have h := Nat.div_add_mod (a + b - 1) b
  have hm := Nat.mod_lt (a + b - 1) hb
  rw [Nat.mul_comm] at h
  omega

theorem roundUp_mod (a b : Nat) : roundUp a b % b = 0 := Nat.mul_mod_left _ _

theorem swizzle_lt (x y : Nat) : swizzle x y < 64 := by
  unfold swizzle
  omega

/-- A cell number in a grid of `w` columns and `h` rows. -/
theorem cell_lt {x y w h : Nat} (hx : x < w) (hy : y < h) : y * w + x < w * h :=
  calc y * w + x < (y + 1) * w := by rw [Nat.succ_mul]; omega
    _ ≤ h * w := Nat.mul_le_mul_right w hy
    _ = w * h := Nat.mul_comm h w

theorem DescFacts.mbwAl_eq (f : DescFacts d) : d.mbwAl = roundUp d.mbw (if d.tiled then 8 else 1) := by
  rw [f.derived]
  rfl

theorem DescFacts.mbhAl_eq (f : DescFacts d) : d.mbhAl = roundUp d.mbh (if d.tiled then 8 else 1) := by
  rw [f.derived]
  rfl

theorem DescFacts.bodyBase_eq (f : DescFacts d) :
    d.bodyBase = if d.tiled then roundUp d.hdrArea 4096 else d.hdrArea := by
  rw [f.derived]
  rfl

theorem DescFacts.mbw_le (f : DescFacts d) : d.mbw ≤ d.mbwAl := by
  rw [f.mbwAl_eq]
  exact le_roundUp _ (by split <;> decide)

theorem DescFacts.mbh_le (f : DescFacts d) : d.mbh ≤ d.mbhAl := by
  rw [f.mbhAl_eq]
  exact le_roundUp _ (by split <;> decide)

theorem DescFacts.tiled_al (f : DescFacts d) (t : d.tiled = true) : d.mbwAl % 8 = 0 ∧ d.mbhAl % 8 = 0 := by
  rw [f.mbwAl_eq, f.mbhAl_eq, if_pos t]
  exact ⟨roundUp_mod _ 8, roundUp_mod _ 8⟩

theorem DescFacts.hdrArea_le_bodyBase (f : DescFacts d) : d.hdrArea ≤ d.bodyBase := by
  rw [f.bodyBase_eq]
  split
  · exact le_roundUp _ (by decide)
  · exact le_rfl

theorem DescFacts.bodyBase_mod (f : DescFacts d) (t : d.tiled = true) : d.bodyBase % 4096 = 0 := by
  rw [f.bodyBase_eq, if_pos t]
  exact roundUp_mod _ _

/-- The number of a superblock of the grid is one of the aligned grid's (44_header_address R255, R256). -/
theorem DescFacts.mbnumOf_lt (f : DescFacts d) {x y : Nat} (hx : x < d.mbw) (hy : y < d.mbh) :
    mbnumOf d x y < d.mbwAl * d.mbhAl := by
  have hw := f.mbw_le
  have hh := f.mbh_le
  unfold mbnumOf
  split
  · next t =>
    obtain ⟨ew, eh⟩ := f.tiled_al t
    obtain ⟨w, ew⟩ := Nat.dvd_of_mod_eq_zero ew
    obtain ⟨h, eh⟩ := Nat.dvd_of_mod_eq_zero eh
    have hs := swizzle_lt (x % 8) (y % 8)
    have hc : y / 8 * w + x / 8 < w * h := cell_lt (by omega) (by omega)
    have e : d.mbwAl * d.mbhAl = w * h * 64 := by rw [ew, eh]; ring
    rw [e, ew, Nat.mul_div_cancel_left w (by decide)]
    omega
  · exact (cell_lt hx hy).trans_le (Nat.mul_le_mul hw hh)

theorem DescFacts.header_in_area (f : DescFacts d) {x y : Nat} (hx : x < d.mbw) (hy : y < d.mbh) :
    headerAddr (mbnumOf d x y) + 16 ≤ d.hdrArea := by
  have h := f.mbnumOf_lt hx hy
  rw [f.hdrArea_eq, headerAddr]
  omega

/-- Coded depths are the input depths, or one more (10_state R26). -/
theorem DescFacts.compbits_le_succ (f : DescFacts d) (c : Fin 4) : d.compbits[c] ≤ inBits d.toDescIn c + 1 := by
  rw [f.compbits_eq, compBitsOf]
  split <;> omega

theorem DescFacts.held_of_inBits (f : DescFacts d) {c : Fin 4} (h : inBits d.toDescIn c ≠ 0) : held d c = true := by
  by_contra hn
  exact h (f.absent c (by simpa using hn))

/-! The stripe bins (44_header_address R266): the rows of the stripes, cut off at the frame's end, are all its rows. -/

theorem rowsInStripe_eq (d : Desc) (t : Nat) :
    rowsInStripe d t = min d.mbh ((t + 1) * stripeRows d) - min d.mbh (t * stripeRows d) := by
  unfold rowsInStripe
  rw [Nat.succ_mul]
  omega

theorem sum_rowsInStripe (d : Desc) (n : Nat) :
    ((List.range n).map fun t => rowsInStripe d t).sum = min d.mbh (n * stripeRows d) := by
  induction n with
  | zero => simp
  | succ n ih =>
    rw [List.range_succ, List.map_append, List.sum_append, ih, List.map_singleton, List.sum_singleton, rowsInStripe_eq,
      Nat.succ_mul]
    omega

/-- A stripe holds at least one row of superblocks. -/
theorem DescFacts.stripeRows_pos (f : DescFacts d) (h : d.stripeHeight ≠ 0) : 0 < stripeRows d := by
  have hm := f.stripes
  unfold stripeRows
  rcases f.region with ⟨-, e⟩ | ⟨-, e⟩ <;> rw [e] at hm ⊢ <;> omega

theorem DescFacts.sum_bins (f : DescFacts d) (h : d.stripeHeight ≠ 0) :
    ((initialBins d).map StripeBin.remaining).sum = d.mbw * d.mbh := by
  have hr : d.mbh ≤ ceilDiv d.mbh (stripeRows d) * stripeRows d := le_roundUp _ (f.stripeRows_pos h)
  calc ((initialBins d).map StripeBin.remaining).sum
      = ((List.range (ceilDiv d.mbh (stripeRows d))).map fun t => rowsInStripe d t * d.mbw).sum := by
        rw [initialBins, if_neg h, List.map_map]
        rfl
    _ = d.mbh * d.mbw := by rw [List.sum_map_mul_right, sum_rowsInStripe, Nat.min_eq_left hr]
    _ = d.mbw * d.mbh := Nat.mul_comm _ _

end Geometry

/-- Settles O15, from the facts of an accepted descriptor. -/
theorem validDescriptorGeometry : Obligations.ValidDescriptorGeometry := by
  intro l i h d
  have f : DescFacts d := descFacts l i h
  refine ⟨?_, f.fields, fun c => ⟨f.inBits_le c, f.compbits_le_succ c, f.compbits_le c, fun hc => ?_⟩,
    f.hdrArea_le_bodyBase, fun t => ⟨f.bodyBase_mod t, f.tiled_al t⟩, fun x y hx hy => ⟨f.header_in_area hx hy, ?_⟩,
    fun p hp => ?_, f.sum_bins⟩
  · rw [f.count]
    cases d.subsampling <;> decide
  · exact f.defaultcolor_lt (f.held_of_inBits hc)
  · obtain ⟨-, -, -, -, -, hs⟩ := f.sizes
    exact hs
  · have e := f.uncomp_eq p
    obtain ⟨h1, h60⟩ := f.planeBits hp
    exact ⟨by omega, by omega, e⟩

end Sys2Proof.Machine

namespace Sys2Proof.Machine

/-! ### The ranges of the trees (10_state R33, R34): updates of the registers -/

/-- The range of the count of node `k`: the root's sentinels included, a quadrant's four bits. -/
def CountOk (k : Fin 5) (v : Int) : Prop := if k = 0 then -2 ≤ v ∧ v ≤ 29 else 0 ≤ v ∧ v ≤ 15

@[simp] theorem countOk_succ (j : Fin 4) (v : Int) : CountOk j.succ v ↔ 0 ≤ v ∧ v ≤ 15 := by
  simp [CountOk, Fin.succ_ne_zero]

theorem CountOk.le {k : Fin 5} {v : Int} (h : CountOk k v) : v ≤ 29 := by
  unfold CountOk at h
  split at h <;> omega

/-- The trees of one component hold values of their ranges, where they have a defined value. -/
structure CompInv (x : Codec) (c : Fin 4) : Prop where
  counts : ∀ k : Fin 5, (x.bcOk[c])[k] = true → CountOk k (x.bctree[c])[k]
  mins : x.mtOk[c] = true → ∀ k : Fin 21, (x.mintree[c])[k] < 2 ^ 29

theorem treeInv_iff (x : Codec) : TreeInv x ↔ ∀ c, CompInv x c := by
  constructor
  · rintro ⟨hr, hq, hm⟩ c
    refine ⟨fun k => ?_, hm c⟩
    cases k using Fin.cases with
    | zero => exact hr c
    | succ j => simpa using hq c j
  · intro h
    exact ⟨fun c => (h c).counts 0, fun c j hj => by simpa using (h c).counts j.succ hj, fun c => (h c).mins⟩

/-- `y` is `x` but for the rows of `BLK`. -/
structure SameTrees (x y : Codec) : Prop where
  mintree : y.mintree = x.mintree
  bctree : y.bctree = x.bctree
  mtOk : y.mtOk = x.mtOk
  bcOk : y.bcOk = x.bcOk

theorem SameTrees.treeInv {x y : Codec} (h : SameTrees x y) (hx : TreeInv x) : TreeInv y := by
  obtain ⟨hr, hq, hm⟩ := hx
  refine ⟨?_, ?_, ?_⟩
  · rwa [h.bctree, h.bcOk]
  · rwa [h.bctree, h.bcOk]
  · rwa [h.mintree, h.mtOk]

section Updates

variable {x : Codec}

/-- Writing the trees of one component. -/
theorem TreeInv.setComp (h : TreeInv x) (c : Fin 4) {mt : Vector Nat 21} {bc : Vector Int 5} {mo : Bool}
    {bo : Vector Bool 5} (hb : ∀ k : Fin 5, bo[k] = true → CountOk k bc[k])
    (hm : mo = true → ∀ k : Fin 21, mt[k] < 2 ^ 29) :
    TreeInv { x with mintree := x.mintree.set c mt, bctree := x.bctree.set c bc, mtOk := x.mtOk.set c mo,
                     bcOk := x.bcOk.set c bo } := by
  rw [treeInv_iff] at h ⊢
  intro e
  by_cases hc : c = e
  · subst hc
    exact ⟨by simpa using hb, by simpa using hm⟩
  · have hv : c.val ≠ e.val := fun z => hc (Fin.ext z)
    exact ⟨by simpa [Vector.getElem_set, hv] using (h e).counts, by simpa [Vector.getElem_set, hv] using (h e).mins⟩

theorem getD_lt {l : List Nat} {b : Nat} (hb : 0 < b) (h : ∀ v ∈ l, v < b) (k : Nat) : l.getD k 0 < b := by
  rw [List.getD_eq_getElem?_getD]
  cases e : l[k]? with
  | none => exact hb
  | some v => exact h v (List.mem_of_getElem? e)

theorem TreeInv.setCounts (h : TreeInv x) (c : Fin 4) {bc : Vector Int 5} {bo : Vector Bool 5}
    (hb : ∀ k : Fin 5, bo[k] = true → CountOk k bc[k]) :
    TreeInv { x with bctree := x.bctree.set c bc, bcOk := x.bcOk.set c bo } := by
  have := h.setComp c hb ((treeInv_iff x).mp h c).mins
  simpa only [Fin.getElem_fin, Vector.set_getElem_self] using this

theorem TreeInv.setMins (h : TreeInv x) (c : Fin 4) {mt : Vector Nat 21} {mo : Bool}
    (hm : mo = true → ∀ k : Fin 21, mt[k] < 2 ^ 29) :
    TreeInv { x with mintree := x.mintree.set c mt, mtOk := x.mtOk.set c mo } := by
  have := h.setComp c ((treeInv_iff x).mp h c).counts hm
  simpa only [Fin.getElem_fin, Vector.set_getElem_self] using this

theorem TreeInv.setCount (h : TreeInv x) (c : Fin 4) {k : Fin 5} {v : Int} (hv : CountOk k v) :
    TreeInv (x.setCount c k v) := by
  refine h.setCounts c fun j hj => ?_
  by_cases e : k = j
  · subst e
    simpa using hv
  · have e' : k.val ≠ j.val := fun z => e (Fin.ext z)
    simp only [Fin.getElem_fin, Vector.getElem_set, e', if_false] at hj ⊢
    exact ((treeInv_iff x).mp h c).counts j hj

theorem TreeInv.setRootCount (h : TreeInv x) (c : Fin 4) {v : Int} (hv : -2 ≤ v ∧ v ≤ 29) :
    TreeInv (x.setRootCount c v) := by
  unfold Codec.setRootCount
  split
  · refine h.setCounts c fun k _ => ?_
    cases k using Fin.cases with
    | zero => exact hv
    | succ j => fin_cases j <;> exact (countOk_succ _ _).mpr (by simp)
  · exact h.setCount c hv

theorem TreeInv.setRoot (h : TreeInv x) (c : Fin 4) {v : Nat} (hv : v < 2 ^ 29) : TreeInv (x.setRoot c v) := by
  refine h.setMins c fun _ k => ?_
  simp only [Fin.getElem_fin, Vector.getElem_ofFn]
  split
  · exact hv
  · decide

theorem TreeInv.setChildren (h : TreeInv x) (c : Fin 4) (k : Nat) {l : List Nat} (hl : ∀ v ∈ l, v < 2 ^ 29) :
    TreeInv (x.setChildren c k l) := by
  have hm := h.setMins c (mo := x.mtOk[c]) (mt := Vector.ofFn fun j : Fin 21 =>
    if 4 * k + 1 ≤ j.val ∧ j.val ≤ 4 * k + 4 then l.getD (j.val - (4 * k + 1)) 0 else (x.mintree[c])[j]) ?_
  · simpa only [Codec.setChildren, Fin.getElem_fin, Vector.set_getElem_self] using hm
  · intro ho j
    simp only [Fin.getElem_fin, Vector.getElem_ofFn]
    split
    · exact getD_lt (by decide) hl _
    · exact ((treeInv_iff x).mp h c).mins ho j

/-- A component that is not lost keeps its trees. -/
theorem lose_kept {cs : List (Fin 4)} {t : Bool} {c : Fin 4} (e : (t && cs.contains c) = false) (n : Nat) (b : Bool) :
    (x.lose cs n b t).mintree[c] = x.mintree[c] ∧ (x.lose cs n b t).bctree[c] = x.bctree[c] ∧
    (x.lose cs n b t).mtOk[c] = x.mtOk[c] ∧ (x.lose cs n b t).bcOk[c] = x.bcOk[c] := by
  refine ⟨?_, ?_, ?_, ?_⟩ <;>
    exact (Vector.getElem_ofFn _).trans (if_neg (Bool.eq_false_iff.mp e))

/-- A component that is lost has no defined value. -/
theorem lose_lost {cs : List (Fin 4)} {t : Bool} {c : Fin 4} (e : (t && cs.contains c) = true) (n : Nat) (b : Bool) :
    (x.lose cs n b t).mtOk[c] = false ∧ (x.lose cs n b t).bcOk[c] = Vector.replicate 5 false := by
  constructor <;> exact (Vector.getElem_ofFn _).trans (if_pos e)

theorem TreeInv.lose (h : TreeInv x) (cs : List (Fin 4)) (n : Nat) (b t : Bool) : TreeInv (x.lose cs n b t) := by
  rw [treeInv_iff] at h ⊢
  intro c
  cases e : t && cs.contains c
  · obtain ⟨e1, e2, e3, e4⟩ := lose_kept (x := x) e n b
    exact ⟨by rw [e2, e4]; exact (h c).counts, by rw [e1, e3]; exact (h c).mins⟩
  · obtain ⟨e1, e2⟩ := lose_lost (x := x) e n b
    exact ⟨by simp [e2], by simp [e1]⟩

end Updates


/-! ### The fields of a stream -/

section Fields

variable {d : Desc} {src : Nat → Bool} {lim : Nat}

theorem l3Bits_le {n : Nat} (h : n ≤ 15) : l3Bits n ≤ 5 := by
  interval_cases n <;> decide

theorem l3Value_range {n code : Nat} (hn : n ≤ 15) (h : code < 2 ^ l3Bits n) :
    -2 ≤ l3Value (l3Bits n) code ∧ l3Value (l3Bits n) code ≤ 29 := by
  have hw : 2 ^ l3Bits n ≤ 2 ^ 5 := Nat.pow_le_pow_right (by decide) (l3Bits_le hn)
  unfold l3Value
  split
  · decide
  · split
    · decide
    · omega

theorem bsReadSigned_two_ge (src : Nat → Bool) (lim : Nat) (k : Cursor) : -2 ≤ (bsReadSigned src lim 2 k).1 := by
  have h := bsRead_lt src lim 2 k
  simp only [bsReadSigned, sext]
  split
  · exact (by decide : (-2 : Int) ≤ 0)
  · rw [if_neg (by decide)]
    split <;> omega

theorem clampCount_range {raw : Int} (h : -2 ≤ raw) : 0 ≤ clampCount raw ∧ clampCount raw ≤ 15 := by
  unfold clampCount
  split <;> omega

/-- All entries of a list are below `2^b`. -/
def AllBelow (b : Nat) (l : List Nat) : Prop := ∀ v ∈ l, v < 2 ^ b

theorem allBelow_zeros (b : Nat) : AllBelow b [0, 0, 0, 0] := by
  have := Nat.two_pow_pos b
  simp [AllBelow, this]

theorem readDeltaBit_below {b i : Nat} (hi : i < b) {a : List Nat × Cursor} (h : AllBelow b a.1) (j : Nat) :
    AllBelow b (readDeltaBit src lim i a j).1 := by
  have hr : (bsRead src lim 1 a.2).1 <<< i < 2 ^ b := by
    have h1 := bsRead_lt src lim 1 a.2
    calc (bsRead src lim 1 a.2).1 <<< i ≤ 2 ^ i := by
          rw [Nat.shiftLeft_eq]
          exact mul_le_of_le_one_left (Nat.zero_le _) (by omega)
      _ < 2 ^ b := Nat.pow_lt_pow_right (by decide) hi
  intro v hv
  rcases List.mem_or_eq_of_mem_set hv with hv | rfl
  · exact h v hv
  · exact Nat.or_lt_two_pow (getD_lt (Nat.two_pow_pos b) h j) hr

/-- The deltas of a node of bit-count `b` have `b` bits (41_subblock_decode R157). -/
theorem nodeDecode_below (src : Nat → Bool) (lim b : Nat) (k : Cursor) : AllBelow b (nodeDecode src lim b k).1 := by
  unfold nodeDecode
  split
  · exact allBelow_zeros b
  · split
    · next hb =>
      exact List.foldlRecOn (motive := fun a : List Nat × Cursor => AllBelow b a.1) _ _ (allBelow_zeros b)
        fun a ha j _ => readDeltaBit_below (by omega) ha j
    · refine List.foldlRecOn (motive := fun a : List Nat × Cursor => AllBelow b a.1) _ _ (allBelow_zeros b)
        fun a ha i hi => ?_
      exact List.foldlRecOn (motive := fun a : List Nat × Cursor => AllBelow b a.1) _ _ ha
        fun a ha j _ => readDeltaBit_below (List.mem_range.mp hi) ha j

/-- Default colours are coded values, so they fit an entry. -/
theorem DescFacts.defaultcolor_lt_entry (f : DescFacts d) (c : Fin 4) : d.defaultcolor[c] < 2 ^ 29 := by
  by_cases h : inBits d.toDescIn c = 0
  · rw [f.defaultcolor_eq, defaultColorOf, if_pos h]
    decide
  · exact (f.defaultcolor_lt (f.held_of_inBits h)).trans_le
      (Nat.pow_le_pow_right (by decide) ((f.compbits_le c).trans (by decide)))

end Fields

/-! ### Decoding one component -/

section Component

variable {d : Desc} {src : Nat → Bool} {lim : Nat} {c : Fin 4} {st : DecState}

theorem setRootCount_bcOk_zero (x : Codec) (c : Fin 4) (v : Int) : ((x.setRootCount c v).bcOk[c])[(0 : Fin 5)] = true := by
  unfold Codec.setRootCount
  split <;> simp [Codec.setCount]

theorem TreeInv.readL3 (f : DescFacts d) (h : TreeInv st.codec) : TreeInv (readL3 d src lim c st).codec :=
  h.setRootCount c (l3Value_range (f.compbits_le c) (bsRead_lt _ _ _ _))

theorem TreeInv.readL4D (h : TreeInv st.codec) (h0 : 0 ≤ (st.codec.bctree[c])[0]) (j : Fin 4) :
    TreeInv (readL4D d src lim c j st).codec := by
  have hr := bsReadSigned_two_ge src lim st.cur
  exact h.setCount c ((countOk_succ j _).mpr (clampCount_range (by omega)))

theorem TreeInv.readRoot (f : DescFacts d) (h : TreeInv st.codec) : TreeInv (readRoot d src lim c st).codec :=
  h.setRoot c ((bsRead_lt _ _ _ _).trans_le
    (Nat.pow_le_pow_right (by decide) ((f.compbits_le c).trans (by decide))))

theorem TreeInv.defaultRoot (f : DescFacts d) (h : TreeInv st.codec) : TreeInv (defaultRoot d c st).codec :=
  h.setRoot c (f.defaultcolor_lt_entry c)

theorem TreeInv.readNode (h : TreeInv st.codec) {k : Fin 5} (hk : (st.codec.bcOk[c])[k] = true) :
    TreeInv (readNode src lim c k st).codec := by
  have hc := (((treeInv_iff _).mp h c).counts k hk).le
  have hb : nodeCount st.codec c k ≤ 29 := by
    unfold nodeCount
    omega
  exact h.setChildren c k.val fun v hv =>
    (nodeDecode_below _ _ _ _ v hv).trans_le (Nat.pow_le_pow_right (by decide) hb)

theorem TreeInv.writeLeaves (h : TreeInv st.codec) : TreeInv (writeLeaves d c st).codec :=
  SameTrees.treeInv (x := st.codec) ⟨rfl, rfl, rfl, rfl⟩ h

/-- Reading a quadrant count leaves the root count alone and gives one more count a defined value. -/
theorem readL4D_counts (j : Fin 4) :
    ((readL4D d src lim c j st).codec.bctree[c])[0] = (st.codec.bctree[c])[0] ∧
    ∀ k : Fin 5, ((readL4D d src lim c j st).codec.bcOk[c])[k] = true ↔ k = j.succ ∨ (st.codec.bcOk[c])[k] = true := by
  refine ⟨by simp [Machine.readL4D, Codec.setCount], fun k => ?_⟩
  by_cases e : j.succ = k
  · subst e
    simp [Machine.readL4D, Codec.setCount]
  · have e' : j.val + 1 ≠ k.val := fun z => e (Fin.ext z)
    simp [Machine.readL4D, Codec.setCount, e', Ne.symm e]

/-- After the four quadrant counts every count has a defined value. -/
theorem TreeInv.readCounts (h : TreeInv st.codec) (h0 : 0 ≤ (st.codec.bctree[c])[0])
    (ho : (st.codec.bcOk[c])[(0 : Fin 5)] = true) :
    let s2 := ([0, 1, 2, 3] : List (Fin 4)).foldl (fun a j => Machine.readL4D d src lim c j a) st
    TreeInv s2.codec ∧ ∀ k : Fin 5, (s2.codec.bcOk[c])[k] = true := by
  have key : ∀ (l : List (Fin 4)) (st : DecState), TreeInv st.codec → 0 ≤ (st.codec.bctree[c])[0] →
      let s2 := l.foldl (fun a j => Machine.readL4D d src lim c j a) st
      TreeInv s2.codec ∧ ∀ k : Fin 5, (∃ j ∈ l, k = j.succ) ∨ (st.codec.bcOk[c])[k] = true →
        (s2.codec.bcOk[c])[k] = true := by
    intro l
    induction l with
    | nil => exact fun st h _ => ⟨h, fun k hk => by simpa using hk⟩
    | cons j l ih =>
      intro st h h0
      obtain ⟨e0, eo⟩ := readL4D_counts (d := d) (src := src) (lim := lim) (c := c) (st := st) j
      obtain ⟨i1, i2⟩ := ih _ (h.readL4D h0 j) (e0 ▸ h0)
      refine ⟨i1, fun k hk => i2 k ?_⟩
      rw [eo]
      rcases hk with ⟨j', hj, rfl⟩ | hk
      · rcases List.mem_cons.mp hj with rfl | hj
        · exact .inr (.inl rfl)
        · exact .inl ⟨j', hj, rfl⟩
      · exact .inr (.inr hk)
  obtain ⟨i1, i2⟩ := key [0, 1, 2, 3] st h h0
  refine ⟨i1, fun k => i2 k ?_⟩
  cases k using Fin.cases with
  | zero => exact .inr ho
  | succ j => exact .inl ⟨j, by fin_cases j <;> decide, rfl⟩

/-- Decoding a component keeps the ranges (41_subblock_decode R152 to R159). -/
theorem TreeInv.decodeComponent (f : DescFacts d) (h : TreeInv st.codec) (c : Fin 4) :
    TreeInv (decodeComponent d src lim st c).codec := by
  have h1 := h.readL3 (src := src) (lim := lim) (c := c) f
  have o1 : ((Machine.readL3 d src lim c st).codec.bcOk[c])[(0 : Fin 5)] = true := setRootCount_bcOk_zero _ _ _
  simp only [Machine.decodeComponent]
  split
  · exact (h1.defaultRoot f).writeLeaves
  · split
    · exact (h1.readRoot f).writeLeaves
    · next hn =>
      obtain ⟨h2, o2⟩ := h1.readCounts (d := d) (src := src) (lim := lim) (Int.not_lt.mp hn) o1
      refine (List.foldlRecOn (motive := fun a : DecState => TreeInv a.codec ∧ ∀ k : Fin 5, (a.codec.bcOk[c])[k] = true)
        _ _ ⟨h2.readRoot f, o2⟩ fun a ha k _ => ?_).1.writeLeaves
      exact ⟨ha.1.readNode (ha.2 k), ha.2⟩

/-- Decoding a subblock's stream keeps the ranges. -/
theorem TreeInv.decodeStream (f : DescFacts d) {x : Codec} (h : TreeInv x) (p : Fin 2) (unc : Bool) :
    TreeInv (decodeStream d src lim p unc x).codec := by
  cases unc
  · exact List.foldlRecOn (motive := fun a : DecState => TreeInv a.codec) _ _ h
      fun a ha c _ => ha.decodeComponent f c
  · exact List.foldlRecOn (motive := fun a : DecState => TreeInv a.codec) _ _ h fun a ha i _ =>
      List.foldlRecOn (motive := fun a : DecState => TreeInv a.codec) _ _ ha
        fun a ha c _ => SameTrees.treeInv (x := a.codec) ⟨rfl, rfl, rfl, rfl⟩ ha

end Component

end Sys2Proof.Machine

namespace Sys2Proof.Machine

/-! ### The trees that the encoder builds (42_subblock_encode R183 to R189) -/

/-- A tree an encoder may store: counts in four bits, or a sentinel at the root, and entries of at most 29 bits. -/
structure TreeOk (t : Tree) : Prop where
  root : -2 ≤ t.bc[0] ∧ t.bc[0] ≤ 15
  quads : ∀ j : Fin 4, 0 ≤ t.bc[j.succ] ∧ t.bc[j.succ] ≤ 15
  mins : ∀ k : Fin 21, t.mt[k] < 2 ^ 29

theorem TreeOk.counts {t : Tree} (h : TreeOk t) (k : Fin 5) : CountOk k t.bc[k] := by
  cases k using Fin.cases with
  | zero => exact ⟨h.root.1, h.root.2.trans (by decide)⟩
  | succ j => exact (countOk_succ j _).mpr (h.quads j)

theorem treeOk_of_counts {mt : Vector Nat 21} {r a b c d : Int} (hr : -2 ≤ r ∧ r ≤ 15) (ha : 0 ≤ a ∧ a ≤ 15)
    (hb : 0 ≤ b ∧ b ≤ 15) (hc : 0 ≤ c ∧ c ≤ 15) (hd : 0 ≤ d ∧ d ≤ 15) (hm : ∀ k : Fin 21, mt[k] < 2 ^ 29) :
    TreeOk ⟨mt, #v[r, a, b, c, d]⟩ := by
  refine ⟨hr, fun j => ?_, hm⟩
  fin_cases j
  · exact ha
  · exact hb
  · exact hc
  · exact hd

/-- Storing such trees keeps the ranges. -/
theorem TreeInv.setTrees {x : Codec} (h : TreeInv x) {ts : List (Fin 4 × Tree)} (ht : ∀ ct ∈ ts, TreeOk ct.2) :
    TreeInv (x.setTrees ts) := by
  induction ts generalizing x with
  | nil => exact h
  | cons ct ts ih =>
    have hc := ht ct (by simp)
    exact ih (h.setComp ct.1 (fun k _ => hc.counts k) fun _ => hc.mins) fun z hz => ht z (by simp [hz])

section Build

variable {n : Nat} {ch : List Nat}

theorem maxOf_le {l : List Nat} {b : Nat} (h : ∀ v ∈ l, v ≤ b) : maxOf l ≤ b :=
  List.foldlRecOn (motive := (· ≤ b)) _ _ (Nat.zero_le b) fun _ ha v hv => max_le ha (h v hv)

theorem le_minOf {l : List Nat} {b : Nat} (hl : l ≠ []) (h : ∀ v ∈ l, b ≤ v) : b ≤ minOf l := by
  refine List.foldlRecOn (motive := (b ≤ ·)) _ _ ?_ fun _ ha v hv => le_min ha (h v hv)
  cases l with
  | nil => exact absurd rfl hl
  | cons a l => exact h a (by simp)

theorem bitlen_le {x k : Nat} (h : x < 2 ^ k) : bitlen x ≤ k := by
  unfold bitlen
  split
  · exact Nat.zero_le k
  · next h0 => exact (Nat.log2_lt h0).mpr h

/-- Two disjoint filters that together have as many elements as the list leave none out. -/
theorem mem_filter_or {α : Type} {p q : α → Bool} {l : List α} (hd : ∀ a, q a = true → p a = false)
    (h : (l.filter p).length + (l.filter q).length = l.length) {a : α} (ha : a ∈ l) : p a = true ∨ q a = true := by
  by_cases hp : p a = true
  · exact .inl hp
  · have e := List.length_eq_length_filter_add p (l := l)
    have hq : (l.filter fun a => !p a).filter q = l.filter q := by
      rw [List.filter_filter]
      refine List.filter_congr fun b _ => ?_
      cases hb : q b
      · rfl
      · simp [hd b hb]
    have hall := List.length_filter_eq_length_iff.mp (by rw [hq]; omega : ((l.filter fun a => !p a).filter q).length =
      (l.filter fun a => !p a).length)
    exact .inr (hall a (List.mem_filter.mpr ⟨ha, by simpa using hp⟩))

/-- The wrap heuristic brings four values closer: their spread stays below `2^n` (R184). -/
theorem wrapAdjust_spread (e : Bool) (hl : ch.length = 4) (h : AllBelow n ch) :
    maxOf (wrapAdjust e ch n) - minOf (wrapAdjust e ch n) < 2 ^ n := by
  have hn := Nat.two_pow_pos n
  have plain : maxOf ch - minOf ch < 2 ^ n := by
    have := maxOf_le (b := 2 ^ n - 1) fun v hv => Nat.le_sub_one_of_lt (h v hv)
    omega
  unfold wrapAdjust
  split
  · exact plain
  · next hc =>
    dsimp only
    split
    · next hf =>
      obtain ⟨f1, f2⟩ := hf
      have h2 : 2 ≤ n := by
        by_contra hlt
        simp [Nat.lt_of_not_le hlt] at hc
      have e2 : 2 ^ n = 4 * 2 ^ (n - 2) := by
        rw [show n = n - 2 + 2 by omega, pow_add, Nat.add_sub_cancel]
        ring
      have key : ∀ v ∈ ch, v < 2 ^ (n - 2) ∨ 3 * 2 ^ (n - 2) ≤ v := fun v hv => by
        have := mem_filter_or (p := fun v => decide (v < 2 ^ (n - 2))) (q := fun v => decide (3 * 2 ^ (n - 2) ≤ v))
          (fun a ha => by simp at ha ⊢; omega) (by rw [f1, f2, hl]) hv
        simpa using this
      have hw : ∀ v ∈ ch.map fun v => if decide (v < 2 ^ (n - 2)) then v + 2 ^ n else v,
          3 * 2 ^ (n - 2) ≤ v ∧ v ≤ 5 * 2 ^ (n - 2) := by
        intro v hv
        obtain ⟨u, hu, rfl⟩ := List.mem_map.mp hv
        have hb := h u hu
        have hk := key u hu
        simp only [decide_eq_true_eq]
        split <;> omega
      have hmax := maxOf_le fun v hv => (hw v hv).2
      have hmin := le_minOf (b := 3 * 2 ^ (n - 2)) (by rw [Ne, List.map_eq_nil_iff]; rintro rfl; cases hl)
        fun v hv => (hw v hv).1
      omega
    · exact plain

theorem buildNode_deltas (e : Bool) (ch : List Nat) (n : Nat) : AllBelow n (buildNode e ch n).1 := by
  intro v hv
  obtain ⟨u, -, rfl⟩ := List.mem_map.mp hv
  exact Nat.mod_lt _ (Nat.two_pow_pos n)

theorem buildNode_count (e : Bool) (hl : ch.length = 4) (h : AllBelow n ch) : (buildNode e ch n).2.1 ≤ n :=
  bitlen_le (wrapAdjust_spread e hl h)

theorem buildNode_min (e : Bool) (ch : List Nat) (n : Nat) : (buildNode e ch n).2.2 < 2 ^ n :=
  Nat.mod_lt _ (Nat.two_pow_pos n)

/-- A tree built from values of at most fifteen bits (R183). -/
theorem buildTree_ok (e : Bool) {v : Vector Nat 16} (hn : n ≤ 15) (h : ∀ k, v.getD k 0 < 2 ^ n) :
    TreeOk (buildTree e v n) := by
  have hpow : 2 ^ n ≤ 2 ^ 29 := Nat.pow_le_pow_right (by decide) (by omega)
  have hq : ∀ i, AllBelow n (quadChildren v i) := by
    intro i u hu
    obtain ⟨l, -, rfl⟩ := List.mem_map.mp hu
    exact h _
  have cq : ∀ i, (buildNode e (quadChildren v i) n).2.1 ≤ n := fun i => buildNode_count e rfl (hq i)
  have hr : AllBelow n ([0, 1, 2, 3].map fun i => (buildNode e (quadChildren v i) n).2.2) := by
    intro u hu
    obtain ⟨l, -, rfl⟩ := List.mem_map.mp hu
    exact buildNode_min e _ n
  have cr := buildNode_count e rfl hr
  have range : ∀ b ≤ n, (0 : Int) ≤ b ∧ (b : Int) ≤ 15 := fun b hb => by omega
  have root : ∀ b ≤ n, (-2 : Int) ≤ b ∧ (b : Int) ≤ 15 := fun b hb => by omega
  refine treeOk_of_counts (root _ cr) (range _ (cq 0)) (range _ (cq 1)) (range _ (cq 2)) (range _ (cq 3)) fun k => ?_
  simp only [Fin.getElem_fin, Vector.getElem_ofFn]
  refine Nat.lt_of_lt_of_le ?_ hpow
  split
  · exact buildNode_min e _ n
  · split <;> exact getD_lt (Nat.two_pow_pos n) (buildNode_deltas e _ n) _

theorem crop_ok {t : Tree} (h : TreeOk t) : TreeOk (crop t) := by
  unfold crop
  split
  · exact treeOk_of_counts (by decide) (by decide) (by decide) (by decide) (by decide) h.mins
  · exact h

/-- Raising counts to within two of their root, which is raised to within one of them, keeps four bits (R186). -/
theorem constrain_ok {t : Tree} (h : TreeOk t) : TreeOk (constrain t) := by
  unfold constrain
  split
  · exact h
  · have h0 : -2 ≤ t.bc[0] ∧ t.bc[0] ≤ 15 := h.root
    have h1 : 0 ≤ t.bc[1] ∧ t.bc[1] ≤ 15 := h.quads 0
    have h2 : 0 ≤ t.bc[2] ∧ t.bc[2] ≤ 15 := h.quads 1
    have h3 : 0 ≤ t.bc[3] ∧ t.bc[3] ≤ 15 := h.quads 2
    have h4 : 0 ≤ t.bc[4] ∧ t.bc[4] ≤ 15 := h.quads 3
    dsimp only
    refine treeOk_of_counts ?_ ?_ ?_ ?_ ?_ h.mins <;> omega

theorem markDefault_ok {t : Tree} (h : TreeOk t) (v : Nat) : TreeOk (markDefault v t) := by
  unfold markDefault
  split
  · refine ⟨by simp, fun j => ?_, h.mins⟩
    simpa [Vector.getElem_set] using h.quads j
  · exact h

end Build

/-! ### The block in the coded domain -/

section Encode

variable {d : Desc} {p : Fin 2} {blk : Vector (Vector Sample 16) 4}

/-- The samples of the plane's components are below their input depth. -/
def BlockBelow (d : DescIn) (p : Fin 2) (blk : Vector (Vector Sample 16) 4) : Prop :=
  ∀ c ∈ comps d p, ∀ i : Fin 16, (blk[c][i]).toNat < 2 ^ inBits d c

/-- Where the transform applies to a plane, the plane is plane 0 and holds components 0 to 2 (45_color_transform R280). -/
theorem DescFacts.transformed (f : DescFacts d) (h : ctApplies d.toDescIn p = true) :
    ctApplies d.toDescIn 0 = true ∧ ∀ c : Fin 4, c.val < 3 → c ∈ comps d.toDescIn p := by
  simp only [ctApplies, Bool.and_eq_true, beq_iff_eq, decide_eq_true_eq] at h ⊢
  obtain ⟨⟨hy, rfl⟩, hn⟩ := h
  refine ⟨⟨⟨hy, trivial⟩, hn⟩, fun c hc => ?_⟩
  simp only [comps, List.mem_filter, decide_eq_true_eq]
  refine ⟨mem_allComps c, ?_⟩
  have h0 : (d.firstComp[(0 : Fin 2)]).toNat = 0 := congrArg BitVec.toNat f.firstComp
  have hn' : 3 ≤ (d.ncomp[(0 : Fin 2)]).toNat := hn
  omega

theorem compBitsOf_luma (i : DescIn) : compBitsOf i 0 = inBits i 0 := by
  simp [compBitsOf, isTransformedChroma]

theorem compBitsOf_chroma {i : DescIn} (h : ctApplies i 0 = true) {c : Fin 4} (hc : c = 1 ∨ c = 2) :
    compBitsOf i c = inBits i c + 1 := by
  rcases hc with rfl | rfl <;> simp [compBitsOf, isTransformedChroma, h]

/-- The forward transform gives coded values (R282, R283). -/
theorem ctForwardBlock_below (f : DescFacts d) (hct : ctApplies d.toDescIn 0 = true)
    (h : ∀ c : Fin 4, c.val < 3 → ∀ i : Fin 16, (blk[c][i]).toNat < 2 ^ inBits d.toDescIn c) {c : Fin 4} (hc : c.val < 3)
    (i : Fin 16) : ((ctForwardBlock (inBits d.toDescIn 0) blk)[c][i]).toNat < 2 ^ d.compbits[c] := by
  obtain ⟨d1, d2⟩ := f.depth hct
  obtain ⟨r0, -, r1, -, r2⟩ := ctForward_range (n := inBits d.toDescIn 0) (h 0 (by decide) i)
    (by simpa [d1] using h 1 (by decide) i) (by simpa [d2] using h 2 (by decide) i)
  have e : ((ctForwardBlock (inBits d.toDescIn 0) blk)[c][i]).toNat ≤
      pick3 (ctForward (inBits d.toDescIn 0) (sampleAt blk 0 i) (sampleAt blk 1 i) (sampleAt blk 2 i)) c := by
    simp only [ctForwardBlock, Fin.getElem_fin, Vector.getElem_ofFn, hc, if_true, BitVec.toNat_ofNat]
    exact Nat.mod_le _ _
  refine e.trans_lt ?_
  rw [f.compbits_eq]
  obtain rfl | rfl | rfl : c = 0 ∨ c = 1 ∨ c = 2 := by omega
  · rw [compBitsOf_luma]
    exact r0
  · rw [compBitsOf_chroma hct (.inl rfl), d1]
    exact r1
  · rw [compBitsOf_chroma hct (.inr rfl), d2]
    exact r2

/-- The block that the trees are built from holds coded values (R182). -/
theorem codedBlock_below (f : DescFacts d) (h : BlockBelow d.toDescIn p blk) {c : Fin 4} (hc : c ∈ comps d.toDescIn p)
    (i : Fin 16) : ((codedBlock d.toDescIn p blk)[c][i]).toNat < 2 ^ d.compbits[c] := by
  have plain : (blk[c][i]).toNat < 2 ^ d.compbits[c] :=
    (h c hc i).trans_le (Nat.pow_le_pow_right (by decide) (f.inBits_le c))
  unfold codedBlock
  split
  · next hct =>
    obtain ⟨hct0, hin⟩ := f.transformed hct
    by_cases h3 : c.val < 3
    · exact ctForwardBlock_below f hct0 (fun e he => h e (hin e he)) h3 i
    · simpa [ctForwardBlock, h3] using plain
  · exact plain

theorem componentTree_ok (f : DescFacts d) {t : Vector (Vector Sample 16) 4} {c : Fin 4}
    (h : ∀ i : Fin 16, (t[c][i]).toNat < 2 ^ d.compbits[c]) : TreeOk (componentTree d t c) := by
  refine constrain_ok (crop_ok (buildTree_ok _ (f.compbits_le c) fun k => ?_))
  by_cases hk : k < 16
  · simpa [Vector.getD, hk] using h ⟨k, hk⟩
  · simp [Vector.getD, hk]

/-- What the encoder returns for a block in range are trees of the ranges (R180). -/
theorem encodeRun_trees (f : DescFacts d) (h : BlockBelow d.toDescIn p blk) {e : Encoded}
    (he : encodeRun d p blk = some e) : ∀ ct ∈ e.trees, TreeOk ct.2 := by
  suffices hm : e.trees = ((comps d.toDescIn p).map fun c =>
      (c, componentTree d (codedBlock d.toDescIn p blk) c)).map fun ct => (ct.1, markDefault d.defaultcolor[ct.1] ct.2) by
    intro ct hct
    rw [hm] at hct
    obtain ⟨built, hb, rfl⟩ := List.mem_map.mp hct
    obtain ⟨c, hc, rfl⟩ := List.mem_map.mp hb
    have ht : TreeOk (componentTree d (codedBlock d.toDescIn p blk) c) :=
      componentTree_ok f fun i => codedBlock_below f h hc i
    exact markDefault_ok ht _
  simp only [encodeRun] at he
  split at he
  · split at he
    · cases he
    · split at he <;> (cases he; rfl)
  · cases he

end Encode
end Sys2Proof.Machine

namespace Sys2Proof.Machine

/-! ### The bodies of the operations keep the ranges -/

/-- If the trees of `s` are within their ranges, so are those of `t`. -/
def KeepsTrees (s t : State) : Prop := TreeInv s.codec → TreeInv t.codec

section Bodies

variable {s : State}

theorem KeepsTrees.trans {s t u : State} (h : KeepsTrees s t) (g : KeepsTrees t u) : KeepsTrees s u := g ∘ h

theorem KeepsTrees.refl (s : State) : KeepsTrees s s := id

theorem KeepsTrees.of_codec {s t : State} (h : t.codec = s.codec) : KeepsTrees s t := fun hs => by rwa [h]

theorem KeepsTrees.bind {α β : Type} {r : Ran α} {f : α → State → Ran β} (h : KeepsTrees s r.state)
    (g : ∀ a t, r = .ok a t → KeepsTrees t (f a t).state) : KeepsTrees s (r.bind f).state :=
  bind_state (R := KeepsTrees) KeepsTrees.trans h g

theorem KeepsTrees.onFatal {α : Type} {r : Ran α} {f : State → State} (h : KeepsTrees s r.state)
    (g : ∀ t, KeepsTrees t (f t)) : KeepsTrees s (r.onFatal f).state :=
  onFatal_state (R := KeepsTrees) KeepsTrees.trans h g

theorem OnlyChk.keepsTrees {t : State} (h : OnlyChk s t) : KeepsTrees s t := .of_codec (by rw [h.same])

theorem loseCodec_keepsTrees (s : State) (cs : List (Fin 4)) (b t : Bool) : KeepsTrees s (loseCodec s cs b t) :=
  fun h => h.lose cs s.free b t

theorem loseAll_keepsTrees (s : State) : KeepsTrees s (loseAll s) := fun h => h.lose _ s.free true true

theorem ctInverseRun_keepsTrees (s : State) (cs : List (Fin 4)) (trees : Bool) :
    KeepsTrees s (ctInverseRun s cs trees).state := by
  unfold ctInverseRun
  split
  · exact SameTrees.treeInv (x := s.codec) ⟨rfl, rfl, rfl, rfl⟩
  · exact (flagV_only_chk s _ _).keepsTrees.trans (loseCodec_keepsTrees _ _ _ _)

/-! Decoding. -/

theorem finishBlock_keepsTrees (s : State) (p : Fin 2) (unc : Bool) {st : DecState} (h : TreeInv st.codec) :
    TreeInv (finishBlock s p unc st).state.codec := by
  have h1 : TreeInv { s with cur := st.cur.reg, codec := st.codec }.codec := h
  have h2 := (flagAll_only_chk { s with cur := st.cur.reg, codec := st.codec } st.pend).keepsTrees h1
  simp only [finishBlock]
  split
  · exact loseCodec_keepsTrees _ _ _ _ h1
  · split
    · exact KeepsTrees.bind (ctInverseRun_keepsTrees _ _ _) (fun _ _ _ => .refl _) h2
    · exact h2

theorem decodeBlockRun_keepsTrees (f : DescFacts s.desc) (src : Nat → Bool) (lim : Nat) (p : Fin 2) (unc : Bool) :
    KeepsTrees s (decodeBlockRun s src lim p unc).state :=
  fun h => finishBlock_keepsTrees s p unc (h.decodeStream f p unc)

theorem finishElement_keepsTrees (s : State) {st : DecState} (h : TreeInv st.codec) :
    TreeInv (finishElement s st).state.codec := by
  have h1 : TreeInv { s with cur := st.cur.reg, codec := st.codec }.codec := h
  simp only [finishElement]
  split
  · exact loseCodec_keepsTrees _ _ _ _ h1
  · exact (flagAll_only_chk _ st.pend).keepsTrees h1

theorem parseWordRun_codec (s : State) (mbnum w : Nat) : (parseWordRun s mbnum w).state.codec = s.codec := by
  unfold parseWordRun
  split
  · simp only [state_ok, parseWord]
    split <;> simp
  · simp

theorem sizeRun_codec (s : State) (slot n : Nat) : (sizeRun s slot n).state.codec = s.codec := by
  unfold sizeRun
  split
  · simp [takeCode]
  · simp

theorem zeroBlock_keepsTrees (s : State) (p : Fin 2) : KeepsTrees s (zeroBlock s p) :=
  SameTrees.treeInv (x := s.codec) ⟨rfl, rfl, rfl, rfl⟩

theorem loadBlock_keepsTrees (s : State) (sl : Slot) : KeepsTrees s (loadBlock s sl) :=
  SameTrees.treeInv (x := s.codec) ⟨rfl, rfl, rfl, rfl⟩

theorem decodeSlot_keepsTrees (f : DescFacts s.desc) (slot : Nat) : KeepsTrees s (decodeSlot s slot).state := by
  have h : KeepsTrees s { s with sb := { s.sb with slot := slot } } := .refl s
  simp only [decodeSlot]
  split
  · exact h.trans (.bind (decodeBlockRun_keepsTrees (s := { s with sb := { s.sb with slot := slot } }) f _ _ _ _)
      fun n t _ => .of_codec (by simp))
  · split
    · exact h.trans ((zeroBlock_keepsTrees _ (slotAt s.desc slot).plane).trans (.of_codec (by simp)))
    · exact h

theorem decodeSlots_keepsTrees {l : List Nat} (f : DescFacts s.desc) (hl : ∀ n ∈ l, n < s.desc.nsubblocks) :
    KeepsTrees s (decodeSlots s l).state := by
  induction l generalizing s with
  | nil => exact .refl s
  | cons slot rest ih =>
    refine .bind (decodeSlot_keepsTrees f slot) fun _ t e => ?_
    have h := decodeSlot_change (hl slot (by simp))
    rw [e, state_ok] at h
    have hd : t.desc = s.desc := by rw [h.same]
    exact ih (hd ▸ f) fun n hn => hd ▸ hl n (by simp [hn])

theorem decodeBody_keepsTrees (f : DescFacts s.desc) : KeepsTrees s (decodeBody s).state := by
  unfold decodeBody
  split
  · exact .of_codec (by simp)
  · have h := addressingChecks_only_chk s
    refine .bind h.keepsTrees fun _ t e => ?_
    rw [e, state_ok] at h
    have hd : t.desc = s.desc := by rw [h.same]
    exact .bind (decodeSlots_keepsTrees (hd ▸ f) fun n hn => List.mem_range.mp hn) fun _ u _ => .of_codec (by simp)

theorem decodeSuperblockRun_keepsTrees (f : DescFacts s.desc) (mbx mby : Nat) :
    KeepsTrees s (decodeSuperblockRun s mbx mby).state := by
  have h0 : KeepsTrees s (atSuperblock s mbx mby) := .refl s
  refine .onFatal (h0.trans (.bind (.of_codec (parseWordRun_codec _ _ _)) fun _ t e => ?_)) fun t =>
    (KeepsTrees.of_codec (loseOut_codec t)).trans (loseAll_keepsTrees _)
  have h := parseHeaderRun_change (atSuperblock s mbx mby) (mbnumOf s.desc mbx mby)
  have e' : parseHeaderRun (atSuperblock s mbx mby) (mbnumOf s.desc mbx mby) = .ok () t := e
  rw [e', state_ok] at h
  have hd : t.desc = s.desc := by rw [h.same]; rfl
  exact decodeBody_keepsTrees (hd ▸ f)

/-! Encoding. -/

theorem encodeBlockRun_keepsTrees (f : DescFacts s.desc) (base : Nat) {p : Fin 2}
    (hb : BlockBelow s.desc.toDescIn p s.codec.blk) : KeepsTrees s (encodeBlockRun s base p).state := by
  intro h
  simp only [encodeBlockRun]
  split
  · exact loseCodec_keepsTrees _ _ _ _ h
  · next e he =>
    split
    · exact loseCodec_keepsTrees _ _ _ _ h
    · exact h.setTrees (encodeRun_trees f hb he)

theorem writeHeaderRun_codec (s : State) (mbnum : Nat) : (writeHeaderRun s mbnum).state.codec = s.codec := by
  unfold writeHeaderRun
  split
  · split <;> rfl
  · rfl

theorem storeSlot_codec (s : State) (slot off : Nat) (p : Fin 2) (e : Encoded) :
    (storeSlot s slot off p e).state.codec = s.codec := by
  simp only [storeSlot]
  split
  · rfl
  · split <;> rfl

/-- A slot of the layout lies in a plane of the frame, inside the plane's region (46_descriptor R293). -/
theorem DescFacts.slot_in_region {d : Desc} (f : DescFacts d) {slot : Nat} (h : slot < d.nsubblocks) :
    (slotAt d slot).plane ∈ planes d ∧ (slotAt d slot).x + 4 ≤ pw d (slotAt d slot).plane ∧
      (slotAt d slot).y + 4 ≤ ph d (slotAt d slot).plane := by
  have hl : slot < d.table.slots.length := f.slots ▸ h
  have hm : slotAt d slot ∈ d.table.slots := by
    rw [slotAt, List.getD_eq_getElem _ _ hl]
    exact List.getElem_mem hl
  obtain ⟨hp, -, -, hx, hy⟩ := of_decide_eq_true (f.slotOk _ hm)
  have hn : d.nplanes = d.table.nplanes := congrArg (·.nplanes) f.derived
  have hw : pw d (slotAt d slot).plane = layoutPw d.table (slotAt d slot).plane := by
    rw [f.derived]; rfl
  have hh : ph d (slotAt d slot).plane = layoutPh d.table (slotAt d slot).plane := by
    rw [f.derived]; rfl
  exact ⟨f.plane (hn ▸ hp), hw ▸ hx, hh ▸ hy⟩

/-- Fetched samples that are in range are in range in every slot's subblock (43_superblock R225, R226). -/
theorem loadBlock_below (f : DescFacts s.desc) (hf : fetchInRange s = true) {slot : Nat} (h : slot < s.desc.nsubblocks) :
    BlockBelow s.desc.toDescIn (slotAt s.desc slot).plane (loadBlock s (slotAt s.desc slot)).codec.blk := by
  obtain ⟨hp, hx, hy⟩ := f.slot_in_region h
  generalize slotAt s.desc slot = sl at *
  intro c hc i
  have hpc : (sl.plane, c) ∈ planeComps s.desc :=
    List.mem_flatMap.mpr ⟨sl.plane, hp, List.mem_map_of_mem hc⟩
  have hr := List.all_eq_true.mp (List.all_eq_true.mp hf _ hpc)
  have hk : (sl.y + i.val / 4) * pw s.desc sl.plane + (sl.x + i.val % 4) < pw s.desc sl.plane * ph s.desc sl.plane :=
    cell_lt (by omega) (by omega)
  have e : (loadBlock s sl).codec.blk[c][i] =
      (s.sb.sblk[c]).getD ((sl.y + i.val / 4) * pw s.desc sl.plane + (sl.x + i.val % 4)) 0 := by
    simp [loadBlock, hc]
  rw [e]
  generalize (sl.y + i.val / 4) * pw s.desc sl.plane + (sl.x + i.val % 4) = k at hk
  by_cases h256 : k < 256
  · rw [show (s.sb.sblk[c]).getD k 0 = (s.sb.sblk[c])[k] by simp [Vector.getD, h256]]
    refine of_decide_eq_true (hr _ (List.mem_take_iff_getElem.mpr ⟨k, ?_, ?_⟩))
    · simp [hk, h256]
    · simp
  · rw [show (s.sb.sblk[c]).getD k 0 = 0 by simp [Vector.getD, h256]]
    exact Nat.two_pow_pos _

theorem encodeSlot_keepsTrees (f : DescFacts s.desc) (hf : fetchInRange s = true) {slot : Nat}
    (h : slot < s.desc.nsubblocks) (bodyPos : Nat) (a : EncLoop) :
    KeepsTrees s (encodeSlot s bodyPos slot a).state := by
  intro ht
  have hb := loadBlock_below (s := { s with sb := { s.sb with slot := slot } }) f hf h
  have hl : TreeInv (loadBlock { s with sb := { s.sb with slot := slot } } (slotAt s.desc slot)).codec :=
    loadBlock_keepsTrees { s with sb := { s.sb with slot := slot } } _ ht
  simp only [encodeSlot]
  split
  · exact hl
  · next e he =>
    have hs := hl.setTrees (encodeRun_trees f hb he)
    split
    · exact hs
    · exact KeepsTrees.bind (.of_codec (storeSlot_codec _ _ _ _ _)) (fun _ _ _ => .refl _) hs

theorem storeSlot_sblk (s : State) (slot off : Nat) (p : Fin 2) (e : Encoded) :
    (storeSlot s slot off p e).state.sb.sblk = s.sb.sblk := by
  simp only [storeSlot]
  split
  · rfl
  · split <;> rfl

/-- The encode loop leaves the fetched samples alone. -/
theorem encodeSlot_sblk (s : State) (bodyPos slot : Nat) (a : EncLoop) :
    (encodeSlot s bodyPos slot a).state.sb.sblk = s.sb.sblk := by
  simp only [encodeSlot]
  split
  · rfl
  · split
    · rfl
    · exact bind_state (R := fun u t => t.sb.sblk = u.sb.sblk) (fun h g => g.trans h) (storeSlot_sblk _ _ _ _ _)
        fun _ _ _ => rfl

theorem fetchInRange_congr {t : State} (hd : t.desc = s.desc) (hs : t.sb.sblk = s.sb.sblk) :
    fetchInRange t = fetchInRange s := by
  simp only [fetchInRange, regionSamples, hd, hs]

theorem encodeSlots_keepsTrees {l : List Nat} (f : DescFacts s.desc) (hf : fetchInRange s = true)
    (hl : ∀ n ∈ l, n < s.desc.nsubblocks) (bodyPos : Nat) (a : EncLoop) :
    KeepsTrees s (encodeSlots s bodyPos a l).state := by
  induction l generalizing s a with
  | nil => exact .refl s
  | cons slot rest ih =>
    have hs := hl slot (by simp)
    refine .bind (encodeSlot_keepsTrees f hf hs bodyPos a) fun a1 t e => ?_
    have hc := encodeSlot_change hs bodyPos a
    have hq := encodeSlot_sblk s bodyPos slot a
    rw [e, state_ok] at hc hq
    have hd : t.desc = s.desc := by rw [hc.same]
    exact ih (hd ▸ f) (fetchInRange_congr hd hq ▸ hf) (fun n hn => hd ▸ hl n (by simp [hn])) a1

theorem encodeNormal_keepsTrees (f : DescFacts s.desc) (hf : fetchInRange s = true) (bodyPos : Nat) :
    KeepsTrees s (encodeNormal s bodyPos).state :=
  .bind (encodeSlots_keepsTrees (s := { s with hdr := { s.hdr with
      solid := false, ptr := BitVec.ofNat 32 bodyPos, ptrOk := true } }) f hf (fun _ hn => List.mem_range.mp hn) _ _)
    fun _ t _ => .bind (.of_codec (writeHeaderRun_codec t _)) fun _ _ _ => .refl _

theorem encodeSolid_codec (s : State) (bodyPos : Nat) : (encodeSolid s bodyPos).state.codec = s.codec := by
  unfold encodeSolid
  split <;> rfl

theorem encodeSuperblockRun_keepsTrees (f : DescFacts s.desc) (mbx mby bodyPos : Nat) :
    KeepsTrees s (encodeSuperblockRun s mbx mby bodyPos).state := by
  have h0 : KeepsTrees s (fetch (setCoords s mbx mby)) := .refl s
  unfold encodeSuperblockRun
  dsimp only
  refine .onFatal (h0.trans ?_) loseAll_keepsTrees
  have f' : DescFacts (fetch (setCoords s mbx mby)).desc := f
  generalize fetch (setCoords s mbx mby) = u at f'
  split
  · exact .refl u
  · next hr =>
    split
    · exact .of_codec (encodeSolid_codec u bodyPos)
    · obtain ⟨hin, -⟩ : fetchInRange u = true ∧ bodyPos < 2 ^ u.desc.ptrBits := by simpa using hr
      exact encodeNormal_keepsTrees f' hin bodyPos

end Bodies

/-! ### Every instruction, and every step -/

/-- The trees of the next state, if there is one, are within their ranges. -/
def NextTrees (o : Host.Outcome State Fault Refusal) : Prop := NextAll (fun t => TreeInv t.codec) o

section Instructions

variable {s : State} {k : Host.Outcome State Fault Refusal}

theorem nextTrees_settle {α : Type} {r : Ran α} {res : α → Results} {bad : FatalCode → Results}
    (h : TreeInv r.state.codec) : NextTrees (settle r res bad) := by
  cases r <;> exact nextAll_next.mpr h

theorem nextTrees_ifReady (h : TreeInv s.codec) (g : Ready s → NextTrees k) : NextTrees (ifReady s k) :=
  nextAll_ifReady (fun _ => h) (fun _ _ => h) fun a b => g ⟨a, b⟩

theorem nextTrees_ifInput (h : TreeInv s.codec) {b : Bool} (g : b = true → NextTrees k) : NextTrees (ifInput s b k) :=
  nextAll_ifInput h g

theorem nextTrees_bs (h : TreeInv s.codec) {m : Mem 8} {c : CursorReg} {r : Results} :
    NextTrees (ifNotFailed s (.next (completeOp { s with fb := m, cur := c } r))) :=
  nextAll_ifNotFailed (fun _ => h) fun _ => nextAll_next.mpr h

theorem nextTrees_results (h : TreeInv s.codec) {r : Results} : NextTrees (ifReady s (.next (completeOp s r))) :=
  nextTrees_ifReady h fun _ => nextAll_next.mpr h

theorem nextTrees_header (h : TreeInv s.codec) (m : Subsampling) (sol : Bool) (w : Nat) :
    NextTrees (headerElement m sol w s) :=
  nextTrees_ifReady h fun _ => nextTrees_ifInput h fun _ => nextTrees_settle (by rwa [parseWordRun_codec])

theorem nextTrees_size (h : TreeInv s.codec) (m : Subsampling) (n : Nat) : NextTrees (sizeElement m n s) :=
  nextTrees_ifReady h fun _ => nextTrees_ifInput h fun _ => nextAll_ifDefined fun _ => nextTrees_ifInput h fun _ =>
    nextTrees_settle (by rwa [sizeRun_codec])

theorem nextTrees_block (f : Ready s → DescFacts s.desc) (h : TreeInv s.codec) (unc : Bool) (n v : Nat) :
    NextTrees (blockElement unc n v s) :=
  nextTrees_ifReady h fun r => nextTrees_ifInput h fun _ => nextTrees_settle (decodeBlockRun_keepsTrees (f r) _ _ _ _ h)

theorem nextTrees_stream (h : TreeInv s.codec) {fits defined admits : Bool} {g : DecState → DecState}
    (hg : Ready s → defined = true → admits = true → TreeInv (g ⟨s.cur.cursor, s.codec, []⟩).codec) :
    NextTrees (streamElement s fits defined admits g) :=
  nextTrees_ifReady h fun r => nextTrees_ifInput h fun _ => nextAll_ifDefined fun hd => nextTrees_ifInput h fun ha =>
    nextTrees_settle (finishElement_keepsTrees s (hg r hd ha))

theorem nextTrees_l3 (f : Ready s → DescFacts s.desc) (h : TreeInv s.codec) (w : L3Width) (v : Nat) :
    NextTrees (l3Element w v s) := by
  unfold l3Element
  refine nextTrees_stream h fun r _ _ => ?_
  dsimp only
  split
  · exact (TreeInv.defaultRoot (f r) (TreeInv.readL3 (f r) h)).writeLeaves
  · exact TreeInv.readL3 (f r) h

theorem nextTrees_l4d (h : TreeInv s.codec) (d : BitVec 2) : NextTrees (execL4d d s) :=
  nextTrees_stream h fun _ _ ha => TreeInv.readL4D h (of_decide_eq_true ha) _

theorem nextTrees_root (f : Ready s → DescFacts s.desc) (h : TreeInv s.codec) (w v : Nat) :
    NextTrees (execRoot w v s) := by
  unfold execRoot
  refine nextTrees_stream h fun r _ _ => ?_
  dsimp only
  split
  · exact (TreeInv.readRoot (f r) h).writeLeaves
  · exact TreeInv.readRoot (f r) h

theorem nextTrees_node (h : TreeInv s.codec) (b v : Nat) : NextTrees (nodeElement b v s) := by
  unfold nodeElement
  refine nextTrees_stream h fun _ hd _ => ?_
  have hk : (s.codec.bcOk[argComp s])[argNode s] = true := by
    simp only [nodeDefined, Bool.and_eq_true] at hd
    obtain ⟨⟨-, hk⟩, -⟩ := hd
    exact hk
  dsimp only
  split
  · exact (TreeInv.readNode h hk).writeLeaves
  · exact TreeInv.readNode h hk

theorem nextTrees_ct (h : TreeInv s.codec) {b c : Bool}
    (g : NextTrees k) : NextTrees (ifReady s <| ifCtApplies s <| ifDefined b <| ifInput s c k) :=
  nextTrees_ifReady h fun _ => nextAll_ifCtApplies h fun _ => nextAll_ifDefined fun _ => nextTrees_ifInput h fun _ => g

theorem nextTrees_init (h : TreeInv s.codec) : NextTrees (execInitDescriptor s) := by
  simp only [execInitDescriptor]
  split <;> exact nextAll_next.mpr h

theorem nextTrees_encodeBlock (f : Ready s → DescFacts s.desc) (h : TreeInv s.codec) (p : Fin 2) :
    NextTrees (execEncodeBlock p s) :=
  nextTrees_ifReady h fun r => nextTrees_ifInput h fun _ => nextAll_ifDefined fun _ => nextTrees_ifInput h fun hb =>
    nextTrees_settle (encodeBlockRun_keepsTrees (f r) _ ((rowsBelow_iff _ _ _).mp hb) h)

/-- Every instruction keeps the ranges of the trees. -/
theorem exec_keepsTrees (f : Ready s → DescFacts s.desc) (h : TreeInv s.codec) (i : Instr) :
    NextTrees (exec i s) := by
  cases i
  case bsRead => exact nextTrees_bs h
  case bsReadSigned => exact nextTrees_bs h
  case bsWrite => exact nextTrees_bs h
  case decodeBlock =>
    exact nextTrees_ifReady h fun r => nextTrees_ifInput h fun _ =>
      nextTrees_settle (decodeBlockRun_keepsTrees (f r) _ _ _ _ h)
  case encodeBlock p => exact nextTrees_encodeBlock f h p
  case decodeSuperblock =>
    exact nextTrees_ifReady h fun r => nextTrees_ifInput h fun _ =>
      nextTrees_settle (decodeSuperblockRun_keepsTrees (f r) _ _ h)
  case encodeSuperblock =>
    exact nextTrees_ifReady h fun r => nextTrees_ifInput h fun _ =>
      nextTrees_settle (encodeSuperblockRun_keepsTrees (f r) _ _ _ h)
  case parseHeader => exact nextTrees_ifReady h fun _ => nextTrees_settle (by rwa [parseHeaderRun, parseWordRun_codec])
  case writeHeader =>
    exact nextTrees_ifReady h fun _ => nextAll_ifDefined fun _ => nextTrees_settle (by rwa [writeHeaderRun_codec])
  case resolveAddr => exact nextTrees_ifReady h fun _ => nextTrees_ifInput h fun _ => nextAll_next.mpr h
  case ctForward =>
    exact nextTrees_ct h (nextAll_next.mpr (SameTrees.treeInv (x := s.codec) ⟨rfl, rfl, rfl, rfl⟩ h))
  case ctInverse => exact nextTrees_ct h (nextTrees_settle (ctInverseRun_keepsTrees s _ _ h))
  case initDescriptor => exact nextTrees_init h
  case getMaxSbPayload => exact nextTrees_results h
  case getMaxFrameSize => exact nextTrees_results h
  case getUncompFrameSize => exact nextTrees_results h
  case pad => exact nextTrees_results h
  case headerNormalNone => exact nextTrees_header h _ _ _
  case headerNormalS420 => exact nextTrees_header h _ _ _
  case headerNormalS422 => exact nextTrees_header h _ _ _
  case headerSolid => exact nextTrees_header h _ _ _
  case sizeCopy => exact nextTrees_size h _ _
  case sizeUncomp => exact nextTrees_size h _ _
  case sizeComp => exact nextTrees_size h _ _
  case blockUncomp => exact nextTrees_block f h _ _ _
  case blockComp => exact nextTrees_block f h _ _ _
  case l4d d => exact nextTrees_l4d h d
  case root w v => exact nextTrees_root f h w v
  case nodeB0 => exact nextTrees_node h _ _
  case nodeB1 => exact nextTrees_node h _ _
  case nodeBN => exact nextTrees_node h _ _
  all_goals exact nextTrees_l3 f h _ _

theorem hostAction_keepsTrees (f : Ready s → DescFacts s.desc) (h : TreeInv s.codec) (e : Event) :
    NextTrees (hostAction e s) := by
  cases e
  case writeFb a v =>
    simp only [hostAction]
    split
    · exact nextAll_next.mpr h
    · exact nextAll_fault _
  case writeBlk => exact nextAll_next.mpr (SameTrees.treeInv (x := s.codec) ⟨rfl, rfl, rfl, rfl⟩ h)
  case command w =>
    simp only [hostAction, runCommand]
    split
    · exact exec_keepsTrees f h _
    · exact nextAll_next.mpr h
  case element g =>
    simp only [hostAction, runElement]
    split
    · exact nextAll_next.mpr h
    · split
      · exact exec_keepsTrees f h _
      · exact nextAll_next.mpr h
  case reset =>
    refine nextAll_next.mpr ((treeInv_iff _).mpr fun c => ⟨?_, ?_⟩) <;> simp [applyReset, State.reset]
  all_goals exact nextAll_next.mpr h

end Instructions

/-- Settles O9: every host action keeps the ranges, because every instruction does. -/
theorem treeRangesKeptByStep : Obligations.TreeRangesKeptByStep := by
  intro s t hi ht e
  rw [step, stepState] at e
  split at e
  · cases e
    exact ht
  · next ev rest _ => exact hostAction_keepsTrees (s := { s with inbox := rest }) hi.facts ht ev t e

end Sys2Proof.Machine

namespace Sys2Proof.Machine

/-! ### What the checker sees does not matter (10_state R29)

`withoutChecker` forgets the checker's records and `error_check`. A part of an operation is *blind* when it gives the same
result up to `withoutChecker` from `s` and from `withoutChecker s`. -/

section Blind

variable {α β : Type} {s t : State}

@[simp] theorem withoutChecker_twice (s : State) : withoutChecker (withoutChecker s) = withoutChecker s := rfl

theorem OnlyChk.withoutChecker (h : OnlyChk s t) : withoutChecker t = withoutChecker s := by
  rw [h.same]
  rfl

/-- A body's end without what only the checker sees. -/
def Ran.blind : Ran α → Ran α
  | .ok a s => .ok a (withoutChecker s)
  | .fatal x s => .fatal x (withoutChecker s)

@[simp] theorem Ran.blind_ok (a : α) (s : State) : (Ran.ok a s).blind = .ok a (withoutChecker s) := rfl

@[simp] theorem Ran.blind_fatal (x : FatalCode) (s : State) :
    (Ran.fatal x s : Ran α).blind = .fatal x (withoutChecker s) := rfl

/-- A change of state that does not depend on what only the checker sees. -/
def BlindStep (f : State → State) : Prop := ∀ s, withoutChecker (f (withoutChecker s)) = withoutChecker (f s)

/-- A body that does not depend on what only the checker sees. -/
def BlindRun (f : State → Ran α) : Prop := ∀ s, (f (withoutChecker s)).blind = (f s).blind

theorem BlindStep.congr {f : State → State} (hf : BlindStep f) (h : withoutChecker s = withoutChecker t) :
    withoutChecker (f s) = withoutChecker (f t) := by
  rw [← hf s, h, hf t]

theorem BlindRun.congr {f : State → Ran α} (hf : BlindRun f) (h : withoutChecker s = withoutChecker t) :
    (f s).blind = (f t).blind := by
  rw [← hf s, h, hf t]

theorem blind_bind {r r' : Ran α} (h : r.blind = r'.blind) {f : α → State → Ran β} (hf : ∀ a, BlindRun (f a)) :
    (r.bind f).blind = (r'.bind f).blind := by
  cases r <;> cases r' <;> simp only [Ran.blind_ok, Ran.blind_fatal, Ran.ok.injEq, Ran.fatal.injEq, reduceCtorEq] at h
  · obtain ⟨rfl, h⟩ := h
    exact (hf _).congr h
  · obtain ⟨rfl, h⟩ := h
    simp [h]

theorem blind_onFatal {r r' : Ran α} (h : r.blind = r'.blind) {f : State → State} (hf : BlindStep f) :
    (r.onFatal f).blind = (r'.onFatal f).blind := by
  cases r <;> cases r' <;> simp only [Ran.blind_ok, Ran.blind_fatal, Ran.ok.injEq, Ran.fatal.injEq, reduceCtorEq] at h
  · obtain ⟨rfl, h⟩ := h
    simp [h]
  · obtain ⟨rfl, h⟩ := h
    simp [hf.congr h]

/-- A checker's step is blind. -/
theorem BlindStep.of_onlyChk {f : State → State} (h : ∀ s, OnlyChk s (f s)) : BlindStep f := fun s => by
  rw [(h _).withoutChecker, (h s).withoutChecker, withoutChecker_twice]

theorem BlindStep.comp {f g : State → State} (hf : BlindStep f) (hg : BlindStep g) : BlindStep fun s => f (g s) :=
  fun s => hf.congr (hg s)

end Blind

/-! ### Changes of state that are blind -/

section Steps

theorem blindStep_startCursor : BlindStep startCursor := fun _ => rfl
theorem blindStep_loseAll : BlindStep loseAll := fun _ => rfl
theorem blindStep_loseOut : BlindStep loseOut := fun _ => rfl
theorem blindStep_writeback : BlindStep writeback := fun _ => rfl
theorem blindStep_fillSolid : BlindStep fillSolid := fun _ => rfl
theorem blindStep_fetch : BlindStep fetch := fun _ => rfl
theorem blindStep_loseCodec (cs : List (Fin 4)) (b t : Bool) : BlindStep fun s => loseCodec s cs b t := fun _ => rfl
theorem blindStep_place (sl : Slot) : BlindStep fun s => place s sl := fun _ => rfl
theorem blindStep_zeroBlock (p : Fin 2) : BlindStep fun s => zeroBlock s p := fun _ => rfl
theorem blindStep_setCoords (x y : Nat) : BlindStep fun s => setCoords s x y := fun _ => rfl
theorem blindStep_slot (n : Nat) : BlindStep fun s => { s with sb := { s.sb with slot := n } } := fun _ => rfl

theorem blindStep_flagV (x : Viol) (c : Nat) : BlindStep fun s => flagV s x c := .of_onlyChk fun s => flagV_only_chk s x c

theorem blindStep_recordViol (x : Viol) (c : Nat) : BlindStep fun s => recordViol s x c :=
  .of_onlyChk fun s => recordViol_only_chk s x c

theorem blindStep_flagAll (l : List (Viol × Nat)) : BlindStep fun s => flagAll s l :=
  .of_onlyChk fun s => flagAll_only_chk s l

theorem blindStep_sizeCheck (slot n : Nat) (p : Fin 2) : BlindStep fun s => sizeCheck s slot n p :=
  .of_onlyChk fun s => sizeCheck_only_chk s slot n p

theorem blindStep_stripeCount (ptr : Option Nat) : BlindStep fun s => stripeCount s ptr :=
  .of_onlyChk fun s => stripeCount_only_chk s ptr

theorem withoutChecker_ite {p q : Prop} [Decidable p] [Decidable q] (h : p ↔ q) {s t s' t' : State}
    (hs : withoutChecker s = withoutChecker s') (ht : withoutChecker t = withoutChecker t') :
    withoutChecker (if p then s else t) = withoutChecker (if q then s' else t') := by
  by_cases hp : p
  · rwa [if_pos hp, if_pos (h.mp hp)]
  · rwa [if_neg hp, if_neg (mt h.mpr hp)]

theorem blindStep_parseWord (w : Nat) : BlindStep fun s => parseWord s w := fun _ =>
  withoutChecker_ite Iff.rfl rfl ((blindStep_flagAll _).congr rfl)

theorem blindStep_takeCode (slot n : Nat) : BlindStep fun s => takeCode s slot n := fun _ =>
  (blindStep_flagAll _).congr rfl

end Steps

/-! ### Bodies that are blind -/

section Runs

variable {α : Type}

/-- A body that runs to its end in a blind change of state. -/
theorem BlindStep.ok {f : State → State} (hf : BlindStep f) (a : α) : BlindRun fun s => .ok a (f s) := fun s =>
  congrArg (Ran.ok a) (hf s)

/-- A body that ends in a fatal error after a blind change of state. -/
theorem BlindStep.fatal {f : State → State} (hf : BlindStep f) (x : FatalCode) :
    BlindRun fun s => (.fatal x (f s) : Ran α) := fun s => congrArg (Ran.fatal x) (hf s)

/-- A body that only returns. -/
theorem blindRun_return (a : α) : BlindRun fun s => .ok a s := fun _ => rfl

theorem blind_ite {p q : Prop} [Decidable p] [Decidable q] (h : p ↔ q) {a b a' b' : Ran α}
    (ha : a.blind = a'.blind) (hb : b.blind = b'.blind) :
    (if p then a else b).blind = (if q then a' else b').blind := by
  by_cases hp : p
  · rwa [if_pos hp, if_pos (h.mp hp)]
  · rwa [if_neg hp, if_neg (mt h.mpr hp)]

theorem blindRun_ctInverse (cs : List (Fin 4)) (trees : Bool) : BlindRun fun s => ctInverseRun s cs trees := by
  intro s
  show (ctInverseRun (withoutChecker s) cs trees).blind = (ctInverseRun s cs trees).blind
  cases h : ctInverseBlock (inBits s.desc.toDescIn 0) s.codec.blk with
  | some blk =>
    rw [ctInverseRun_some cs trees h, ctInverseRun_some (s := withoutChecker s) cs trees h]
    rfl
  | none =>
    rw [ctInverseRun_none cs trees h, ctInverseRun_none (s := withoutChecker s) cs trees h]
    exact (((blindStep_loseCodec cs true trees).comp (blindStep_flagV .ctRange 0)).fatal .ctRange) s

theorem blindRun_finishBlock (p : Fin 2) (unc : Bool) (st : DecState) : BlindRun fun s => finishBlock s p unc st := by
  intro s
  have h : withoutChecker (flagAll { withoutChecker s with cur := st.cur.reg, codec := st.codec } st.pend) =
      withoutChecker (flagAll { s with cur := st.cur.reg, codec := st.codec } st.pend) :=
    (blindStep_flagAll st.pend).congr rfl
  exact blind_ite Iff.rfl rfl (blind_ite Iff.rfl
    (blind_bind ((blindRun_ctInverse _ true).congr h) fun _ => blindRun_return _)
    (congrArg (Ran.ok _) h))

theorem blindRun_decodeBlock (src : Nat → Bool) (lim : Nat) (p : Fin 2) (unc : Bool) :
    BlindRun fun s => decodeBlockRun s src lim p unc := fun s =>
  blindRun_finishBlock p unc (decodeStream s.desc src lim p unc s.codec) s

theorem blindRun_finishElement (st : DecState) : BlindRun fun s => finishElement s st := fun _ =>
  blind_ite Iff.rfl rfl (congrArg (Ran.ok ()) ((blindStep_flagAll st.pend).congr rfl))

theorem blindRun_parseWord (mbnum w : Nat) : BlindRun fun s => parseWordRun s mbnum w := fun s =>
  blind_ite Iff.rfl (((blindStep_parseWord w).comp blindStep_startCursor).ok () s) rfl

theorem blindRun_parseHeader (mbnum : Nat) : BlindRun fun s => parseHeaderRun s mbnum := fun s =>
  blindRun_parseWord mbnum (headerWord s.fb mbnum) s

theorem blindRun_size (slot n : Nat) : BlindRun fun s => sizeRun s slot n := fun s =>
  blind_ite Iff.rfl ((blindStep_takeCode slot n).ok () s) rfl

/-! DECODE_SUPERBLOCK. -/

theorem blindRun_tiledCheck (mbnum ptr : Nat) : BlindRun fun s => tiledCheck s mbnum ptr := fun s =>
  blind_ite Iff.rfl
    (congrArg (Ran.ok ()) (withoutChecker_ite Iff.rfl ((blindStep_flagV .tileStart 0) s) rfl)) rfl

/-- The sparse and stripe checks change the checker only (44_header_address R270). -/
theorem payloadChecks_only_chk (s : State) (ptr : Nat) :
    OnlyChk s (stripeCount (if s.desc.errorCheck ∧ s.desc.sparse then sparseCheck s ptr else s) (some ptr)) :=
  (OnlyChk.ite (sparseCheck_only_chk s ptr) (.refl s)).trans (stripeCount_only_chk _ _)

theorem blindRun_addressingChecks : BlindRun addressingChecks := by
  intro s
  simp only [addressingChecks]
  refine blind_bind ?_ fun _ => (BlindStep.of_onlyChk fun s1 => payloadChecks_only_chk s1 s.hdr.ptr.toNat).ok ()
  exact blind_ite Iff.rfl (blindRun_tiledCheck s.sb.mbnum s.hdr.ptr.toNat s) rfl

theorem blindRun_decodeSlot (slot : Nat) : BlindRun fun s => decodeSlot s slot := by
  intro s
  have h1 := blindStep_slot slot s
  have hz := ((blindStep_recordViol .slotRange 0).comp (blindStep_zeroBlock (slotAt s.desc slot).plane)).congr h1
  simp only [decodeSlot]
  refine blind_ite Iff.rfl (blind_bind ((blindRun_decodeBlock (fbSource s.fb (s.hdr.off.getD slot 0).toNat)
    (windowBits s (s.hdr.off.getD slot 0).toNat) (slotAt s.desc slot).plane (s.hdr.unc.getD slot false)).congr h1)
    fun n => ?_) ?_
  · exact ((blindStep_place (slotAt s.desc slot)).comp (blindStep_sizeCheck slot n (slotAt s.desc slot).plane)).ok ()
  · exact blind_ite Iff.rfl (congrArg (Ran.ok ()) ((blindStep_place (slotAt s.desc slot)).congr hz)) rfl

theorem blindRun_decodeSlots (l : List Nat) : BlindRun fun s => decodeSlots s l := by
  induction l with
  | nil => exact fun _ => rfl
  | cons slot rest ih => exact fun s => blind_bind (blindRun_decodeSlot slot s) fun _ => ih

theorem blindRun_decodeBody : BlindRun decodeBody := fun s => by
  refine blind_ite Iff.rfl ?_ (blind_bind (blindRun_addressingChecks s) fun _ s1 => ?_)
  · exact (blindStep_writeback.comp ((blindStep_stripeCount none).comp blindStep_fillSolid)).ok () s
  · exact blind_bind (blindRun_decodeSlots (List.range s1.desc.nsubblocks) s1) fun _ => blindStep_writeback.ok ()

theorem blindRun_decodeSuperblock (mbx mby : Nat) : BlindRun fun s => decodeSuperblockRun s mbx mby := fun s => by
  have h : withoutChecker (atSuperblock (withoutChecker s) mbx mby) = withoutChecker (atSuperblock s mbx mby) := rfl
  exact blind_onFatal (blind_bind ((blindRun_parseHeader (mbnumOf s.desc mbx mby)).congr h) fun _ => blindRun_decodeBody)
    (blindStep_loseAll.comp blindStep_loseOut)

/-! The encoders. -/

theorem blindRun_writeHeader (mbnum : Nat) : BlindRun fun s => writeHeaderRun s mbnum := fun _ =>
  blind_ite Iff.rfl (blind_ite Iff.rfl rfl rfl) rfl

theorem blindRun_encodeBlock (base : Nat) (p : Fin 2) : BlindRun fun s => encodeBlockRun s base p := by
  intro s
  cases h : encodeRun s.desc p s.codec.blk with
  | none =>
    have h' : encodeRun (withoutChecker s).desc p (withoutChecker s).codec.blk = none := h
    simp only [encodeBlockRun, h, h']
    rfl
  | some e =>
    have h' : encodeRun (withoutChecker s).desc p (withoutChecker s).codec.blk = some e := h
    simp only [encodeBlockRun, h, h']
    exact blind_ite Iff.rfl rfl rfl

theorem blindRun_storeSlot (slot off : Nat) (p : Fin 2) (e : Encoded) : BlindRun fun s => storeSlot s slot off p e :=
  fun _ => blind_ite Iff.rfl rfl (blind_ite Iff.rfl rfl rfl)

theorem blindRun_encodeSlot (bodyPos slot : Nat) (a : EncLoop) : BlindRun fun s => encodeSlot s bodyPos slot a := by
  intro s
  cases h : encodeRun s.desc (slotAt s.desc slot).plane
      (loadBlock { s with sb := { s.sb with slot := slot } } (slotAt s.desc slot)).codec.blk with
  | none =>
    have h' : encodeRun (withoutChecker s).desc (slotAt (withoutChecker s).desc slot).plane
      (loadBlock { withoutChecker s with sb := { (withoutChecker s).sb with slot := slot } }
        (slotAt (withoutChecker s).desc slot)).codec.blk = none := h
    simp only [encodeSlot, h, h']
    rfl
  | some e =>
    have h' : encodeRun (withoutChecker s).desc (slotAt (withoutChecker s).desc slot).plane
      (loadBlock { withoutChecker s with sb := { (withoutChecker s).sb with slot := slot } }
        (slotAt (withoutChecker s).desc slot)).codec.blk = some e := h
    cases c : copySource s.desc.toDescIn a slot (slotAt s.desc slot).plane e with
    | none =>
      have c' : copySource (withoutChecker s).desc.toDescIn a slot (slotAt (withoutChecker s).desc slot).plane e = none := c
      simp only [encodeSlot, h, h', c, c']
      refine blind_bind (BlindRun.congr (blindRun_storeSlot slot _ _ e) ?_) fun _ => blindRun_return _
      rfl
    | some l =>
      have c' : copySource (withoutChecker s).desc.toDescIn a slot (slotAt (withoutChecker s).desc slot).plane e = some l := c
      simp only [encodeSlot, h, h', c, c']
      rfl

theorem blindRun_encodeSlots (bodyPos : Nat) (l : List Nat) (a : EncLoop) :
    BlindRun fun s => encodeSlots s bodyPos a l := by
  induction l generalizing a with
  | nil => exact fun _ => rfl
  | cons slot rest ih => exact fun s => blind_bind (blindRun_encodeSlot bodyPos slot a s) fun a1 => ih a1

theorem blindRun_encodeSolid (bodyPos : Nat) : BlindRun fun s => encodeSolid s bodyPos := fun _ =>
  blind_ite Iff.rfl rfl rfl

theorem blindRun_encodeNormal (bodyPos : Nat) : BlindRun fun s => encodeNormal s bodyPos := by
  intro s
  simp only [encodeNormal]
  refine blind_bind (BlindRun.congr (blindRun_encodeSlots bodyPos (List.range s.desc.nsubblocks) _) ?_) fun off s2 => ?_
  · rfl
  · exact blind_bind (blindRun_writeHeader s2.sb.mbnum s2) fun _ => blindRun_return off

theorem blindRun_encodeSuperblock (mbx mby bodyPos : Nat) :
    BlindRun fun s => encodeSuperblockRun s mbx mby bodyPos := by
  intro s
  have h := (blindStep_fetch.comp (blindStep_setCoords mbx mby)) s
  simp only [encodeSuperblockRun]
  refine blind_onFatal ?_ blindStep_loseAll
  refine blind_ite Iff.rfl (congrArg (Ran.fatal _) h) (blind_ite Iff.rfl ?_ ?_)
  · exact (blindRun_encodeSolid bodyPos).congr h
  · exact (blindRun_encodeNormal bodyPos).congr h

end Runs

/-! ### Instructions that are blind -/

section Outcomes

variable {α : Type} {s : State} {k k' : Host.Outcome State Fault Refusal}

/-- An outcome without what only the checker sees. -/
def blindOutcome : Host.Outcome State Fault Refusal → Host.Outcome State Fault Refusal
  | .next s => .next (withoutChecker s)
  | .fault r => .fault r
  | .refused r => .refused r

/-- An instruction that gives the same outcome, up to what only the checker sees, from `s` and from `withoutChecker s`. -/
def BlindOp (f : State → Host.Outcome State Fault Refusal) : Prop :=
  ∀ s, blindOutcome (f (withoutChecker s)) = blindOutcome (f s)

theorem blindOutcome_ite {p q : Prop} [Decidable p] [Decidable q] (h : p ↔ q)
    {a b a' b' : Host.Outcome State Fault Refusal} (ha : blindOutcome a = blindOutcome a')
    (hb : blindOutcome b = blindOutcome b') :
    blindOutcome (if p then a else b) = blindOutcome (if q then a' else b') := by
  by_cases hp : p
  · rwa [if_pos hp, if_pos (h.mp hp)]
  · rwa [if_neg hp, if_neg (mt h.mpr hp)]

/-- A body that is blind gives a blind outcome. -/
theorem blind_settle {r r' : Ran α} (h : r.blind = r'.blind) (res : α → Results) (bad : FatalCode → Results) :
    blindOutcome (settle r res bad) = blindOutcome (settle r' res bad) := by
  cases r <;> cases r' <;> simp only [Ran.blind_ok, Ran.blind_fatal, Ran.ok.injEq, Ran.fatal.injEq, reduceCtorEq] at h
  · obtain ⟨rfl, h⟩ := h
    exact congrArg Host.Outcome.next (BlindStep.congr (f := fun s => completeOp s _) (fun _ => rfl) h)
  · obtain ⟨rfl, h⟩ := h
    exact congrArg Host.Outcome.next (BlindStep.congr (f := fun s => raiseFatal s _ _) (fun _ => rfl) h)

theorem blind_ifNotFailed (h : blindOutcome k' = blindOutcome k) :
    blindOutcome (ifNotFailed (withoutChecker s) k') = blindOutcome (ifNotFailed s k) := blindOutcome_ite Iff.rfl rfl h

theorem blind_ifReady (h : blindOutcome k' = blindOutcome k) :
    blindOutcome (ifReady (withoutChecker s) k') = blindOutcome (ifReady s k) :=
  blind_ifNotFailed (blindOutcome_ite Iff.rfl h rfl)

theorem blind_ifInput {g : Bool} (h : blindOutcome k' = blindOutcome k) :
    blindOutcome (ifInput (withoutChecker s) g k') = blindOutcome (ifInput s g k) := blindOutcome_ite Iff.rfl h rfl

theorem blind_ifCtApplies (h : blindOutcome k' = blindOutcome k) :
    blindOutcome (ifCtApplies (withoutChecker s) k') = blindOutcome (ifCtApplies s k) := blindOutcome_ite Iff.rfl h rfl

theorem blind_ifDefined {g : Bool} (h : blindOutcome k' = blindOutcome k) :
    blindOutcome (ifDefined g k') = blindOutcome (ifDefined g k) := blindOutcome_ite Iff.rfl h rfl

theorem blindOp_header (m : Subsampling) (sol : Bool) (w : Nat) : BlindOp (headerElement m sol w) := fun s =>
  blind_ifReady (blind_ifInput (blind_settle (blindRun_parseWord s.port.arg0 w s) _ _))

theorem blindOp_size (m : Subsampling) (n : Nat) : BlindOp (sizeElement m n) := fun s =>
  blind_ifReady (blind_ifInput (blind_ifDefined (blind_ifInput (blind_settle (blindRun_size s.port.arg1 n s) _ _))))

theorem blindOp_block (unc : Bool) (n v : Nat) : BlindOp (blockElement unc n v) := fun s =>
  blind_ifReady (blind_ifInput (blind_settle (blindRun_decodeBlock _ _ (argPlane s) unc s) _ _))

theorem blind_stream {fits defined admits : Bool} {f f' : DecState → DecState} (h : f' = f) :
    blindOutcome (streamElement (withoutChecker s) fits defined admits f') =
      blindOutcome (streamElement s fits defined admits f) := by
  subst h
  exact blind_ifReady (blind_ifInput (blind_ifDefined (blind_ifInput (blind_settle
    (blindRun_finishElement _ s) _ _))))

/-! What an element of a stream reads besides the registers that `withoutChecker` keeps. -/

theorem withoutChecker_port (s : State) : (withoutChecker s).port = s.port := rfl
theorem withoutChecker_codec (s : State) : (withoutChecker s).codec = s.codec := rfl
theorem withoutChecker_compbits (s : State) : (withoutChecker s).desc.compbits = s.desc.compbits := rfl
theorem withoutChecker_argComp (s : State) : argComp (withoutChecker s) = argComp s := rfl
theorem withoutChecker_argNode (s : State) : argNode (withoutChecker s) = argNode s := rfl
theorem withoutChecker_rootCount (s : State) : rootCount (withoutChecker s) = rootCount s := rfl
theorem withoutChecker_rootCountOk (s : State) : rootCountOk (withoutChecker s) = rootCountOk s := rfl
theorem withoutChecker_nodeDefined (s : State) : nodeDefined (withoutChecker s) = nodeDefined s := rfl
theorem withoutChecker_ownBits (s : State) : ownBits (withoutChecker s) = ownBits s := rfl
theorem withoutChecker_elementLimit (s : State) : elementLimit (withoutChecker s) = elementLimit s := rfl
theorem withoutChecker_readL3 (s : State) : readL3 (withoutChecker s).desc = readL3 s.desc := rfl
theorem withoutChecker_readL4D (s : State) : readL4D (withoutChecker s).desc = readL4D s.desc := rfl
theorem withoutChecker_readRoot (s : State) : readRoot (withoutChecker s).desc = readRoot s.desc := rfl
theorem withoutChecker_defaultRoot (s : State) : defaultRoot (withoutChecker s).desc = defaultRoot s.desc := rfl
theorem withoutChecker_writeLeaves (s : State) : writeLeaves (withoutChecker s).desc = writeLeaves s.desc := rfl

theorem blindOp_l3 (w : L3Width) (v : Nat) : BlindOp (l3Element w v) := by
  intro s
  simp only [l3Element, withoutChecker_compbits, withoutChecker_argComp, withoutChecker_ownBits,
    withoutChecker_elementLimit, withoutChecker_readL3, withoutChecker_defaultRoot, withoutChecker_writeLeaves]
  exact blind_stream rfl

theorem blindOp_l4d (d : BitVec 2) : BlindOp (execL4d d) := by
  intro s
  simp only [execL4d, withoutChecker_port, withoutChecker_rootCountOk, withoutChecker_rootCount,
    withoutChecker_argComp, withoutChecker_ownBits, withoutChecker_elementLimit, withoutChecker_readL4D]
  exact blind_stream rfl

theorem blindOp_root (w v : Nat) : BlindOp (execRoot w v) := by
  intro s
  simp only [execRoot, withoutChecker_compbits, withoutChecker_rootCountOk, withoutChecker_rootCount,
    withoutChecker_argComp, withoutChecker_ownBits, withoutChecker_elementLimit, withoutChecker_readRoot,
    withoutChecker_writeLeaves]
  exact blind_stream rfl

theorem blindOp_node (b v : Nat) : BlindOp (nodeElement b v) := by
  intro s
  simp only [nodeElement, withoutChecker_port, withoutChecker_nodeDefined, withoutChecker_rootCount,
    withoutChecker_codec, withoutChecker_argComp, withoutChecker_argNode, withoutChecker_ownBits,
    withoutChecker_elementLimit, withoutChecker_writeLeaves]
  exact blind_stream rfl

theorem blindOp_init : BlindOp execInitDescriptor := fun _ => blindOutcome_ite Iff.rfl rfl rfl

theorem blindOp_exec (i : Instr) : BlindOp (exec i) := by
  intro s
  cases i
  case bsRead => exact blind_ifNotFailed rfl
  case bsReadSigned => exact blind_ifNotFailed rfl
  case bsWrite => exact blind_ifNotFailed rfl
  case decodeBlock p u =>
    exact blind_ifReady (blind_ifInput (blind_settle (blindRun_decodeBlock _ _ p u s) _ _))
  case encodeBlock p =>
    exact blind_ifReady (blind_ifInput (blind_ifDefined (blind_ifInput
      (blind_settle (blindRun_encodeBlock s.port.arg0 p s) _ _))))
  case decodeSuperblock =>
    exact blind_ifReady (blind_ifInput (blind_settle (blindRun_decodeSuperblock s.port.arg0 s.port.arg1 s) _ _))
  case encodeSuperblock =>
    exact blind_ifReady (blind_ifInput
      (blind_settle (blindRun_encodeSuperblock s.port.arg0 s.port.arg1 s.port.arg2 s) _ _))
  case parseHeader => exact blind_ifReady (blind_settle (blindRun_parseHeader s.port.arg0 s) _ _)
  case writeHeader => exact blind_ifReady (blind_ifDefined (blind_settle (blindRun_writeHeader s.port.arg0 s) _ _))
  case resolveAddr => exact blind_ifReady (blind_ifInput rfl)
  case ctForward => exact blind_ifReady (blind_ifCtApplies (blind_ifDefined (blind_ifInput rfl)))
  case ctInverse =>
    exact blind_ifReady (blind_ifCtApplies (blind_ifDefined (blind_ifInput
      (blind_settle (blindRun_ctInverse ctComps false s) _ _))))
  case initDescriptor => exact blindOp_init s
  case getMaxSbPayload => exact blind_ifReady rfl
  case getMaxFrameSize => exact blind_ifReady rfl
  case getUncompFrameSize => exact blind_ifReady rfl
  case pad => exact blind_ifReady rfl
  case headerNormalNone => exact blindOp_header _ _ _ s
  case headerNormalS420 => exact blindOp_header _ _ _ s
  case headerNormalS422 => exact blindOp_header _ _ _ s
  case headerSolid => exact blindOp_header _ _ _ s
  case sizeCopy => exact blindOp_size _ _ s
  case sizeUncomp => exact blindOp_size _ _ s
  case sizeComp => exact blindOp_size _ _ s
  case blockUncomp => exact blindOp_block _ _ _ s
  case blockComp => exact blindOp_block _ _ _ s
  case l4d d => exact blindOp_l4d d s
  case root w v => exact blindOp_root w v s
  case nodeB0 => exact blindOp_node _ _ s
  case nodeB1 => exact blindOp_node _ _ s
  case nodeBN => exact blindOp_node _ _ s
  all_goals exact blindOp_l3 _ _ s

end Outcomes

/-- Settles O60: every instruction is blind to what only the checker sees. -/
theorem checkerNeverChangesResults : Obligations.CheckerNeverChangesResults := by
  intro i s t e
  have h := blindOp_exec i s
  rw [e] at h
  cases hu : exec i (withoutChecker s) with
  | next u =>
    rw [hu] at h
    exact ⟨u, rfl, Host.Outcome.next.inj h⟩
  | fault r => rw [hu] at h; cases h
  | refused r => rw [hu] at h; cases h

end Sys2Proof.Machine

namespace Sys2Proof

/-! ### Decoding what the encoder writes (30_encoding R92, R93, R96 to R107) -/

section RoundTrip

/-- A field that is written whole is read back whole. -/
theorem ofNat_bitField_toNat {n : Nat} (c : BitVec n) : BitVec.ofNat n (bitField c.toNat 0 n) = c := by
  rw [bitField_zero c.isLt, BitVec.ofNat_toNat, BitVec.setWidth_eq]

/-- The bits of a well-formed instruction fit the width of its format. -/
theorem Instr.bits_lt_width (i : Instr) : i.wf = true → i.bits < 2 ^ i.form.width := by
  cases i
  case bsRead n => exact Laws.Fits.bsRead n
  case bsReadSigned n => exact Laws.Fits.bsReadSigned n
  case bsWrite n => exact Laws.Fits.bsWrite n
  case decodeBlock p u => exact Laws.Fits.decodeBlock p u
  case encodeBlock p => exact Laws.Fits.encodeBlock p
  case headerNormalNone p cs => exact Laws.Fits.headerNormalNone p cs
  case headerNormalS420 p cs => exact Laws.Fits.headerNormalS420 p cs
  case headerNormalS422 p cs => exact Laws.Fits.headerNormalS422 p cs
  case headerSolid m h => exact Laws.Fits.headerSolid m h
  case sizeCopy m => exact Laws.Fits.sizeCopy m
  case sizeUncomp m => exact Laws.Fits.sizeUncomp m
  case sizeComp m n => exact Laws.Fits.sizeComp m n
  case blockUncomp n v => exact Laws.Fits.blockUncomp n v
  case blockComp n v => exact Laws.Fits.blockComp n v
  case l3LiteralW2 c => exact Laws.Fits.l3LiteralW2 c
  case l3LiteralW3 c => exact Laws.Fits.l3LiteralW3 c
  case l3LiteralW4 c => exact Laws.Fits.l3LiteralW4 c
  case l3LiteralW5 c => exact Laws.Fits.l3LiteralW5 c
  case l4d d => exact Laws.Fits.l4d d
  case root w v => exact Laws.Fits.root w v
  case nodeB1 d => exact Laws.Fits.nodeB1 d
  case nodeBN b z planes => exact Laws.Fits.nodeBN b z planes
  all_goals exact fun _ => by decide

/-- The bytes that memory holds are the bits, since the last byte is filled up with zeros (20_memory R65). -/
theorem decodeBytes_encode {i : Instr} (h : i.bits < 2 ^ i.form.width) :
    decodeBytes i.form (encode i) = decode i.form i.bits := by
  have fits : i.bits < 256 ^ ((i.form.width + 7) / 8) :=
    calc i.bits < 2 ^ i.form.width := h
      _ ≤ 2 ^ (8 * ((i.form.width + 7) / 8)) := Nat.pow_le_pow_right (by decide) (by omega)
      _ = 256 ^ ((i.form.width + 7) / 8) := pow_mul 2 8 _
  rw [decodeBytes, encode, bytesToNat_natToBytes, Nat.mod_eq_of_lt fits]

/-! Command words. -/

/-- The fields of a command word that holds an operation number and `nbits` (30_encoding R92). -/
theorem cmd_fields {op : Nat} (hop : op < 2 ^ 8) (n : BitVec 6) :
    bitField (op + 2 ^ 10 * n.toNat) 16 16 = 0 ∧ bitField (op + 2 ^ 10 * n.toNat) 10 6 = n.toNat ∧
      bitField (op + 2 ^ 10 * n.toNat) 0 8 = op := by
  have hn := n.isLt
  simp only [bitField, Nat.shiftRight_eq_div_pow]
  omega

/-- What a legal word with `nbits` is, by its operation number. -/
theorem decodeCmd_bs {w : Nat} {n : BitVec 6} (reserved : bitField w 16 16 = 0) (nbits : bitField w 10 6 = n.toNat)
    (legal : n.toNat ≤ 32) :
    (bitField w 0 8 = 0x01 → decodeCmd w = .ok (.bsRead n)) ∧
      (bitField w 0 8 = 0x02 → decodeCmd w = .ok (.bsReadSigned n)) ∧
      (bitField w 0 8 = 0x03 → decodeCmd w = .ok (.bsWrite n)) := by
  refine ⟨fun op => ?_, fun op => ?_, fun op => ?_⟩ <;> simp [decodeCmd, reserved, nbits, op, legal]

theorem decodeCmd_bsRead {n : BitVec 6} (h : n.toNat ≤ 32) :
    decodeCmd (Instr.bsRead n).bits = .ok (.bsRead n) := by
  obtain ⟨reserved, nbits, op⟩ := cmd_fields (op := 0x01) (by decide) n
  exact (decodeCmd_bs reserved nbits h).1 op

theorem decodeCmd_bsReadSigned {n : BitVec 6} (h : n.toNat ≤ 32) :
    decodeCmd (Instr.bsReadSigned n).bits = .ok (.bsReadSigned n) := by
  obtain ⟨reserved, nbits, op⟩ := cmd_fields (op := 0x02) (by decide) n
  exact (decodeCmd_bs reserved nbits h).2.1 op

theorem decodeCmd_bsWrite {n : BitVec 6} (h : n.toNat ≤ 32) :
    decodeCmd (Instr.bsWrite n).bits = .ok (.bsWrite n) := by
  obtain ⟨reserved, nbits, op⟩ := cmd_fields (op := 0x03) (by decide) n
  exact (decodeCmd_bs reserved nbits h).2.2 op

/-- The plane and the form of a DECODE_BLOCK are read back. -/
theorem decodeCmd_decodeBlock (p : Fin 2) (u : Bool) :
    decodeCmd (Instr.decodeBlock p u).bits = .ok (.decodeBlock p u) := by
  revert p u
  decide

theorem decodeCmd_encodeBlock (p : Fin 2) : decodeCmd (Instr.encodeBlock p).bits = .ok (.encodeBlock p) := by
  revert p
  decide

/-! Headers. -/

/-- The size codes of a packed header are read back, slot by slot. -/
theorem ofFn_header_codes {pb w n : Nat} (p : BitVec pb) (cs : Vector (BitVec w) n) :
    (Vector.ofFn fun s : Fin n =>
      BitVec.ofNat w (bitField (p.toNat + 2 ^ pb * packCodes w (cs.toList.map BitVec.toNat)) (pb + w * s) w)) = cs := by
  ext1 k hk
  have hl : k < (cs.toList.map BitVec.toNat).length := by simpa using hk
  rw [Vector.getElem_ofFn, header_code p.isLt (codes_lt cs) k hl]
  simp

/-- The pointer of a packed header is read back. -/
theorem ofNat_header_ptr {pb w n : Nat} (p : BitVec pb) (cs : Vector (BitVec w) n) :
    BitVec.ofNat pb (bitField (p.toNat + 2 ^ pb * packCodes w (cs.toList.map BitVec.toNat)) 0 pb) = p := by
  rw [header_ptr w _ p.isLt, BitVec.ofNat_toNat, BitVec.setWidth_eq]

/-- Where the solid form is not allowed, a header of 128 bits is read in its normal form. -/
theorem decode_hdr_normal (m : Subsampling) {h : Nat} (hh : h < 2 ^ 128) :
    decode (.hdr m false) h = .ok (decodeHeaderNormal m h) := by
  rw [decode, bitField_zero hh]
  rfl

/-- A header whose slot-0 code is 0 is read as solid where that form is allowed (30_encoding R98). -/
theorem decode_hdr_solid (m : Subsampling) (h : BitVec 128) (h0 : (h.toNat >>> m.ptrBits) % 2 ^ m.sizeBits = 0) :
    decode (.hdr m true) h.toNat = .ok (.headerSolid m h) := by
  have code : headerCode m h.toNat 0 = 0 := h0
  rw [decode, decodeHeader, bitField_zero h.isLt, code]
  simp

/-! Size fields. -/

theorem decodeSize_copy (m : Subsampling) : decodeSize m 0 = .sizeCopy m := by
  cases m <;> rfl

theorem decodeSize_uncomp (m : Subsampling) : decodeSize m 1 = .sizeUncomp m := by
  cases m <;> rfl

/-- A code of at least 2 is a compressed size (30_encoding R97). -/
theorem decodeSize_comp {m : Subsampling} {n : BitVec 6} (h2 : 2 ≤ n.toNat) (hn : n.toNat < 2 ^ m.sizeBits) :
    decodeSize m n.toNat = .sizeComp m n := by
  simp only [decodeSize, bitField_zero hn]
  rw [if_neg (by omega), if_neg (by omega), BitVec.ofNat_toNat, BitVec.setWidth_eq]

/-! The codes of `L3`: a literal is neither of the two sentinels above it (30_encoding R103). -/

/-- A code below both sentinels is neither. -/
theorem ite_sentinels {α : Type} {code top : Nat} (h : code < top) (uniform standard literal : α) :
    (if code = top + 1 then uniform else if code = top then standard else literal) = literal := by
  rw [if_neg (by omega), if_neg (by omega)]

theorem decodeL3_literalW2 {c : BitVec 2} (h : c.toNat < 2) : decodeL3 .w2 c.toNat = .l3LiteralW2 c := by
  have field : bitField c.toNat 0 L3Width.w2.bits = c.toNat := bitField_zero c.isLt
  simp only [decodeL3, field, BitVec.ofNat_toNat, BitVec.setWidth_eq]
  exact ite_sentinels h _ _ _

theorem decodeL3_literalW3 {c : BitVec 3} (h : c.toNat < 6) : decodeL3 .w3 c.toNat = .l3LiteralW3 c := by
  have field : bitField c.toNat 0 L3Width.w3.bits = c.toNat := bitField_zero c.isLt
  simp only [decodeL3, field, BitVec.ofNat_toNat, BitVec.setWidth_eq]
  exact ite_sentinels h _ _ _

theorem decodeL3_literalW4 {c : BitVec 4} (h : c.toNat < 14) : decodeL3 .w4 c.toNat = .l3LiteralW4 c := by
  have field : bitField c.toNat 0 L3Width.w4.bits = c.toNat := bitField_zero c.isLt
  simp only [decodeL3, field, BitVec.ofNat_toNat, BitVec.setWidth_eq]
  exact ite_sentinels h _ _ _

theorem decodeL3_literalW5 {c : BitVec 5} (h : c.toNat < 30) : decodeL3 .w5 c.toNat = .l3LiteralW5 c := by
  have field : bitField c.toNat 0 L3Width.w5.bits = c.toNat := bitField_zero c.isLt
  simp only [decodeL3, field, BitVec.ofNat_toNat, BitVec.setWidth_eq]
  exact ite_sentinels h _ _ _

/-! Nodes. -/

theorem decodeNode_one (d : BitVec 4) : decodeNode 1 d.toNat = .nodeB1 d := by
  rw [decodeNode, if_neg (by decide), if_pos rfl, ofNat_bitField_toNat]

/-- The zero-code and the planes of a node of at least two bits per child (30_encoding R106). -/
theorem decodeNode_planes {b planes : Nat} (z : BitVec 2) (hb : 2 ≤ b) (hp : planes < 2 ^ (3 * b)) :
    decodeNode b (z.toNat + 2 ^ 2 * planes) = .nodeBN b z planes := by
  have hz : z.toNat < 4 := z.isLt
  have zero : bitField (z.toNat + 2 ^ 2 * planes) 0 2 = z.toNat := by
    rw [bitField, Nat.shiftRight_zero]
    omega
  have rest : bitField (z.toNat + 2 ^ 2 * planes) 2 (3 * b) = planes := by
    rw [bitField, Nat.shiftRight_eq_div_pow, show (z.toNat + 2 ^ 2 * planes) / 2 ^ 2 = planes by omega,
      Nat.mod_eq_of_lt hp]
  rw [decodeNode, if_neg (by omega), if_neg (by omega), zero, rest, BitVec.ofNat_toNat, BitVec.setWidth_eq]

/-! All instructions. -/

/-- The decoder reads every well-formed instruction back from its bits. -/
theorem decode_bits (i : Instr) (h : i.wf = true) : decode i.form i.bits = .ok i := by
  cases i
  case bsRead n => exact decodeCmd_bsRead (of_decide_eq_true h)
  case bsReadSigned n => exact decodeCmd_bsReadSigned (of_decide_eq_true h)
  case bsWrite n => exact decodeCmd_bsWrite (of_decide_eq_true h)
  case decodeBlock p u => exact decodeCmd_decodeBlock p u
  case encodeBlock p => exact decodeCmd_encodeBlock p
  case headerNormalNone p cs =>
    refine (decode_hdr_normal .NONE (headerBits_lt p cs rfl)).trans (congrArg Except.ok ?_)
    exact congrArg₂ Instr.headerNormalNone (ofNat_header_ptr p cs) (ofFn_header_codes p cs)
  case headerNormalS420 p cs =>
    refine (decode_hdr_normal .S420 (headerBits_lt p cs rfl)).trans (congrArg Except.ok ?_)
    exact congrArg₂ Instr.headerNormalS420 (ofNat_header_ptr p cs) (ofFn_header_codes p cs)
  case headerNormalS422 p cs =>
    refine (decode_hdr_normal .S422 (headerBits_lt p cs rfl)).trans (congrArg Except.ok ?_)
    exact congrArg₂ Instr.headerNormalS422 (ofNat_header_ptr p cs) (ofFn_header_codes p cs)
  case headerSolid m w => exact decode_hdr_solid m w (of_decide_eq_true h)
  case sizeCopy m => exact congrArg Except.ok (decodeSize_copy m)
  case sizeUncomp m => exact congrArg Except.ok (decodeSize_uncomp m)
  case sizeComp m n =>
    obtain ⟨h2, hn⟩ := of_decide_eq_true h
    exact congrArg Except.ok (decodeSize_comp h2 hn)
  case blockUncomp n v =>
    exact congrArg (fun x => Except.ok (Instr.blockUncomp n x)) (bitField_zero (of_decide_eq_true h))
  case blockComp n v =>
    exact congrArg (fun x => Except.ok (Instr.blockComp n x)) (bitField_zero (of_decide_eq_true h))
  case l3LiteralW2 c => exact congrArg Except.ok (decodeL3_literalW2 (of_decide_eq_true h))
  case l3LiteralW3 c => exact congrArg Except.ok (decodeL3_literalW3 (of_decide_eq_true h))
  case l3LiteralW4 c => exact congrArg Except.ok (decodeL3_literalW4 (of_decide_eq_true h))
  case l3LiteralW5 c => exact congrArg Except.ok (decodeL3_literalW5 (of_decide_eq_true h))
  case l4d d => exact congrArg (fun x => Except.ok (Instr.l4d x)) (ofNat_bitField_toNat d)
  case root w v =>
    obtain ⟨-, -, hv⟩ := of_decide_eq_true h
    exact congrArg (fun x => Except.ok (Instr.root w x)) (bitField_zero hv)
  case nodeB1 d => exact congrArg Except.ok (decodeNode_one d)
  case nodeBN b z planes =>
    obtain ⟨hb, -, hp⟩ := of_decide_eq_true h
    exact congrArg Except.ok (decodeNode_planes z hb hp)
  all_goals rfl

end RoundTrip

/-- Settles O1: the bits of each instruction fit its format and decode to it, and its bytes hold those bits. -/
theorem decodeEncodeRoundTrip : Obligations.DecodeEncodeRoundTrip := by
  intro i h
  have fits := i.bits_lt_width h
  exact ⟨fits, decode_bits i h, (decodeBytes_encode fits).trans (decode_bits i h)⟩

end Sys2Proof

namespace Sys2Proof.Machine

/-! ### Who writes memory (20_memory R61, R62) -/

section Writers

variable {i : Instr} {s t : State}

theorem DecodeChange.fb (h : DecodeChange s t) : t.fb = s.fb := by rw [h.same]

theorem DecodeChange.out (h : DecodeChange s t) : t.out = s.out := by rw [h.same]

theorem DecodeChange.desc (h : DecodeChange s t) : t.desc = s.desc := by rw [h.same]

theorem EncodeChange.out (h : EncodeChange s t) : t.out = s.out := by rw [h.same]

@[simp] theorem encodeStart_out (i : Instr) (s : State) : (encodeStart i s).out = s.out := by
  unfold encodeStart
  split <;> rfl

/-- An encoding body writes below the buffer's end only. -/
theorem EncodeChange.below (h : EncodeChange (encodeStart i s) t) {a : Nat} (ha : bufSize s ≤ a) :
    memGet t.fb a = memGet s.fb a := by
  have start : bufSize (encodeStart i s) = bufSize s ∧ (encodeStart i s).fb = s.fb := by
    unfold encodeStart
    split <;> exact ⟨rfl, rfl⟩
  rw [h.fb.below a (start.1 ▸ ha), start.2]

theorem SameOut.of_eq (h : t.out = s.out) : SameOut s t := fun _ _ => by rw [h]

/-- What instruction `i`, run from `s` to `t`, has written to memory. -/
structure WritesMemory (i : Instr) (s t : State) : Prop where
  fb : writesFb i = false → t.fb = s.fb
  below : ∀ a, bufSize s ≤ a → memGet t.fb a = memGet s.fb a
  out : t.out = s.out ∨ i = .decodeSuperblock ∧ Ready s ∧ inGrid s.desc s.port.arg0 s.port.arg1 = true ∧
    OutOutside s t s.port.arg0 s.port.arg1

/-- An instruction that wrote no memory. -/
theorem WritesMemory.unchanged (hf : t.fb = s.fb) (ho : t.out = s.out) : WritesMemory i s t :=
  ⟨fun _ => hf, fun _ _ => by rw [hf], .inl ho⟩

/-- The sample buffers after a decoding change and a write inside the superblock that it has reached. -/
theorem outOutside_atSuperblock {u : State} {mbx mby : Nat} (h : DecodeChange (atSuperblock s mbx mby) t)
    (ho : OutOutside t u t.sb.mbx t.sb.mby) : OutOutside s u mbx mby := by
  obtain ⟨hx, hy, -, -⟩ := h.sb
  have hd : t.desc = s.desc := h.desc
  intro c k hk
  rw [ho c k (by rw [hx, hy, hd]; exact hk), h.out]
  rfl

/-- What an instruction writes to memory. -/
theorem exec_writesMemory (e : exec i s = .next t) : WritesMemory i s t := by
  suffices h : NextAll (WritesMemory i s) (exec i s) from h t e
  by_cases hi : i = .initDescriptor
  · subst hi
    show NextAll _ (execInitDescriptor s)
    simp only [execInitDescriptor]
    split <;> exact nextAll_next.mpr (.unchanged rfl rfl)
  cases exec_cases i s hi
  case undefined e => rw [e]; exact nextAll_fault _
  case bits fb w e => rw [e]; exact nextAll_next.mpr ⟨w, fb.below, .inl rfl⟩
  case decoded c e => rw [e]; exact nextAll_next.mpr (.unchanged c.fb c.out)
  case decodeFailed c e => rw [e]; exact nextAll_next.mpr (.unchanged c.fb c.out)
  case encoded c w e =>
    rw [e]
    exact nextAll_next.mpr ⟨w, fun _ ha => c.below ha, .inl (c.out.trans (encodeStart_out i s))⟩
  case encodeFailed c w e =>
    rw [e]
    exact nextAll_next.mpr ⟨fun w' => absurd (w.symm.trans w') (by decide), fun _ ha => c.below ha,
      .inl (c.out.trans (encodeStart_out i s))⟩
  case superblock u h d g c e =>
    rw [e]
    refine nextAll_next.mpr ⟨fun _ => c.fb, fun a _ => congrArg (memGet · a) c.fb, .inr ⟨d, h, g, ?_⟩⟩
    exact outOutside_atSuperblock c (writeback_outside u)
  case superblockFailed u h d g c e =>
    rw [e]
    refine nextAll_next.mpr ⟨fun _ => c.fb, fun a _ => congrArg (memGet · a) c.fb, .inr ⟨d, h, g, ?_⟩⟩
    exact outOutside_atSuperblock c (loseOut_outside u)
  all_goals
    rename_i e
    rw [e]
    exact nextAll_next.mpr (.unchanged rfl rfl)

theorem writesFb_eq_false (hw : ∀ n, i ≠ .bsWrite n) (hb : ∀ p, i ≠ .encodeBlock p) (hs : i ≠ .encodeSuperblock)
    (hh : i ≠ .writeHeader) : writesFb i = false := by
  cases i
  case bsWrite n => exact absurd rfl (hw n)
  case encodeBlock p => exact absurd rfl (hb p)
  case encodeSuperblock => exact absurd rfl hs
  case writeHeader => exact absurd rfl hh
  all_goals rfl

end Writers

/-- Settles O58, from what each instruction writes to memory. -/
theorem memoryWriters : Obligations.MemoryWriters := by
  intro i s t e
  obtain ⟨hfb, hbelow, hout⟩ := exec_writesMemory e
  refine ⟨fun hw hb hs hh a => by rw [hfb (writesFb_eq_false hw hb hs hh)], hbelow,
    fun hi => ?_, fun hr => ?_, fun _ => ?_⟩
  · exact .of_eq (hout.resolve_right fun ⟨d, _⟩ => hi d)
  · exact .of_eq (hout.resolve_right fun ⟨_, r, g, _⟩ => hr ⟨r, of_decide_eq_true g⟩)
  · rcases hout with ho | ⟨_, _, _, ho⟩
    · exact fun c k _ => SameOut.of_eq ho c k
    · exact ho

end Sys2Proof.Machine

namespace Sys2Proof

/-! ### Which command words are legal (30_encoding R92, R93) -/

/-- The operation numbers of R93, each with what the fields of word `w` make of it. -/
def commandTable (w : Nat) : List (Nat × Instr) :=
  let nb := BitVec.ofNat 6 (bitField w 10 6)
  let plane : Fin 2 := Fin.ofNat 2 (bitField w 8 1)
  [(0x01, .bsRead nb), (0x02, .bsReadSigned nb), (0x03, .bsWrite nb),
    (0x10, .decodeBlock plane (bitField w 9 1 == 1)), (0x11, .encodeBlock plane),
    (0x20, .decodeSuperblock), (0x21, .encodeSuperblock), (0x30, .parseHeader), (0x31, .writeHeader),
    (0x32, .resolveAddr), (0x40, .ctForward), (0x41, .ctInverse), (0x50, .initDescriptor),
    (0x51, .getMaxSbPayload), (0x52, .getMaxFrameSize), (0x53, .getUncompFrameSize)]

/-- The decoder of command words is that table, behind the checks of the reserved bits and of `nbits`. -/
theorem decodeCmd_eq_ok_iff {w : Nat} {i : Instr} : decodeCmd w = .ok i ↔
    bitField w 16 16 = 0 ∧ bitField w 10 6 ≤ 32 ∧ (bitField w 0 8, i) ∈ commandTable w := by
  unfold decodeCmd
  split
  · next h => simp [h]
  · next h0 =>
    split
    · next h => simp [Nat.not_le.mpr h]
    · next h =>
      rw [not_not] at h0
      simp only [h0, Nat.not_lt.mp h, true_and, commandTable]
      generalize bitField w 0 8 = op
      split
      case h_17 =>
        refine iff_of_false (by simp) fun hm => ?_
        have := List.mem_map_of_mem (f := Prod.fst) hm
        simp_all
      all_goals simp [eq_comm]

/-- Every operation is a command word with its number in the low byte. -/
theorem commandTable_op (w : Nat) : ∀ e ∈ commandTable w, e.2.form = .cmd ∧ e.2.bits % 2 ^ 8 = e.1 := by
  simp [commandTable, Instr.form, Instr.bits, Nat.add_mod, Nat.mul_mod]

/-- Every operation is well formed where `nbits` is at most 32. -/
theorem commandTable_wf {w : Nat} (h : bitField w 10 6 ≤ 32) : ∀ e ∈ commandTable w, e.2.wf = true := by
  simp [commandTable, Instr.wf]
  omega

/-- The bits of a command word, one field beside the other. -/
theorem bitField_cmd {w : Nat} (h : w < 2 ^ 32) : bitField w 16 16 = w / 2 ^ 16 ∧ bitField w 10 6 = w / 2 ^ 10 % 2 ^ 6 ∧
    bitField w 8 1 = w / 2 ^ 8 % 2 ∧ bitField w 9 1 = w / 2 ^ 9 % 2 ∧ bitField w 0 8 = w % 2 ^ 8 := by
  simp only [bitField, Nat.shiftRight_eq_div_pow, pow_zero, pow_one, Nat.div_one, and_true]
  omega

/-- What the operations that have fields hold in them. -/
theorem commandTable_fields {w op : Nat} {i : Instr} (h : (op, i) ∈ commandTable w) :
    (∀ n, i = .bsRead n ∨ i = .bsReadSigned n ∨ i = .bsWrite n → n.toNat = bitField w 10 6) ∧
    (∀ p u, i = .decodeBlock p u → p.val = bitField w 8 1 ∧ u = (bitField w 9 1 == 1)) ∧
    (∀ p, i = .encodeBlock p → p.val = bitField w 8 1) := by
  have nbits : (BitVec.ofNat 6 (bitField w 10 6)).toNat = bitField w 10 6 := Nat.mod_eq_of_lt (Machine.bitField_lt w 10 6)
  have plane : (Fin.ofNat 2 (bitField w 8 1)).val = bitField w 8 1 := Nat.mod_eq_of_lt (Machine.bitField_lt w 8 1)
  refine ⟨?_, ?_, ?_⟩
  · rintro n (rfl | rfl | rfl) <;> simp_all [commandTable]
  · rintro p u rfl
    simp_all [commandTable]
  · rintro p rfl
    simp_all [commandTable]

/-- Settles O2: the decoder is the table of operations, and the table keeps every field. -/
theorem commandWordsAccepted : Obligations.CommandWordsAccepted := by
  intro w hw
  obtain ⟨reserved, nbits, plane, unc, op⟩ := bitField_cmd hw
  have dec : ∀ i, decode .cmd w = .ok i ↔ _ := fun i => decodeCmd_eq_ok_iff
  refine ⟨?_, fun i hi => ?_⟩
  · simp only [dec, exists_and_left, reserved, nbits, op]
    refine and_congr_right fun _ => and_congr_right fun _ => ?_
    simp [commandTable, exists_or]
  · obtain ⟨-, hn, hi⟩ := (dec i).mp hi
    obtain ⟨form, bits⟩ := commandTable_op w _ hi
    have fields := commandTable_fields hi
    rw [nbits, plane, unc] at fields
    exact ⟨commandTable_wf hn _ hi, form, bits.trans op, fields⟩

end Sys2Proof

namespace Sys2Proof.Machine

/-! ### Illegal command words (30_encoding R92) and padding (R107) -/

/-- Settles O5: an illegal word is one fatal error, whatever its place in the decoder's checks. -/
theorem illegalCommandIsBadCommand : Obligations.IllegalCommandIsBadCommand := by
  intro s w rest e hin hdec
  simp only [step, stepState, hin, hostAction, runCommand, hdec, raiseFatal, failOp, FatalRegs.after, FatalCode.value]

/-- Settles O38: in a ready state the gate lets PAD through to its completion. -/
theorem padElement : Obligations.PadElement := fun _ h => ifReady_ready h.1 h.2

end Sys2Proof.Machine

namespace Sys2Proof.Machine

/-! ### The trees and the samples of one component: what the register writes leave to read (10_state R32 to R35) -/

section Registers

variable {x : Codec} {c e : Fin 4}

/-- A row that is written reads what was written. -/
theorem row_set_self {α : Type} (v : Vector α 4) (c : Fin 4) (a : α) : (v.set c a)[c] = a := by simp

theorem row_set_ne {α : Type} (v : Vector α 4) (a : α) (h : e ≠ c) : (v.set c a)[e] = v[e] :=
  Vector.getElem_set_ne _ _ fun z => h (Fin.ext z.symm)

theorem setRootCount_of_neg (x : Codec) (c : Fin 4) {v : Int} (h : v < 0) :
    (x.setRootCount c v).bctree = x.bctree.set c #v[v, 0, 0, 0, 0] := by
  rw [Codec.setRootCount, if_pos h]

theorem setRootCount_of_nonneg (x : Codec) (c : Fin 4) {v : Int} (h : 0 ≤ v) :
    (x.setRootCount c v).bctree = x.bctree.set c ((x.bctree[c]).set 0 v) := by
  rw [Codec.setRootCount, if_neg (Int.not_lt.mpr h)]
  rfl

/-- The root count reads back, sentinel or literal. -/
theorem setRootCount_root (x : Codec) (c : Fin 4) (v : Int) : ((x.setRootCount c v).bctree[c])[0] = v := by
  rcases Int.lt_or_le v 0 with h | h
  · rw [setRootCount_of_neg x c h]
    simp
  · rw [setRootCount_of_nonneg x c h]
    simp

@[simp] theorem setRootCount_mintree (x : Codec) (c : Fin 4) (v : Int) : (x.setRootCount c v).mintree = x.mintree := by
  unfold Codec.setRootCount
  split <;> rfl

@[simp] theorem setRootCount_blk (x : Codec) (c : Fin 4) (v : Int) : (x.setRootCount c v).blk = x.blk := by
  unfold Codec.setRootCount
  split <;> rfl

/-- The tree after a root value: the value, then zeros. -/
theorem setRoot_entry (x : Codec) (c : Fin 4) (v : Nat) {k : Nat} (h : k < 21) :
    ((x.setRoot c v).mintree[c]).getD k 0 = if k = 0 then v else 0 := by
  simp [Codec.setRoot, Vector.getD, h]

theorem leafSum_setRoot (x : Codec) (c : Fin 4) (v : Nat) (i : Fin 16) : leafSum (x.setRoot c v).mintree[c] i = v := by
  have hq : quadOf i < 4 ∧ leafOf i < 4 := by
    unfold quadOf leafOf
    omega
  simp only [leafSum]
  rw [setRoot_entry _ _ _ (by decide), setRoot_entry _ _ _ (by omega), setRoot_entry _ _ _ (by omega)]
  simp

/-- The samples of a component that was written from its tree (41_subblock_decode R159). -/
theorem setLeaves_sample (x : Codec) (c : Fin 4) {n : Nat} (hn : n ≤ 15) (i : Fin 16) :
    ((x.setLeaves c n).blk[c][i]).toNat = leafSum x.mintree[c] i % 2 ^ n := by
  have h : leafSum x.mintree[c] i % 2 ^ n < 2 ^ 32 :=
    (Nat.mod_lt _ (Nat.two_pow_pos n)).trans_le (Nat.pow_le_pow_right (by decide) (by omega))
  simpa [Codec.setLeaves] using Nat.mod_eq_of_lt h

/-- A component whose tree is one root value has sixteen samples of it (41_subblock_decode R162). -/
theorem setRoot_setLeaves_sample (x : Codec) (c : Fin 4) {v n : Nat} (hn : n ≤ 15) (hv : v < 2 ^ n) (i : Fin 16) :
    (((x.setRoot c v).setLeaves c n).blk[c][i]).toNat = v := by
  rw [setLeaves_sample _ _ hn, leafSum_setRoot, Nat.mod_eq_of_lt hv]

theorem setRoot_mintree_ne (x : Codec) (v : Nat) (h : e ≠ c) : (x.setRoot c v).mintree[e] = x.mintree[e] :=
  row_set_ne _ _ h

theorem setLeaves_blk_ne (x : Codec) (n : Nat) (h : e ≠ c) : (x.setLeaves c n).blk[e] = x.blk[e] :=
  row_set_ne _ _ h

end Registers

/-! ### An element of a stream that completes (log 11) -/

section Stream

variable {s : State} {st : DecState} {r : Results}

/-- `s` after an element of a stream that left the decoder at `st` and completed with results `r`. -/
def elementDone (s : State) (st : DecState) (r : Results := Results.none) : State :=
  completeOp (flagAll { s with cur := st.cur.reg, codec := st.codec } st.pend) r

@[simp] theorem elementDone_cur (s : State) (st : DecState) : (elementDone s st r).cur = st.cur.reg :=
  (completeOp_cur _ _).trans (flagAll_cur _ _)

@[simp] theorem elementDone_codec (s : State) (st : DecState) : (elementDone s st r).codec = st.codec :=
  (completeOp_codec _ _).trans (flagAll_codec _ _)

theorem elementDone_doneWith (s : State) (st : DecState) : DoneWith s (elementDone s st r) r := by
  simp [DoneWith, elementDone]

theorem elementDone_onlyCodec (s : State) (st : DecState) : OnlyCodec s (elementDone s st r) := by
  have h := (flagAll_only_chk { s with cur := st.cur.reg, codec := st.codec } st.pend).same
  rw [OnlyCodec, elementDone, h]
  rfl

theorem elementDone_flags (s : State) (st : DecState) :
    Flags s (elementDone s st r) fun x => x ∈ st.pend.map Prod.fst :=
  flagAll_flags { s with cur := st.cur.reg, codec := st.codec } st.pend

theorem elementDone_chk (h : st.pend = []) : (elementDone s st r).chk = s.chk := by
  rw [elementDone, h]
  rfl

/-- A violation that is pending under a condition. -/
theorem mem_pend_ite {p : Prop} [Decidable p] (x v : Viol) (c : Nat) :
    v ∈ (if p then [(x, c)] else []).map Prod.fst ↔ v = x ∧ p := by
  by_cases h : p <;> simp [h]

/-- In a context that admits it, an element that leaves the decoder at `st` inside the buffer completes. -/
theorem streamElement_completes {fits defined admits : Bool} {f : DecState → DecState} (hr : Ready s)
    (hc : compOk s = true) (hf : fits = true) (hd : defined = true) (ha : admits = true)
    (hst : f ⟨s.cur.cursor, s.codec, []⟩ = st) (he : st.cur.exh = false) :
    streamElement s fits defined admits f = .next (elementDone s st) := by
  simp only [streamElement, ifReady_ready hr.1 hr.2, hc, hf, hd, ha, Bool.and_self, ifInput_true, ifDefined_true,
    finishElement, hst, he]
  rfl

/-- Reading the element's own bits from behind the first `off` of them. -/
theorem bsRead_own (bits : Nat) {off n : Nat} (h : s.cur.pos.toNat + off + n ≤ windowBits s s.port.arg0) :
    bsRead (ownBits s bits) (elementLimit s) n ⟨s.cur.pos.toNat + off, false⟩ =
      (bits / 2 ^ off % 2 ^ n, ⟨s.cur.pos.toNat + off + n, false⟩) := by
  rw [bsRead_ok rfl h]
  exact congrArg (·, _) (fieldAt_bitsSource _ _ _ _)

/-- Reading the element's own bits where it starts. -/
theorem bsRead_own_start (bits : Nat) {n : Nat} (he : s.cur.exh = false)
    (h : s.cur.pos.toNat + n ≤ windowBits s s.port.arg0) :
    bsRead (ownBits s bits) (elementLimit s) n s.cur.cursor = (bits % 2 ^ n, ⟨s.cur.pos.toNat + n, false⟩) := by
  have hk : s.cur.cursor = ⟨s.cur.pos.toNat + 0, false⟩ := by rw [CursorReg.cursor, he]; rfl
  rw [hk, bsRead_own bits (by simpa using h)]
  simp

end Stream

/-! ### L3 (30_encoding R102, R103; 41_subblock_decode R152) -/

section L3

variable {s : State} {w : L3Width}

/-- The decoder behind the `L3` code `bits` of width `w`, in the context of an element. -/
def l3Read (s : State) (w : L3Width) (bits : Nat) : DecState where
  cur := ⟨s.cur.pos.toNat + w.bits, false⟩
  codec := s.codec.setRootCount (argComp s) (l3Value w.bits bits)
  pend := if (s.desc.compbits[argComp s] : Int) < l3Value w.bits bits then [(.bcRange, (argComp s).val)] else []

theorem readL3_own {bits : Nat} (hw : l3Bits s.desc.compbits[argComp s] = w.bits) (hb : bits < 2 ^ w.bits)
    (he : s.cur.exh = false) (hl : s.cur.pos.toNat + w.bits ≤ windowBits s s.port.arg0) :
    readL3 s.desc (ownBits s bits) (elementLimit s) (argComp s) ⟨s.cur.cursor, s.codec, []⟩ = l3Read s w bits := by
  simp only [readL3, hw, bsRead_own_start bits he hl, Nat.mod_eq_of_lt hb, List.nil_append, l3Read]

variable (hr : Ready s) (hc : compOk s = true) (hw : l3Bits s.desc.compbits[argComp s] = w.bits)
  (he : s.cur.exh = false) (hl : s.cur.pos.toNat + w.bits ≤ windowBits s s.port.arg0)
include hr hc hw he hl

/-- A code that is not the default's sets the counts and nothing else. -/
theorem l3Element_count {bits : Nat} (hb : bits < 2 ^ w.bits) (hv : l3Value w.bits bits ≠ -2) :
    l3Element w bits s = .next (elementDone s (l3Read s w bits)) := by
  have hroot : ((l3Read s w bits).codec.bctree[argComp s])[0] ≠ -2 := by
    rwa [l3Read, setRootCount_root]
  have hst := readL3_own hw hb he hl
  unfold l3Element
  refine streamElement_completes hr hc (by simpa using hw) rfl rfl ?_ rfl
  simp only [hst, if_neg hroot]

/-- The default's code sets the tree and the samples of the component too. -/
theorem l3Element_default {bits : Nat} (hb : bits < 2 ^ w.bits) (hv : l3Value w.bits bits = -2) :
    l3Element w bits s = .next (elementDone s
      (writeLeaves s.desc (argComp s) (defaultRoot s.desc (argComp s) (l3Read s w bits)))) := by
  have hroot : ((l3Read s w bits).codec.bctree[argComp s])[0] = -2 := by
    rwa [l3Read, setRootCount_root]
  have hst := readL3_own hw hb he hl
  unfold l3Element
  refine streamElement_completes hr hc (by simpa using hw) rfl rfl ?_ rfl
  simp only [hst, if_pos hroot]

end L3

theorem exec_l3Uniform (s : State) {i : Instr} {w : L3Width}
    (h : (i, w) ∈ [(Instr.l3UniformW2, L3Width.w2), (.l3UniformW3, .w3), (.l3UniformW4, .w4), (.l3UniformW5, .w5)]) :
    exec i s = l3Element w (2 ^ w.bits - 1) s := by
  simp only [List.mem_cons, Prod.mk.injEq, List.not_mem_nil, or_false] at h
  rcases h with ⟨rfl, rfl⟩ | ⟨rfl, rfl⟩ | ⟨rfl, rfl⟩ | ⟨rfl, rfl⟩ <;> rfl

theorem exec_l3Default (s : State) {i : Instr} {w : L3Width}
    (h : (i, w) ∈ [(Instr.l3DefaultW2, L3Width.w2), (.l3DefaultW3, .w3), (.l3DefaultW4, .w4), (.l3DefaultW5, .w5)]) :
    exec i s = l3Element w (2 ^ w.bits - 2) s := by
  simp only [List.mem_cons, Prod.mk.injEq, List.not_mem_nil, or_false] at h
  rcases h with ⟨rfl, rfl⟩ | ⟨rfl, rfl⟩ | ⟨rfl, rfl⟩ | ⟨rfl, rfl⟩ <;> rfl

/-- Instruction `i` is the literal `n` of an `L3` code of width `w`. -/
def IsL3Literal (w : L3Width) (i : Instr) (n : Nat) : Prop :=
  w = .w2 ∧ (∃ x : BitVec 2, i = .l3LiteralW2 x ∧ n = x.toNat) ∨
  w = .w3 ∧ (∃ x : BitVec 3, i = .l3LiteralW3 x ∧ n = x.toNat) ∨
  w = .w4 ∧ (∃ x : BitVec 4, i = .l3LiteralW4 x ∧ n = x.toNat) ∨
  w = .w5 ∧ (∃ x : BitVec 5, i = .l3LiteralW5 x ∧ n = x.toNat)

/-- A well-formed literal stands below the two sentinels of its width. -/
theorem exec_l3Literal (s : State) {i : Instr} {w : L3Width} {n : Nat} (hi : i.wf = true) (h : IsL3Literal w i n) :
    exec i s = l3Element w n s ∧ n < 2 ^ w.bits - 2 := by
  rcases h with ⟨rfl, x, rfl, rfl⟩ | ⟨rfl, x, rfl, rfl⟩ | ⟨rfl, x, rfl, rfl⟩ | ⟨rfl, x, rfl, rfl⟩ <;>
    exact ⟨rfl, of_decide_eq_true hi⟩

theorem four_le_codes (w : L3Width) : 4 ≤ 2 ^ w.bits := by cases w <;> decide

/-- The component operand is held by a plane of the frame. -/
theorem held_argComp {s : State} (h : compOk s = true) : held s.desc (argComp s) = true := by
  simp only [compOk, Bool.and_eq_true, List.contains_iff_mem, List.mem_map, planeComps, List.mem_flatMap] at h
  obtain ⟨-, pc, ⟨p, hp, e, he, rfl⟩, hpc⟩ := h
  rw [← hpc]
  exact held_of_mem hp he

/-- Settles O34: the twelve codes are three kinds of number under four widths. -/
theorem l3Elements : Obligations.L3Elements := by
  intro s w hinv hr hc c hw he hl
  have f := hinv.facts hr
  have h4 := four_le_codes w
  refine ⟨fun i hi => ?_, fun i hi => ?_, fun i n hwf hi => ?_⟩
  · have hv : l3Value w.bits (2 ^ w.bits - 1) = -1 := if_pos rfl
    refine ⟨_, (exec_l3Uniform s hi).trans (l3Element_count hr hc hw he hl (by omega) (by rw [hv]; decide)),
      elementDone_doneWith _ _, elementDone_onlyCodec _ _, elementDone_chk ?_, elementDone_cur _ _, ?_, ?_, ?_⟩
    · exact if_neg (by rw [hv]; omega)
    · rw [elementDone_codec, l3Read, hv, setRootCount_of_neg _ _ (by decide)]
    · rw [elementDone_codec, l3Read, setRootCount_mintree]
    · rw [elementDone_codec, l3Read, setRootCount_blk]
  · have hv : l3Value w.bits (2 ^ w.bits - 2) = -2 := by
      rw [l3Value, if_neg (by omega), if_pos rfl]
    refine ⟨_, (exec_l3Default s hi).trans (l3Element_default hr hc hw he hl (by omega) hv),
      elementDone_doneWith _ _, elementDone_onlyCodec _ _, elementDone_chk ?_, elementDone_cur _ _, ?_, ?_, ?_, ?_⟩
    · exact if_neg (by rw [hv]; omega)
    · rw [elementDone_codec]
      exact (congrArg (fun v => (s.codec.setRootCount c v).bctree) hv).trans (setRootCount_of_neg _ _ (by decide))
    · rw [elementDone_codec]
      exact fun k hk => setRoot_entry _ c _ hk
    · rw [elementDone_codec]
      exact setRoot_setLeaves_sample _ c (f.compbits_le c) (f.defaultcolor_lt (held_argComp hc))
    · rw [elementDone_codec]
      refine fun e hce => ⟨(setRoot_mintree_ne _ _ hce).trans ?_, (setLeaves_blk_ne _ _ hce).trans ?_⟩
      · rw [l3Read, setRootCount_mintree]
      · exact congrArg (fun b : Vector (Vector Sample 16) 4 => b[e]) (setRootCount_blk _ _ _)
  · obtain ⟨hexec, hn⟩ := exec_l3Literal s hwf hi
    have hv : l3Value w.bits n = n := by
      rw [l3Value, if_neg (by omega), if_neg (by omega)]
    refine ⟨_, hexec.trans (l3Element_count hr hc hw he hl (by omega) (by omega)),
      elementDone_doneWith _ _, elementDone_onlyCodec _ _, (elementDone_flags _ _).congr fun v => ?_,
      elementDone_cur _ _, ?_, ?_, ?_⟩
    · simp only [l3Read, hv, Nat.cast_lt]
      exact mem_pend_ite _ _ _
    · rw [elementDone_codec, l3Read, hv, setRootCount_of_nonneg _ _ (by omega)]
    · rw [elementDone_codec, l3Read, setRootCount_mintree]
    · rw [elementDone_codec, l3Read, setRootCount_blk]

end Sys2Proof.Machine

namespace Sys2Proof.Machine

/-! ### L4D (30_encoding R104; 41_subblock_decode R154) -/

section L4D

variable {s : State}

/-- The two-bit delta, read as two's complement. -/
theorem bsReadSigned_own_two (d : BitVec 2) (he : s.cur.exh = false)
    (hl : s.cur.pos.toNat + 2 ≤ windowBits s s.port.arg0) :
    bsReadSigned (ownBits s d.toNat) (elementLimit s) 2 s.cur.cursor = (d.toInt, ⟨s.cur.pos.toNat + 2, false⟩) := by
  have hd : d.toNat % 2 ^ 2 = d.toNat := Nat.mod_eq_of_lt d.isLt
  simp only [bsReadSigned, bsRead_own_start d.toNat he hl, hd]
  rfl

/-- The decoder behind the delta `d` of quadrant `j`. -/
def l4dRead (s : State) (d : BitVec 2) (j : Fin 4) : DecState :=
  let raw := (s.codec.bctree[argComp s])[0] + d.toInt
  { cur := ⟨s.cur.pos.toNat + 2, false⟩
    codec := s.codec.setCount (argComp s) j.succ (clampCount raw)
    pend := (if raw < 0 then [(.bcNeg, (argComp s).val)] else []) ++
      if (s.desc.compbits[argComp s] : Int) < clampCount raw then [(.bcRange, (argComp s).val)] else [] }

theorem exec_l4d (d : BitVec 2) {j : Fin 4} (hr : Ready s) (hc : compOk s = true) (hj : s.port.arg2 = j.val)
    (hd : (s.codec.bcOk[argComp s])[0] = true) (h0 : 0 ≤ (s.codec.bctree[argComp s])[0]) (he : s.cur.exh = false)
    (hl : s.cur.pos.toNat + 2 ≤ windowBits s s.port.arg0) :
    exec (.l4d d) s = .next (elementDone s (l4dRead s d j)) := by
  have hq : Fin.ofNat 4 s.port.arg2 = j := by rw [hj]; exact Fin.ofNat_val_eq_self j
  show execL4d d s = _
  unfold execL4d
  refine streamElement_completes hr hc (by simp [hj]) hd (decide_eq_true h0) ?_ rfl
  rw [hq, readL4D, Instr.bits, bsReadSigned_own_two d he hl, l4dRead]
  simp only [List.nil_append]
  congr 1
  split <;> split <;> rfl

end L4D

/-- Settles O35: one register write, and the violations that its sum and its count pend. -/
theorem l4dElement : Obligations.L4dElement := by
  intro s d j hr hc hj c raw l4 hd h0 he hl
  refine ⟨_, exec_l4d d hr hc hj hd h0 he hl, elementDone_doneWith _ _, elementDone_onlyCodec _ _,
    elementDone_cur _ _, ?_, (elementDone_flags _ _).congr fun v => ?_, ?_, ?_⟩
  · rw [elementDone_codec]
    rfl
  · rw [l4dRead, List.map_append, List.mem_append]
    exact or_congr (mem_pend_ite _ _ _) (mem_pend_ite _ _ _)
  · rw [elementDone_codec]
    rfl
  · rw [elementDone_codec]
    rfl

/-! ### ROOT (30_encoding R105; 41_subblock_decode R155, R162) -/

section Root

variable {s : State}

/-- The decoder behind the root value `v`: the component ends here where the root count is UNIFORM. -/
def rootRead (s : State) (v : Nat) : DecState :=
  let st : DecState := ⟨⟨s.cur.pos.toNat + s.desc.compbits[argComp s], false⟩, s.codec.setRoot (argComp s) v, []⟩
  if rootCount s < 0 then writeLeaves s.desc (argComp s) st else st

theorem exec_root {v : Nat} (hr : Ready s) (hc : compOk s = true) (hv : v < 2 ^ s.desc.compbits[argComp s])
    (hd : (s.codec.bcOk[argComp s])[0] = true) (h2 : (s.codec.bctree[argComp s])[0] ≠ -2) (he : s.cur.exh = false)
    (hl : s.cur.pos.toNat + s.desc.compbits[argComp s] ≤ windowBits s s.port.arg0) :
    exec (.root s.desc.compbits[argComp s] v) s = .next (elementDone s (rootRead s v)) := by
  show execRoot _ v s = _
  unfold execRoot
  refine streamElement_completes hr hc (by simp) hd (decide_eq_true h2) ?_ ?_
  · simp only [readRoot, Instr.bits, bsRead_own_start v he hl, Nat.mod_eq_of_lt hv]
    rfl
  · unfold rootRead
    split <;> rfl

/-- Whether or not the samples are written, the cursor and the trees are the same. -/
theorem rootRead_trees (s : State) (v : Nat) :
    (rootRead s v).cur = ⟨s.cur.pos.toNat + s.desc.compbits[argComp s], false⟩ ∧ (rootRead s v).pend = [] ∧
    (rootRead s v).codec.bctree = s.codec.bctree ∧
    (rootRead s v).codec.mintree = (s.codec.setRoot (argComp s) v).mintree := by
  unfold rootRead
  split <;> exact ⟨rfl, rfl, rfl, rfl⟩

end Root

/-- Settles O36: the tree is the root value alone, and a negative root count ends the component with its samples. -/
theorem rootElement : Obligations.RootElement := by
  intro s w v hinv hr hc c hw hv hd h2 he hl
  subst hw
  have f := hinv.facts hr
  obtain ⟨hcur, hpend, hbc, hmt⟩ := rootRead_trees s v
  refine ⟨_, exec_root hr hc hv hd h2 he hl, elementDone_doneWith _ _, elementDone_onlyCodec _ _,
    elementDone_chk hpend, ?_, ?_, ?_, ?_, ?_, ?_⟩
  · rw [elementDone_cur, hcur]
    rfl
  · rw [elementDone_codec, hbc]
  · rw [elementDone_codec, hmt]
    exact fun k hk => setRoot_entry _ c v hk
  · intro hneg
    rw [elementDone_codec, rootRead, if_pos (show rootCount s < 0 from hneg)]
    exact setRoot_setLeaves_sample _ c (f.compbits_le c) hv
  · intro hpos
    rw [elementDone_codec, rootRead, if_neg (show ¬ rootCount s < 0 from Int.not_lt.mpr hpos)]
    rfl
  · intro e hce
    rw [elementDone_codec, hmt]
    refine ⟨setRoot_mintree_ne _ _ hce, ?_⟩
    unfold rootRead
    split
    · exact setLeaves_blk_ne _ _ hce
    · rfl

end Sys2Proof.Machine

namespace Sys2Proof.Machine

/-! ### One node of a stream, for any source of bits (30_encoding R106; 41_subblock_decode R157) -/

section Nodes

variable {src : Nat → Bool} {lim : Nat}

theorem bsRead_bit {q : Nat} (h : q + 1 ≤ lim) : bsRead src lim 1 ⟨q, false⟩ = ((src q).toNat, ⟨q + 1, false⟩) := by
  rw [bsRead_ok rfl h]
  simp [fieldAt]

theorem readDeltaBit_ok {q : Nat} (h : q + 1 ≤ lim) (i : Nat) (l : List Nat) (j : Nat) :
    readDeltaBit src lim i (l, ⟨q, false⟩) j = (l.set j (l.getD j 0 ||| ((src q).toNat <<< i)), ⟨q + 1, false⟩) := by
  simp only [readDeltaBit, bsRead_bit h]

theorem getD_set (l : List Nat) (j k v : Nat) (h : j < l.length) :
    (l.set j v).getD k 0 = if k = j then v else l.getD k 0 := by
  by_cases hk : k = j
  · subst hk
    simp [h]
  · simp [hk, Ne.symm hk]

/-- `a` is `l` after bit `i` was read for each of the children `cs`, from position `q` on. -/
structure BitsRead (src : Nat → Bool) (q i : Nat) (cs l : List Nat) (a : List Nat × Cursor) : Prop where
  cur : a.2 = ⟨q + cs.length, false⟩
  length : a.1.length = l.length
  kept : ∀ j, j ∉ cs → a.1.getD j 0 = l.getD j 0
  read : ∀ r j, cs[r]? = some j → a.1.getD j 0 = l.getD j 0 ||| ((src (q + r)).toNat <<< i)

/-- One bit for each of a list of children, in the list's order. -/
theorem foldl_readDeltaBit {q i : Nat} {cs l : List Nat} (nodup : cs.Nodup) (inside : ∀ j ∈ cs, j < l.length)
    (h : q + cs.length ≤ lim) : BitsRead src q i cs l (cs.foldl (readDeltaBit src lim i) (l, ⟨q, false⟩)) := by
  induction cs generalizing q l with
  | nil => exact ⟨rfl, rfl, fun _ _ => rfl, fun r j e => by simp at e⟩
  | cons c cs ih =>
    obtain ⟨hc, nodup⟩ := List.nodup_cons.mp nodup
    have hcl : c < l.length := inside c (by simp)
    rw [List.length_cons] at h
    rw [List.foldl_cons, readDeltaBit_ok (by omega)]
    obtain ⟨cur, length, kept, read⟩ := ih (q := q + 1) (l := l.set c (l.getD c 0 ||| ((src q).toNat <<< i))) nodup
      (fun j hj => by simpa using inside j (by simp [hj])) (by omega)
    refine ⟨cur.trans ?_, length.trans (List.length_set ..), fun j hj => ?_, fun r j e => ?_⟩
    · rw [List.length_cons, Nat.add_right_comm, Nat.add_assoc]
    · obtain ⟨hne, hj⟩ := List.ne_and_not_mem_of_not_mem_cons hj
      rw [kept j hj, getD_set _ _ _ _ hcl, if_neg hne]
    · cases r with
      | zero =>
        obtain rfl : c = j := by simpa using e
        rw [kept c hc, getD_set _ _ _ _ hcl, if_pos rfl, Nat.add_zero]
      | succ r =>
        have e : cs[r]? = some j := by simpa using e
        have hne : j ≠ c := fun z => hc (z ▸ List.mem_of_getElem? e)
        rw [read r j e, getD_set _ _ _ _ hcl, if_neg hne, Nat.add_right_comm, Nat.add_assoc]

/-- A node of bit-count 1 is one bit per child. -/
theorem nodeDecode_one {q : Nat} (h : q + 4 ≤ lim) :
    BitsRead src q 0 [0, 1, 2, 3] [0, 0, 0, 0] (nodeDecode src lim 1 ⟨q, false⟩) :=
  foldl_readDeltaBit (by decide) (by decide) h

/-- The place of child `j` in a bit-plane that leaves out child `z`. -/
def planeBit (z j : Nat) : Nat := if j < z then j else j - 1

/-- The children of a bit-plane are the others, in ascending order. -/
theorem nonZeroChildren_facts : ∀ z < 4, (nonZeroChildren z).Nodup ∧ (nonZeroChildren z).length = 3 ∧
    z ∉ nonZeroChildren z ∧ (∀ j ∈ nonZeroChildren z, j < 4) ∧
    ∀ j < 4, j ≠ z → (nonZeroChildren z)[planeBit z j]? = some j := by decide

theorem testBit_or_bit (v i k : Nat) (b : Bool) :
    (v ||| (b.toNat <<< i)).testBit k = (v.testBit k || (decide (k = i) && b)) := by
  rw [Nat.testBit_or]
  cases b
  · simp
  · simp [Nat.shiftLeft_eq, Nat.testBit_two_pow, eq_comm]

/-- `a` holds the deltas of `b` bit-planes from position `q` on, child `z` left out. -/
structure PlanesRead (src : Nat → Bool) (q z b : Nat) (a : List Nat × Cursor) : Prop where
  cur : a.2 = ⟨q + 3 * b, false⟩
  length : a.1.length = 4
  zero : a.1.getD z 0 = 0
  bits : ∀ j < 4, j ≠ z → ∀ i, (a.1.getD j 0).testBit i = (decide (i < b) && src (q + 3 * i + planeBit z j))

theorem foldl_readPlane {q z b : Nat} (hz : z < 4) (h : q + 3 * b ≤ lim) :
    PlanesRead src q z b ((List.range b).foldl (readPlane src lim z) ([0, 0, 0, 0], ⟨q, false⟩)) := by
  obtain ⟨nodup, three, hzc, below, place⟩ := nonZeroChildren_facts z hz
  induction b with
  | zero =>
    refine ⟨rfl, rfl, ?_, fun j hj _ i => ?_⟩
    · interval_cases z <;> rfl
    · interval_cases j <;> simp
  | succ b ih =>
    rw [List.range_succ, List.foldl_append]
    generalize (List.range b).foldl (readPlane src lim z) ([0, 0, 0, 0], ⟨q, false⟩) = a at ih
    obtain ⟨l, k⟩ := a
    obtain ⟨cur, length, zero, bits⟩ := ih (by omega)
    obtain rfl : k = ⟨q + 3 * b, false⟩ := cur
    obtain ⟨cur', length', kept, read⟩ := foldl_readDeltaBit (src := src) (lim := lim) (q := q + 3 * b) (i := b) (l := l)
      nodup (fun j hj => length ▸ below j hj) (by omega)
    refine ⟨cur'.trans ?_, length'.trans length, (kept z hzc).trans zero, fun j hj hne i => ?_⟩
    · rw [three, Nat.mul_succ, Nat.add_assoc]
    · have := read _ j (place j hj hne)
      rw [List.foldl_cons, List.foldl_nil, readPlane, this, testBit_or_bit, bits j hj hne i]
      by_cases hi : i = b
      · subst hi; simp
      · simp [hi, Nat.le_iff_lt_or_eq]

/-- A node of bit-count `b` of at least 2 is the zero-code and `b` bit-planes. -/
theorem nodeDecode_planes {q b : Nat} (hb : 2 ≤ b) (h : q + 2 + 3 * b ≤ lim) :
    PlanesRead src (q + 2) (fieldAt src q 2) b (nodeDecode src lim b ⟨q, false⟩) := by
  rw [nodeDecode, if_neg (by omega), if_neg (by omega), bsRead_ok rfl (by show q + 2 ≤ lim; omega)]
  exact foldl_readPlane (fieldAt_lt _ _ 2) h

end Nodes
end Sys2Proof.Machine

namespace Sys2Proof.Machine

/-! ### NODE (30_encoding R106; 41_subblock_decode R156, R157, R159) -/

section NodeElement

variable {s : State} {k : Fin 5} {b : Nat} {r : List Nat × Cursor}

theorem ownBits_add (s : State) (v off : Nat) : ownBits s v (s.cur.pos.toNat + off) = v.testBit off := by
  simp [ownBits, bitsSource]

/-- The tree after the four deltas of node `k` (10_state R33). -/
theorem setChildren_entry (x : Codec) (c : Fin 4) (k : Nat) (l : List Nat) {m : Nat} (h : m < 21) :
    ((x.setChildren c k l).mintree[c]).getD m 0 =
      if 4 * k + 1 ≤ m ∧ m ≤ 4 * k + 4 then l.getD (m - (4 * k + 1)) 0 else (x.mintree[c]).getD m 0 := by
  simp [Codec.setChildren, Vector.getD, h]

/-- The quadrant and the leaf of a pixel (10_state R35). -/
theorem quadOf_leafOf_pix : ∀ q < 4, ∀ l < 4, pix q l < 16 ∧ quadOf (pix q l) = q ∧ leafOf (pix q l) = l := by decide

/-- The decoder behind node `k` of bit-count `b` whose deltas and cursor are `r`. -/
def nodeRead (s : State) (k : Fin 5) (b : Nat) (r : List Nat × Cursor) : DecState :=
  let st : DecState :=
    { cur := r.2
      codec := s.codec.setChildren (argComp s) k.val r.1
      pend := if b = 1 ∧ r.1 = [1, 1, 1, 1] then [(.noZeroCode, (argComp s).val)] else [] }
  if k = 4 then writeLeaves s.desc (argComp s) st else st

/-- Whether or not the samples are written, the rest is the same. -/
theorem nodeRead_trees (s : State) (k : Fin 5) (b : Nat) (r : List Nat × Cursor) :
    (nodeRead s k b r).cur = r.2 ∧
    (nodeRead s k b r).pend = (if b = 1 ∧ r.1 = [1, 1, 1, 1] then [(.noZeroCode, (argComp s).val)] else []) ∧
    (nodeRead s k b r).codec.bctree = s.codec.bctree ∧
    (nodeRead s k b r).codec.mintree = (s.codec.setChildren (argComp s) k.val r.1).mintree := by
  by_cases hk : k = 4
  · rw [nodeRead, if_pos hk]
    exact ⟨rfl, rfl, rfl, rfl⟩
  · rw [nodeRead, if_neg hk]
    exact ⟨rfl, rfl, rfl, rfl⟩

/-- With node 4 the samples are the sums of their tree entries (41_subblock_decode R159). -/
theorem nodeRead_sample (hk : k = 4) (hn : s.desc.compbits[argComp s] ≤ 15) {q l : Nat} (hq : q < 4) (hl : l < 4) :
    (((nodeRead s k b r).codec.blk[argComp s]).getD (pix q l) 0).toNat =
      (((nodeRead s k b r).codec.mintree[argComp s]).getD 0 0 +
        ((nodeRead s k b r).codec.mintree[argComp s]).getD (1 + q) 0 +
        ((nodeRead s k b r).codec.mintree[argComp s]).getD (5 + 4 * q + l) 0) % 2 ^ s.desc.compbits[argComp s] := by
  obtain ⟨hp, eq, el⟩ := quadOf_leafOf_pix q hq l hl
  have e : ∀ v : Vector Sample 16, v.getD (pix q l) 0 = v[(⟨pix q l, hp⟩ : Fin 16)] := fun v => by simp [Vector.getD, hp]
  simp only [nodeRead, if_pos hk, e]
  refine (setLeaves_sample _ _ hn _).trans ?_
  simp only [leafSum, eq, el]
  rfl

theorem nodeRead_blk (hk : k ≠ 4) : (nodeRead s k b r).codec.blk = s.codec.blk := by
  rw [nodeRead, if_neg hk]
  rfl

theorem nodeRead_other {e : Fin 4} (h : e ≠ argComp s) :
    (nodeRead s k b r).codec.mintree[e] = s.codec.mintree[e] ∧ (nodeRead s k b r).codec.blk[e] = s.codec.blk[e] := by
  constructor
  · obtain ⟨-, -, -, hm⟩ := nodeRead_trees s k b r
    rw [hm]
    exact row_set_ne _ _ h
  · by_cases hk : k = 4
    · rw [nodeRead, if_pos hk]
      exact setLeaves_blk_ne _ _ h
    · rw [nodeRead_blk hk]

/-- The deltas that instruction `i` carries for a node of bit-count `b`, and the cursor behind them. -/
def nodeBits (s : State) (b : Nat) (i : Instr) : List Nat × Cursor :=
  nodeDecode (ownBits s i.bits) (elementLimit s) b ⟨s.cur.pos.toNat, false⟩

/-- A node of the bit-count that its count says completes where its bits end inside the buffer. -/
theorem nodeElement_completes {i : Instr} (hr : Ready s) (hc : compOk s = true) (hk : s.port.arg2 = k.val)
    (hd : nodeDefined s = true) (h0 : 0 ≤ (s.codec.bctree[argComp s])[0]) (he : s.cur.exh = false)
    (hb : (s.codec.bctree[argComp s])[k] = (b : Int)) (hi : (nodeBits s b i).2.exh = false) :
    nodeElement b i.bits s = .next (elementDone s (nodeRead s k b (nodeBits s b i))) := by
  have hka : argNode s = k := by rw [argNode, hk]; exact Fin.ofNat_val_eq_self k
  have hcount : nodeCount s.codec (argComp s) k = b := by rw [nodeCount, hb]; rfl
  have hcur : s.cur.cursor = ⟨s.cur.pos.toNat, false⟩ := by rw [CursorReg.cursor, he]
  unfold nodeElement
  rw [hka]
  refine streamElement_completes hr hc (by simp [hk]) hd ?_ ?_ ?_
  · rw [hcount, beq_self_eq_true, Bool.and_true]
    exact decide_eq_true h0
  · simp only [readNode, hcount, hcur, List.nil_append]
    rfl
  · rw [(nodeRead_trees s k b _).1, hi]

/-- What every node leaves as it was. -/
structure NodeFrame (s : State) (k : Fin 5) (t : State) : Prop where
  done : DoneWith s t Results.none
  only : OnlyCodec s t
  leaves : k = 4 → ∀ q < 4, ∀ l < 4, ((t.codec.blk[argComp s]).getD (pix q l) 0).toNat =
    ((t.codec.mintree[argComp s]).getD 0 0 + (t.codec.mintree[argComp s]).getD (1 + q) 0 +
      (t.codec.mintree[argComp s]).getD (5 + 4 * q + l) 0) % 2 ^ s.desc.compbits[argComp s]
  bctree : t.codec.bctree = s.codec.bctree
  blk : k ≠ 4 → t.codec.blk = s.codec.blk
  entries : ∀ m < 21, (m ≤ 4 * k.val ∨ 4 * k.val + 4 < m) →
    (t.codec.mintree[argComp s]).getD m 0 = (s.codec.mintree[argComp s]).getD m 0
  others : ∀ e, e ≠ argComp s → t.codec.mintree[e] = s.codec.mintree[e] ∧ t.codec.blk[e] = s.codec.blk[e]

theorem nodeFrame (hn : s.desc.compbits[argComp s] ≤ 15) : NodeFrame s k (elementDone s (nodeRead s k b r)) := by
  obtain ⟨-, -, hbc, hmt⟩ := nodeRead_trees s k b r
  refine ⟨elementDone_doneWith _ _, elementDone_onlyCodec _ _, ?_, ?_, ?_, ?_, ?_⟩ <;> rw [elementDone_codec]
  · exact fun hk q hq l hl => nodeRead_sample hk hn hq hl
  · exact hbc
  · exact nodeRead_blk
  · intro m hm hout
    rw [hmt, setChildren_entry _ _ _ _ hm, if_neg (by omega)]
  · exact fun e => nodeRead_other

theorem nodeDone_delta {j : Nat} (hj : j < 4) :
    ((elementDone s (nodeRead s k b r)).codec.mintree[argComp s]).getD (4 * k.val + 1 + j) 0 = r.1.getD j 0 := by
  obtain ⟨-, -, -, hmt⟩ := nodeRead_trees s k b r
  rw [elementDone_codec, hmt, setChildren_entry _ _ _ _ (by omega), if_pos (by omega), Nat.add_sub_cancel_left]

theorem nodeDone_cur : (elementDone s (nodeRead s k b r)).cur = r.2.reg := by
  rw [elementDone_cur, (nodeRead_trees s k b r).1]

theorem nodeDone_flags : Flags s (elementDone s (nodeRead s k b r))
    fun v => v = .noZeroCode ∧ b = 1 ∧ r.1 = [1, 1, 1, 1] := by
  refine (elementDone_flags _ _).congr fun v => ?_
  rw [(nodeRead_trees s k b r).2.1]
  exact mem_pend_ite _ _ _

theorem nodeDone_chk (h : b ≠ 1) : (elementDone s (nodeRead s k b r)).chk = s.chk := by
  refine elementDone_chk ?_
  rw [(nodeRead_trees s k b r).2.1, if_neg fun h' => h h'.1]

end NodeElement

/-- A node of bit-count 1 carries one bit per child. -/
theorem nodeBits_one (s : State) (d : BitVec 4) (h : s.cur.pos.toNat + 4 ≤ windowBits s s.port.arg0) :
    (nodeBits s 1 (.nodeB1 d)).2 = ⟨s.cur.pos.toNat + 4, false⟩ ∧
      (nodeBits s 1 (.nodeB1 d)).1.length = 4 ∧
      ∀ j < 4, (nodeBits s 1 (.nodeB1 d)).1.getD j 0 = (d.getLsbD j).toNat := by
  have node : BitsRead _ _ _ _ _ (nodeBits s 1 (.nodeB1 d)) := nodeDecode_one h
  refine ⟨node.cur, node.length, fun j hj => ?_⟩
  have e : [0, 1, 2, 3][j]? = some j := by interval_cases j <;> rfl
  have z : [0, 0, 0, 0].getD j 0 = 0 := by interval_cases j <;> rfl
  rw [node.read j j e, z, ownBits_add, Nat.zero_or, Nat.shiftLeft_zero]
  rfl

/-- A node of bit-count `b` of at least 2 carries the bit-planes that follow its zero-code. -/
theorem nodeBits_planes (s : State) {b : Nat} (z : BitVec 2) (planes : Nat) (hb : 2 ≤ b)
    (h : s.cur.pos.toNat + 2 + 3 * b ≤ windowBits s s.port.arg0) :
    (nodeBits s b (.nodeBN b z planes)).2 = ⟨s.cur.pos.toNat + (2 + 3 * b), false⟩ ∧
      (nodeBits s b (.nodeBN b z planes)).1.getD z.toNat 0 = 0 ∧
      ∀ j < 4, j ≠ z.toNat → (nodeBits s b (.nodeBN b z planes)).1.getD j 0 < 2 ^ b ∧
        ∀ i < b, ((nodeBits s b (.nodeBN b z planes)).1.getD j 0).testBit i =
          planes.testBit (3 * i + planeBit z.toNat j) := by
  have hz := z.isLt
  have code : fieldAt (ownBits s (Instr.nodeBN b z planes).bits) s.cur.pos.toNat 2 = z.toNat := by
    refine (fieldAt_bitsSource _ s.cur.pos.toNat 0 2).trans ?_
    rw [Instr.bits]
    omega
  have plane : ∀ m, ownBits s (Instr.nodeBN b z planes).bits (s.cur.pos.toNat + 2 + m) = planes.testBit m := by
    intro m
    rw [Nat.add_assoc, ownBits_add, Instr.bits, Nat.add_comm z.toNat, Nat.testBit_two_pow_mul_add _ hz,
      if_neg (by omega), Nat.add_sub_cancel_left]
  have node : PlanesRead _ _ _ b (nodeBits s b (.nodeBN b z planes)) := nodeDecode_planes hb h
  rw [code] at node
  refine ⟨node.cur.trans (by rw [Nat.add_assoc]), node.zero, fun j hj hne => ⟨?_, fun i hi => ?_⟩⟩
  · exact getD_lt (Nat.two_pow_pos b) (nodeDecode_below _ _ b _) j
  · rw [node.bits j hj hne i, Nat.add_assoc (_ + 2), plane, decide_eq_true hi, Bool.true_and]

/-- Four deltas of one bit are all 1 exactly when their number is 15. -/
theorem deltas_eq_ones_iff {l : List Nat} {d : BitVec 4} (hl : l.length = 4)
    (h : ∀ j < 4, l.getD j 0 = (d.getLsbD j).toNat) : l = [1, 1, 1, 1] ↔ d = 15 := by
  have ones : ∀ d : BitVec 4, (∀ j < 4, (d.getLsbD j).toNat = 1) ↔ d = 15 := by decide
  have ext : l = [1, 1, 1, 1] ↔ ∀ j < 4, l.getD j 0 = 1 := by
    match l, hl with
    | [a, b, c, d], _ =>
      constructor
      · rintro e j hj
        rw [e]
        interval_cases j <;> rfl
      · intro e
        simpa using ⟨e 0 (by decide), e 1 (by decide), e 2 (by decide), e 3 (by decide)⟩
  rw [ext, ← ones d]
  exact forall₂_congr fun j hj => by rw [h j hj]

/-- Settles O37: the frame is the same for every node; what differs is the deltas its bits carry. -/
theorem nodeElements : Obligations.NodeElements := by
  intro s k hinv hr hc hk c hd h0 he leaves others
  have frame := fun b r => nodeFrame (s := s) (k := k) (b := b) (r := r) ((hinv.facts hr).compbits_le c)
  refine ⟨fun hb => ?_, fun d hb hl => ?_, fun b z planes h2 hb _ hl => ?_⟩
  · have F := frame 0 (nodeBits s 0 .nodeB0)
    refine ⟨_, nodeElement_completes (b := 0) hr hc hk hd h0 he hb rfl, F.done, F.only, nodeDone_chk (by decide), ?_,
      fun j hj => ?_, F.leaves, F.bctree, F.blk, F.entries, F.others⟩
    · rw [nodeDone_cur]
      show Cursor.reg ⟨s.cur.pos.toNat, false⟩ = s.cur
      rw [← he]
      exact reg_cursor s.cur
    · rw [nodeDone_delta hj]
      show [0, 0, 0, 0].getD j 0 = 0
      interval_cases j <;> rfl
  · have F := frame 1 (nodeBits s 1 (.nodeB1 d))
    obtain ⟨hcur, hlength, hdelta⟩ := nodeBits_one s d hl
    refine ⟨_, nodeElement_completes (b := 1) hr hc hk hd h0 he hb (by rw [hcur]), F.done, F.only, ?_,
      nodeDone_flags.congr fun v => ?_, fun j hj => ?_, F.leaves, F.bctree, F.blk, F.entries, F.others⟩
    · rw [nodeDone_cur, hcur]
      rfl
    · rw [deltas_eq_ones_iff hlength hdelta, eq_self, true_and]
    · rw [nodeDone_delta hj, hdelta j hj]
  · have F := frame b (nodeBits s b (.nodeBN b z planes))
    obtain ⟨hcur, hzero, hplanes⟩ := nodeBits_planes s z planes h2 hl
    refine ⟨_, nodeElement_completes (b := b) hr hc hk hd h0 he hb (by rw [hcur]), F.done, F.only,
      nodeDone_chk (by omega), ?_, fun j hj => ?_, F.leaves, F.bctree, F.blk, F.entries, F.others⟩
    · rw [nodeDone_cur, hcur]
      rfl
    · rw [nodeDone_delta hj]
      exact ⟨fun e => e ▸ hzero, hplanes j hj⟩

end Sys2Proof.Machine

namespace Sys2Proof.Machine

/-! ### The parts of a compressed component (30_encoding R101) -/

/-- What follows a literal root count: four counts, the root, five nodes. -/
def readTree (d : Desc) (src : Nat → Bool) (lim : Nat) (c : Fin 4) (st : DecState) : DecState :=
  ([0, 1, 2, 3, 4] : List (Fin 5)).foldl (fun a k => readNode src lim c k a)
    (readRoot d src lim c (([0, 1, 2, 3] : List (Fin 4)).foldl (fun a j => readL4D d src lim c j a) st))

/-- What follows the root count: nothing for the default, the root for a uniform component, else the tree. -/
def readRest (d : Desc) (src : Nat → Bool) (lim : Nat) (c : Fin 4) (st : DecState) : DecState :=
  if (st.codec.bctree[c])[0] = -2 then writeLeaves d c (defaultRoot d c st)
  else if (st.codec.bctree[c])[0] < 0 then writeLeaves d c (readRoot d src lim c st)
  else writeLeaves d c (readTree d src lim c st)

theorem decodeComponent_eq (d : Desc) (src : Nat → Bool) (lim : Nat) (c : Fin 4) (st : DecState) :
    decodeComponent d src lim st c = readRest d src lim c (readL3 d src lim c st) := rfl

/-! ### A window that is long enough: reading the same bits from another source (40_bitstream R131, R139) -/

section Windows

variable {α σ : Type}

/-- Wherever `f` ends with its cursor inside the window, it started so and `g` does the same. -/
def Agrees (exh : α → Bool) (f g : α → α) : Prop := ∀ a, exh (f a) = false → exh a = false ∧ g a = f a

theorem Agrees.comp {exh : α → Bool} {f g f' g' : α → α} (h : Agrees exh f g) (h' : Agrees exh f' g') :
    Agrees exh (fun a => f' (f a)) (fun a => g' (g a)) := fun a e => by
  obtain ⟨e1, h1⟩ := h' _ e
  obtain ⟨e2, h2⟩ := h _ e1
  exact ⟨e2, (congrArg g' h2).trans h1⟩

theorem Agrees.foldl {exh : α → Bool} {f g : α → σ → α} (h : ∀ x, Agrees exh (f · x) (g · x)) (l : List σ) :
    Agrees exh (fun a => l.foldl f a) (fun a => l.foldl g a) := by
  induction l with
  | nil => exact fun a e => ⟨e, rfl⟩
  | cons x l ih => exact (h x).comp ih

variable {src src' : Nat → Bool} {lim lim' : Nat} (same : ∀ b < lim, src' b = src b) (room : lim ≤ lim')
include same room

theorem bsRead_agrees {n : Nat} {k : Cursor} (h : (bsRead src lim n k).2.exh = false) :
    k.exh = false ∧ bsRead src' lim' n k = bsRead src lim n k := by
  cases e : k.exh
  · refine ⟨rfl, ?_⟩
    by_cases hn : n = 0
    · rw [hn, bsRead_zero e, bsRead_zero e]
    · by_cases hp : k.pos + n ≤ lim
      · rw [bsRead_ok e hp, bsRead_ok e (hp.trans room)]
        exact congrArg (·, _) (fieldAt_congr fun i hi => same _ (by omega))
      · rw [bsRead_short e hn (by omega)] at h
        cases h
  · rw [bsRead_exh e, e] at h
    cases h

theorem bsReadSigned_agrees {n : Nat} {k : Cursor} (h : (bsReadSigned src lim n k).2.exh = false) :
    k.exh = false ∧ bsReadSigned src' lim' n k = bsReadSigned src lim n k := by
  have hr : (bsReadSigned src lim n k).2 = (bsRead src lim n k).2 := by
    simp only [bsReadSigned]
    split
    · rfl
    · split <;> rfl
  obtain ⟨e, eq⟩ := bsRead_agrees same room (hr ▸ h)
  exact ⟨e, by simp only [bsReadSigned, eq]⟩

theorem readDeltaBit_agrees (i j : Nat) : Agrees (fun a : List Nat × Cursor => a.2.exh)
    (readDeltaBit src lim i · j) (readDeltaBit src' lim' i · j) := fun a h => by
  obtain ⟨e, eq⟩ := bsRead_agrees same room (k := a.2) h
  exact ⟨e, by simp only [readDeltaBit, eq]⟩

theorem nodeDecode_agrees {b : Nat} {k : Cursor} (h : (nodeDecode src lim b k).2.exh = false) :
    k.exh = false ∧ nodeDecode src' lim' b k = nodeDecode src lim b k := by
  by_cases h0 : b = 0
  · subst h0
    exact ⟨h, rfl⟩
  · unfold nodeDecode at h ⊢
    simp only [if_neg h0] at h ⊢
    by_cases h1 : b = 1
    · simp only [if_pos h1] at h ⊢
      exact Agrees.foldl (fun j => readDeltaBit_agrees same room 0 j) [0, 1, 2, 3] ([0, 0, 0, 0], k) h
    · simp only [if_neg h1] at h ⊢
      have planes : ∀ z, Agrees (fun a : List Nat × Cursor => a.2.exh)
          (fun a => (List.range b).foldl (readPlane src lim z) a) (fun a => (List.range b).foldl (readPlane src' lim' z) a) :=
        fun z => Agrees.foldl (fun i => Agrees.foldl (fun j => readDeltaBit_agrees same room i j) _) _
      obtain ⟨e, eq⟩ := planes _ _ h
      obtain ⟨e', eq'⟩ := bsRead_agrees same room e
      rw [eq']
      exact ⟨e', eq⟩

variable (d : Desc) (c : Fin 4)

theorem readL3_agrees : Agrees (fun st : DecState => st.cur.exh) (readL3 d src lim c) (readL3 d src' lim' c) :=
  fun st h => by
    obtain ⟨e, eq⟩ := bsRead_agrees same room (k := st.cur) h
    exact ⟨e, by simp only [readL3, eq]⟩

theorem readL4D_agrees (j : Fin 4) :
    Agrees (fun st : DecState => st.cur.exh) (readL4D d src lim c j) (readL4D d src' lim' c j) := fun st h => by
  obtain ⟨e, eq⟩ := bsReadSigned_agrees same room (k := st.cur) h
  exact ⟨e, by simp only [readL4D, eq]⟩

theorem readRoot_agrees : Agrees (fun st : DecState => st.cur.exh) (readRoot d src lim c) (readRoot d src' lim' c) :=
  fun st h => by
    obtain ⟨e, eq⟩ := bsRead_agrees same room (k := st.cur) h
    exact ⟨e, by simp only [readRoot, eq]⟩

omit d in
theorem readNode_agrees (k : Fin 5) :
    Agrees (fun st : DecState => st.cur.exh) (readNode src lim c k) (readNode src' lim' c k) := fun st h => by
  obtain ⟨e, eq⟩ := nodeDecode_agrees same room (k := st.cur) h
  exact ⟨e, by simp only [readNode, eq]⟩

theorem readTree_agrees : Agrees (fun st : DecState => st.cur.exh) (readTree d src lim c) (readTree d src' lim' c) :=
  ((Agrees.foldl (fun j => readL4D_agrees same room d c j) _).comp (readRoot_agrees same room d c)).comp
    (Agrees.foldl (fun k => readNode_agrees same room c k) _)

theorem readRest_agrees : Agrees (fun st : DecState => st.cur.exh) (readRest d src lim c) (readRest d src' lim' c) :=
  fun st h => by
    unfold readRest at h ⊢
    by_cases h2 : (st.codec.bctree[c])[0] = -2
    · simp only [if_pos h2] at h ⊢
      exact ⟨h, trivial⟩
    · simp only [if_neg h2] at h ⊢
      by_cases h1 : (st.codec.bctree[c])[0] < 0
      · simp only [if_pos h1] at h ⊢
        obtain ⟨e, eq⟩ := readRoot_agrees same room d c st h
        exact ⟨e, congrArg (writeLeaves d c) eq⟩
      · simp only [if_neg h1] at h ⊢
        obtain ⟨e, eq⟩ := readTree_agrees same room d c st h
        exact ⟨e, congrArg (writeLeaves d c) eq⟩

theorem decodeComponent_agrees :
    Agrees (fun st : DecState => st.cur.exh) (decodeComponent d src lim · c) (decodeComponent d src' lim' · c) :=
  (readL3_agrees same room d c).comp (readRest_agrees same room d c)

omit c in
/-- A subblock that ends inside a window decodes to the same from any longer source that begins with that window. -/
theorem decodeStream_agrees {p : Fin 2} {unc : Bool} {x : Codec} (h : (decodeStream d src lim p unc x).cur.exh = false) :
    decodeStream d src' lim' p unc x = decodeStream d src lim p unc x := by
  cases unc
  · exact (Agrees.foldl (fun c => decodeComponent_agrees same room d c) _ _ h).2
  · have sample : ∀ i c, Agrees (fun st : DecState => st.cur.exh) (readSample d src lim i · c) (readSample d src' lim' i · c) :=
      fun i c st h => by
        obtain ⟨e, eq⟩ := bsRead_agrees same room (k := st.cur) h
        exact ⟨e, by simp only [readSample, eq]⟩
    exact (Agrees.foldl (fun i => Agrees.foldl (fun c => sample i c) (comps d.toDescIn p)) allPixels _ h).2

end Windows

end Sys2Proof.Machine

namespace Sys2Proof.Machine

/-! ### The uncompressed form, for any source of bits (30_encoding R100; 41_subblock_decode R158) -/

section Uncompressed

variable {d : Desc} {src : Nat → Bool} {lim : Nat}

/-- The bits that one pixel takes over a list of components. -/
def pixelBits (d : DescIn) (l : List (Fin 4)) : Nat := (l.map fun c => inBits d c).sum

theorem pixelBits_cons (d : DescIn) (c : Fin 4) (l : List (Fin 4)) : pixelBits d (c :: l) = inBits d c + pixelBits d l :=
  List.sum_cons

theorem pixelBits_append (d : DescIn) (l m : List (Fin 4)) : pixelBits d (l ++ m) = pixelBits d l + pixelBits d m := by
  simp [pixelBits]

/-- The decoder's own state after samples were read into `BLK`: neither trees nor pending violations. -/
structure SamplesOnly (st a : DecState) : Prop where
  mintree : a.codec.mintree = st.codec.mintree
  bctree : a.codec.bctree = st.codec.bctree
  pend : a.pend = st.pend

theorem SamplesOnly.trans {st a b : DecState} (h : SamplesOnly st a) (g : SamplesOnly a b) : SamplesOnly st b :=
  ⟨g.mintree.trans h.mintree, g.bctree.trans h.bctree, g.pend.trans h.pend⟩

/-- One sample of a pixel, inside the window. -/
theorem readSample_ok {q : Nat} {st : DecState} (hq : st.cur = ⟨q, false⟩) (i : Fin 16) (c : Fin 4)
    (h : q + inBits d.toDescIn c ≤ lim) :
    let a := readSample d src lim i st c
    a.cur = ⟨q + inBits d.toDescIn c, false⟩ ∧ SamplesOnly st a ∧
      a.codec.blk = st.codec.blk.set c ((st.codec.blk[c]).set i (BitVec.ofNat 32 (fieldAt src q (inBits d.toDescIn c)))) := by
  simp only [readSample, hq, bsRead_ok (k := ⟨q, false⟩) rfl h, true_and]
  exact ⟨⟨rfl, rfl, rfl⟩, trivial⟩

/-- `a` is `st` after pixel `i` was read from position `q` on, for the components `cs` in their order. -/
structure PixelRead (d : Desc) (src : Nat → Bool) (q : Nat) (i : Fin 16) (cs : List (Fin 4)) (st a : DecState) : Prop where
  cur : a.cur = ⟨q + pixelBits d.toDescIn cs, false⟩
  only : SamplesOnly st a
  read : ∀ l c r, cs = l ++ c :: r →
    a.codec.blk[c][i] = BitVec.ofNat 32 (fieldAt src (q + pixelBits d.toDescIn l) (inBits d.toDescIn c))
  kept : ∀ c j, c ∉ cs ∨ j ≠ i → a.codec.blk[c][j] = st.codec.blk[c][j]

theorem foldl_readSample {q : Nat} {st : DecState} (hq : st.cur = ⟨q, false⟩) (i : Fin 16) {cs : List (Fin 4)}
    (nodup : cs.Nodup) (h : q + pixelBits d.toDescIn cs ≤ lim) :
    PixelRead d src q i cs st (cs.foldl (readSample d src lim i) st) := by
  induction cs generalizing q st with
  | nil => exact ⟨hq, ⟨rfl, rfl, rfl⟩, fun l c r e => by simp at e, fun _ _ _ => rfl⟩
  | cons c cs ih =>
    obtain ⟨hc, nodup⟩ := List.nodup_cons.mp nodup
    rw [pixelBits_cons] at h
    obtain ⟨cur, only, blk⟩ := readSample_ok (d := d) (src := src) (lim := lim) hq i c (by omega)
    obtain ⟨cur', only', read, kept⟩ := ih cur nodup (by omega)
    rw [List.foldl_cons]
    refine ⟨?_, only.trans only', fun l e r hl => ?_, fun e j hej => ?_⟩
    · rw [cur', pixelBits_cons, Nat.add_assoc]
    · cases l with
      | nil =>
        obtain ⟨rfl, -⟩ := List.cons.inj hl
        rw [kept c i (.inl hc), blk]
        simp [pixelBits]
      | cons b l =>
        obtain ⟨rfl, tail⟩ := List.cons.inj hl
        rw [read l e r tail, pixelBits_cons, Nat.add_assoc]
    · rw [kept e j (hej.imp_left fun h hm => h (List.mem_cons_of_mem _ hm)), blk]
      by_cases hec : e = c
      · subst hec
        have hji : j ≠ i := hej.resolve_left fun h => h (List.mem_cons_self ..)
        rw [row_set_self]
        exact Vector.getElem_set_ne _ _ fun z => hji (Fin.ext z.symm)
      · rw [row_set_ne _ _ hec]

/-- `a` is `st` after the pixels `is` were read from position `q` on. -/
structure PixelsRead (d : Desc) (src : Nat → Bool) (q : Nat) (is : List (Fin 16)) (cs : List (Fin 4)) (st a : DecState) :
    Prop where
  cur : a.cur = ⟨q + pixelBits d.toDescIn cs * is.length, false⟩
  only : SamplesOnly st a
  read : ∀ n i l c r, is[n]? = some i → cs = l ++ c :: r → a.codec.blk[c][i] = BitVec.ofNat 32
    (fieldAt src (q + (pixelBits d.toDescIn cs * n + pixelBits d.toDescIn l)) (inBits d.toDescIn c))
  kept : ∀ c j, c ∉ cs ∨ j ∉ is → a.codec.blk[c][j] = st.codec.blk[c][j]

theorem foldl_readPixel {q : Nat} {st : DecState} (hq : st.cur = ⟨q, false⟩) {is : List (Fin 16)} {cs : List (Fin 4)}
    (nodup : cs.Nodup) (pixels : is.Nodup) (h : q + pixelBits d.toDescIn cs * is.length ≤ lim) :
    PixelsRead d src q is cs st (is.foldl (fun a i => cs.foldl (readSample d src lim i) a) st) := by
  induction is generalizing q st with
  | nil => exact ⟨hq, ⟨rfl, rfl, rfl⟩, fun n i l c r e => by simp at e, fun _ _ _ => rfl⟩
  | cons i is ih =>
    obtain ⟨hi, pixels⟩ := List.nodup_cons.mp pixels
    rw [List.length_cons, Nat.mul_succ] at h
    obtain ⟨cur, only, read, kept⟩ := foldl_readSample (d := d) (src := src) (lim := lim) hq i nodup (by omega)
    obtain ⟨cur', only', read', kept'⟩ := ih cur pixels (by omega)
    rw [List.foldl_cons]
    refine ⟨?_, only.trans only', fun n j l c r hn hl => ?_, fun c j hcj => ?_⟩
    · rw [cur', List.length_cons, Nat.mul_succ, Nat.add_assoc, Nat.add_comm (pixelBits _ _)]
    · cases n with
      | zero =>
        obtain rfl : i = j := by simpa using hn
        rw [kept' c i (.inr hi), read l c r hl, Nat.mul_zero, Nat.zero_add]
      | succ n =>
        rw [read' n j l c r (by simpa using hn) hl]
        congr 2
        rw [Nat.mul_succ]
        omega
    · rw [kept' c j (hcj.imp_right fun h hm => h (List.mem_cons_of_mem _ hm)),
        kept c j (hcj.imp_right fun h z => h (z ▸ List.mem_cons_self ..))]

/-- The components of a plane stand in ascending order, so those before `c` are those below it. -/
theorem bitsBefore_eq {i : DescIn} {p : Fin 2} {c : Fin 4} {l r : List (Fin 4)} (h : comps i p = l ++ c :: r) :
    bitsBefore i p c = pixelBits i l := by
  have sorted : (comps i p).Pairwise (· < ·) := List.Pairwise.filter _ (by decide)
  rw [h] at sorted
  obtain ⟨-, right, left⟩ := List.pairwise_append.mp sorted
  have above := (List.pairwise_cons.mp right).1
  have e : (comps i p).filter (fun e => decide (e.val < c.val)) = l := by
    rw [h, List.filter_append, List.filter_eq_self.mpr, List.filter_eq_nil_iff.mpr, List.append_nil]
    · intro e he
      rcases List.mem_cons.mp he with rfl | he
      · simp
      · simpa using (above e he).le
    · exact fun e he => decide_eq_true (left e he c (List.mem_cons_self ..))
  rw [bitsBefore, e, pixelBits]

/-- The samples of an uncompressed subblock: pixel outside, component inside (41_subblock_decode R158). -/
structure UncompressedRead (d : Desc) (src : Nat → Bool) (p : Fin 2) (x : Codec) (a : DecState) : Prop where
  cur : a.cur = ⟨16 * planeBitsOf d.toDescIn p, false⟩
  only : SamplesOnly ⟨⟨0, false⟩, x, []⟩ a
  read : ∀ c ∈ comps d.toDescIn p, ∀ i : Fin 16, (a.codec.blk[c][i]).toNat =
    fieldAt src (planeBitsOf d.toDescIn p * i.val + bitsBefore d.toDescIn p c) (inBits d.toDescIn c)
  kept : ∀ c, c ∉ comps d.toDescIn p → a.codec.blk[c] = x.blk[c]

theorem decodeStream_uncompressed {p : Fin 2} (x : Codec) (h : 16 * planeBitsOf d.toDescIn p ≤ lim) :
    UncompressedRead d src p x (decodeStream d src lim p true x) := by
  have pixels : planeBitsOf d.toDescIn p = pixelBits d.toDescIn (comps d.toDescIn p) := rfl
  obtain ⟨cur, only, read, kept⟩ := foldl_readPixel (d := d) (src := src) (lim := lim) (q := 0)
    (st := ⟨⟨0, false⟩, x, []⟩) (is := allPixels) rfl (comps_nodup d.toDescIn p) (by decide)
    (by rw [← pixels, show allPixels.length = 16 from rfl]; omega)
  refine ⟨cur.trans ?_, only, fun c hc i => ?_, fun c hc => ?_⟩
  · rw [← pixels, Nat.zero_add, Nat.mul_comm]
    rfl
  · obtain ⟨l, r, hl⟩ := List.append_of_mem hc
    have place : allPixels[i.val]? = some i := by
      revert i
      decide
    refine (congrArg BitVec.toNat (read i.val i l c r place hl)).trans ?_
    rw [bitsBefore_eq hl, ← pixels, Nat.zero_add]
    refine Nat.mod_eq_of_lt ((fieldAt_lt _ _ _).trans_le (Nat.pow_le_pow_right (by decide) ?_))
    exact (Nat.lt_of_lt_of_le (d.inputbits[c]).isLt (by decide)).le
  · exact Vector.ext fun j hj => kept c ⟨j, hj⟩ (.inl hc)

end Uncompressed

/-! ### Whole subblocks as elements (log 27) -/

section Blocks

variable {s : State} {n bits : Nat} {unc : Bool} {p : Fin 2} {st : DecState}

/-- A subblock that ends inside the buffer completes where no colour transform follows (41_subblock_decode R150). -/
theorem settle_finishBlock (he : st.cur.exh = false) (ht : (!unc && ctApplies s.desc.toDescIn p) = false)
    (bad : FatalCode → Results) :
    settle (finishBlock s p unc st) (fun k => ⟨some (k : Int), none, some 0⟩) bad =
      .next (elementDone s st ⟨some (ceilDiv st.cur.pos 8 : Int), none, some 0⟩) := by
  simp only [finishBlock, he, ht, Bool.false_eq_true, if_false, settle_ok]
  rfl

theorem isSubblock_iff : isSubblock s unc n bits = true ↔
    (decodeStream s.desc (bitsSource bits 0) n (argPlane s) unc s.codec).cur = ⟨n, false⟩ := by
  simp only [isSubblock, Bool.and_eq_true, Bool.not_eq_true', beq_iff_eq]
  generalize (decodeStream s.desc (bitsSource bits 0) n (argPlane s) unc s.codec).cur = k
  obtain ⟨pos, exh⟩ := k
  simp [and_comm]

/-- The element runs on what its bits decode to, wherever the window has room for them. -/
theorem blockElement_eq (hr : Ready s) (hp : s.port.arg1 < s.desc.nplanes) (hn : n ≤ windowBits s s.port.arg0)
    (h : isSubblock s unc n bits = true) : blockElement unc n bits s =
      settle (finishBlock s (argPlane s) unc (decodeStream s.desc (bitsSource bits 0) n (argPlane s) unc s.codec))
        (fun k => ⟨some (k : Int), none, some 0⟩) overflowResult := by
  have he := congrArg Cursor.exh (isSubblock_iff.mp h)
  rw [blockElement, ifReady_ready hr.1 hr.2, h, decide_eq_true hp, Bool.and_self, ifInput_true, decodeBlockRun,
    decodeStream_agrees (fun _ _ => rfl) hn _ he]

/-- DECODE_BLOCK runs on the same where the same bits stand in `FB`. -/
theorem execDecodeBlock_eq (hr : Ready s) (hp : s.port.arg1 < s.desc.nplanes) (h2 : s.port.arg1 < 2)
    (hn : n ≤ windowBits s s.port.arg0) (h : isSubblock s unc n bits = true) (hf : IsField s s.port.arg0 0 n bits) :
    execDecodeBlock (argPlane s) unc s =
      settle (finishBlock s (argPlane s) unc (decodeStream s.desc (bitsSource bits 0) n (argPlane s) unc s.codec))
        (fun k => ⟨some (k : Int), none, some 0⟩) overflowResult := by
  have he := congrArg Cursor.exh (isSubblock_iff.mp h)
  have plane : planeOk s (argPlane s) = true := by
    rw [planeOk, argPlane, show (Fin.ofNat 2 s.port.arg1).val = s.port.arg1 from Nat.mod_eq_of_lt h2]
    exact decide_eq_true hp
  have same : ∀ b < n, fbSource s.fb s.port.arg0 b = bitsSource bits 0 b := by
    intro b hb
    have := hf.2 b hb
    rw [Nat.zero_add] at this
    simp [fbSource, fbBit, bitsSource, this]
  rw [execDecodeBlock, ifReady_ready hr.1 hr.2, plane, ifInput_true, decodeBlockRun, decodeStream_agrees same hn _ he]

end Blocks

/-- Settles O33: an element decodes its own bits, and a longer window or the same bits in `FB` decode to the same. -/
theorem blockElements : Obligations.BlockElements := by
  intro s n bits hr hp h2 hn
  refine ⟨fun hlen => ?_, fun hsub => ⟨fun ht => ?_, fun hf => ?_⟩⟩
  · have R := decodeStream_uncompressed (d := s.desc) (src := bitsSource bits 0) (lim := n) (p := argPlane s) s.codec
      hlen.ge
    have hsub : isSubblock s true n bits = true := isSubblock_iff.mpr (hlen ▸ R.cur)
    have hdone := settle_finishBlock (s := s) (unc := true) (p := argPlane s) (congrArg Cursor.exh R.cur) rfl overflowResult
    rw [R.cur, show ceilDiv (16 * planeBitsOf s.desc.toDescIn (argPlane s)) 8 = 2 * planeBitsOf s.desc.toDescIn (argPlane s) by
      unfold ceilDiv; omega] at hdone
    refine ⟨_, (blockElement_eq hr hp hn hsub).trans hdone, elementDone_doneWith _ _, elementDone_onlyCodec _ _,
      elementDone_chk R.only.pend, fun c hc i => ?_⟩
    rw [elementDone_codec, R.read c hc i]
    exact fieldAt_bitsSource_zero _ _ _
  · have hcur := isSubblock_iff.mp hsub
    have hdone := settle_finishBlock (s := s) (unc := false) (p := argPlane s) (congrArg Cursor.exh hcur) (by simpa using ht)
      overflowResult
    rw [hcur] at hdone
    refine ⟨_, (blockElement_eq hr hp hn hsub).trans hdone, elementDone_doneWith _ _, elementDone_onlyCodec _ _, ?_⟩
    rw [elementDone_cur, hcur]
    rfl
  · exact (blockElement_eq hr hp hn hsub).trans (execDecodeBlock_eq hr hp h2 hn hsub hf).symm

end Sys2Proof.Machine

namespace Sys2Proof.Machine

/-! ### Resolving size codes, slot by slot (44_header_address R244 to R246) -/

section Resolution

/-! The entries of the header registers. -/

theorem getD_setIfInBounds {α : Type} {n : Nat} (v : Vector α n) {j k : Nat} (a z : α) (h : j < n) :
    (v.setIfInBounds j a).getD k z = if k = j then a else v.getD k z := by
  by_cases hk : k = j
  · subst hk
    simp [Vector.getD, h]
  · simp [Vector.getD, hk, Ne.symm hk]

/-- The resolved entry of a slot: offset, size, and whether it is uncompressed. -/
def Hdr.entry (h : Hdr) (k : Nat) : BitVec 33 × BitVec 14 × Bool := (h.off.getD k 0, h.size.getD k 0, h.unc.getD k false)

theorem setEntry_entry (h : Hdr) {j : Nat} (k off size : Nat) (unc : Bool) (hj : j < 24) : (h.setEntry j off size unc).entry k =
    if k = j then (BitVec.ofNat 33 off, BitVec.ofNat 14 size, unc) else h.entry k := by
  simp only [Hdr.entry, Hdr.setEntry, getD_setIfInBounds _ _ _ hj]
  split <;> rfl

/-- Copying an entry repeats it. -/
theorem copyEntry_entry (h : Hdr) {j : Nat} (k t : Nat) (hj : j < 24) :
    (h.copyEntry j t).entry k = if k = j then h.entry t else h.entry k := by
  rw [Hdr.copyEntry, setEntry_entry _ _ _ _ _ hj]
  simp [Hdr.entry]

theorem setCode_codeAt (h : Hdr) {j : Nat} (k n : Nat) (hj : j < 24) :
    (h.setCode j n).codeAt k = if k = j then n % 2 ^ 6 else h.codeAt k := by
  simp only [Hdr.codeAt, Hdr.setCode, getD_setIfInBounds _ _ _ hj]
  split
  · exact BitVec.toNat_ofNat ..
  · rfl

variable {d : Desc} {h : Hdr} {r : Resolve} {k : Nat}

/-- Where slot `k` starts when resolution has come to it. -/
def Resolve.start (r : Resolve) (d : Desc) (k : Nat) : Nat :=
  if isSplit d.toDescIn k then splitOffset d r.hdr.ptr.toNat else r.off

/-- The entry that a code other than 0 gives slot `k` of header `h`. -/
def sizedEntry (d : Desc) (h : Hdr) (k : Nat) : BitVec 33 × BitVec 14 × Bool :=
  (BitVec.ofNat 33 (slotOffset d h.ptr.toNat h.codeAt k), BitVec.ofNat 14 (codeSize d k (h.codeAt k)),
    decide (h.codeAt k = 1))

/-- The slot before slot `k` that a copy in plane `p` repeats: the last one of the plane whose code is not 0. -/
def IsLastSized (d : Desc) (h : Hdr) (k : Nat) (p : Fin 2) : Option Nat → Prop
  | none => ∀ j < k, slotPlane d j = p → h.codeAt j = 0
  | some j => j < k ∧ slotPlane d j = p ∧ h.codeAt j ≠ 0 ∧ ∀ l, j < l → l < k → slotPlane d l = p → h.codeAt l = 0

theorem IsLastSized.skip {p : Fin 2} {o : Option Nat} (H : IsLastSized d h k p o)
    (hk : slotPlane d k = p → h.codeAt k = 0) : IsLastSized d h (k + 1) p o := by
  cases o with
  | none =>
    intro j hj hp
    rcases Nat.lt_succ_iff_lt_or_eq.mp hj with hj | rfl
    · exact H j hj hp
    · exact hk hp
  | some j =>
    obtain ⟨hjk, hp, hj0, hl⟩ := H
    refine ⟨by omega, hp, hj0, fun l h1 h2 hpl => ?_⟩
    rcases Nat.lt_succ_iff_lt_or_eq.mp h2 with h2 | rfl
    · exact hl l h1 h2 hpl
    · exact hk hpl

theorem isLastSized_self (hk : h.codeAt k ≠ 0) : IsLastSized d h (k + 1) (slotPlane d k) (some k) :=
  ⟨Nat.lt_succ_self k, rfl, hk, fun l h1 h2 _ => by omega⟩

/-- `h'` is `h` but for the resolved entries of the slots. -/
def SameRaw (h h' : Hdr) : Prop := h' = { h with off := h'.off, size := h'.size, unc := h'.unc }

theorem SameRaw.trans {h h' h'' : Hdr} (a : SameRaw h h') (b : SameRaw h' h'') : SameRaw h h'' := by
  rw [SameRaw, b, a]

/-- What resolution knows when it has come to slot `k` of header `h`: the raw fields, the running offset, the slots that
copies can repeat, and the entries of the earlier slots that are no copies. -/
structure Resolved (d : Desc) (h : Hdr) (k : Nat) (r : Resolve) : Prop where
  raw : SameRaw h r.hdr
  start : r.start d k = slotOffset d h.ptr.toNat h.codeAt k
  last : ∀ p : Fin 2, IsLastSized d h k p r.last[p]
  entries : ∀ j < k, h.codeAt j ≠ 0 → r.hdr.entry j = sizedEntry d h j

/-! One slot, by its code. -/

theorem resolveSlot_sized (hn : r.hdr.codeAt k ≠ 0) : resolveSlot d r k =
    { off := r.start d k + codeSize d k (r.hdr.codeAt k), last := r.last.set (slotPlane d k) (some k)
      hdr := r.hdr.setEntry k (r.start d k) (codeSize d k (r.hdr.codeAt k)) (decide (r.hdr.codeAt k = 1))
      viols := r.viols } := by
  simp only [resolveSlot, codeSize, if_neg hn]
  rfl

theorem resolveSlot_copy (hn : r.hdr.codeAt k = 0) {t : Nat} (ht : r.last[slotPlane d k] = some t) :
    resolveSlot d r k = { r with off := r.start d k, hdr := r.hdr.copyEntry k t } := by
  simp only [slotPlane] at ht
  simp only [resolveSlot, if_pos hn, ht]
  rfl

theorem resolveSlot_noSource (hn : r.hdr.codeAt k = 0) (ht : r.last[slotPlane d k] = none) : resolveSlot d r k =
    { r with
      off := r.start d k, hdr := r.hdr.setEntry k (r.start d k) 0 false, viols := r.viols ++ [(.copyNoSource, 0)] } := by
  simp only [slotPlane] at ht
  simp only [resolveSlot, if_pos hn, ht]
  rfl

/-- The running offset behind slot `k`, with the split superblock's jump (R245). -/
theorem slotOffset_succ (d : Desc) (ptr : Nat) (code : Nat → Nat) (k : Nat) : slotOffset d ptr code (k + 1) =
    if isSplit d.toDescIn (k + 1) then splitOffset d ptr else slotOffset d ptr code k + codeSize d k (code k) := by
  simp only [slotOffset, isSplit, splitOffset, Bool.and_eq_true, decide_eq_true_eq, eq_comm (a := k + 1)]

theorem resolved_zero (d : Desc) (h : Hdr) : Resolved d h 0 ⟨h.ptr.toNat, Vector.replicate 2 none, h, []⟩ := by
  have last : ∀ p : Fin 2, (Vector.replicate 2 (none : Option Nat))[p] = none := fun p => by simp
  refine ⟨rfl, ?_, fun p => ?_, fun j hj => absurd hj (Nat.not_lt_zero j)⟩
  · simp only [Resolve.start, slotOffset, isSplit, splitOffset, Bool.and_eq_true, decide_eq_true_eq, eq_comm (a := 0)]
  · rw [last p]
    exact fun j hj => absurd hj (Nat.not_lt_zero j)

/-- What resolving slot `k` does to everything but the slot's own entry. -/
structure SlotStep (d : Desc) (k : Nat) (r r' : Resolve) : Prop where
  raw : SameRaw r.hdr r'.hdr
  off : r'.off = r.start d k + codeSize d k (r.hdr.codeAt k)
  last : r'.last = if r.hdr.codeAt k = 0 then r.last else r.last.set (slotPlane d k) (some k)
  others : ∀ j, j ≠ k → r'.hdr.entry j = r.hdr.entry j

theorem resolveSlot_step (hk : k < 24) : SlotStep d k r (resolveSlot d r k) := by
  by_cases hn : r.hdr.codeAt k = 0
  · have hsize : codeSize d k (r.hdr.codeAt k) = 0 := if_pos hn
    cases ht : r.last[slotPlane d k] with
    | none =>
      rw [resolveSlot_noSource hn ht]
      exact ⟨rfl, by rw [hsize]; rfl, (if_pos hn).symm, fun j hj => (setEntry_entry _ _ _ _ _ hk).trans (if_neg hj)⟩
    | some t =>
      rw [resolveSlot_copy hn ht]
      exact ⟨rfl, by rw [hsize]; rfl, (if_pos hn).symm, fun j hj => (copyEntry_entry _ _ _ hk).trans (if_neg hj)⟩
  · rw [resolveSlot_sized hn]
    exact ⟨rfl, rfl, (if_neg hn).symm, fun j hj => (setEntry_entry _ _ _ _ _ hk).trans (if_neg hj)⟩

theorem Resolved.codeAt (R : Resolved d h k r) (j : Nat) : r.hdr.codeAt j = h.codeAt j := by
  rw [R.raw]
  rfl

/-- A slot whose code is not 0 lies at the running offset, with the size of its code. -/
theorem Resolved.sized (R : Resolved d h k r) (hk : k < 24) (hn : h.codeAt k ≠ 0) :
    (resolveSlot d r k).hdr.entry k = sizedEntry d h k ∧ (resolveSlot d r k).viols = r.viols := by
  rw [resolveSlot_sized (R.codeAt k ▸ hn)]
  exact ⟨by rw [setEntry_entry _ _ _ _ _ hk, if_pos rfl, R.start, R.codeAt, sizedEntry], rfl⟩

/-- A slot with a source repeats its source's entry. -/
theorem Resolved.copied (R : Resolved d h k r) (hk : k < 24) (hn : h.codeAt k = 0) {j : Nat}
    (hj : CopySource d h.codeAt k j) :
    (resolveSlot d r k).hdr.entry k = sizedEntry d h j ∧ (resolveSlot d r k).viols = r.viols := by
  obtain ⟨hjk, hplane, hne, hlast⟩ := hj
  have hs := R.last (slotPlane d k)
  cases ht : r.last[slotPlane d k] with
  | none =>
    rw [ht] at hs
    exact absurd (hs j hjk hplane) hne
  | some t =>
    rw [ht] at hs
    obtain ⟨htk, hp, ht0, htl⟩ := hs
    obtain rfl : t = j := by
      rcases Nat.lt_trichotomy t j with hlt | rfl | hlt
      · exact absurd (htl j hlt hjk hplane) hne
      · rfl
      · exact absurd (hlast t hlt htk hp) ht0
    rw [resolveSlot_copy ((R.codeAt k).trans hn) ht]
    exact ⟨by rw [copyEntry_entry _ _ _ hk, if_pos rfl, R.entries t htk ht0], rfl⟩

/-- A slot without one is empty and pends a violation (R246). -/
theorem Resolved.sourceless (R : Resolved d h k r) (hk : k < 24) (hn : h.codeAt k = 0) (hs : NoSource d h.codeAt k) :
    (resolveSlot d r k).hdr.entry k = (BitVec.ofNat 33 (slotOffset d h.ptr.toNat h.codeAt k), 0, false) ∧
      (resolveSlot d r k).viols = r.viols ++ [(.copyNoSource, 0)] := by
  cases ht : r.last[slotPlane d k] with
  | none =>
    rw [resolveSlot_noSource ((R.codeAt k).trans hn) ht]
    exact ⟨by rw [setEntry_entry _ _ _ _ _ hk, if_pos rfl, R.start]; rfl, rfl⟩
  | some t =>
    have hl := R.last (slotPlane d k)
    rw [ht] at hl
    obtain ⟨htk, hp, ht0, -⟩ := hl
    exact absurd (hs t htk hp) ht0

/-- Resolution goes on to the next slot. -/
theorem Resolved.next (R : Resolved d h k r) (hk : k < 24) : Resolved d h (k + 1) (resolveSlot d r k) := by
  have S := resolveSlot_step (d := d) (r := r) hk
  have last : (resolveSlot d r k).last = if h.codeAt k = 0 then r.last else r.last.set (slotPlane d k) (some k) := by
    rw [S.last, R.codeAt]
  have ptr : (resolveSlot d r k).hdr.ptr = h.ptr := by rw [R.raw.trans S.raw]
  refine ⟨R.raw.trans S.raw, ?_, fun p => ?_, fun j hj hne => ?_⟩
  · rw [Resolve.start, slotOffset_succ, ptr, S.off, R.start, R.codeAt]
  · rw [last]
    by_cases hn : h.codeAt k = 0
    · rw [if_pos hn]
      exact (R.last p).skip fun _ => hn
    · rw [if_neg hn]
      by_cases hp : slotPlane d k = p
      · subst hp
        simpa using isLastSized_self hn
      · have hv : (slotPlane d k).val ≠ p.val := fun z => hp (Fin.ext z)
        simpa [Vector.getElem_set, hv] using (R.last p).skip fun h => absurd h hp
  · rcases Nat.lt_succ_iff_lt_or_eq.mp hj with hj | rfl
    · exact (S.others j (by omega)).trans (R.entries j hj hne)
    · exact (R.sized hk hne).1

theorem resolved_range (d : Desc) (h : Hdr) (hk : k ≤ 24) : Resolved d h k (resolveSlots d h (List.range k)) := by
  induction k with
  | zero => exact resolved_zero d h
  | succ k ih =>
    rw [resolveSlots, List.range_succ, List.foldl_append]
    exact (ih (by omega)).next (by omega)

end Resolution
end Sys2Proof.Machine

namespace Sys2Proof.Machine

/-! ### Offsets and sizes fit their registers (10_state R36) -/

section Bounds

variable {d : Desc} (f : DescFacts d)
include f

theorem DescFacts.uncompSize_le {k : Nat} (hk : k < d.nsubblocks) : d.uncompSize[slotPlane d k] ≤ 120 := by
  obtain ⟨hp, -, -⟩ := f.slot_in_region hk
  have h := (f.planeBits hp).2
  have e := f.uncomp_eq (slotPlane d k)
  unfold slotPlane at e ⊢
  omega

theorem DescFacts.codeSize_lt {k n : Nat} (hk : k < d.nsubblocks) (hn : n < 64) : codeSize d k n < 2 ^ 14 := by
  have hu := f.uncompSize_le hk
  have hm : (d.sbsMultiplier[slotPlane d k]).toNat ≤ 255 := Nat.le_of_lt_succ (d.sbsMultiplier[slotPlane d k]).isLt
  unfold codeSize
  split
  · decide
  · split
    · omega
    · calc n * (d.sbsMultiplier[slotPlane d k]).toNat ≤ 63 * 255 := Nat.mul_le_mul (by omega) hm
        _ < 2 ^ 14 := by decide

theorem DescFacts.maxpay_le : d.maxpay ≤ 24 * 120 := by
  have hle : ∀ v ∈ d.table.slots.map fun sl => uncompSizeOf d.toDescIn sl.plane, v ≤ 120 := by
    intro v hv
    obtain ⟨sl, hsl, rfl⟩ := List.mem_map.mp hv
    obtain ⟨k, hk, rfl⟩ := List.getElem_of_mem hsl
    have hp : (slotAt d k).plane ∈ planes d := (f.slot_in_region (f.slots ▸ hk)).1
    rw [slotAt, List.getD_eq_getElem _ _ hk] at hp
    have := (f.planeBits hp).2
    unfold uncompSizeOf ceilDiv
    omega
  have hsum := List.sum_le_card_nsmul _ _ hle
  obtain ⟨-, -, -, h24, -⟩ := f.narrow
  rw [List.length_map, f.slots, smul_eq_mul] at hsum
  calc d.maxpay = payloadOf d.toDescIn d.table.slots := f.maxpay_eq
    _ ≤ d.nsubblocks * 120 := hsum
    _ ≤ 24 * 120 := Nat.mul_le_mul_right _ h24

theorem DescFacts.slotOffset_le {ptr : Nat} {code : Nat → Nat} {k : Nat} (hk : k ≤ d.nsubblocks)
    (hc : ∀ j < k, code j < 64) : slotOffset d ptr code k ≤ ptr + d.maxpay / 2 + 2 ^ 14 * k := by
  induction k with
  | zero =>
    unfold slotOffset
    split <;> omega
  | succ k ih =>
    have h1 := ih (by omega) fun j hj => hc j (by omega)
    have h2 := f.codeSize_lt (k := k) (by omega) (hc k (by omega))
    rw [slotOffset]
    split <;> omega

theorem DescFacts.slotOffset_lt {ptr : Nat} {code : Nat → Nat} {k : Nat} (hp : ptr < 2 ^ 32) (hk : k ≤ d.nsubblocks)
    (hc : ∀ j < k, code j < 64) : slotOffset d ptr code k < 2 ^ 33 := by
  have h := f.slotOffset_le (ptr := ptr) hk hc
  have hm := f.maxpay_le
  obtain ⟨-, -, -, h24, -⟩ := f.narrow
  omega

end Bounds

/-! ### A size code as an element (30_encoding R97) -/

section Sizes

variable {s : State} {k n : Nat}

/-- An offset depends on the codes of the earlier slots only. -/
theorem slotOffset_congr {d : Desc} {ptr : Nat} {code code' : Nat → Nat} (h : ∀ j < k, code j = code' j) :
    slotOffset d ptr code k = slotOffset d ptr code' k := by
  induction k with
  | zero => rfl
  | succ k ih => rw [slotOffset, slotOffset, ih fun j hj => h j (by omega), h k (by omega)]

theorem copySource_congr {d : Desc} {code code' : Nat → Nat} (h : ∀ j < k, code j = code' j) {j : Nat}
    (c : CopySource d code k j) : CopySource d code' k j := by
  obtain ⟨hjk, hp, hne, hl⟩ := c
  exact ⟨hjk, hp, h j hjk ▸ hne, fun l h1 h2 hpl => h l h2 ▸ hl l h1 h2 hpl⟩

theorem noSource_congr {d : Desc} {code code' : Nat → Nat} (h : ∀ j < k, code j = code' j) (c : NoSource d code k) :
    NoSource d code' k := fun j hj hp => h j hj ▸ c j hj hp

/-- The header registers when `n` has been taken as the code of slot `k`. -/
def headerWith (s : State) (k n : Nat) : Hdr := { s.hdr.setCode k n with solid := false }

theorem headerWith_codeAt (hk : k < 24) (hn : n < 64) (j : Nat) :
    (headerWith s k n).codeAt j = if j = k then n else codeOf s j := by
  refine (setCode_codeAt s.hdr j n hk).trans ?_
  rw [Nat.mod_eq_of_lt (show n < 2 ^ 6 from hn)]
  rfl

/-- Resolution of slot `k` alone, from what the earlier codes come to. -/
def resolvedAt (s : State) (k n : Nat) : Resolve :=
  resolveSlot s.desc { resolveSlots s.desc (headerWith s k n) (List.range k) with viols := [] } k

theorem resolved_headerWith (hk : k < 24) : Resolved s.desc (headerWith s k n) k
    { resolveSlots s.desc (headerWith s k n) (List.range k) with viols := [] } := by
  obtain ⟨raw, start, last, entries⟩ := resolved_range s.desc (headerWith s k n) hk.le
  exact ⟨raw, start, last, entries⟩

/-- The header registers with slot `k` resolved. -/
def resolvedHeader (s : State) (k n : Nat) : Hdr :=
  let e := (resolvedAt s k n).hdr.entry k
  (headerWith s k n).setEntry k e.1.toNat e.2.1.toNat e.2.2

/-- `s` after `n` was taken as the size code of slot `k`. -/
def sizeDone (s : State) (k n : Nat) : State :=
  completeOp (flagAll { s with hdr := resolvedHeader s k n } (resolvedAt s k n).viols) Results.none

theorem sizeDone_hdr : (sizeDone s k n).hdr = resolvedHeader s k n := by simp [sizeDone]

theorem sizeDone_cur : (sizeDone s k n).cur = s.cur := by simp [sizeDone]

theorem sizeDone_doneWith : DoneWith s (sizeDone s k n) Results.none := by simp [DoneWith, sizeDone]

theorem sizeDone_onlyHeader : OnlyHeader s (sizeDone s k n) := by
  have h := (flagAll_only_chk { s with hdr := resolvedHeader s k n } (resolvedAt s k n).viols).same
  rw [OnlyHeader, sizeDone, h]
  rfl

theorem sizeDone_flags : Flags s (sizeDone s k n) fun x => x ∈ (resolvedAt s k n).viols.map Prod.fst :=
  flagAll_flags { s with hdr := resolvedHeader s k n } (resolvedAt s k n).viols

theorem sizeDone_chk (h : (resolvedAt s k n).viols = []) : (sizeDone s k n).chk = s.chk := by
  rw [sizeDone, h]
  rfl

theorem sizeDone_codeOf (hk : k < 24) (hn : n < 64) : codeOf (sizeDone s k n) k = n := by
  rw [codeOf, sizeDone_hdr]
  exact (headerWith_codeAt hk hn k).trans (if_pos rfl)

theorem sizeDone_entry (hk : k < 24) : (sizeDone s k n).hdr.entry k = (resolvedAt s k n).hdr.entry k := by
  rw [sizeDone_hdr, resolvedHeader, setEntry_entry _ _ _ _ _ hk, if_pos rfl]
  simp

/-- A size code of the descriptor's mode completes, where the earlier codes are known and the header is not solid. -/
theorem sizeElement_completes (hr : Ready s) (hfit : headerAddr s.port.arg0 + 16 ≤ bufSize s)
    (hk : s.port.arg1 < s.desc.nsubblocks) (hptr : s.hdr.ptrOk = true)
    (hcodes : ∀ j < s.port.arg1, s.hdr.codeOk.getD j false = true)
    (hsol : ¬ (s.desc.allowSolid = true ∧ slotZeroCode s.hdr s.port.arg1 n = 0)) :
    sizeElement s.desc.subsampling n s = .next (sizeDone s s.port.arg1 n) := by
  have defined : earlierDefined s.hdr s.port.arg1 = true := by
    simp only [earlierDefined, hptr, Bool.true_and, List.all_eq_true, List.mem_range]
    exact hcodes
  have normal : (!(s.desc.allowSolid && slotZeroCode s.hdr s.port.arg1 n == 0)) = true := by
    simpa [← Bool.not_eq_true, imp_iff_not_or] using hsol
  have fits : headerFits s s.port.arg0 = true := decide_eq_true hfit
  simp only [sizeElement, ifReady_ready hr.1 hr.2, beq_self_eq_true, decide_eq_true hk, Bool.and_self, ifInput_true, defined,
    ifDefined_true, normal, sizeRun, fits, if_true, settle_ok]
  rfl

/-- The codes below slot `k` are those that stood in the registers. -/
theorem headerWith_earlier (hk : k < 24) (hn : n < 64) : ∀ j < k, (headerWith s k n).codeAt j = codeOf s j :=
  fun j hj => (headerWith_codeAt hk hn j).trans (if_neg (by omega))

theorem headerWith_self (hk : k < 24) (hn : n < 64) : (headerWith s k n).codeAt k = n :=
  (headerWith_codeAt hk hn k).trans (if_pos rfl)

theorem codeOf_lt (s : State) (k : Nat) : codeOf s k < 64 := (s.hdr.code.getD k 0).isLt

variable (f : DescFacts s.desc)
include f

/-- What the registers hold of slot `k`, where resolution gave it the entry of slot `j`. -/
theorem entry_of_sized {t : State} {j : Nat} (hk : k < 24) (hn : n < 64) (hj : j ≤ k) (hjs : j < s.desc.nsubblocks)
    (h : t.hdr.entry k = sizedEntry s.desc (headerWith s k n) j) :
    (t.hdr.off.getD k 0).toNat = slotOffset s.desc s.hdr.ptr.toNat (codeOf s) j ∧
      (t.hdr.size.getD k 0).toNat = codeSize s.desc j ((headerWith s k n).codeAt j) ∧
      t.hdr.unc.getD k false = decide ((headerWith s k n).codeAt j = 1) := by
  obtain ⟨off, rest⟩ := Prod.mk.inj h
  obtain ⟨size, unc⟩ := Prod.mk.inj rest
  have hoff : slotOffset s.desc s.hdr.ptr.toNat (headerWith s k n).codeAt j = slotOffset s.desc s.hdr.ptr.toNat (codeOf s) j :=
    slotOffset_congr fun l hl => headerWith_earlier hk hn l (by omega)
  have hcode : (headerWith s k n).codeAt j < 64 := by
    rw [headerWith_codeAt hk hn]
    split
    · exact hn
    · exact codeOf_lt s j
  rw [off, size, unc]
  refine ⟨?_, Nat.mod_eq_of_lt (f.codeSize_lt hjs hcode), rfl⟩
  rw [← hoff]
  refine Nat.mod_eq_of_lt (hoff ▸ f.slotOffset_lt s.hdr.ptr.isLt hjs.le fun l _ => codeOf_lt s l)

/-- A slot of code `n`, not a copy, lies at the running offset. -/
theorem sizeDone_sized (hk : k < s.desc.nsubblocks) (hn : n < 64) (h0 : n ≠ 0) :
    ((sizeDone s k n).hdr.off.getD k 0).toNat = slotOffset s.desc s.hdr.ptr.toNat (codeOf s) k ∧
      ((sizeDone s k n).hdr.size.getD k 0).toNat = codeSize s.desc k n ∧
      (sizeDone s k n).hdr.unc.getD k false = decide (n = 1) ∧ (sizeDone s k n).chk = s.chk := by
  obtain ⟨-, -, -, h24, -⟩ := f.narrow
  have hk24 : k < 24 := by omega
  have self := headerWith_self (s := s) hk24 hn
  obtain ⟨entry, viols⟩ := (resolved_headerWith (s := s) (n := n) hk24).sized hk24 (by rwa [self])
  obtain ⟨off, size, unc⟩ := entry_of_sized f hk24 hn le_rfl hk ((sizeDone_entry hk24).trans entry)
  rw [self] at size unc
  exact ⟨off, size, unc, sizeDone_chk viols⟩

/-- A copy has the entry of its source. -/
theorem sizeDone_copied (hk : k < s.desc.nsubblocks) {j : Nat} (hj : CopySource s.desc (codeOf s) k j) :
    ((sizeDone s k 0).hdr.off.getD k 0).toNat = slotOffset s.desc s.hdr.ptr.toNat (codeOf s) j ∧
      ((sizeDone s k 0).hdr.size.getD k 0).toNat = codeSize s.desc j (codeOf s j) ∧
      (sizeDone s k 0).hdr.unc.getD k false = decide (codeOf s j = 1) ∧ (sizeDone s k 0).chk = s.chk := by
  obtain ⟨-, -, -, h24, -⟩ := f.narrow
  have hk24 : k < 24 := by omega
  have earlier := headerWith_earlier (s := s) (n := 0) hk24 (by decide)
  obtain ⟨entry, viols⟩ := (resolved_headerWith (s := s) (n := 0) hk24).copied hk24 (headerWith_self hk24 (by decide))
    (copySource_congr (fun l hl => (earlier l hl).symm) hj)
  have hjk : j < k := hj.1
  obtain ⟨off, size, unc⟩ := entry_of_sized f hk24 (by decide) hjk.le (by omega) ((sizeDone_entry hk24).trans entry)
  rw [earlier j hjk] at size unc
  exact ⟨off, size, unc, sizeDone_chk viols⟩

/-- A copy without a source is empty, and flagged (R246). -/
theorem sizeDone_sourceless (hk : k < s.desc.nsubblocks) (hs : NoSource s.desc (codeOf s) k) :
    ((sizeDone s k 0).hdr.off.getD k 0).toNat = slotOffset s.desc s.hdr.ptr.toNat (codeOf s) k ∧
      (sizeDone s k 0).hdr.size.getD k 0 = 0 ∧ (sizeDone s k 0).hdr.unc.getD k false = false ∧
      Flags s (sizeDone s k 0) (· = .copyNoSource) := by
  obtain ⟨-, -, -, h24, -⟩ := f.narrow
  have hk24 : k < 24 := by omega
  have earlier := headerWith_earlier (s := s) (n := 0) hk24 (by decide)
  obtain ⟨entry, viols⟩ := (resolved_headerWith (s := s) (n := 0) hk24).sourceless hk24 (headerWith_self hk24 (by decide))
    (noSource_congr (fun l hl => (earlier l hl).symm) hs)
  obtain ⟨off, rest⟩ := Prod.mk.inj ((sizeDone_entry hk24).trans entry)
  obtain ⟨size, unc⟩ := Prod.mk.inj rest
  refine ⟨?_, size, unc, sizeDone_flags.congr fun v => ?_⟩
  · rw [off, slotOffset_congr earlier]
    exact Nat.mod_eq_of_lt (f.slotOffset_lt s.hdr.ptr.isLt hk.le fun l _ => codeOf_lt s l)
  · rw [resolvedAt, viols]
    simp

end Sizes

/-- Settles O27: the three size codes are one element, by what resolution makes of the code. -/
theorem sizeElements : Obligations.SizeElements := by
  intro s hinv hr hfit k m start hk hptr hok _ hzero
  have f := hinv.facts hr
  obtain ⟨-, -, -, h24, -⟩ := f.narrow
  have hk24 : k < 24 := by omega
  have done : ∀ n, (s.desc.allowSolid = true → k = 0 → n ≠ 0) →
      sizeElement m n s = .next (sizeDone s k n) := fun n h0 => by
    refine sizeElement_completes hr hfit hk hptr hok fun ⟨ha, hz⟩ => ?_
    by_cases h : k = 0
    · exact h0 ha h ((if_pos h).symm.trans hz)
    · exact hzero ha h ((if_neg h).symm.trans hz)
  refine ⟨?_, fun n hn => ?_, fun hsol => ?_⟩
  · obtain ⟨off, size, unc, chk⟩ := sizeDone_sized (n := 1) f hk (by decide) (by decide)
    exact ⟨_, done 1 fun _ _ => by decide, sizeDone_doneWith, sizeDone_onlyHeader, sizeDone_cur,
      sizeDone_codeOf hk24 (by decide), off, size, unc, chk⟩
  · obtain ⟨h2, -⟩ := of_decide_eq_true hn
    obtain ⟨off, size, unc, chk⟩ := sizeDone_sized f hk n.isLt (by omega)
    rw [codeSize, if_neg (by omega), if_neg (by omega)] at size
    rw [decide_eq_false (by omega)] at unc
    exact ⟨_, done n.toNat fun _ _ => by omega, sizeDone_doneWith, sizeDone_onlyHeader, sizeDone_cur,
      sizeDone_codeOf hk24 n.isLt, off, size, unc, chk⟩
  · exact ⟨_, done 0 fun ha h => absurd ⟨ha, h⟩ hsol, sizeDone_doneWith, sizeDone_onlyHeader, sizeDone_cur,
      sizeDone_codeOf hk24 (by decide), fun j hj => sizeDone_copied f hk hj, sizeDone_sourceless f hk⟩

end Sys2Proof.Machine

namespace Sys2Proof.Machine

/-! ### Headers as elements (30_encoding R96, R98) -/

/-- A ready state whose descriptor has no slots, with a code of 1 in `HDR_CODE[0]`. -/
def slotless : State := { State.reset with
  descValid := true
  desc := { Desc.zero with allowSolid := true, bufSize := 16, ptrBits := 32, sizeBits := 6 }
  hdr := { State.reset.hdr with code := Vector.replicate 24 1 } }

/-- There HEADER_SOLID reads the code that stood in the register, and takes the header for a normal one. -/
theorem exec_headerSolid_slotless :
    ∃ t, exec (.headerSolid .NONE 0) slotless = .next t ∧ t.hdr.solid = false := ⟨_, rfl, rfl⟩

/-- Refutes O25: its clause on HEADER_SOLID does not ask that the descriptor has a slot (its clause on normal headers asks
for the mode's number of slots), and a header of no slots leaves `HDR_CODE[0]`, which tells the solid form, as it was. -/
theorem not_headerElements : ¬ Obligations.HeaderElements := by
  rintro ⟨-, solid⟩
  obtain ⟨u, hu, hsolid⟩ := exec_headerSolid_slotless
  obtain ⟨t, ht, -, -, htsolid, -⟩ := solid slotless 0 ⟨rfl, rfl⟩ (by decide) rfl rfl rfl (by decide) (by decide)
  have e : u = t := Host.Outcome.next.inj (hu.symm.trans ht)
  rw [← e, hsolid] at htsolid
  cases htsolid

end Sys2Proof.Machine

namespace Sys2Proof.Machine

/-! What remains of that statement: for a descriptor with slots, both kinds of header element do what it says. -/

section HeaderFields

variable {s : State} {d : Desc} {h : Hdr} {w k : Nat}

theorem setFields_ptr (hp : d.ptrBits ≤ 32) : (h.setFields d w).ptr.toNat = bitField w 0 d.ptrBits :=
  Nat.mod_eq_of_lt ((bitField_lt _ _ _).trans_le (Nat.pow_le_pow_right (by decide) hp))

theorem setFields_codeAt (hc : d.sizeBits ≤ 6) (hk : k < d.nsubblocks) (h24 : d.nsubblocks ≤ 24) :
    (h.setFields d w).codeAt k = bitField w (d.ptrBits + d.sizeBits * k) d.sizeBits := by
  have hlt : bitField w (d.ptrBits + d.sizeBits * k) d.sizeBits < 2 ^ 6 :=
    (bitField_lt _ _ _).trans_le (Nat.pow_le_pow_right (by decide) hc)
  have hk24 : k < 24 := by omega
  simpa [Hdr.codeAt, Hdr.setFields, Vector.getD, hk24, hk] using Nat.mod_eq_of_lt hlt

theorem code_zero_eq_iff (h : Hdr) : (h.code[0] == 0) = true ↔ h.codeAt 0 = 0 := by
  rw [beq_iff_eq, ← BitVec.toNat_inj]
  simp [Hdr.codeAt, Vector.getD]

/-- Where the solid form is not allowed, or the first code says otherwise, the slots are resolved. -/
theorem parseWord_normal (h24 : s.desc.nsubblocks ≤ 24)
    (hn : ¬ (s.desc.allowSolid = true ∧ (s.hdr.setFields s.desc w).codeAt 0 = 0)) :
    SameRaw { s.hdr.setFields s.desc w with solid := false } (parseWord s w).hdr := by
  rw [← code_zero_eq_iff, ← Bool.and_eq_true] at hn
  simp only [parseWord, if_neg hn, flagAll_hdr]
  exact (resolved_range s.desc _ h24).raw

theorem parseWord_solid (ha : s.desc.allowSolid = true) (h0 : (s.hdr.setFields s.desc w).codeAt 0 = 0) :
    parseWord s w = { s with
      hdr := { s.hdr.setFields s.desc w with solid := true, solidVal := solidColours s.desc.toDescIn w } } := by
  have cond := Bool.and_eq_true_iff.mpr ⟨ha, (code_zero_eq_iff _).mpr h0⟩
  simp only [parseWord, if_pos cond]

theorem SameRaw.fields {h h' : Hdr} (e : SameRaw h h') :
    h'.solid = h.solid ∧ h'.ptr = h.ptr ∧ ∀ k, h'.codeAt k = h.codeAt k := by
  rw [e]
  exact ⟨rfl, rfl, fun _ => rfl⟩

theorem parseWord_onlyHeader (s : State) (w : Nat) (r : Results) : OnlyHeader s (completeOp (parseWord (startCursor s) w) r) := by
  simp only [parseWord]
  split
  · rfl
  · rw [OnlyHeader, (flagAll_only_chk _ _).same]
    rfl

theorem parseWord_doneWith (s : State) (w : Nat) (r : Results) : DoneWith s (completeOp (parseWord (startCursor s) w) r) r := by
  simp only [parseWord]
  split
  · rfl
  · simp [DoneWith]

/-- A header of the descriptor's mode and form completes where it lies in the buffer. -/
theorem headerElement_completes {solid : Bool} (hr : Ready s) (hfit : headerAddr s.port.arg0 + 16 ≤ bufSize s)
    (hs : solidForm s.desc w = solid) : headerElement s.desc.subsampling solid w s =
      .next (completeOp (parseWord (startCursor s) w) Results.none) := by
  have fits : headerFits s s.port.arg0 = true := decide_eq_true hfit
  simp only [headerElement, ifReady_ready hr.1 hr.2, hs, beq_self_eq_true, Bool.and_self, ifInput_true, parseWordRun, fits,
    if_true, settle_ok]

/-- A normal header, packed from pointer and codes as HEADER_NORMAL of each mode packs them, gives its fields back as pointer
and size codes (30_encoding R96). -/
theorem headerElement_normal {pb wd n : Nat} (p : BitVec pb) (cs : Vector (BitVec wd) n) (hr : Ready s)
    (hfit : headerAddr s.port.arg0 + 16 ≤ bufSize s) (hp : s.desc.ptrBits = pb) (hw : s.desc.sizeBits = wd)
    (hn : s.desc.nsubblocks = n) (hp32 : pb ≤ 32) (hw6 : wd ≤ 6) (h24 : n ≤ 24) (h0 : 0 < n)
    (hsol : ¬ (s.desc.allowSolid = true ∧ cs[0] = 0)) :
    ∃ t, headerElement s.desc.subsampling false (p.toNat + 2 ^ pb * packCodes wd (cs.toList.map BitVec.toNat)) s = .next t ∧
      DoneWith s t Results.none ∧ OnlyHeader s t ∧ t.hdr.solid = false ∧ t.hdr.ptr.toNat = p.toNat ∧
      ∀ k : Fin n, codeOf t k.val = (cs[k]).toNat := by
  subst hp hw hn
  generalize hbits : p.toNat + 2 ^ s.desc.ptrBits * packCodes s.desc.sizeBits (cs.toList.map BitVec.toNat) = w
  have code : ∀ k : Fin s.desc.nsubblocks, bitField w (s.desc.ptrBits + s.desc.sizeBits * k.val) s.desc.sizeBits = (cs[k]).toNat := by
    intro k
    have hk : k.val < (cs.toList.map BitVec.toNat).length := by simp
    rw [← hbits, header_code p.isLt (codes_lt cs) k.val hk]
    simp
  have first : bitField w s.desc.ptrBits s.desc.sizeBits = (cs[0]).toNat := code ⟨0, h0⟩
  have normal : ¬ (s.desc.allowSolid = true ∧ (cs[0]).toNat = 0) := fun ⟨ha, hz⟩ => hsol ⟨ha, BitVec.eq_of_toNat_eq hz⟩
  have form : solidForm s.desc w = false := by
    rw [solidForm, first]
    simpa [← Bool.not_eq_true, imp_iff_not_or] using normal
  have notSolid : ¬ (s.desc.allowSolid = true ∧ (s.hdr.setFields s.desc w).codeAt 0 = 0) := by
    rw [setFields_codeAt hw6 h0 h24, Nat.mul_zero, Nat.add_zero, first]
    exact normal
  obtain ⟨solid, ptr, codes⟩ := (parseWord_normal (s := startCursor s) h24 notSolid).fields
  refine ⟨_, headerElement_completes hr hfit form, parseWord_doneWith _ _ _, parseWord_onlyHeader _ _ _, solid, ?_, fun k => ?_⟩
  · calc _ = (s.hdr.setFields s.desc w).ptr.toNat := congrArg BitVec.toNat ptr
      _ = bitField w 0 s.desc.ptrBits := setFields_ptr hp32
      _ = p.toNat := hbits ▸ header_ptr _ _ p.isLt
  · calc _ = (s.hdr.setFields s.desc w).codeAt k := codes k
      _ = bitField w (s.desc.ptrBits + s.desc.sizeBits * k) s.desc.sizeBits := setFields_codeAt hw6 k.isLt h24
      _ = (cs[k]).toNat := code k

/-- The colours stand behind one another in component order (30_encoding R98). -/
theorem solidPos_eq (d : DescIn) (c : Fin 4) : solidPos d c = 64 + solidBefore d c := by
  fin_cases c <;> rfl

theorem solidColours_toNat {i : DescIn} (w : Nat) {c : Fin 4} (hc : inBits i c ≤ 15) :
    ((solidColours i w)[c]).toNat = w / 2 ^ (64 + solidBefore i c) % 2 ^ inBits i c := by
  have hlt : bitField w (solidPos i c) (inBits i c) < 2 ^ 15 :=
    (bitField_lt _ _ _).trans_le (Nat.pow_le_pow_right (by decide) hc)
  rw [solidColours, Fin.getElem_fin, Vector.getElem_ofFn, ← solidPos_eq, ← Nat.shiftRight_eq_div_pow]
  exact Nat.mod_eq_of_lt hlt

/-- HEADER_SOLID under a descriptor with slots (30_encoding R98). -/
theorem exec_headerSolid {h : BitVec 128} (hr : Ready s) (hfit : headerAddr s.port.arg0 + 16 ≤ bufSize s)
    (ha : s.desc.allowSolid = true) (hp : s.desc.ptrBits = s.desc.subsampling.ptrBits)
    (hw : s.desc.sizeBits = s.desc.subsampling.sizeBits) (hn : s.desc.nsubblocks = s.desc.subsampling.nslots)
    (hin : ∀ c : Fin 4, inBits s.desc.toDescIn c ≤ 15) (hwf : (Instr.headerSolid s.desc.subsampling h).wf = true) :
    ∃ t, exec (.headerSolid s.desc.subsampling h) s = .next t ∧ DoneWith s t Results.none ∧ OnlyHeader s t ∧
      t.hdr.solid = true ∧ t.chk = s.chk ∧
      (∀ c : Fin 4, (t.hdr.solidVal[c]).toNat =
        h.toNat / 2 ^ (64 + solidBefore s.desc.toDescIn c) % 2 ^ inBits s.desc.toDescIn c) ∧
      t.hdr.off = s.hdr.off ∧ t.hdr.size = s.hdr.size ∧ t.hdr.unc = s.hdr.unc := by
  have h6 : s.desc.sizeBits ≤ 6 := by rw [hw]; cases s.desc.subsampling <;> decide
  have hslots : 0 < s.desc.nsubblocks ∧ s.desc.nsubblocks ≤ 24 := by rw [hn]; cases s.desc.subsampling <;> decide
  have zero : bitField h.toNat s.desc.ptrBits s.desc.sizeBits = 0 := by
    rw [hp, hw]
    exact of_decide_eq_true hwf
  have form : solidForm s.desc h.toNat = true := by simp [solidForm, ha, zero]
  have parsed := parseWord_solid (s := startCursor s) (w := h.toNat) ha
    ((setFields_codeAt h6 hslots.1 hslots.2).trans zero)
  show ∃ t, headerElement s.desc.subsampling true h.toNat s = .next t ∧ _
  refine ⟨_, headerElement_completes hr hfit form, parseWord_doneWith _ _ _, parseWord_onlyHeader _ _ _, ?_⟩
  rw [parsed]
  refine ⟨rfl, rfl, fun c => ?_, rfl, rfl, rfl⟩
  exact solidColours_toNat h.toNat (hin c)

end HeaderFields

end Sys2Proof.Machine

namespace Sys2Proof.Machine

/-! ### Access at a cursor: the field fits, or the cursor is exhausted after it (40_bitstream R132 to R137) -/

section Access

variable {src : Nat → Bool} {m : Mem 8} {lim base pos n v : Nat}

theorem bsRead_fits (h : n = 0 ∨ pos + n ≤ lim) :
    bsRead src lim n ⟨pos, false⟩ = (fieldAt src pos n, ⟨pos + n, false⟩) := by
  rcases h with rfl | h
  · exact bsRead_zero rfl
  · exact bsRead_ok rfl h

/-- The signed reading of no bits is 0, so 0 bits need no case of their own. -/
theorem bsReadSigned_fits (h : n = 0 ∨ pos + n ≤ lim) :
    bsReadSigned src lim n ⟨pos, false⟩ = (sext n (fieldAt src pos n), ⟨pos + n, false⟩) := by
  rw [bsReadSigned, bsRead_fits h]
  by_cases hn : n = 0
  · subst hn
    rfl
  · simp [hn]

theorem bsWrite_fits (h : n = 0 ∨ pos + n ≤ lim) :
    bsWrite m base lim v n ⟨pos, false⟩ = (writeBits m base pos n v, ⟨pos + n, false⟩) := by
  simp [bsWrite, fitsWindow_iff.mpr h]

section Exhausted

variable {k : Cursor} (h : k.exh = true ∨ n ≠ 0 ∧ lim < k.pos + n)

include h

theorem bsRead_exhausted : bsRead src lim n k = (0, ⟨k.pos, true⟩) := by
  obtain ⟨pos, exh⟩ := k
  cases exh with
  | true => exact bsRead_exh rfl
  | false =>
    obtain ⟨hn, hl⟩ := h.resolve_left Bool.false_ne_true
    exact bsRead_short rfl hn hl

theorem bsReadSigned_exhausted : bsReadSigned src lim n k = (0, ⟨k.pos, true⟩) := by
  rw [bsReadSigned, bsRead_exhausted h]
  rfl

theorem bsWrite_exhausted : bsWrite m base lim v n k = (m, ⟨k.pos, true⟩) := by
  obtain ⟨pos, exh⟩ := k
  cases exh with
  | true => rfl
  | false =>
    obtain ⟨hn, hl⟩ := h.resolve_left Bool.false_ne_true
    simp [bsWrite, fitsWindow_short hn hl]

end Exhausted

/-- `sext_testBit` for every width: 0 bits have no sign. -/
theorem sext_testBit_all (h : v < 2 ^ n) :
    sext n v = if n ≠ 0 ∧ v.testBit (n - 1) = true then (v : Int) - 2 ^ n else (v : Int) := by
  by_cases hn : n = 0
  · subst hn
    obtain rfl : v = 0 := Nat.lt_one_iff.mp h
    rfl
  · simp only [sext_testBit h hn, ne_eq, hn, not_false_eq_true, true_and]

/-- The field that a write leaves is the low bits of its value (40_bitstream R137). -/
theorem fieldAt_writeBits (m : Mem 8) (base pos n v : Nat) :
    fieldAt (fbSource (writeBits m base pos n v) base) pos n = v % 2 ^ n := by
  refine (eq_fieldAt (Nat.mod_lt _ (Nat.two_pow_pos n)) fun i hi => ?_).symm
  rw [Nat.testBit_mod_two_pow, fbSource, fbBit_writeBits, if_pos (by omega), Nat.add_sub_cancel_left]
  simp [hi]

end Access

/-! ### The BS commands as instructions: one rule for each, for whatever the access gives (40_bitstream R130) -/

section Commands

variable {s : State} {n : BitVec 6} {k : Cursor}

theorem argCursor_zero (h : s.port.arg2 = 0) : argCursor s = ⟨s.port.arg1, false⟩ := by
  simp [argCursor, h]

theorem exec_bsRead {v : Nat} (hf : s.fat.code = 0)
    (hr : bsRead (fbSource s.fb s.port.arg0) (windowBits s s.port.arg0) n.toNat (argCursor s) = (v, k)) :
    exec (.bsRead n) s = .next (completeOp { s with cur := ⟨posReg s k.pos, k.exh⟩ }
      ⟨some (v : Int), some (k.pos : Int), flagResult k.exh⟩) := by
  change execBsRead n s = _
  rw [execBsRead, ifNotFailed_zero hf, hr, take_eq]

theorem exec_bsReadSigned {v : Int} (hf : s.fat.code = 0)
    (hr : bsReadSigned (fbSource s.fb s.port.arg0) (windowBits s s.port.arg0) n.toNat (argCursor s) = (v, k)) :
    exec (.bsReadSigned n) s = .next (completeOp { s with cur := ⟨posReg s k.pos, k.exh⟩ }
      ⟨some v, some (k.pos : Int), flagResult k.exh⟩) := by
  change execBsReadSigned n s = _
  rw [execBsReadSigned, ifNotFailed_zero hf, hr, take_eq]

theorem exec_bsWrite {m : Mem 8} (hf : s.fat.code = 0)
    (hw : bsWrite s.fb s.port.arg0 (windowBits s s.port.arg0) s.port.arg3 n.toNat (argCursor s) = (m, k)) :
    exec (.bsWrite n) s = .next (completeOp { s with fb := m, cur := ⟨posReg s k.pos, k.exh⟩ }
      ⟨none, some (k.pos : Int), flagResult k.exh⟩) := by
  change execBsWrite n s = _
  rw [execBsWrite, ifNotFailed_zero hf, hw, take_eq]

section Fits

variable (hf : s.fat.code = 0) (h2 : s.port.arg2 = 0)
  (hfit : n = 0 ∨ s.port.arg1 + n.toNat ≤ windowBits s s.port.arg0)

include hf h2 hfit

theorem exec_bsRead_fits :
    exec (.bsRead n) s = .next (completeOp { s with cur := ⟨posReg s (s.port.arg1 + n.toNat), false⟩ }
      ⟨some (fieldAt (fbSource s.fb s.port.arg0) s.port.arg1 n.toNat : Int),
        some ((s.port.arg1 + n.toNat : Nat) : Int), some 0⟩) :=
  exec_bsRead hf (by rw [argCursor_zero h2, bsRead_fits (hfit.imp_left (congrArg BitVec.toNat))])

theorem exec_bsReadSigned_fits :
    exec (.bsReadSigned n) s = .next (completeOp { s with cur := ⟨posReg s (s.port.arg1 + n.toNat), false⟩ }
      ⟨some (sext n.toNat (fieldAt (fbSource s.fb s.port.arg0) s.port.arg1 n.toNat)),
        some ((s.port.arg1 + n.toNat : Nat) : Int), some 0⟩) :=
  exec_bsReadSigned hf (by rw [argCursor_zero h2, bsReadSigned_fits (hfit.imp_left (congrArg BitVec.toNat))])

theorem exec_bsWrite_fits :
    exec (.bsWrite n) s = .next (completeOp
      { s with
        fb := writeBits s.fb s.port.arg0 s.port.arg1 n.toNat s.port.arg3
        cur := ⟨posReg s (s.port.arg1 + n.toNat), false⟩ }
      ⟨none, some ((s.port.arg1 + n.toNat : Nat) : Int), some 0⟩) :=
  exec_bsWrite hf (by rw [argCursor_zero h2, bsWrite_fits (hfit.imp_left (congrArg BitVec.toNat))])

end Fits

end Commands

/-- Settles O10: the two reads give the field of `fieldAt`, which is the one the statement names bit by bit. -/
theorem bsReadResults : Obligations.BsReadResults := by
  intro n s hf h2 pos hfit
  refine ⟨_, isField_fieldAt s s.port.arg0 pos n.toNat, exec_bsRead_fits hf h2 hfit, ?_⟩
  have hn : n ≠ 0 ↔ n.toNat ≠ 0 := BitVec.toNat_ne
  simp only [hn]
  rw [exec_bsReadSigned_fits hf h2 hfit, sext_testBit_all (fieldAt_lt _ _ _)]

/-- Settles O11: the write is `writeBits`, whose every bit `getLsbD_writeBits` gives. -/
theorem bsWriteResult : Obligations.BsWriteResult := fun _ _ hf h2 hfit =>
  ⟨_, exec_bsWrite_fits hf h2 hfit, fun a j hj => getLsbD_writeBits _ _ _ _ _ a j hj⟩

/-- Settles O13: the write keeps the operands and the window, so the read's field fits as well. -/
theorem bsWriteThenRead : Obligations.BsWriteThenRead := by
  intro n s t hf h2 hfit hw
  obtain rfl := Host.Outcome.next.inj ((exec_bsWrite_fits hf h2 hfit).symm.trans hw)
  refine ⟨_, exec_bsRead_fits hf h2 hfit, ?_, rfl, fun _ => rfl⟩
  exact congrArg (fun v : Nat => some (v : Int)) (fieldAt_writeBits _ _ _ _ _)

/-- Settles O12: each access leaves the position and comes to the exhausted cursor. -/
theorem bsExhausted : Obligations.BsExhausted := by
  intro n s hf pos h
  have hx : (argCursor s).exh = true ∨ n.toNat ≠ 0 ∧ windowBits s s.port.arg0 < (argCursor s).pos + n.toNat :=
    h.imp bne_iff_ne.mpr (And.imp_left BitVec.toNat_ne.mp)
  exact ⟨exec_bsRead hf (bsRead_exhausted hx), exec_bsReadSigned hf (bsReadSigned_exhausted hx),
    exec_bsWrite hf (bsWrite_exhausted hx)⟩

end Sys2Proof.Machine

namespace Sys2Proof.Machine

/-! ### DECODE_BLOCK is the end of the block behind the stream at byte `ARG0` (41_subblock_decode R150) -/

section DecodeBlock

variable {s : State} {p : Fin 2} {unc : Bool}

theorem exec_decodeBlock (hr : Ready s) (hp : p.val < s.desc.nplanes) (unc : Bool) :
    exec (.decodeBlock p unc) s = settle (finishBlock s p unc (streamOf s p unc))
      (fun n => ⟨some (n : Int), none, some 0⟩) overflowResult := by
  change execDecodeBlock p unc s = _
  rw [execDecodeBlock, ifReady_ready hr.1 hr.2, planeOk, decide_eq_true hp, ifInput_true]
  rfl

/-- A stream that ends inside the buffer at bit `n`, with no colour transform behind it. -/
theorem exec_decodeBlock_completes (hr : Ready s) (hp : p.val < s.desc.nplanes)
    (ht : (!unc && ctApplies s.desc.toDescIn p) = false) {n : Nat} (hn : (streamOf s p unc).cur = ⟨n, false⟩) :
    exec (.decodeBlock p unc) s =
      .next (elementDone s (streamOf s p unc) ⟨some (((n + 7) / 8 : Nat) : Int), none, some 0⟩) := by
  have h := settle_finishBlock (st := streamOf s p unc) (by rw [hn]) ht overflowResult
  rw [hn] at h
  exact (exec_decodeBlock hr hp unc).trans h

/-- A stream that reads past the buffer (R160). -/
theorem exec_decodeBlock_runsOff (hr : Ready s) (hp : p.val < s.desc.nplanes) (h : RunsOff s p unc) :
    exec (.decodeBlock p unc) s = .next (raiseFatal
      (loseCodec { s with cur := (streamOf s p unc).cur.reg, codec := (streamOf s p unc).codec }
        (comps s.desc.toDescIn p) true true) .bufOverflow ⟨none, none, some 1⟩) := by
  rw [exec_decodeBlock hr hp unc, finishBlock, if_pos (show (streamOf s p unc).cur.exh = true from h)]
  rfl

end DecodeBlock

/-- Settles O28: the samples are those of `decodeStream_uncompressed`, read from the bits of `FB`. -/
theorem decodeBlockUncompressed : Obligations.DecodeBlockUncompressed := by
  intro p s hr hp hw
  have R : UncompressedRead s.desc (fbSource s.fb s.port.arg0) p s.codec (streamOf s p true) :=
    decodeStream_uncompressed s.codec hw
  have hdone := exec_decodeBlock_completes hr hp rfl R.cur
  rw [show (16 * planeBitsOf s.desc.toDescIn p + 7) / 8 = 2 * planeBitsOf s.desc.toDescIn p by omega] at hdone
  refine ⟨_, hdone, elementDone_doneWith _ _, elementDone_onlyCodec _ _, elementDone_chk R.only.pend, ?_, ?_, ?_, ?_, ?_⟩
  · rw [elementDone_cur, R.cur]
    rfl
  all_goals rw [elementDone_codec]
  · exact fun c hc i => (isField_iff _ _ _ _ _).mpr (R.read c hc i)
  · exact R.kept
  · exact R.only.mintree
  · exact R.only.bctree

/-! ### What decoding leaves of the other components, wherever the stream ends (10_state R32 to R34) -/

section OtherComponents

variable {d : Desc} {src : Nat → Bool} {lim : Nat} {c e : Fin 4} {st : DecState}

/-- Row and trees of component `e` in `y` are those in `x`. -/
structure KeepsComponent (e : Fin 4) (x y : Codec) : Prop where
  blk : y.blk[e] = x.blk[e]
  mintree : y.mintree[e] = x.mintree[e]
  bctree : y.bctree[e] = x.bctree[e]

theorem KeepsComponent.refl (e : Fin 4) (x : Codec) : KeepsComponent e x x := ⟨rfl, rfl, rfl⟩

theorem KeepsComponent.trans {x y z : Codec} (h : KeepsComponent e x y) (g : KeepsComponent e y z) : KeepsComponent e x z :=
  ⟨g.blk.trans h.blk, g.mintree.trans h.mintree, g.bctree.trans h.bctree⟩

/-- A list of reads keeps a component that each of them keeps. -/
theorem KeepsComponent.foldl {α : Type} {f : DecState → α → DecState} {l : List α}
    (h : ∀ a, ∀ x ∈ l, KeepsComponent e a.codec (f a x).codec) (st : DecState) :
    KeepsComponent e st.codec (l.foldl f st).codec :=
  List.foldlRecOn (motive := fun a : DecState => KeepsComponent e st.codec a.codec) l f (.refl e _)
    fun a ha x hx => ha.trans (h a x hx)

theorem setCount_keeps (h : e ≠ c) (x : Codec) (k : Fin 5) (v : Int) : KeepsComponent e x (x.setCount c k v) :=
  ⟨rfl, rfl, row_set_ne _ _ h⟩

theorem setRootCount_keeps (h : e ≠ c) (x : Codec) (v : Int) : KeepsComponent e x (x.setRootCount c v) := by
  unfold Codec.setRootCount
  split
  · exact ⟨rfl, rfl, row_set_ne _ _ h⟩
  · exact setCount_keeps h x 0 v

theorem setRoot_keeps (h : e ≠ c) (x : Codec) (v : Nat) : KeepsComponent e x (x.setRoot c v) :=
  ⟨rfl, setRoot_mintree_ne _ _ h, rfl⟩

theorem setChildren_keeps (h : e ≠ c) (x : Codec) (k : Nat) (l : List Nat) : KeepsComponent e x (x.setChildren c k l) :=
  ⟨rfl, row_set_ne _ _ h, rfl⟩

theorem setLeaves_keeps (h : e ≠ c) (x : Codec) (n : Nat) : KeepsComponent e x (x.setLeaves c n) :=
  ⟨setLeaves_blk_ne _ _ h, rfl, rfl⟩

theorem readL3_keeps (h : e ≠ c) (st : DecState) : KeepsComponent e st.codec (readL3 d src lim c st).codec :=
  setRootCount_keeps h _ _

theorem readL4D_keeps (h : e ≠ c) (j : Fin 4) (st : DecState) : KeepsComponent e st.codec (readL4D d src lim c j st).codec :=
  setCount_keeps h _ _ _

theorem readRoot_keeps (h : e ≠ c) (st : DecState) : KeepsComponent e st.codec (readRoot d src lim c st).codec :=
  setRoot_keeps h _ _

theorem readNode_keeps (h : e ≠ c) (k : Fin 5) (st : DecState) : KeepsComponent e st.codec (readNode src lim c k st).codec :=
  setChildren_keeps h _ _ _

theorem readTree_keeps (h : e ≠ c) (st : DecState) : KeepsComponent e st.codec (readTree d src lim c st).codec :=
  ((KeepsComponent.foldl (fun a j _ => readL4D_keeps h j a) st).trans (readRoot_keeps h _)).trans
    (KeepsComponent.foldl (fun a k _ => readNode_keeps h k a) _)

theorem readRest_keeps (h : e ≠ c) (st : DecState) : KeepsComponent e st.codec (readRest d src lim c st).codec := by
  unfold readRest
  split
  · exact (setRoot_keeps h _ _).trans (setLeaves_keeps h _ _)
  · split
    · exact (setRoot_keeps h _ _).trans (setLeaves_keeps h _ _)
    · exact (readTree_keeps h st).trans (setLeaves_keeps h _ _)

theorem decodeComponent_keeps (h : e ≠ c) (st : DecState) :
    KeepsComponent e st.codec (decodeComponent d src lim st c).codec :=
  (readL3_keeps h st).trans (readRest_keeps h _)

theorem readSample_keeps (h : e ≠ c) (i : Fin 16) (st : DecState) :
    KeepsComponent e st.codec (readSample d src lim i st c).codec := ⟨row_set_ne _ _ h, rfl, rfl⟩

/-- A subblock does not touch a component that its plane does not hold. -/
theorem decodeStream_keeps {p : Fin 2} (he : e ∉ comps d.toDescIn p) (unc : Bool) (x : Codec) :
    KeepsComponent e x (decodeStream d src lim p unc x).codec := by
  have ne : ∀ c ∈ comps d.toDescIn p, e ≠ c := fun c hc z => he (z ▸ hc)
  cases unc
  · exact KeepsComponent.foldl (fun a c hc => decodeComponent_keeps (ne c hc) a) ⟨⟨0, false⟩, x, []⟩
  · exact KeepsComponent.foldl (f := fun a i => (comps d.toDescIn p).foldl (readSample d src lim i) a)
      (fun a i _ => KeepsComponent.foldl (fun a c hc => readSample_keeps (ne c hc) i a) a) ⟨⟨0, false⟩, x, []⟩

/-- What a failed operation loses leaves the other components (U2). -/
theorem lose_keeps {cs : List (Fin 4)} (he : e ∉ cs) (x : Codec) (n : Nat) (b t : Bool) :
    KeepsComponent e x (x.lose cs n b t) := by
  constructor <;> simp [Codec.lose, he]

end OtherComponents

/-! ### Windows that the stream does not fit (40_bitstream R139; 41_subblock_decode R160) -/

section RunsOff

variable {s : State} {p : Fin 2} {src : Nat → Bool} {lim : Nat}

/-- A cursor that is not exhausted stands inside its window. -/
def Inside (lim : Nat) (k : Cursor) : Prop := k.exh = false → k.pos ≤ lim

theorem Inside.bsRead {k : Cursor} (h : Inside lim k) (n : Nat) : Inside lim (bsRead src lim n k).2 := by
  intro he
  obtain ⟨hk, -⟩ := bsRead_agrees (src := src) (fun _ _ => rfl) le_rfl he
  by_cases hn : n = 0
  · rw [hn, bsRead_zero hk]
    exact h hk
  · by_cases hp : k.pos + n ≤ lim
    · rw [bsRead_ok hk hp]
      exact hp
    · rw [bsRead_short hk hn (by omega)] at he
      cases he

theorem runsOff_uncompressed (h : windowBits s s.port.arg0 < 16 * planeBitsOf s.desc.toDescIn p) : RunsOff s p true := by
  by_contra hn
  have he : (streamOf s p true).cur.exh = false := by simpa [RunsOff] using hn
  have inside : Inside (windowBits s s.port.arg0) (streamOf s p true).cur :=
    List.foldlRecOn (motive := fun a : DecState => Inside _ a.cur) allPixels _ (fun _ => Nat.zero_le _) fun a ha i _ =>
      List.foldlRecOn (motive := fun a : DecState => Inside _ a.cur) _ _ ha fun a ha c _ => ha.bsRead _
  have longer : streamOf s p true = decodeStream s.desc (fbSource s.fb s.port.arg0) (16 * planeBitsOf s.desc.toDescIn p) p
      true s.codec := (decodeStream_agrees (fun _ _ => rfl) h.le s.desc he).symm
  have hpos := inside he
  rw [longer, (decodeStream_uncompressed s.codec le_rfl).cur] at hpos
  exact absurd h (Nat.not_lt.mpr hpos)

theorem two_le_l3Bits (n : Nat) : 2 ≤ l3Bits n := by
  have h : 1 ≤ Nat.log2 (n + 2) := (Nat.le_log2 (by omega)).mpr (by omega)
  rw [l3Bits, bitlen, if_neg (by omega)]
  omega

/-- Not even the first `L3` code fits into less than two bits. -/
theorem runsOff_compressed (f : DescFacts s.desc) (hp : p.val < s.desc.nplanes) (h : windowBits s s.port.arg0 < 2) :
    RunsOff s p false := by
  by_contra hn
  have he : (streamOf s p false).cur.exh = false := by simpa [RunsOff] using hn
  have same : ∀ b < windowBits s s.port.arg0, fbSource s.fb s.port.arg0 b = fbSource s.fb s.port.arg0 b := fun _ _ => rfl
  obtain ⟨c, hc⟩ := f.comps_ne_nil (f.plane hp)
  obtain ⟨b, l, hbl⟩ : ∃ b l, comps s.desc.toDescIn p = b :: l := by
    cases hl : comps s.desc.toDescIn p with
    | nil => rw [hl] at hc; simp at hc
    | cons b l => exact ⟨b, l, rfl⟩
  simp only [streamOf, decodeStream, hbl, List.foldl_cons, Bool.false_eq_true, if_false] at he
  obtain ⟨he, -⟩ := Agrees.foldl (fun c => decodeComponent_agrees same le_rfl s.desc c) l _ he
  obtain ⟨he, -⟩ := readRest_agrees same le_rfl s.desc b _ he
  have hw := two_le_l3Bits s.desc.compbits[b]
  simp only [readL3] at he
  rw [bsRead_short rfl (by omega) (by dsimp only; omega)] at he
  cases he

end RunsOff

/-- Settles O31: each way to run off comes to the same fatal error, which keeps what the stream did not touch. -/
theorem decodeBlockOffTheBuffer : Obligations.DecodeBlockOffTheBuffer := by
  intro p unc s hi hr hp h
  have off : RunsOff s p unc := by
    rcases h with h | h
    · cases unc
      · exact runsOff_compressed (hi.facts hr) hp h
      · exact runsOff_uncompressed h
    · exact h
  refine ⟨_, exec_decodeBlock_runsOff hr hp off, rfl, ?_, off, rfl, fun _ => rfl, fun _ _ => rfl, rfl, rfl, rfl,
    fun c hc => ?_⟩
  · exact after_of_zero hr.1 _ _ _ _
  · obtain ⟨hb, hm, ht⟩ := (decodeStream_keeps (src := fbSource s.fb s.port.arg0) (lim := windowBits s s.port.arg0) hc unc
      s.codec).trans (lose_keeps hc _ s.free true true)
    exact ⟨hb, hm, ht⟩

end Sys2Proof.Machine

namespace Sys2Proof.Machine

/-! ### The parts of a compressed component, told from the bits of `FB` (30_encoding R102 to R106) -/

section Parts

variable {s : State} {base lim q m : Nat} {c : Fin 4} {st a : DecState} {d : Desc} {src : Nat → Bool}

/-- A violation that is added to the pending ones under a condition. -/
theorem mem_pend_append_ite (p : Prop) [Decidable p] (l : List (Viol × Nat)) (x v : Viol) (n : Nat) :
    v ∈ (if p then l ++ [(x, n)] else l).map Prod.fst ↔ v ∈ l.map Prod.fst ∨ v = x ∧ p := by
  by_cases h : p <;> simp [h]

theorem exists_lt_succ_iff {n : Nat} {P : Fin n → Prop} (j : Fin n) :
    (∃ i : Fin n, i.val < j.val + 1 ∧ P i) ↔ (∃ i : Fin n, i.val < j.val ∧ P i) ∨ P j := by
  simp only [Nat.lt_succ_iff_lt_or_eq, ← Fin.ext_iff, or_and_right, exists_or, exists_eq_left]

/-! L3 (41_subblock_decode R152). -/

theorem readL3_ok (hq : st.cur = ⟨q, false⟩) (h : q + l3Bits d.compbits[c] ≤ lim) :
    let l3 := l3Value (l3Bits d.compbits[c]) (fieldAt src q (l3Bits d.compbits[c]))
    readL3 d src lim c st = ⟨⟨q + l3Bits d.compbits[c], false⟩, st.codec.setRootCount c l3,
      if (d.compbits[c] : Int) < l3 then st.pend ++ [(.bcRange, c.val)] else st.pend⟩ := by
  simp only [readL3, hq, bsRead_ok (k := ⟨q, false⟩) rfl h]

/-- Uniform, default or literal (30_encoding R103). -/
theorem code_cases {w code : Nat} (h : code < 2 ^ w) : code = 2 ^ w - 1 ∨ code = 2 ^ w - 2 ∨ code < 2 ^ w - 2 := by omega

theorem l3Value_uniform (w : Nat) : l3Value w (2 ^ w - 1) = -1 := if_pos rfl

theorem l3Value_default {w : Nat} (hw : 2 ≤ w) : l3Value w (2 ^ w - 2) = -2 := by
  have h : 2 ^ 2 ≤ 2 ^ w := Nat.pow_le_pow_right (by decide) hw
  rw [l3Value, if_neg (by omega), if_pos rfl]

theorem l3Value_literal {w code : Nat} (h : code < 2 ^ w - 2) : l3Value w code = code := by
  rw [l3Value, if_neg (by omega), if_neg (by omega)]

/-! L4D (41_subblock_decode R154). -/

theorem sext_fieldAt_two (s : State) (base pos : Nat) :
    sext 2 (fieldAt (fbSource s.fb base) pos 2) = deltaAt s base pos := by
  simp only [fieldAt, fbSource, fbBit, deltaAt]
  cases (memGet s.fb (base + pos / 8)).getLsbD (pos % 8) <;>
    cases (memGet s.fb (base + (pos + 1) / 8)).getLsbD ((pos + 1) % 8) <;> rfl

theorem deltaAt_ge (s : State) (base pos : Nat) : -2 ≤ deltaAt s base pos := by
  unfold deltaAt
  have := Bool.toNat_le ((memGet s.fb (base + (pos + 1) / 8)).getLsbD ((pos + 1) % 8))
  omega

/-- The sum of the root count and the delta that stands `j` deltas behind position `q`. -/
def rawCount (s : State) (base q : Nat) (root : Int) (j : Nat) : Int := root + deltaAt s base (q + 2 * j)

/-- `a` is `st` after the counts of the first `m` quadrants were read from position `q` on. -/
structure CountsRead (s : State) (base : Nat) (c : Fin 4) (q : Nat) (st : DecState) (m : Nat) (a : DecState) : Prop where
  cur : a.cur = ⟨q + 2 * m, false⟩
  root : (a.codec.bctree[c])[0] = (st.codec.bctree[c])[0]
  counts : ∀ j : Fin 4, j.val < m →
    (a.codec.bctree[c])[j.succ] = clampCount (rawCount s base q (st.codec.bctree[c])[0] j)
  viols : ∀ v, v ∈ a.pend.map Prod.fst ↔ v ∈ st.pend.map Prod.fst ∨ ∃ j : Fin 4, j.val < m ∧
    (v = .bcNeg ∧ rawCount s base q (st.codec.bctree[c])[0] j < 0 ∨
      v = .bcRange ∧ (s.desc.compbits[c] : Int) < clampCount (rawCount s base q (st.codec.bctree[c])[0] j))

theorem countsRead_zero (hq : st.cur = ⟨q, false⟩) : CountsRead s base c q st 0 st :=
  ⟨hq, rfl, fun _ h => absurd h (Nat.not_lt_zero _), fun v => by simp⟩

theorem CountsRead.next (h : CountsRead s base c q st m a) (j : Fin 4) (hj : j.val = m) (hl : q + 8 ≤ lim) :
    CountsRead s base c q st (m + 1) (readL4D s.desc (fbSource s.fb base) lim c j a) := by
  subst hj
  have hr : bsReadSigned (fbSource s.fb base) lim 2 a.cur = (deltaAt s base (q + 2 * j), ⟨q + 2 * j + 2, false⟩) := by
    rw [h.cur, bsReadSigned_ok rfl (by dsimp only; omega), if_neg (by decide), sext_fieldAt_two]
  have hraw : (a.codec.bctree[c])[0] + deltaAt s base (q + 2 * j) = rawCount s base q (st.codec.bctree[c])[0] j := by
    rw [h.root, rawCount]
  simp only [readL4D, hr, hraw]
  refine ⟨rfl, ?_, fun i hi => ?_, fun v => ?_⟩
  · simpa [Codec.setCount] using h.root
  · simp only [Codec.setCount, row_set_self]
    by_cases e : i = j
    · subst e
      simp
    · have hne : j.val + 1 ≠ i.val + 1 := fun z => e (Fin.ext (by omega))
      have := h.counts i (by omega)
      simp only [Fin.getElem_fin, Fin.val_succ] at this ⊢
      rw [Vector.getElem_set_ne _ _ hne, this]
  · rw [mem_pend_append_ite, mem_pend_append_ite, h.viols v, or_assoc, or_assoc]
    exact or_congr_right (exists_lt_succ_iff j).symm

/-! The nodes (41_subblock_decode R156, R157). -/

/-- The bits of a node of bit-count `b`. -/
def nodeWidth (b : Nat) : Nat := if b = 0 then 0 else if b = 1 then 4 else 2 + 3 * b

theorem nodeWidth_le (b : Nat) : nodeWidth b ≤ 2 + 3 * b := by
  unfold nodeWidth
  split
  · omega
  · split <;> omega

theorem NodeAt.congr {s : State} {base pos stop b : Nat} {f g : Nat → Nat} (h : NodeAt s base pos stop b f)
    (e : ∀ j < 4, g j = f j) : NodeAt s base pos stop b g := by
  obtain ⟨none, one, planes⟩ := h
  refine ⟨fun hb => ⟨(none hb).1, fun j hj => (e j hj).trans ((none hb).2 j hj)⟩,
    fun hb => ⟨(one hb).1, fun j hj => (e j hj).symm ▸ (one hb).2 j hj⟩, fun hb => ?_⟩
  obtain ⟨hstop, z, hz, hcode, hzero, hbits⟩ := planes hb
  exact ⟨hstop, z, hz, hcode, (e z hz).trans hzero, fun j hj hne => (e j hj).symm ▸ hbits j hj hne⟩

theorem isField_bit (s : State) (base pos : Nat) : IsField s base pos 1 (fbSource s.fb base pos).toNat :=
  (isField_iff _ _ _ _ _).mpr (by simp [fieldAt])

/-- A node that ends inside the window: its cursor, and its deltas as its bits say them. -/
theorem nodeDecode_nodeAt (s : State) (base : Nat) {b : Nat} (h : q + nodeWidth b ≤ lim) :
    let r := nodeDecode (fbSource s.fb base) lim b ⟨q, false⟩
    r.2 = ⟨q + nodeWidth b, false⟩ ∧ r.1.length = 4 ∧ NodeAt s base q (q + nodeWidth b) b fun j => r.1.getD j 0 := by
  intro r
  obtain rfl | rfl | hb : b = 0 ∨ b = 1 ∨ 2 ≤ b := by omega
  · exact ⟨rfl, rfl, fun _ => ⟨rfl, fun j hj => by interval_cases j <;> rfl⟩, fun h => absurd h (by decide),
      fun h => absurd h (by decide)⟩
  · have node : BitsRead _ _ _ _ _ r := nodeDecode_one (show q + 4 ≤ lim from h)
    refine ⟨node.cur, node.length, fun h => absurd h (by decide), fun _ => ⟨rfl, fun j hj => ?_⟩,
      fun h => absurd h (by decide)⟩
    have e : [0, 1, 2, 3][j]? = some j := by interval_cases j <;> rfl
    have z : [0, 0, 0, 0].getD j 0 = 0 := by interval_cases j <;> rfl
    show IsField s base (q + j) 1 (r.1.getD j 0)
    rw [node.read j j e, z, Nat.zero_or, Nat.shiftLeft_zero]
    exact isField_bit s base (q + j)
  · have hw : nodeWidth b = 2 + 3 * b := by rw [nodeWidth, if_neg (by omega), if_neg (by omega)]
    rw [hw] at h ⊢
    have node : PlanesRead _ _ _ b r := nodeDecode_planes hb (by omega)
    refine ⟨node.cur.trans (by rw [Nat.add_assoc]), node.length, fun h => absurd h (by omega), fun h => absurd h (by omega),
      fun _ => ⟨(Nat.add_assoc _ _ _).symm, _, fieldAt_lt _ _ 2, isField_fieldAt s base q 2, node.zero, fun j hj hne =>
        ⟨getD_lt (Nat.two_pow_pos b) (nodeDecode_below _ _ b _) j, fun i hi => ?_⟩⟩⟩
    have bit := node.bits j hj hne i
    rw [decide_eq_true hi, Bool.true_and, planeBit] at bit
    rw [← Nat.toNat_testBit, bit]
    exact isField_bit s base _

/-- Where node `k` of a tree with the counts `counts` starts when node 0 starts at `q`. -/
def nodeCut (counts : Vector Int 5) (q : Nat) : Nat → Nat
  | 0 => q
  | k + 1 => nodeCut counts q k + nodeWidth (counts[Fin.ofNat 5 k]).toNat

theorem nodeCut_mono (counts : Vector Int 5) (q : Nat) : Monotone (nodeCut counts q) :=
  monotone_nat_of_le_succ fun _ => Nat.le_add_right _ _

theorem nodeCut_succ (counts : Vector Int 5) (q : Nat) (k : Fin 5) :
    nodeCut counts q (k.val + 1) = nodeCut counts q k.val + nodeWidth (counts[k]).toNat :=
  congrArg (fun j : Fin 5 => nodeCut counts q k + nodeWidth (counts[j]).toNat) (Fin.ofNat_val_eq_self k)

/-- The five nodes of the largest counts (70_reset_and_hazards R361). -/
theorem nodeCut_five_le {counts : Vector Int 5} (h0 : counts[0] ≤ 29) (h : ∀ j : Fin 4, counts[j.succ] ≤ 15) (q : Nat) :
    nodeCut counts q 5 ≤ q + 277 := by
  have root : nodeWidth (counts[0]).toNat ≤ 89 := (nodeWidth_le _).trans (by omega)
  have quad : ∀ j : Fin 4, nodeWidth (counts[j.succ]).toNat ≤ 47 := fun j => (nodeWidth_le _).trans (by have := h j; omega)
  have sum : nodeCut counts q 5 = q + nodeWidth (counts[0]).toNat + nodeWidth (counts[Fin.succ 0]).toNat +
    nodeWidth (counts[Fin.succ 1]).toNat + nodeWidth (counts[Fin.succ 2]).toNat +
    nodeWidth (counts[Fin.succ 3]).toNat := rfl
  have := quad 0
  have := quad 1
  have := quad 2
  have := quad 3
  omega

/-- Node `m` of component `c` is four deltas of one bit that are all 1. -/
def AllOnes (x : Codec) (c : Fin 4) (m : Fin 5) : Prop :=
  (x.bctree[c])[m] = 1 ∧ ∀ j < 4, (x.mintree[c]).getD (4 * m.val + 1 + j) 0 = 1

/-- `a` is `st` after the first `m` nodes were read from position `q` on. -/
structure NodesRead (s : State) (base : Nat) (c : Fin 4) (q : Nat) (st : DecState) (m : Nat) (a : DecState) : Prop where
  cur : a.cur = ⟨nodeCut st.codec.bctree[c] q m, false⟩
  bctree : a.codec.bctree = st.codec.bctree
  root : (a.codec.mintree[c]).getD 0 0 = (st.codec.mintree[c]).getD 0 0
  nodes : ∀ k : Fin 5, k.val < m → NodeAt s base (nodeCut st.codec.bctree[c] q k.val)
    (nodeCut st.codec.bctree[c] q (k.val + 1)) (nodeCount st.codec c k) fun j => (a.codec.mintree[c]).getD (4 * k.val + 1 + j) 0
  viols : ∀ v, v ∈ a.pend.map Prod.fst ↔ v ∈ st.pend.map Prod.fst ∨
    v = .noZeroCode ∧ ∃ k : Fin 5, k.val < m ∧ AllOnes a.codec c k

theorem nodesRead_zero (hq : st.cur = ⟨q, false⟩) : NodesRead s base c q st 0 st :=
  ⟨hq, rfl, rfl, fun _ h => absurd h (Nat.not_lt_zero _), fun v => by simp⟩

theorem eq_ones_iff {l : List Nat} (hl : l.length = 4) : l = [1, 1, 1, 1] ↔ ∀ j < 4, l.getD j 0 = 1 := by
  constructor
  · rintro rfl j hj
    interval_cases j <;> rfl
  · refine fun h => List.ext_getElem hl fun j h1 h2 => ?_
    have hj : j < 4 := h2
    rw [List.getElem_eq_getD 0, h j hj]
    interval_cases j <;> rfl

theorem nodeCount_eq_one (x : Codec) (c : Fin 4) (k : Fin 5) : nodeCount x c k = 1 ↔ (x.bctree[c])[k] = 1 := by
  unfold nodeCount
  omega

/-- Writing the deltas of node `k` leaves the entries of the nodes before it. -/
theorem setChildren_before (x : Codec) (c : Fin 4) (l : List Nat) {k i j : Nat} (hk : k < 5) (hi : i < k) (hj : j < 4) :
    ((x.setChildren c k l).mintree[c]).getD (4 * i + 1 + j) 0 = (x.mintree[c]).getD (4 * i + 1 + j) 0 := by
  rw [setChildren_entry _ _ _ _ (by omega), if_neg (by omega)]

theorem setChildren_self (x : Codec) (c : Fin 4) (l : List Nat) {k j : Nat} (hk : k < 5) (hj : j < 4) :
    ((x.setChildren c k l).mintree[c]).getD (4 * k + 1 + j) 0 = l.getD j 0 := by
  rw [setChildren_entry _ _ _ _ (by omega), if_pos (by omega), Nat.add_sub_cancel_left]

theorem NodesRead.next (h : NodesRead s base c q st m a) (k : Fin 5) (hk : k.val = m)
    (hl : nodeCut st.codec.bctree[c] q 5 ≤ lim) :
    NodesRead s base c q st (m + 1) (readNode (fbSource s.fb base) lim c k a) := by
  subst hk
  have hcount : nodeCount a.codec c k = nodeCount st.codec c k := by rw [nodeCount, h.bctree, nodeCount]
  have hend := (nodeCut_mono st.codec.bctree[c] q (show k.val + 1 ≤ 5 from k.isLt)).trans hl
  rw [nodeCut_succ] at hend
  obtain ⟨hcur, hlen, hnode⟩ := nodeDecode_nodeAt s base (b := nodeCount st.codec c k) hend
  simp only [readNode, hcount, h.cur]
  generalize nodeDecode (fbSource s.fb base) lim (nodeCount st.codec c k)
    ⟨nodeCut st.codec.bctree[c] q k.val, false⟩ = r at *
  refine ⟨hcur.trans (congrArg (Cursor.mk · false) (nodeCut_succ _ _ _).symm), h.bctree, ?_, fun i hi => ?_, fun v => ?_⟩
  · rw [← h.root]
    exact (setChildren_entry _ _ _ _ (by decide)).trans (if_neg (by omega))
  · rcases Nat.lt_succ_iff_lt_or_eq.mp hi with hi | hi
    · exact (h.nodes i hi).congr fun j hj => setChildren_before _ _ _ k.isLt hi hj
    · obtain rfl := Fin.ext hi
      rw [nodeCut_succ]
      exact hnode.congr fun j hj => setChildren_self _ _ _ i.isLt hj
  · have self : AllOnes (a.codec.setChildren c k.val r.1) c k ↔ nodeCount st.codec c k = 1 ∧ r.1 = [1, 1, 1, 1] := by
      rw [← hcount, nodeCount_eq_one, eq_ones_iff hlen]
      exact and_congr_right fun _ => forall₂_congr fun j hj => by rw [setChildren_self _ _ _ k.isLt hj]
    have before (i : Fin 5) (hi : i.val < k.val) : AllOnes (a.codec.setChildren c k.val r.1) c i ↔ AllOnes a.codec c i :=
      and_congr_right fun _ => forall₂_congr fun j hj => by rw [setChildren_before _ _ _ k.isLt hi hj]
    rw [mem_pend_append_ite, h.viols v, or_assoc, ← and_or_left, exists_lt_succ_iff k, self]
    exact or_congr_right (and_congr_right fun _ => or_congr_left (exists_congr fun i => and_congr_right (before i)).symm)

end Parts

/-! ### One compressed component (41_subblock_decode R152 to R159) -/

section ComponentBits

variable {s : State} {base lim q stop : Nat} {c : Fin 4} {st a : DecState} {x y : Codec} {v : Viol}

/-- The violations of component `c`, whose trees `x` holds and whose bits start at `pos`. -/
def ComponentViol (s : State) (base : Nat) (c : Fin 4) (x : Codec) (pos : Nat) (v : Viol) : Prop :=
  let n : Nat := s.desc.compbits[c]
  let count := fun m : Fin 5 => (x.bctree[c])[m]
  (v = .bcRange ∧ ∃ m, (n : Int) < count m) ∨
  (v = .bcNeg ∧ 0 ≤ count 0 ∧ ∃ j < 4, count 0 + deltaAt s base (pos + l3Bits n + 2 * j) < 0) ∨
  (v = .noZeroCode ∧ 0 ≤ count 0 ∧ ∃ m : Fin 5, count m = 1 ∧ ∀ j < 4, (x.mintree[c]).getD (4 * m.val + 1 + j) 0 = 1)

theorem streamViol_iff {p : Fin 2} {cut : Nat → Nat} : StreamViol s base p x cut v ↔
    ∃ k c, (comps s.desc.toDescIn p)[k]? = some c ∧ ComponentViol s base c x (cut k) v := Iff.rfl

/-- Bits, violations and samples of a component are told from its trees alone. -/
theorem KeepsComponent.componentAt (h : KeepsComponent c x y) :
    ComponentAt s base c x q stop ↔ ComponentAt s base c y q stop := by
  unfold ComponentAt
  rw [h.mintree, h.bctree]

theorem KeepsComponent.componentViol (h : KeepsComponent c x y) :
    ComponentViol s base c x q v ↔ ComponentViol s base c y q v := by
  unfold ComponentViol
  rw [h.mintree, h.bctree]

/-- Every sample of component `c` is the sum of its three tree entries (R159). -/
def LeavesOf (s : State) (x : Codec) (c : Fin 4) : Prop :=
  ∀ q < 4, ∀ l < 4, ((x.blk[c]).getD (pix q l) 0).toNat = leafOfTrees s x c q l

theorem KeepsComponent.leavesOf (h : KeepsComponent c x y) : LeavesOf s x c ↔ LeavesOf s y c := by
  unfold LeavesOf leafOfTrees
  rw [h.mintree, h.blk]

/-- The sample at leaf `l` of quadrant `q` of a row (10_state R35). -/
theorem getD_pix (v : Vector Sample 16) {q l : Nat} (hq : q < 4) (hl : l < 4) :
    v.getD (pix q l) 0 = v[(⟨pix q l, (quadOf_leafOf_pix q hq l hl).1⟩ : Fin 16)] := by
  simp [Vector.getD, (quadOf_leafOf_pix q hq l hl).1]

theorem setLeaves_leavesOf (x : Codec) (hn : s.desc.compbits[c] ≤ 15) :
    LeavesOf s (x.setLeaves c s.desc.compbits[c]) c := by
  intro q hq l hl
  obtain ⟨-, eq, el⟩ := quadOf_leafOf_pix q hq l hl
  rw [getD_pix _ hq hl, setLeaves_sample _ _ hn]
  simp only [leafSum, eq, el]
  rfl

theorem sentinel_count (r : Int) (j : Fin 4) : #v[r, 0, 0, 0, 0][j.succ] = 0 := by
  fin_cases j <;> rfl

/-- The counts of a component are in their ranges (10_state R34). -/
theorem ComponentAt.counts (h : ComponentAt s base c x q stop) (hn : s.desc.compbits[c] ≤ 15) :
    (-2 ≤ (x.bctree[c])[0] ∧ (x.bctree[c])[0] ≤ 29) ∧
      ∀ j : Fin 4, 0 ≤ (x.bctree[c])[j.succ] ∧ (x.bctree[c])[j.succ] ≤ 15 := by
  obtain ⟨code, ⟨hcode, -⟩, uniform, default, literal⟩ := h
  have sentinel : ∀ r : Int, -2 ≤ r → r ≤ 29 → x.bctree[c] = #v[r, 0, 0, 0, 0] → (-2 ≤ (x.bctree[c])[0] ∧
      (x.bctree[c])[0] ≤ 29) ∧ ∀ j : Fin 4, 0 ≤ (x.bctree[c])[j.succ] ∧ (x.bctree[c])[j.succ] ≤ 15 := by
    intro r h1 h2 hb
    rw [hb]
    exact ⟨⟨h1, h2⟩, fun j => by rw [sentinel_count]; decide⟩
  obtain h | h | h := code_cases hcode
  · exact sentinel (-1) (by decide) (by decide) (uniform h).1
  · exact sentinel (-2) (by decide) (by decide) (default h).1
  · obtain ⟨hroot, hquad, -⟩ := literal h
    have hw : 2 ^ l3Bits s.desc.compbits[c] ≤ 2 ^ 5 := Nat.pow_le_pow_right (by decide) (l3Bits_le hn)
    refine ⟨by omega, fun j => ?_⟩
    have hd := deltaAt_ge s base (q + l3Bits s.desc.compbits[c] + 2 * j.val)
    rw [hquad j]
    exact clampCount_range (by omega)

/-- `a` is `st` after component `c` was read from the bits from `q` to `stop`. -/
structure ComponentRead (s : State) (base : Nat) (c : Fin 4) (q stop : Nat) (st a : DecState) : Prop where
  cur : a.cur = ⟨stop, false⟩
  size : stop ≤ q + 305
  bits : ComponentAt s base c a.codec q stop
  leaves : LeavesOf s a.codec c
  viols : ∀ v, v ∈ a.pend.map Prod.fst ↔ v ∈ st.pend.map Prod.fst ∨ ComponentViol s base c a.codec q v

/-- A component without counts has no violation. -/
theorem not_componentViol {r : Int} (h : r < 0) (hb : x.bctree[c] = #v[r, 0, 0, 0, 0]) : ¬ ComponentViol s base c x q v := by
  unfold ComponentViol
  simp only [hb]
  rintro (⟨-, m, hm⟩ | ⟨-, h0, -⟩ | ⟨-, h0, -⟩)
  · cases m using Fin.cases with
    | zero => exact absurd (show (s.desc.compbits[c] : Int) < r from hm) (by omega)
    | succ j =>
      rw [sentinel_count] at hm
      omega
  · exact Int.not_le.mpr h h0
  · exact Int.not_le.mpr h h0

/-- The violations of a component with a literal root count: of the count itself, of the quadrants, of the nodes. -/
theorem componentViol_literal {root : Int} (hroot : (x.bctree[c])[(0 : Fin 5)] = root) (h0 : 0 ≤ root) :
    ComponentViol s base c x q v ↔ v = .bcRange ∧ (s.desc.compbits[c] : Int) < root ∨
      (∃ j : Fin 4, v = .bcNeg ∧ rawCount s base (q + l3Bits s.desc.compbits[c]) root j < 0 ∨
        v = .bcRange ∧ (s.desc.compbits[c] : Int) < (x.bctree[c])[j.succ]) ∨
      v = .noZeroCode ∧ ∃ k : Fin 5, AllOnes x c k := by
  have below (P : Nat → Prop) : (∃ j < 4, P j) ↔ ∃ j : Fin 4, P j := by simp [Fin.exists_iff]
  simp only [ComponentViol, hroot, below, Fin.exists_fin_succ (n := 4), h0, true_and, exists_or, exists_and_left, rawCount,
    AllOnes]
  rw [and_or_left, or_assoc]
  exact or_congr_right (or_left_comm.trans or_assoc.symm)

/-! What follows the L3 code, by the root count. -/

theorem readRest_default {d : Desc} {src : Nat → Bool} (h : (st.codec.bctree[c])[0] = -2) :
    readRest d src lim c st = writeLeaves d c (defaultRoot d c st) := if_pos h

theorem readRest_uniform {d : Desc} {src : Nat → Bool} (h : (st.codec.bctree[c])[0] = -1) :
    readRest d src lim c st = writeLeaves d c (readRoot d src lim c st) := by
  rw [readRest, if_neg (by rw [h]; decide), if_pos (by rw [h]; decide)]

theorem readRest_literal {d : Desc} {src : Nat → Bool} (h : 0 ≤ (st.codec.bctree[c])[0]) :
    readRest d src lim c st = writeLeaves d c (readTree d src lim c st) := by
  rw [readRest, if_neg (by omega), if_neg (by omega)]

theorem readRoot_ok {d : Desc} {src : Nat → Bool} (hq : st.cur = ⟨q, false⟩) (h : q + d.compbits[c] ≤ lim) :
    readRoot d src lim c st =
      ⟨⟨q + d.compbits[c], false⟩, st.codec.setRoot c (fieldAt src q d.compbits[c]), st.pend⟩ := by
  simp only [readRoot, hq, bsRead_ok (k := ⟨q, false⟩) rfl h]

/-- `a` is `st` after what follows a literal root count was read from position `q` on. -/
structure TreeRead (s : State) (base : Nat) (c : Fin 4) (q : Nat) (st a : DecState) : Prop where
  cur : a.cur = ⟨nodeCut a.codec.bctree[c] (q + 8 + s.desc.compbits[c]) 5, false⟩
  root : (a.codec.bctree[c])[0] = (st.codec.bctree[c])[0]
  counts : ∀ j : Fin 4, (a.codec.bctree[c])[j.succ] = clampCount (rawCount s base q (st.codec.bctree[c])[0] j)
  entry : IsField s base (q + 8) s.desc.compbits[c] ((a.codec.mintree[c]).getD 0 0)
  nodes : ∀ k : Fin 5, NodeAt s base (nodeCut a.codec.bctree[c] (q + 8 + s.desc.compbits[c]) k.val)
    (nodeCut a.codec.bctree[c] (q + 8 + s.desc.compbits[c]) (k.val + 1)) ((a.codec.bctree[c])[k]).toNat
    fun j => (a.codec.mintree[c]).getD (4 * k.val + 1 + j) 0
  viols : ∀ v, v ∈ a.pend.map Prod.fst ↔ v ∈ st.pend.map Prod.fst ∨
    (∃ j : Fin 4, v = .bcNeg ∧ rawCount s base q (st.codec.bctree[c])[0] j < 0 ∨
      v = .bcRange ∧ (s.desc.compbits[c] : Int) < (a.codec.bctree[c])[j.succ]) ∨
    v = .noZeroCode ∧ ∃ k : Fin 5, AllOnes a.codec c k

theorem foldl_readL4D (hq : st.cur = ⟨q, false⟩) (hl : q + 8 ≤ lim) : CountsRead s base c q st 4
    (([0, 1, 2, 3] : List (Fin 4)).foldl (fun a j => readL4D s.desc (fbSource s.fb base) lim c j a) st) :=
  ((((countsRead_zero hq).next 0 rfl hl).next 1 rfl hl).next 2 rfl hl).next 3 rfl hl

theorem foldl_readNode (hq : st.cur = ⟨q, false⟩) (hl : nodeCut st.codec.bctree[c] q 5 ≤ lim) : NodesRead s base c q st 5
    (([0, 1, 2, 3, 4] : List (Fin 5)).foldl (fun a k => readNode (fbSource s.fb base) lim c k a) st) :=
  (((((nodesRead_zero hq).next 0 rfl hl).next 1 rfl hl).next 2 rfl hl).next 3 rfl hl).next 4 rfl hl

/-- The four counts, the root and the five nodes, put together. -/
theorem CountsRead.tree {b : DecState} (quads : CountsRead s base c q st 4 b)
    (nodes : NodesRead s base c (q + 8 + s.desc.compbits[c]) ⟨⟨q + 8 + s.desc.compbits[c], false⟩,
      b.codec.setRoot c (fieldAt (fbSource s.fb base) (q + 8) s.desc.compbits[c]), b.pend⟩ 5 a) :
    TreeRead s base c q st a := by
  have hb : a.codec.bctree = b.codec.bctree := nodes.bctree
  refine ⟨?_, ?_, ?_, ?_, ?_, fun v => ?_⟩
  · rw [hb]
    exact nodes.cur
  · rw [hb]
    exact quads.root
  · rw [hb]
    exact fun j => quads.counts j j.isLt
  · rw [nodes.root, setRoot_entry _ _ _ (by decide)]
    exact isField_fieldAt _ _ _ _
  · rw [hb]
    exact fun k => nodes.nodes k k.isLt
  · rw [nodes.viols v, hb, quads.viols v, or_assoc]
    refine or_congr_right (or_congr (exists_congr fun j => ?_) (and_congr_right fun _ => exists_congr fun k => ?_))
    · rw [← quads.counts j j.isLt]
      exact and_iff_right j.isLt
    · exact and_iff_right k.isLt

/-- Clamped quadrant counts are in their range, so the nodes have the size of nodeCut_five_le. -/
theorem nodeCut_clamped_le {counts : Vector Int 5} {root : Int} (hroot : counts[0] = root)
    (hquad : ∀ j : Fin 4, counts[j.succ] = clampCount (rawCount s base q root j)) (h0 : 0 ≤ root ∧ root ≤ 29) (pos : Nat) :
    nodeCut counts pos 5 ≤ pos + 277 := by
  refine nodeCut_five_le (hroot.trans_le h0.2) (fun j => ?_) pos
  have := deltaAt_ge s base (q + 2 * j.val)
  rw [hquad, rawCount]
  exact (clampCount_range (by omega)).2

theorem readTree_read (hq : st.cur = ⟨q, false⟩) (hn : s.desc.compbits[c] ≤ 15)
    (h0 : 0 ≤ (st.codec.bctree[c])[0] ∧ (st.codec.bctree[c])[0] ≤ 29) (hl : q + 300 ≤ lim) :
    TreeRead s base c q st (readTree s.desc (fbSource s.fb base) lim c st) := by
  have quads := foldl_readL4D (s := s) (base := base) (c := c) hq (show q + 8 ≤ lim by omega)
  unfold readTree
  generalize ([0, 1, 2, 3] : List (Fin 4)).foldl _ st = b at quads ⊢
  have room := nodeCut_clamped_le quads.root (fun j => quads.counts j j.isLt) h0 (q + 8 + s.desc.compbits[c])
  rw [readRoot_ok quads.cur (by omega)]
  exact quads.tree (foldl_readNode rfl (room.trans (by omega)))

/-! The three forms of a component. -/

/-- A root alone: the tree is its value and zeros. -/
theorem setRoot_setLeaves_entry (x : Codec) (c : Fin 4) (w n : Nat) :
    (((x.setRoot c w).setLeaves c n).mintree[c]).getD 0 0 = w ∧
      ∀ k, 1 ≤ k → k < 21 → (((x.setRoot c w).setLeaves c n).mintree[c]).getD k 0 = 0 :=
  ⟨setRoot_entry x c w (by decide), fun k h1 hk => (setRoot_entry x c w hk).trans (if_neg (by omega))⟩

/-- A root written behind a sentinel leaves the sentinel's counts. -/
theorem setRootCount_sentinel (x : Codec) (c : Fin 4) {r : Int} (hr : r < 0) (w n : Nat) :
    (((x.setRootCount c r).setRoot c w).setLeaves c n).bctree[c] = #v[r, 0, 0, 0, 0] := by
  show (x.setRootCount c r).bctree[c] = _
  rw [setRootCount_of_neg x c hr, row_set_self]

theorem TreeRead.componentRead {code : Nat} (h : TreeRead s base c (q + l3Bits s.desc.compbits[c])
      ⟨⟨q + l3Bits s.desc.compbits[c], false⟩, st.codec.setRootCount c code,
        if (s.desc.compbits[c] : Int) < code then st.pend ++ [(.bcRange, c.val)] else st.pend⟩ a)
    (hn : s.desc.compbits[c] ≤ 15) (hf : IsField s base q (l3Bits s.desc.compbits[c]) code)
    (hc : code < 2 ^ l3Bits s.desc.compbits[c] - 2) :
    ComponentRead s base c q (nodeCut a.codec.bctree[c] (q + l3Bits s.desc.compbits[c] + 8 + s.desc.compbits[c]) 5) st
      (writeLeaves s.desc c a) := by
  have hw := l3Bits_le hn
  have hroot := h.root
  have hquad := h.counts
  simp only [setRootCount_root] at hroot hquad
  have code_le : code ≤ 29 := by
    have : 2 ^ l3Bits s.desc.compbits[c] ≤ 2 ^ 5 := Nat.pow_le_pow_right (by decide) hw
    omega
  refine ⟨h.cur, ?_, ?_, setLeaves_leavesOf _ hn, fun v => ?_⟩
  · have := nodeCut_clamped_le hroot hquad (by omega) (q + l3Bits s.desc.compbits[c] + 8 + s.desc.compbits[c])
    omega
  · exact ⟨code, hf, fun e => by omega, fun e => by omega, fun _ => ⟨hroot, hquad, h.entry, _, rfl, rfl, h.nodes⟩⟩
  · refine (h.viols v).trans ?_
    simp only [setRootCount_root]
    rw [mem_pend_append_ite, or_assoc]
    exact or_congr_right (componentViol_literal (x := a.codec) hroot (by omega)).symm

section Sentinels

variable {d : Desc} {src : Nat → Bool} (hq : st.cur = ⟨q, false⟩)
include hq

/-- All ones: the component is the root that follows (R152, R155). -/
theorem decodeComponent_uniform (h : fieldAt src q (l3Bits d.compbits[c]) = 2 ^ l3Bits d.compbits[c] - 1)
    (hl : q + l3Bits d.compbits[c] + d.compbits[c] ≤ lim) : decodeComponent d src lim st c =
      ⟨⟨q + l3Bits d.compbits[c] + d.compbits[c], false⟩, ((st.codec.setRootCount c (-1)).setRoot c
        (fieldAt src (q + l3Bits d.compbits[c]) d.compbits[c])).setLeaves c d.compbits[c], st.pend⟩ := by
  rw [decodeComponent_eq, readL3_ok hq (Nat.le_of_add_right_le hl), h, l3Value_uniform, if_neg (by omega),
    readRest_uniform]
  · rw [readRoot_ok rfl hl]
    rfl
  · exact setRootCount_root _ _ _

/-- One below: the component is the default colour, and no root follows (R155). -/
theorem decodeComponent_default (h : fieldAt src q (l3Bits d.compbits[c]) = 2 ^ l3Bits d.compbits[c] - 2)
    (hl : q + l3Bits d.compbits[c] ≤ lim) : decodeComponent d src lim st c =
      ⟨⟨q + l3Bits d.compbits[c], false⟩,
        ((st.codec.setRootCount c (-2)).setRoot c d.defaultcolor[c]).setLeaves c d.compbits[c], st.pend⟩ := by
  rw [decodeComponent_eq, readL3_ok hq hl, h, l3Value_default (two_le_l3Bits _), if_neg (by omega),
    readRest_default]
  · rfl
  · exact setRootCount_root _ _ _

end Sentinels

/-- A component, wherever it starts with the room of the largest one. -/
theorem decodeComponent_read (f : DescFacts s.desc) (hq : st.cur = ⟨q, false⟩) (hl : q + 305 ≤ lim) :
    ∃ stop, ComponentRead s base c q stop st (decodeComponent s.desc (fbSource s.fb base) lim st c) := by
  have hn := f.compbits_le c
  have hw := l3Bits_le hn
  have hf := isField_fieldAt s base q (l3Bits s.desc.compbits[c])
  have four : 2 ^ 2 ≤ 2 ^ l3Bits s.desc.compbits[c] := Nat.pow_le_pow_right (by decide) (two_le_l3Bits _)
  obtain h | h | h := code_cases hf.1
  · rw [decodeComponent_uniform hq h (by omega)]
    have hb := setRootCount_sentinel st.codec c (r := -1) (by decide)
      (fieldAt (fbSource s.fb base) (q + l3Bits s.desc.compbits[c]) s.desc.compbits[c]) s.desc.compbits[c]
    obtain ⟨e0, e1⟩ := setRoot_setLeaves_entry (st.codec.setRootCount c (-1)) c
      (fieldAt (fbSource s.fb base) (q + l3Bits s.desc.compbits[c]) s.desc.compbits[c]) s.desc.compbits[c]
    refine ⟨_, rfl, by omega, ⟨_, hf, fun _ => ⟨hb, ?_, e1, rfl⟩, fun e => by omega, fun e => by omega⟩,
      setLeaves_leavesOf _ hn, fun v => (or_iff_left (not_componentViol (by decide) hb)).symm⟩
    exact (congrArg (IsField s base _ _) e0).mpr (isField_fieldAt _ _ _ _)
  · rw [decodeComponent_default hq h (by omega)]
    have hb := setRootCount_sentinel st.codec c (r := -2) (by decide) s.desc.defaultcolor[c] s.desc.compbits[c]
    obtain ⟨e0, e1⟩ := setRoot_setLeaves_entry (st.codec.setRootCount c (-2)) c s.desc.defaultcolor[c] s.desc.compbits[c]
    exact ⟨_, rfl, by omega, ⟨_, hf, fun e => by omega, fun _ => ⟨hb, e0, e1, rfl⟩, fun e => by omega⟩,
      setLeaves_leavesOf _ hn, fun v => (or_iff_left (not_componentViol (by decide) hb)).symm⟩
  · have range := l3Value_range hn hf.1
    rw [l3Value_literal h] at range
    rw [decodeComponent_eq, readL3_ok hq (by omega), l3Value_literal h,
      readRest_literal (by rw [setRootCount_root]; exact Int.natCast_nonneg _)]
    exact ⟨_, (readTree_read rfl hn (by rw [setRootCount_root]; exact ⟨Int.natCast_nonneg _, range.2⟩)
      (by omega)).componentRead hn hf h⟩

end ComponentBits

end Sys2Proof.Machine

namespace Sys2Proof.Machine

/-! ### A compressed subblock: its components one behind the other (30_encoding R101; 41_subblock_decode R150) -/

section StreamBits

variable {s : State} {base lim q : Nat} {st a : DecState} {p : Fin 2} {x : Codec}

/-- `a` is `st` after the components `cs` were read, the `k`-th from bit `cut k` to bit `cut (k + 1)`. -/
structure ComponentsRead (s : State) (base : Nat) (cs : List (Fin 4)) (cut : Nat → Nat) (st a : DecState) : Prop where
  cur : a.cur = ⟨cut cs.length, false⟩
  size : cut cs.length ≤ cut 0 + 305 * cs.length
  bits : ∀ k c, cs[k]? = some c → ComponentAt s base c a.codec (cut k) (cut (k + 1))
  leaves : ∀ c ∈ cs, LeavesOf s a.codec c
  viols : ∀ v, v ∈ a.pend.map Prod.fst ↔
    v ∈ st.pend.map Prod.fst ∨ ∃ k c, cs[k]? = some c ∧ ComponentViol s base c a.codec (cut k) v

/-- A component before others that do not touch it. -/
theorem ComponentRead.cons {c : Fin 4} {cs : List (Fin 4)} {cut : Nat → Nat} {b : DecState}
    (h : ComponentRead s base c q (cut 0) st b) (g : ComponentsRead s base cs cut b a)
    (keeps : KeepsComponent c b.codec a.codec) :
    ComponentsRead s base (c :: cs) (fun k => k.casesOn q cut) st a := by
  have hsize := h.size
  have gsize := g.size
  refine ⟨g.cur, ?_, fun k e he => ?_, ?_, fun v => ?_⟩
  · show cut cs.length ≤ q + 305 * (cs.length + 1)
    omega
  · cases k with
    | zero =>
      obtain rfl : c = e := by simpa using he
      exact keeps.componentAt.mp h.bits
    | succ k => exact g.bits k e (by simpa using he)
  · exact List.forall_mem_cons.mpr ⟨keeps.leavesOf.mp h.leaves, g.leaves⟩
  · rw [g.viols v, h.viols v, or_assoc]
    refine or_congr_right ⟨?_, ?_⟩
    · rintro (hv | ⟨k, e, he, hv⟩)
      · exact ⟨0, c, rfl, keeps.componentViol.mp hv⟩
      · exact ⟨k + 1, e, by simpa using he, hv⟩
    · rintro ⟨k, e, he, hv⟩
      cases k with
      | zero =>
        obtain rfl : c = e := by simpa using he
        exact .inl (keeps.componentViol.mpr hv)
      | succ k => exact .inr ⟨k, e, by simpa using he, hv⟩

theorem foldl_decodeComponent (f : DescFacts s.desc) {cs : List (Fin 4)} (nodup : cs.Nodup) (hq : st.cur = ⟨q, false⟩)
    (hl : q + 305 * cs.length ≤ lim) : ∃ cut : Nat → Nat, cut 0 = q ∧
      ComponentsRead s base cs cut st (cs.foldl (decodeComponent s.desc (fbSource s.fb base) lim) st) := by
  induction cs generalizing q st with
  | nil => exact ⟨fun _ => q, rfl, hq, le_rfl, fun k c h => by simp at h, fun c h => by simp at h, fun v => by simp⟩
  | cons c cs ih =>
    have room : q + 305 ≤ lim ∧ q + 305 + 305 * cs.length ≤ lim := by
      rw [List.length_cons] at hl
      omega
    obtain ⟨hc, nodup⟩ := List.nodup_cons.mp nodup
    have ne : ∀ e ∈ cs, c ≠ e := fun e he z => hc (z ▸ he)
    obtain ⟨stop, head⟩ := decodeComponent_read (base := base) (c := c) f hq room.1
    obtain ⟨cut, rfl, tail⟩ := ih nodup head.cur ((Nat.add_le_add_right head.size _).trans room.2)
    exact ⟨_, rfl, head.cons tail (.foldl (fun a e he => decodeComponent_keeps (ne e he) a) _)⟩

/-- What the stream of a compressed subblock is, told from the bits at byte `ARG0`. -/
structure CompressedRead (s : State) (p : Fin 2) (cut : Nat → Nat) : Prop where
  stream : StreamAt s s.port.arg0 p (streamOf s p false).codec cut
  cur : (streamOf s p false).cur = ⟨cut (comps s.desc.toDescIn p).length, false⟩
  size : cut (comps s.desc.toDescIn p).length ≤ 1220
  leaves : ∀ c ∈ comps s.desc.toDescIn p, LeavesOf s (streamOf s p false).codec c
  viols : ∀ v, v ∈ (streamOf s p false).pend.map Prod.fst ↔
    StreamViol s s.port.arg0 p (streamOf s p false).codec cut v

/-- A window of 1220 bits holds every compressed subblock (70_reset_and_hazards R361). -/
theorem decodeStream_compressed (f : DescFacts s.desc) (p : Fin 2) (x : Codec) (hl : 1220 ≤ lim) :
    ∃ cut : Nat → Nat, cut 0 = 0 ∧ ComponentsRead s base (comps s.desc.toDescIn p) cut ⟨⟨0, false⟩, x, []⟩
      (decodeStream s.desc (fbSource s.fb base) lim p false x) :=
  foldl_decodeComponent f (comps_nodup _ _) rfl (by have := comps_length s.desc.toDescIn p; omega)

theorem not_runsOff (f : DescFacts s.desc) (hl : 1220 ≤ windowBits s s.port.arg0) : ¬ RunsOff s p false := by
  obtain ⟨cut, -, R⟩ := decodeStream_compressed (base := s.port.arg0) f p s.codec hl
  rw [RunsOff, streamOf, R.cur]
  exact Bool.false_ne_true

/-- A stream that ends inside its window is the one that a window of 1220 bits or more would give. -/
theorem compressedRead (f : DescFacts s.desc) (h : ¬ RunsOff s p false) : ∃ cut, CompressedRead s p cut := by
  have longer : decodeStream s.desc (fbSource s.fb s.port.arg0) (max (windowBits s s.port.arg0) 1220) p false s.codec =
      streamOf s p false :=
    decodeStream_agrees (fun _ _ => rfl) (Nat.le_max_left _ _) s.desc (Bool.eq_false_iff.mpr h)
  obtain ⟨cut, h0, R⟩ := decodeStream_compressed (base := s.port.arg0) f p s.codec
    (Nat.le_max_right (windowBits s s.port.arg0) 1220)
  rw [longer] at R
  have hsize := R.size
  have := comps_length s.desc.toDescIn p
  exact ⟨cut, ⟨h0, R.bits⟩, R.cur, by omega, R.leaves, fun v => (R.viols v).trans (by simp [streamViol_iff])⟩

end StreamBits

/-- Settles O29: the trees, samples and violations are those of `compressedRead`; with no transform the block ends there. -/
theorem decodeBlockCompressed : Obligations.DecodeBlockCompressed := by
  intro p s hi hr hp
  have f := hi.facts hr
  refine ⟨not_runsOff f, fun ht hoff => ?_⟩
  obtain ⟨cut, R⟩ := compressedRead f hoff
  have pos : (elementDone s (streamOf s p false)
      ⟨some (((cut (comps s.desc.toDescIn p).length + 7) / 8 : Nat) : Int), none, some 0⟩).cur.pos.toNat =
      cut (comps s.desc.toDescIn p).length := by
    rw [elementDone_cur, R.cur]
    exact Nat.mod_eq_of_lt (R.size.trans_lt (by decide))
  refine ⟨_, (cut (comps s.desc.toDescIn p).length + 7) / 8, cut, exec_decodeBlock_completes hr hp (by simpa using ht) R.cur,
    elementDone_doneWith _ _, elementDone_onlyCodec _ _, ?_, by rw [pos], by rw [pos]; exact R.size, ?_, pos, ?_,
    fun c hc => ?_, fun c hc => ?_⟩
  · rw [elementDone_cur, R.cur]
    rfl
  all_goals rw [elementDone_codec]
  · exact R.stream
  · exact (elementDone_flags _ _).congr R.viols
  · obtain ⟨k, hk⟩ := List.getElem?_of_mem hc
    obtain ⟨hroot, hquad⟩ := (R.stream.2 k c hk).counts (f.compbits_le c)
    exact ⟨hroot, hquad, R.leaves c hc⟩
  · obtain ⟨hb, hm, ht⟩ := decodeStream_keeps (d := s.desc) (src := fbSource s.fb s.port.arg0)
      (lim := windowBits s s.port.arg0) hc false s.codec
    exact ⟨hb, hm, ht⟩

end Sys2Proof.Machine

namespace Sys2Proof.Machine

/-! ### A compressed subblock under the colour transform (41_subblock_decode R161; 45_color_transform R284, R285) -/

section Transformed

variable {s : State} {p : Fin 2} {n : Nat}

/-- `s` with the stream's registers and its violations, before the transform runs. -/
def streamDone (s : State) (p : Fin 2) : State :=
  flagAll { s with cur := (streamOf s p false).cur.reg, codec := (streamOf s p false).codec } (streamOf s p false).pend

theorem streamDone_same (s : State) (p : Fin 2) : streamDone s p =
    { s with cur := (streamOf s p false).cur.reg, codec := (streamOf s p false).codec, chk := (streamDone s p).chk } := by
  rw [streamDone, (flagAll_only_chk _ _).same]

@[simp] theorem streamDone_desc (s : State) (p : Fin 2) : (streamDone s p).desc = s.desc := by rw [streamDone_same]

@[simp] theorem streamDone_codec (s : State) (p : Fin 2) : (streamDone s p).codec = (streamOf s p false).codec := by
  rw [streamDone_same]

theorem streamDone_flags (s : State) (p : Fin 2) :
    Flags s (streamDone s p) fun v => v ∈ (streamOf s p false).pend.map Prod.fst :=
  flagAll_flags { s with cur := (streamOf s p false).cur.reg, codec := (streamOf s p false).codec } _

/-- The block ends with the inverse transform of its rows. -/
theorem exec_decodeBlock_transformed (hr : Ready s) (hp : p.val < s.desc.nplanes) (ht : ctApplies s.desc.toDescIn p = true)
    (hn : (streamOf s p false).cur = ⟨n, false⟩) :
    exec (.decodeBlock p false) s = settle
      ((ctInverseRun (streamDone s p) (comps s.desc.toDescIn p) true).bind fun _ t => .ok ((n + 7) / 8) t)
      (fun n => ⟨some (n : Int), none, some 0⟩) overflowResult := by
  rw [exec_decodeBlock hr hp false, finishBlock, streamDone, hn, ht]
  simp only [Bool.false_eq_true, if_false, Bool.not_false, Bool.true_and, if_true]
  rfl

/-- What the transform gives at leaf `l` of quadrant `q`, from the stream's own samples: R, G, B (R284). -/
def leafRgb (s : State) (x : Codec) (q l : Nat) : Int × Int × Int :=
  ctInverse (inBits s.desc.toDescIn 0) (leafOfTrees s x 0 q l) (leafOfTrees s x 1 q l) (leafOfTrees s x 2 q l)

/-- All of R, G, B at that leaf are in range (R285). -/
def LeafOk (s : State) (x : Codec) (q l : Nat) : Prop :=
  (0 ≤ (leafRgb s x q l).1 ∧ (leafRgb s x q l).1 < 2 ^ inBits s.desc.toDescIn 0) ∧
  (0 ≤ (leafRgb s x q l).2.1 ∧ (leafRgb s x q l).2.1 < 2 ^ inBits s.desc.toDescIn 0) ∧
  (0 ≤ (leafRgb s x q l).2.2 ∧ (leafRgb s x q l).2.2 < 2 ^ inBits s.desc.toDescIn 0)

variable {x : Codec}

theorem sampleAt_pix {c : Fin 4} (h : LeavesOf s x c) {q l : Nat} (hq : q < 4) (hl : l < 4) :
    sampleAt x.blk c ⟨pix q l, (quadOf_leafOf_pix q hq l hl).1⟩ = leafOfTrees s x c q l := by
  rw [← h q hq l hl, getD_pix _ hq hl, sampleAt]

/-- Every pixel is a leaf of a quadrant (10_state R35). -/
theorem pix_quadOf_leafOf (i : Fin 16) : quadOf i < 4 ∧ leafOf i < 4 ∧ pix (quadOf i) (leafOf i) = i := by
  revert i
  decide

theorem ctInversePixel_isSome (s : State) (x : Codec) (q l : Nat) :
    (ctInversePixel (inBits s.desc.toDescIn 0) (leafOfTrees s x 0 q l) (leafOfTrees s x 1 q l)
      (leafOfTrees s x 2 q l)).isSome = true ↔ LeafOk s x q l := by
  simp only [ctInversePixel, LeafOk, leafRgb, ← inRange_iff, ← Bool.and_eq_true, Bool.and_assoc]
  split <;> simp [*]

/-- The inverse of the block buffer that the trees gave: a leaf is out of range, or rows 0 to 2 are R, G, B of every leaf. -/
theorem ctInverseBlock_leaves (h : ∀ c : Fin 4, c.val < 3 → LeavesOf s x c) :
    (ctInverseBlock (inBits s.desc.toDescIn 0) x.blk = none ∧ ∃ q < 4, ∃ l < 4, ¬ LeafOk s x q l) ∨
    ∃ b, ctInverseBlock (inBits s.desc.toDescIn 0) x.blk = some b ∧ b[(3 : Fin 4)] = x.blk[(3 : Fin 4)] ∧
      ∀ q < 4, ∀ l < 4, LeafOk s x q l ∧
        (((b[(0 : Fin 4)]).getD (pix q l) 0).toNat : Int) = (leafRgb s x q l).1 ∧
        (((b[(1 : Fin 4)]).getD (pix q l) 0).toNat : Int) = (leafRgb s x q l).2.1 ∧
        (((b[(2 : Fin 4)]).getD (pix q l) 0).toNat : Int) = (leafRgb s x q l).2.2 := by
  have pixel {q l : Nat} (hq : q < 4) (hl : l < 4) (c : Fin 4) (hc : c.val < 3) := sampleAt_pix (h c hc) hq hl
  rcases ctInverseBlock_cases (inBits s.desc.toDescIn 0) x.blk with ⟨hnone, i, hi⟩ | ⟨b, hsome, h3, hpix⟩
  · obtain ⟨hq, hl, e⟩ := pix_quadOf_leafOf i
    refine .inl ⟨hnone, quadOf i, hq, leafOf i, hl, fun ok => ?_⟩
    have hi' : i = ⟨pix (quadOf i) (leafOf i), (quadOf_leafOf_pix _ hq _ hl).1⟩ := Fin.ext e.symm
    rw [hi', pixel hq hl 0 (by decide), pixel hq hl 1 (by decide), pixel hq hl 2 (by decide)] at hi
    have := (ctInversePixel_isSome s x _ _).mpr ok
    rw [hi] at this
    cases this
  · refine .inr ⟨b, hsome, h3, fun q hq l hl => ?_⟩
    obtain ⟨t, ht, rows⟩ := hpix ⟨pix q l, (quadOf_leafOf_pix q hq l hl).1⟩
    rw [pixel hq hl 0 (by decide), pixel hq hl 1 (by decide), pixel hq hl 2 (by decide)] at ht
    have isSome := Option.isSome_iff_exists.mpr ⟨t, ht⟩
    obtain ⟨r, g, b', et, ergb, hr, hg, hb⟩ := ctInversePixel_some isSome
    obtain rfl : t = (r, g, b') := Option.some.inj (ht.symm.trans et)
    have width : 2 ^ inBits s.desc.toDescIn 0 ≤ 2 ^ 32 :=
      Nat.pow_le_pow_right (by decide) ((s.desc.inputbits[(0 : Fin 4)]).isLt.le.trans (by decide))
    have row (c : Fin 4) (hc : c.val < 3) (hlt : pick3 (r, g, b') c < 2 ^ 32) :
        ((b[c]).getD (pix q l) 0).toNat = pick3 (r, g, b') c := by
      rw [getD_pix _ hq hl, rows c hc]
      exact Nat.mod_eq_of_lt hlt
    refine ⟨(ctInversePixel_isSome s x q l).mp isSome, ?_⟩
    rw [leafRgb, ergb, row 0 (by decide) (hr.trans_le width), row 1 (by decide) (hg.trans_le width),
      row 2 (by decide) (hb.trans_le width)]
    exact ⟨rfl, rfl, rfl⟩

/-- `s` after a block whose rows 0 to 2 the transform replaced, with the results of `r`. -/
def transformedDone (s : State) (p : Fin 2) (b : Vector (Vector Sample 16) 4) (r : Results) : State :=
  completeOp { streamDone s p with codec := { (streamOf s p false).codec with blk := b } } r

/-- `s` after a block that the range check of the transform refused (R285). -/
def transformFailed (s : State) (p : Fin 2) : State :=
  raiseFatal (loseCodec (flagV (streamDone s p) .ctRange 0) (comps s.desc.toDescIn p) true true) .ctRange

theorem transformedDone_only (s : State) (p : Fin 2) (b : Vector (Vector Sample 16) 4) (r : Results) :
    DoneWith s (transformedDone s p b r) r ∧ OnlyCodec s (transformedDone s p b r) ∧
      (transformedDone s p b r).cur = (streamOf s p false).cur.reg := by
  have e := streamDone_same s p
  refine ⟨?_, ?_, ?_⟩
  · rw [DoneWith, transformedDone, e]
    rfl
  · rw [OnlyCodec, transformedDone, e]
    rfl
  · rw [transformedDone, e]
    rfl

theorem transformFailed_frame (s : State) (p : Fin 2) (hr : s.fat.code = 0) :
    FailedWith s (transformFailed s p) Results.none ∧
      (transformFailed s p).fat = ⟨2, s.sb.mbx, s.sb.mby, s.sb.slot⟩ ∧
      (transformFailed s p).fb = s.fb ∧ (transformFailed s p).out = s.out ∧ (transformFailed s p).desc = s.desc ∧
      (transformFailed s p).hdr = s.hdr ∧ (transformFailed s p).sb = s.sb := by
  simp [FailedWith, transformFailed, streamDone, after_of_zero hr, FatalCode.value]

theorem transformFailed_flags (s : State) (p : Fin 2) : Flags s (transformFailed s p)
    fun v => v ∈ (streamOf s p false).pend.map Prod.fst ∨ v = .ctRange :=
  (streamDone_flags s p).trans (flagV_flags (streamDone s p) .ctRange 0) (by simp [streamDone])

section Range

variable (hr : Ready s) (hp : p.val < s.desc.nplanes) (ht : ctApplies s.desc.toDescIn p = true)
  (hn : (streamOf s p false).cur = ⟨n, false⟩)
include hr hp ht hn

theorem exec_decodeBlock_inRange {b : Vector (Vector Sample 16) 4}
    (h : ctInverseBlock (inBits s.desc.toDescIn 0) (streamOf s p false).codec.blk = some b) : exec (.decodeBlock p false) s =
      .next (transformedDone s p b ⟨some (((n + 7) / 8 : Nat) : Int), none, some 0⟩) := by
  rw [exec_decodeBlock_transformed hr hp ht hn, ctInverseRun_some _ _ (by rw [streamDone_desc, streamDone_codec, h]),
    streamDone_codec]
  rfl

theorem exec_decodeBlock_outOfRange
    (h : ctInverseBlock (inBits s.desc.toDescIn 0) (streamOf s p false).codec.blk = none) :
    exec (.decodeBlock p false) s = .next (transformFailed s p) := by
  rw [exec_decodeBlock_transformed hr hp ht hn, ctInverseRun_none _ _ (by rw [streamDone_desc, streamDone_codec, h])]
  rfl

end Range

/-- The statement's floor division is the model's, for a positive divisor. -/
theorem leafRgb_eq (s : State) (x : Codec) (q l : Nat) :
    let n := inBits s.desc.toDescIn 0
    let u : Int := leafOfTrees s x 1 q l
    let v : Int := leafOfTrees s x 2 q l
    let g := Int.fdiv (4 * leafOfTrees s x 0 q l - u - v + 3 + 2 * 2 ^ n) 4
    leafRgb s x q l = (u + g - 2 ^ n, g, v + g - 2 ^ n) := by
  intro n u v g
  have hdiv (a : Int) : Int.fdiv a 4 = a / 4 := Int.fdiv_eq_ediv_of_nonneg a (by decide)
  simp only [g, hdiv]
  rfl

end Transformed

/-- Settles O30: the leaves are the transform's input, so `ctInverseBlock_leaves` decides between the two outcomes. -/
theorem decodeBlockTransformed : Obligations.DecodeBlockTransformed := by
  intro p s hi hr hp ht hoff
  obtain ⟨cut, R⟩ := compressedRead (hi.facts hr) hoff
  obtain ⟨-, present⟩ := (hi.facts hr).transformed ht
  have rgb := leafRgb_eq s (streamOf s p false).codec
  rcases ctInverseBlock_leaves (s := s) (x := (streamOf s p false).codec) fun c hc => R.leaves c (present c hc) with
    ⟨hnone, q', hq', l', hl', bad⟩ | ⟨blk, hsome, h3, good⟩
  · refine ⟨_, _, cut, exec_decodeBlock_outOfRange hr hp ht R.cur hnone, R.stream, ?_⟩
    intro n stop y u v g r b ok
    have hok : ok = LeafOk s (streamOf s p false).codec := by
      funext q l
      rw [LeafOk, rgb]
    obtain ⟨hfail, hfat, hfb, hout, hdesc, hhdr, hsb⟩ := transformFailed_frame s p hr.1
    refine ⟨fun all => absurd (hok ▸ all q' hq' l' hl') bad, fun _ => ⟨hfail, hfat, ?_, hfb, hout, hdesc, hhdr, hsb⟩⟩
    exact (transformFailed_flags s p).congr fun w => or_congr_left (R.viols w)
  · refine ⟨_, _, cut, exec_decodeBlock_inRange hr hp ht R.cur hsome, R.stream, ?_⟩
    intro n stop y u v g r b ok
    have hok : ok = LeafOk s (streamOf s p false).codec := by
      funext q l
      rw [LeafOk, rgb]
    obtain ⟨hdone, honly, hcur⟩ := transformedDone_only s p blk ⟨some (((stop + 7) / 8 : Nat) : Int), none, some 0⟩
    refine ⟨fun _ => ⟨hdone, honly, ?_, (streamDone_flags s p).congr R.viols, fun _ _ => ⟨rfl, rfl⟩,
      fun q hq l hl => ?_, fun c hc => ?_⟩, fun ⟨q, hq, l, hl, bad⟩ => absurd (hok ▸ (good q hq l hl).1) bad⟩
    · rw [hcur, R.cur]
      rfl
    · obtain ⟨-, hr, hg, hb⟩ := good q hq l hl
      rw [rgb] at hr hg hb
      refine ⟨hr, hg, hb, fun hc => ?_⟩
      rw [← R.leaves 3 hc q hq l hl, ← h3]
      rfl
    · obtain ⟨hb, hm, ht⟩ := decodeStream_keeps (d := s.desc) (src := fbSource s.fb s.port.arg0)
        (lim := windowBits s s.port.arg0) hc false s.codec
      have hc3 : c = 3 := by
        by_contra hne
        exact hc (present c (by omega))
      subst hc3
      exact ⟨h3.trans hb, hm, ht⟩

end Sys2Proof.Machine

namespace Sys2Proof.Machine

/-! ### Constant blocks of a plane with one component (41_subblock_decode R162) -/

section Constant

variable {s : State} {p : Fin 2} {c : Fin 4} {st : DecState} {stop v : Nat}

theorem streamOf_single (h : comps s.desc.toDescIn p = [c]) : streamOf s p false =
    decodeComponent s.desc (fbSource s.fb s.port.arg0) (windowBits s s.port.arg0) ⟨⟨0, false⟩, s.codec, []⟩ c := by
  rw [streamOf, decodeStream, h]
  rfl

/-- A block whose only component is one root value. -/
theorem exec_decodeBlock_constant (f : DescFacts s.desc) (hr : Ready s) (hp : p.val < s.desc.nplanes)
    (ht : ctApplies s.desc.toDescIn p = false) {x : Codec}
    (h : streamOf s p false = ⟨⟨stop, false⟩, (x.setRoot c v).setLeaves c s.desc.compbits[c], []⟩)
    (hv : v < 2 ^ s.desc.compbits[c]) :
    ∃ t, exec (.decodeBlock p false) s = .next t ∧ DoneWith s t ⟨some (((stop + 7) / 8 : Nat) : Int), none, some 0⟩ ∧
      t.chk = s.chk ∧ ∀ i : Fin 16, (t.codec.blk[c][i]).toNat = v := by
  refine ⟨_, exec_decodeBlock_completes hr hp (by simpa using ht) (by rw [h]), elementDone_doneWith _ _,
    elementDone_chk (by rw [h]), ?_⟩
  rw [elementDone_codec, h]
  exact setRoot_setLeaves_sample x c (f.compbits_le c) hv

end Constant

/-- Settles O32: either sentinel leaves the one component as a single root value. -/
theorem constantBlocks : Obligations.ConstantBlocks := by
  intro p c s hi hr hp hone ht w
  have f := hi.facts hr
  refine ⟨fun v hcode hroot hl => ?_, fun hcode hl => ?_⟩
  · have hcode := (isField_iff _ _ _ _ _).mp hcode
    have hv := hroot.1
    obtain rfl := (isField_iff _ _ _ _ _).mp hroot
    refine exec_decodeBlock_constant (x := s.codec.setRootCount c (-1)) f hr hp ht ?_ hv
    rw [streamOf_single hone, decodeComponent_uniform rfl hcode.symm (by omega), Nat.zero_add]
  · have hcode := (isField_iff _ _ _ _ _).mp hcode
    have held : held s.desc c = true := held_of_mem (f.plane hp) (hone ▸ List.mem_singleton_self c)
    refine exec_decodeBlock_constant (x := s.codec.setRootCount c (-2)) f hr hp ht ?_ (f.defaultcolor_lt held)
    rw [streamOf_single hone, decodeComponent_default rfl hcode.symm (by omega), Nat.zero_add]

end Sys2Proof.Machine

namespace Sys2Proof.Machine

/-! ### The nodes that the encoder builds (42_subblock_encode R183, R184) -/

section BuiltNodes

variable {n b : Nat} {ch l : List Nat} {e : Bool}

/-- Four deltas of `b` bits, one of them 0: what a node of bit-count `b` can say (R191, R192). -/
structure NodeFits (b : Nat) (l : List Nat) : Prop where
  length : l.length = 4
  below : AllBelow b l
  zero : ∃ j < 4, l.getD j 0 = 0

theorem NodeFits.mono {m : Nat} (h : NodeFits b l) (hm : b ≤ m) : NodeFits m l :=
  ⟨h.length, fun v hv => (h.below v hv).trans_le (Nat.pow_le_pow_right (by decide) hm), h.zero⟩

/-- The deltas of a node without bits are all 0. -/
theorem NodeFits.eq_zero (h : NodeFits 0 l) (j : Nat) : l.getD j 0 = 0 :=
  Nat.lt_one_iff.mp (getD_lt (by decide) h.below j)

theorem lt_two_pow_bitlen (x : Nat) : x < 2 ^ bitlen x := by
  unfold bitlen
  split
  · next h => simp [h]
  · exact Nat.lt_log2_self

theorem minOf_mem (h : ch ≠ []) : minOf ch ∈ ch := by
  refine List.foldlRecOn (motive := (· ∈ ch)) _ _ ?_ fun a ha v hv => ?_
  · cases ch with
    | nil => exact absurd rfl h
    | cons a ch => exact List.mem_cons_self ..
  · rcases min_choice a v with e | e <;> rw [e] <;> assumption

theorem foldl_min_le (a : Nat) : l.foldl min a ≤ a ∧ ∀ v ∈ l, l.foldl min a ≤ v := by
  induction l generalizing a with
  | nil => simp
  | cons b l ih =>
    obtain ⟨first, rest⟩ := ih (min a b)
    exact ⟨first.trans (min_le_left a b), List.forall_mem_cons.mpr ⟨first.trans (min_le_right a b), rest⟩⟩

theorem minOf_le {v : Nat} (h : v ∈ ch) : minOf ch ≤ v := (foldl_min_le _).2 v h

theorem le_foldl_max (a : Nat) : a ≤ l.foldl max a ∧ ∀ v ∈ l, v ≤ l.foldl max a := by
  induction l generalizing a with
  | nil => simp
  | cons b l ih =>
    obtain ⟨first, rest⟩ := ih (max a b)
    exact ⟨(le_max_left a b).trans first, List.forall_mem_cons.mpr ⟨(le_max_right a b).trans first, rest⟩⟩

theorem le_maxOf {v : Nat} (h : v ∈ ch) : v ≤ maxOf ch := (le_foldl_max _).2 v h

/-- The wrap heuristic replaces every child by one that is equal to it modulo `2^n` (R184). -/
theorem wrapAdjust_eq_map (e : Bool) (ch : List Nat) (n : Nat) :
    ∃ f : Nat → Nat, (∀ v, f v % 2 ^ n = v % 2 ^ n) ∧ wrapAdjust e ch n = ch.map f := by
  unfold wrapAdjust
  split
  · exact ⟨id, fun _ => rfl, ch.map_id.symm⟩
  · dsimp only
    split
    · refine ⟨_, fun v => ?_, rfl⟩
      split
      · exact Nat.add_mod_right v _
      · rfl
    · exact ⟨id, fun _ => rfl, ch.map_id.symm⟩

theorem getD_map_four {f : Nat → Nat} (hl : l.length = 4) {j : Nat} (hj : j < 4) :
    (l.map f).getD j 0 = f (l.getD j 0) := by
  simp [hl, hj]

/-- A node is built of its children and a minimum, all of them modulo `2^n`. -/
theorem buildNode_eq (e : Bool) (ch : List Nat) (n : Nat) : ∃ f : Nat → Nat, (∀ v, f v % 2 ^ n = v % 2 ^ n) ∧
    buildNode e ch n = (ch.map fun v => (f v - minOf (ch.map f)) % 2 ^ n,
      bitlen (maxOf (ch.map f) - minOf (ch.map f)), minOf (ch.map f) % 2 ^ n) := by
  obtain ⟨f, hf, hw⟩ := wrapAdjust_eq_map e ch n
  refine ⟨f, hf, ?_⟩
  simp only [buildNode, hw, List.map_map]
  rfl

theorem buildNode_fits (e : Bool) (hl : ch.length = 4) (n : Nat) :
    NodeFits (buildNode e ch n).2.1 (buildNode e ch n).1 := by
  obtain ⟨f, -, hb⟩ := buildNode_eq e ch n
  rw [hb]
  refine ⟨by simpa using hl, fun v hv => ?_, ?_⟩
  · obtain ⟨u, hu, rfl⟩ := List.mem_map.mp hv
    have hmax := le_maxOf (List.mem_map_of_mem (f := f) hu)
    have := lt_two_pow_bitlen (maxOf (ch.map f) - minOf (ch.map f))
    have := Nat.mod_le (f u - minOf (ch.map f)) (2 ^ n)
    dsimp only
    omega
  · have hne : ch.map f ≠ [] := by
      rw [Ne, List.map_eq_nil_iff]
      rintro rfl
      cases hl
    obtain ⟨j, hj, hmin⟩ := List.getElem_of_mem (minOf_mem hne)
    have hj : j < 4 := by simpa [hl] using hj
    refine ⟨j, hj, ?_⟩
    rw [List.getElem_map, List.getElem_eq_getD 0] at hmin
    dsimp only
    rw [getD_map_four hl hj, hmin, Nat.sub_self, Nat.zero_mod]

/-- The minimum and a delta add up to the child, modulo `2^n` (R183). -/
theorem buildNode_restores (e : Bool) (hl : ch.length = 4) (n : Nat) {j : Nat} (hj : j < 4) :
    ((buildNode e ch n).2.2 + (buildNode e ch n).1.getD j 0) % 2 ^ n = ch.getD j 0 % 2 ^ n := by
  obtain ⟨f, hf, hb⟩ := buildNode_eq e ch n
  have hmem : f (ch.getD j 0) ∈ ch.map f := List.mem_map_of_mem (by
    rw [← List.getElem_eq_getD (h := by omega)]
    exact List.getElem_mem _)
  rw [hb, getD_map_four hl hj, ← Nat.add_mod, Nat.add_sub_of_le (minOf_le hmem), hf]

/-- Four equal children have no delta to say. -/
theorem buildNode_const (e : Bool) (a n : Nat) :
    (buildNode e [a, a, a, a] n).2.1 = 0 ∧ (buildNode e [a, a, a, a] n).2.2 = a % 2 ^ n := by
  obtain ⟨f, hf, hb⟩ := buildNode_eq e [a, a, a, a] n
  rw [hb]
  have hmin : minOf ([a, a, a, a].map f) = f a := by simp [minOf]
  have hmax : maxOf ([a, a, a, a].map f) = f a := by simp [maxOf]
  rw [hmin, hmax, Nat.sub_self]
  exact ⟨rfl, hf a⟩

end BuiltNodes

/-! ### The trees that the encoder builds, node by node (42_subblock_encode R183) -/

section BuiltTrees

variable {e : Bool} {v : Vector Nat 16} {n : Nat} {t : Tree}

/-- The minima that the quadrants pass up to the root. -/
def quadMins (e : Bool) (v : Vector Nat 16) (n : Nat) : List Nat :=
  [0, 1, 2, 3].map fun q => (buildNode e (quadChildren v q) n).2.2

/-- Node `k` of the tree: the root over the quadrants' minima, or a quadrant over its leaves. -/
def builtNode (e : Bool) (v : Vector Nat 16) (n k : Nat) : List Nat × Nat × Nat :=
  buildNode e (if k = 0 then quadMins e v n else quadChildren v (k - 1)) n

theorem builtNode_children_length (e : Bool) (v : Vector Nat 16) (n k : Nat) :
    (if k = 0 then quadMins e v n else quadChildren v (k - 1)).length = 4 := by
  split <;> rfl

theorem childDeltas_getD (mt : Vector Nat 21) (k : Nat) {j : Nat} (hj : j < 4) :
    (childDeltas mt k).getD j 0 = mt.getD (4 * k + 1 + j) 0 := by
  interval_cases j <;> rfl

theorem eq_of_getD_four {l m : List Nat} (hl : l.length = 4) (hm : m.length = 4) (h : ∀ j < 4, l.getD j 0 = m.getD j 0) :
    l = m := by
  refine List.ext_getElem (hl.trans hm.symm) fun j h1 h2 => ?_
  rw [List.getElem_eq_getD 0, List.getElem_eq_getD 0, h j (by omega)]

theorem buildTree_root (e : Bool) (v : Vector Nat 16) (n : Nat) : (buildTree e v n).mt[0] = (builtNode e v n 0).2.2 := by
  simp [buildTree, builtNode, quadMins]

theorem buildTree_count (e : Bool) (v : Vector Nat 16) (n : Nat) (k : Fin 5) :
    (buildTree e v n).bc[k] = ((builtNode e v n k).2.1 : Int) := by
  fin_cases k <;> rfl

theorem vector_getD {α : Type} {m k : Nat} {z : α} (v : Vector α m) (h : k < m) : v.getD k z = v[k] := by
  simp [Vector.getD, h]

theorem getD_ofFn {m k : Nat} (g : Fin m → Nat) (h : k < m) : (Vector.ofFn g).getD k 0 = g ⟨k, h⟩ := by
  rw [vector_getD _ h, Vector.getElem_ofFn]

theorem buildTree_children (e : Bool) (v : Vector Nat 16) (n : Nat) (k : Fin 5) :
    childDeltas (buildTree e v n).mt k = (builtNode e v n k).1 := by
  have len := (buildNode_fits e (builtNode_children_length e v n k) n).length
  refine eq_of_getD_four rfl len fun j hj => ?_
  have hk := k.isLt
  rw [childDeltas_getD _ _ hj, buildTree, getD_ofFn _ (by omega)]
  dsimp only
  rw [if_neg (by omega), builtNode]
  by_cases h0 : k.val = 0
  · rw [if_pos (by omega), if_pos h0, h0, show 4 * 0 + 1 + j - 1 = j by omega]
    rfl
  · rw [if_neg (by omega), if_neg h0, show (4 * k.val + 1 + j - 5) / 4 = k.val - 1 by omega,
      show (4 * k.val + 1 + j - 5) % 4 = j by omega]

/-- A leaf is the sum of the root's value, its quadrant's delta and its own (41_subblock_decode R159). -/
theorem leafSum_eq (mt : Vector Nat 21) (i : Fin 16) : leafSum mt i = mt.getD 0 0 +
    (childDeltas mt (0 : Fin 5).val).getD (quadOf i) 0 +
    (childDeltas mt (Fin.succ (⟨quadOf i, (pix_quadOf_leafOf i).1⟩ : Fin 4)).val).getD (leafOf i) 0 := by
  obtain ⟨hq, hl, -⟩ := pix_quadOf_leafOf i
  rw [childDeltas_getD _ _ hq, childDeltas_getD _ _ hl, leafSum]
  congr 2
  simp only [Fin.val_succ]
  omega

/-- The leaves of a built tree are the values it was built from (R183). -/
theorem leafSum_buildTree (e : Bool) (v : Vector Nat 16) (n : Nat) (i : Fin 16) :
    leafSum (buildTree e v n).mt i % 2 ^ n = v[i] % 2 ^ n := by
  obtain ⟨hq, hl, hpix⟩ := pix_quadOf_leafOf i
  have up := buildNode_restores e (builtNode_children_length e v n 0) n hq
  have down := buildNode_restores e (builtNode_children_length e v n (quadOf i + 1)) n hl
  have mins : (quadMins e v n).getD (quadOf i) 0 = (buildNode e (quadChildren v (quadOf i)) n).2.2 := by
    generalize quadOf i = q at hq
    interval_cases q <;> rfl
  have child : (quadChildren v (quadOf i)).getD (leafOf i) 0 = v[i] := by
    rw [quadChildren, getD_map_four rfl hl, show [0, 1, 2, 3].getD (leafOf i) 0 = leafOf i by
      generalize leafOf i = l at hl
      interval_cases l <;> rfl, hpix]
    exact vector_getD _ i.isLt
  rw [if_pos rfl, mins] at up
  rw [if_neg (Nat.succ_ne_zero _), Nat.add_sub_cancel, child] at down
  rw [leafSum_eq, vector_getD _ (by decide), buildTree_root, buildTree_children e v n 0,
    buildTree_children e v n (Fin.succ ⟨quadOf i, hq⟩)]
  simp only [builtNode, Fin.val_zero, Fin.val_succ, if_true, Nat.succ_ne_zero, if_false, Nat.add_sub_cancel]
  rw [← Nat.mod_add_mod, up, Nat.mod_add_mod, down]

/-- A tree that the fields of a component of `n` bits can say (30_encoding R105, R106; 10_state R34). -/
structure TreeFits (n : Nat) (t : Tree) : Prop where
  root : t.mt[0] < 2 ^ n
  nodes : ∀ k : Fin 5, NodeFits (t.bc[k]).toNat (childDeltas t.mt k)
  counts : ∀ k : Fin 5, t.bc[k] ≤ n
  quads : ∀ j : Fin 4, 0 ≤ t.bc[j.succ]

theorem buildTree_fits (e : Bool) (h : ∀ k, v.getD k 0 < 2 ^ n) : TreeFits n (buildTree e v n) := by
  have below : ∀ k, AllBelow n (if k = 0 then quadMins e v n else quadChildren v (k - 1)) := by
    intro k u hu
    split at hu <;> obtain ⟨q, -, rfl⟩ := List.mem_map.mp hu
    · exact buildNode_min e _ n
    · exact h _
  refine ⟨?_, fun k => ?_, fun k => ?_, fun j => ?_⟩
  · rw [buildTree_root]
    exact buildNode_min e _ n
  · rw [buildTree_count, buildTree_children, Int.toNat_natCast]
    exact buildNode_fits e (builtNode_children_length e v n k) n
  · rw [buildTree_count]
    exact Int.ofNat_le.mpr (buildNode_count e (builtNode_children_length e v n k) (below k))
  · rw [buildTree_count]
    exact Int.natCast_nonneg _

theorem sentinel_toNat {r : Int} (hr : r ≤ 0) (k : Fin 5) : (#v[r, 0, 0, 0, 0][k]).toNat = 0 := by
  cases k using Fin.cases with
  | zero => exact Int.toNat_of_nonpos hr
  | succ j => rw [sentinel_count]; rfl

/-- Without counts, no node has a delta. -/
theorem TreeFits.no_deltas {r : Int} (h : TreeFits n t) (hr : r ≤ 0) (hb : t.bc = #v[r, 0, 0, 0, 0]) (k : Fin 5) :
    NodeFits 0 (childDeltas t.mt k) := by
  have := h.nodes k
  rwa [hb, sentinel_toNat hr] at this

/-- A tree without counts may carry either sentinel (R185, R189). -/
theorem TreeFits.sentinel {r r' : Int} (h : TreeFits n t) (hr : r ≤ 0) (hb : t.bc = #v[r, 0, 0, 0, 0]) (hr' : r' ≤ 0) :
    TreeFits n ⟨t.mt, #v[r', 0, 0, 0, 0]⟩ := by
  refine ⟨h.root, fun k => ?_, fun k => ?_, fun j => (sentinel_count r' j).ge⟩
  · rw [sentinel_toNat hr']
    exact h.no_deltas hr hb k
  · cases k using Fin.cases with
    | zero => exact hr'.trans (Int.natCast_nonneg n)
    | succ j => exact (sentinel_count r' j).trans_le (Int.natCast_nonneg n)

theorem crop_fits (h : TreeFits n t) : TreeFits n (crop t) := by
  unfold crop
  split
  · next h0 => exact h.sentinel le_rfl h0 (by decide)
  · exact h

/-- The counts that `constrain` raises (R186): none above the largest, the root to one below every quadrant's at least,
a quadrant's to two below the root's. -/
structure Raised (t u : Tree) : Prop where
  mt : u.mt = t.mt
  root : t.bc[0] ≤ u.bc[0]
  largest : ∀ m : Int, (∀ k : Fin 5, t.bc[k] ≤ m) → u.bc[0] ≤ m
  above : ∀ j : Fin 4, t.bc[j.succ] - 1 ≤ u.bc[0]
  quads : ∀ j : Fin 4, u.bc[j.succ] = max t.bc[j.succ] (u.bc[0] - 2)

theorem constrain_of_neg (h : t.bc[0] < (0 : Int)) : constrain t = t := if_pos h

theorem constrain_raised (h : (0 : Int) ≤ t.bc[0]) : Raised t (constrain t) := by
  rw [constrain, if_neg (Int.not_lt.mpr h)]
  obtain ⟨mt, bc⟩ := t
  dsimp only
  refine ⟨rfl, le_max_left _ _, fun m hm => ?_, fun j => ?_, fun j => ?_⟩
  · have all : bc[0] ≤ m ∧ bc[1] ≤ m ∧ bc[2] ≤ m ∧ bc[3] ≤ m ∧ bc[4] ≤ m := ⟨hm 0, hm 1, hm 2, hm 3, hm 4⟩
    show max _ _ ≤ m
    omega
  · show bc[j.succ] - 1 ≤ max _ _
    have : bc[j.succ] = bc[1] ∨ bc[j.succ] = bc[2] ∨ bc[j.succ] = bc[3] ∨ bc[j.succ] = bc[4] := by
      fin_cases j
      · exact .inl rfl
      · exact .inr (.inl rfl)
      · exact .inr (.inr (.inl rfl))
      · exact .inr (.inr (.inr rfl))
    omega
  · fin_cases j <;> rfl

/-- Raised counts leave the deltas room enough. -/
theorem constrain_fits (h : TreeFits n t) : TreeFits n (constrain t) := by
  rcases Int.lt_or_le t.bc[0] 0 with h0 | h0
  · rwa [constrain_of_neg h0]
  · obtain ⟨mt, root, largest, above, quads⟩ := constrain_raised h0
    have up : ∀ k : Fin 5, t.bc[k] ≤ (constrain t).bc[k] := by
      intro k
      cases k using Fin.cases with
      | zero => exact root
      | succ j =>
        rw [quads]
        exact le_max_left _ _
    have top := largest n h.counts
    refine ⟨mt ▸ h.root, fun k => mt ▸ (h.nodes k).mono (Int.toNat_le_toNat (up k)), fun k => ?_, fun j => ?_⟩
    · cases k using Fin.cases with
      | zero => exact top
      | succ j =>
        rw [quads]
        exact max_le (h.counts _) (by omega)
    · exact (h.quads j).trans (up j.succ)

/-- The quadrant counts are within what two bits say of the root count (R187). -/
def Paired (t : Tree) : Prop := ∀ j : Fin 4, t.bc[0] - 2 ≤ t.bc[j.succ] ∧ t.bc[j.succ] ≤ t.bc[0] + 1

theorem constrain_paired (h : (0 : Int) ≤ t.bc[0]) : Paired (constrain t) := by
  obtain ⟨-, -, -, above, quads⟩ := constrain_raised h
  intro j
  have := above j
  have := quads j
  omega

theorem verifyTree_of_paired (h : (0 : Int) ≤ t.bc[0] → Paired t) : verifyTree t = true := by
  unfold verifyTree
  split
  · rfl
  · next h0 =>
    have p : ∀ j : Fin 4, pairOk t.bc[0] t.bc[j.succ] = true := fun j => decide_eq_true (h (Int.not_lt.mp h0) j)
    have p0 : pairOk t.bc[0] t.bc[1] = true := p 0
    have p1 : pairOk t.bc[0] t.bc[2] = true := p 1
    have p2 : pairOk t.bc[0] t.bc[3] = true := p 2
    have p3 : pairOk t.bc[0] t.bc[4] = true := p 3
    rw [p0, p1, p2, p3]
    rfl

@[simp] theorem crop_mt (t : Tree) : (crop t).mt = t.mt := by
  unfold crop
  split <;> rfl

@[simp] theorem constrain_mt (t : Tree) : (constrain t).mt = t.mt := by
  unfold constrain
  split <;> rfl

@[simp] theorem markDefault_mt (v : Nat) (t : Tree) : (markDefault v t).mt = t.mt := by
  unfold markDefault
  split <;> rfl

/-- A tree without counts is one of equal values. -/
theorem buildTree_count_zero_iff (h : ∀ k, v.getD k 0 < 2 ^ n) :
    (∀ k : Fin 5, (buildTree e v n).bc[k] = 0) ↔ ∀ i : Fin 16, v[i] = v[(0 : Fin 16)] := by
  have small (i : Fin 16) : v[i] % 2 ^ n = v[i] := Nat.mod_eq_of_lt (by simpa [vector_getD] using h i)
  constructor
  · intro h0 i
    have deltas (k : Fin 5) (j : Nat) : (childDeltas (buildTree e v n).mt k).getD j 0 = 0 := by
      have := (buildTree_fits e h).nodes k
      rw [h0 k] at this
      exact this.eq_zero j
    have leaf (i : Fin 16) : v[i] = (buildTree e v n).mt.getD 0 0 % 2 ^ n := by
      rw [← small i, ← leafSum_buildTree e, leafSum_eq, deltas, deltas, Nat.add_zero]
    rw [leaf i, leaf 0]
  · intro hv k
    have quad (q : Nat) (hq : q < 4) : quadChildren v q = [v[0], v[0], v[0], v[0]] := by
      have px (l : Nat) (hl : l < 4) : v.getD (pix q l) 0 = v[0] := by
        have hp := (quadOf_leafOf_pix q hq l hl).1
        exact (vector_getD v hp).trans (hv ⟨_, hp⟩)
      simp [quadChildren, px]
    have mins : quadMins e v n = [v[0] % 2 ^ n, v[0] % 2 ^ n, v[0] % 2 ^ n, v[0] % 2 ^ n] := by
      simp only [quadMins, List.map_cons, List.map_nil, quad 0 (by decide), quad 1 (by decide), quad 2 (by decide),
        quad 3 (by decide), (buildNode_const e v[0] n).2]
    rw [buildTree_count, builtNode, Int.natCast_eq_zero]
    cases k using Fin.cases with
    | zero =>
      rw [Fin.val_zero, if_pos rfl, mins]
      exact (buildNode_const e _ n).1
    | succ j =>
      rw [Fin.val_succ, if_neg (Nat.succ_ne_zero _), Nat.add_sub_cancel, quad _ j.isLt]
      exact (buildNode_const e _ n).1

theorem counts_eq_zero_iff (bc : Vector Int 5) : bc = #v[0, 0, 0, 0, 0] ↔ ∀ k : Fin 5, bc[k] = 0 := by
  constructor
  · rintro rfl k
    fin_cases k <;> rfl
  · refine fun h => Vector.ext fun k hk => (h ⟨k, hk⟩).trans ?_
    interval_cases k <;> rfl

end BuiltTrees

/-! ### The trees of a block (42_subblock_encode R182 to R189) -/

section BlockTrees

variable {d : Desc} {w : Vector (Vector Sample 16) 4} {c : Fin 4}

theorem row_toNat_lt {n : Nat} {row : Vector Sample 16} (h : ∀ i : Fin 16, (row[i]).toNat < 2 ^ n) (k : Nat) :
    (row.map BitVec.toNat).getD k 0 < 2 ^ n := by
  by_cases hk : k < 16
  · rw [vector_getD _ hk, Vector.getElem_map]
    exact h ⟨k, hk⟩
  · simp [Vector.getD, hk]

/-- The leaves of a component's tree are its coded samples. -/
theorem leafSum_componentTree (h : ∀ i : Fin 16, (w[c][i]).toNat < 2 ^ d.compbits[c]) (i : Fin 16) :
    leafSum (componentTree d w c).mt i % 2 ^ d.compbits[c] = (w[c][i]).toNat := by
  rw [componentTree, constrain_mt, crop_mt, leafSum_buildTree]
  simpa using Nat.mod_eq_of_lt (h i)

theorem componentTree_fits (h : ∀ i : Fin 16, (w[c][i]).toNat < 2 ^ d.compbits[c]) :
    TreeFits d.compbits[c] (componentTree d w c) :=
  constrain_fits (crop_fits (buildTree_fits _ (row_toNat_lt h)))

/-- The tree of a component: the uniform sentinel when all its samples are equal, else counts that pair (R185, R186). -/
theorem componentTree_cases (h : ∀ i : Fin 16, (w[c][i]).toNat < 2 ^ d.compbits[c]) :
    ((componentTree d w c).bc = #v[-1, 0, 0, 0, 0] ∧ ∀ i : Fin 16, w[c][i] = w[c][(0 : Fin 16)]) ∨
    ((0 : Int) ≤ (componentTree d w c).bc[0] ∧ Paired (componentTree d w c) ∧
      ∃ i : Fin 16, w[c][i] ≠ w[c][(0 : Fin 16)]) := by
  have hz := (counts_eq_zero_iff _).trans (buildTree_count_zero_iff (e := d.encWrap) (row_toNat_lt h))
  have hrow (i : Fin 16) : ((w[c]).map BitVec.toNat)[i] = ((w[c]).map BitVec.toNat)[(0 : Fin 16)] ↔
      w[c][i] = w[c][(0 : Fin 16)] := by simp [BitVec.toNat_inj]
  simp only [hrow] at hz
  have root : (0 : Int) ≤ (buildTree d.encWrap ((w[c]).map BitVec.toNat) d.compbits[c]).bc[0] :=
    (Int.natCast_nonneg _).trans_eq (buildTree_count _ _ _ 0).symm
  unfold componentTree
  generalize buildTree d.encWrap ((w[c]).map BitVec.toNat) d.compbits[c] = t at hz root
  by_cases h0 : t.bc = #v[0, 0, 0, 0, 0]
  · rw [crop, if_pos h0, constrain_of_neg (by simp)]
    exact .inl ⟨rfl, hz.mp h0⟩
  · rw [crop, if_neg h0]
    exact .inr ⟨root.trans (constrain_raised root).root, constrain_paired root, by simpa using mt hz.mpr h0⟩

theorem componentTree_root_iff (h : ∀ i : Fin 16, (w[c][i]).toNat < 2 ^ d.compbits[c]) :
    (componentTree d w c).bc[0] = -1 ↔ ∀ i : Fin 16, w[c][i] = w[c][(0 : Fin 16)] := by
  rcases componentTree_cases h with ⟨hb, hw⟩ | ⟨hb, -, i, hi⟩
  · exact ⟨fun _ => hw, fun _ => by rw [hb]; rfl⟩
  · exact ⟨fun e => by omega, fun hw => absurd (hw i) hi⟩

theorem componentTree_verified (h : ∀ i : Fin 16, (w[c][i]).toNat < 2 ^ d.compbits[c]) :
    verifyTree (componentTree d w c) = true := by
  refine verifyTree_of_paired fun h0 => ?_
  rcases componentTree_cases h with ⟨hb, -⟩ | ⟨-, hp, -⟩
  · rw [hb] at h0
    exact absurd h0 (by decide)
  · exact hp

/-- The trees that are serialised: the default colour is marked (R189). -/
def markedTree (d : Desc) (w : Vector (Vector Sample 16) 4) (c : Fin 4) : Tree :=
  markDefault d.defaultcolor[c] (componentTree d w c)

/-- A tree that a component of `n` bits with default colour `dflt` can be serialised from and decoded to. -/
structure CodedTree (n dflt : Nat) (t : Tree) : Prop where
  fits : TreeFits n t
  form : t.bc = #v[-1, 0, 0, 0, 0] ∨ (t.bc = #v[-2, 0, 0, 0, 0] ∧ t.mt[0] = dflt) ∨ ((0 : Int) ≤ t.bc[0] ∧ Paired t)

theorem markedTree_coded (h : ∀ i : Fin 16, (w[c][i]).toNat < 2 ^ d.compbits[c]) :
    CodedTree d.compbits[c] d.defaultcolor[c] (markedTree d w c) := by
  have fits := componentTree_fits h
  have cases := componentTree_cases h
  unfold markedTree
  generalize componentTree d w c = t at *
  rcases cases with ⟨hb, -⟩ | ⟨hb, hp, -⟩
  · by_cases h0 : t.mt[0] = d.defaultcolor[c]
    · have e : markDefault d.defaultcolor[c] t = ⟨t.mt, #v[-2, 0, 0, 0, 0]⟩ := by
        rw [markDefault, if_pos ⟨by rw [hb]; rfl, h0⟩, hb]
        rfl
      rw [e]
      exact ⟨fits.sentinel (by decide) hb (by decide), .inr (.inl ⟨rfl, h0⟩)⟩
    · rw [markDefault, if_neg fun z => h0 z.2]
      exact ⟨fits, .inl hb⟩
  · rw [markDefault, if_neg fun z => by omega]
    exact ⟨fits, .inr (.inr ⟨hb, hp⟩)⟩

theorem leafSum_markedTree (h : ∀ i : Fin 16, (w[c][i]).toNat < 2 ^ d.compbits[c]) (i : Fin 16) :
    leafSum (markedTree d w c).mt i % 2 ^ d.compbits[c] = (w[c][i]).toNat := by
  rw [markedTree, markDefault_mt, leafSum_componentTree h]

end BlockTrees
end Sys2Proof.Machine

namespace Sys2Proof.Machine

/-! ### Lists of bits, and sources that carry them (20_memory R65; 42_subblock_encode R190, R196) -/

section BitLists

variable {src : Nat → Bool} {q n v : Nat} {a b bs : List Bool}

@[simp] theorem length_toBits (n v : Nat) : (toBits n v).length = n := by
  induction n generalizing v with
  | zero => rfl
  | succ n ih => rw [toBits, List.length_cons, ih]

theorem ofBits_append (a b : List Bool) : ofBits (a ++ b) = ofBits a + 2 ^ a.length * ofBits b := by
  induction a with
  | nil => simp [ofBits]
  | cons x a ih =>
    rw [List.cons_append, ofBits, ofBits, ih, List.length_cons, Nat.pow_succ]
    ring

theorem ofBits_toBits (h : v < 2 ^ n) : ofBits (toBits n v) = v := by
  induction n generalizing v with
  | zero => exact (Nat.lt_one_iff.mp h).symm
  | succ n ih =>
    rw [toBits, ofBits, ih (by rw [Nat.pow_succ] at h; omega)]
    have := Nat.mod_two_eq_zero_or_one v
    rcases this with e | e <;> rw [e] <;> simp <;> omega

theorem ofBits_lt (bs : List Bool) : ofBits bs < 2 ^ bs.length := by
  induction bs with
  | nil => exact Nat.one_pos
  | cons x bs ih =>
    rw [ofBits, List.length_cons, Nat.pow_succ]
    have := x.toNat_le
    omega

theorem testBit_ofBits (bs : List Bool) (i : Nat) : (ofBits bs).testBit i = bs.getD i false := by
  induction bs generalizing i with
  | nil => simp [ofBits]
  | cons x bs ih =>
    rw [ofBits]
    cases i with
    | zero => cases x <;> simp [Nat.testBit_zero]
    | succ i => rw [Nat.testBit_succ, show (x.toNat + 2 * ofBits bs) / 2 = ofBits bs by have := x.toNat_le; omega, ih,
        List.getD_cons_succ]

/-- The source carries the bits `bs` from position `q` on. -/
def Carries (src : Nat → Bool) (q : Nat) (bs : List Bool) : Prop := ∀ i < bs.length, src (q + i) = bs.getD i false

theorem carries_append : Carries src q (a ++ b) ↔ Carries src q a ∧ Carries src (q + a.length) b := by
  simp only [Carries, List.length_append]
  constructor
  · refine fun h => ⟨fun i hi => ?_, fun i hi => ?_⟩
    · rw [h i (by omega), List.getD_append _ _ _ _ hi]
    · rw [Nat.add_assoc, h _ (by omega), List.getD_append_right _ _ _ _ (by omega), Nat.add_sub_cancel_left]
  · rintro ⟨ha, hb⟩ i hi
    by_cases hia : i < a.length
    · rw [ha i hia, List.getD_append _ _ _ _ hia]
    · rw [List.getD_append_right _ _ _ _ (by omega), ← hb _ (by omega)]
      congr 1
      omega

theorem Carries.fieldAt (h : Carries src q bs) : fieldAt src q bs.length = ofBits bs :=
  (eq_fieldAt (ofBits_lt bs) fun i hi => (testBit_ofBits bs i).trans (h i hi).symm).symm

/-- A field that was laid out reads back. -/
theorem Carries.value (h : Carries src q (toBits n v)) (hv : v < 2 ^ n) : Machine.fieldAt src q n = v := by
  have := h.fieldAt
  rwa [length_toBits, ofBits_toBits hv] at this

theorem length_flatMap_const {α : Type} {f : α → List Bool} {w : Nat} {xs : List α} (hw : ∀ x ∈ xs, (f x).length = w) :
    (xs.flatMap f).length = w * xs.length := by
  rw [List.length_flatMap, List.map_congr_left hw, List.map_const', List.sum_replicate, smul_eq_mul, Nat.mul_comm]

/-- One of several pieces of the same width. -/
theorem Carries.piece {α : Type} {f : α → List Bool} {w : Nat} {xs : List α} (hw : ∀ x ∈ xs, (f x).length = w)
    (h : Carries src q (xs.flatMap f)) {i : Nat} {x : α} (hx : xs[i]? = some x) : Carries src (q + w * i) (f x) := by
  induction xs generalizing q i with
  | nil => simp at hx
  | cons y xs ih =>
    obtain ⟨hy, hxs⟩ := List.forall_mem_cons.mp hw
    obtain ⟨head, tail⟩ := carries_append.mp h
    cases i with
    | zero =>
      obtain rfl : y = x := by simpa using hx
      exact head
    | succ i =>
      have := ih hxs tail (by simpa using hx)
      rwa [hy, Nat.add_assoc, Nat.add_comm w, ← Nat.mul_succ] at this

/-! The bytes that hold them (R196). -/

@[simp] theorem length_bitsToBytes (n : Nat) (bs : List Bool) : (bitsToBytes n bs).length = n := by
  induction n generalizing bs with
  | zero => rfl
  | succ n ih => rw [bitsToBytes, List.length_cons, ih]

theorem getLsbD_bitsToBytes (bs : List Bool) {k j : Nat} (hk : k < n) (hj : j < 8) :
    ((bitsToBytes n bs).getD k 0).getLsbD j = bs.getD (8 * k + j) false := by
  induction n generalizing bs k with
  | zero => omega
  | succ n ih =>
    rw [bitsToBytes]
    cases k with
    | zero =>
      rw [List.getD_cons_zero, BitVec.getLsbD_ofNat, decide_eq_true hj, Bool.true_and, testBit_ofBits]
      simp [List.getD_eq_getElem?_getD, hj]
    | succ k =>
      rw [List.getD_cons_succ, ih _ (by omega)]
      simp [List.getD_eq_getElem?_getD, List.getElem?_drop]
      congr 2
      omega

/-- What was written to `FB` as bytes is there as a stream. -/
theorem carries_memSetBytes (m : Mem 8) (base : Nat) (h : bs.length ≤ 8 * n) :
    Carries (fbSource (memSetBytes m base (bitsToBytes n bs)) base) 0 bs := by
  intro i hi
  rw [fbSource, fbBit, memGet_memSetBytes, length_bitsToBytes, Nat.zero_add, if_pos (by omega), Nat.add_sub_cancel_left,
    getLsbD_bitsToBytes _ (by omega) (Nat.mod_lt _ (by decide)), Nat.div_add_mod]

end BitLists

/-! ### A node that was written reads back (42_subblock_encode R191, R192; 41_subblock_decode R157) -/

section NodeRoundTrip

variable {src : Nat → Bool} {lim q b : Nat} {l : List Nat} {bits : List Bool}

theorem NodeFits.zeroChild (h : NodeFits b l) : ∃ z < 4, zeroChild l = some z ∧ l.getD z 0 = 0 := by
  obtain ⟨j, hj, h0⟩ := h.zero
  have some : (Machine.zeroChild l).isSome = true :=
    List.find?_isSome.mpr ⟨j, by interval_cases j <;> decide, by simpa using h0⟩
  obtain ⟨z, hz⟩ := Option.isSome_iff_exists.mp some
  have mem := List.mem_of_find?_eq_some hz
  exact ⟨z, by fin_cases mem <;> decide, hz, by simpa using List.find?_some hz⟩

/-- A node that is not all ones needs no fix-up (R193). -/
theorem NodeFits.fixOnes (h : NodeFits b l) : fixOnes l = l := by
  refine if_neg ?_
  rintro rfl
  obtain ⟨j, hj, h0⟩ := h.zero
  interval_cases j <;> cases h0

theorem nodeEncode_one (h : NodeFits 1 l) : nodeEncode 1 l = some (l.flatMap fun x => toBits 1 x) := by
  have hmod : l.map (fun x => x % 2) = l :=
    (List.map_congr_left fun x hx => Nat.mod_eq_of_lt (h.below x hx)).trans l.map_id
  rw [nodeEncode, if_neg (by decide), if_pos rfl, hmod, h.fixOnes]

theorem nodeEncode_planes {z : Nat} (hb : 2 ≤ b) (hz : zeroChild l = some z) :
    nodeEncode b l = some (toBits 2 z ++ (List.range b).flatMap fun i => planeBits l z i) := by
  rw [nodeEncode, if_neg (by omega), if_neg (by omega), hz]

theorem NodeFits.encodes (h : NodeFits b l) : ∃ bits, nodeEncode b l = some bits := by
  obtain rfl | rfl | hb : b = 0 ∨ b = 1 ∨ 2 ≤ b := by omega
  · exact ⟨[], rfl⟩
  · exact ⟨_, nodeEncode_one h⟩
  · obtain ⟨z, -, hz, -⟩ := h.zeroChild
    exact ⟨_, nodeEncode_planes hb hz⟩

/-- The bits of a node decode to its deltas and end where they end. -/
theorem nodeDecode_nodeEncode (h : NodeFits b l) (he : nodeEncode b l = some bits) (hs : Carries src q bits)
    (hl : q + bits.length ≤ lim) : nodeDecode src lim b ⟨q, false⟩ = (l, ⟨q + bits.length, false⟩) := by
  obtain rfl | rfl | hb : b = 0 ∨ b = 1 ∨ 2 ≤ b := by omega
  · obtain rfl : [] = bits := Option.some.inj he
    have : l = [0, 0, 0, 0] := eq_of_getD_four h.length rfl fun j hj => by
      rw [h.eq_zero]
      interval_cases j <;> rfl
    rw [this]
    rfl
  · obtain rfl := Option.some.inj ((nodeEncode_one h).symm.trans he)
    have one : ∀ x ∈ l, (toBits 1 x).length = 1 := fun x _ => length_toBits 1 x
    rw [length_flatMap_const one, h.length] at hl ⊢
    obtain ⟨cur, length, -, read⟩ := nodeDecode_one (src := src) (lim := lim) (q := q) hl
    refine Prod.ext (eq_of_getD_four length h.length fun j hj => ?_) cur
    have hj' : j < l.length := h.length ▸ hj
    have bit := (hs.piece one (List.getElem?_eq_getElem hj')).value (h.below _ (List.getElem_mem hj'))
    rw [read j j (by interval_cases j <;> rfl), ← List.getElem_eq_getD (h := hj'), ← bit]
    interval_cases j <;> simp [fieldAt]
  · obtain ⟨z, hz, hzc, hz0⟩ := h.zeroChild
    obtain rfl := Option.some.inj ((nodeEncode_planes hb hzc).symm.trans he)
    obtain ⟨-, three, -, -, place⟩ := nonZeroChildren_facts z hz
    have width : ∀ i ∈ List.range b, (planeBits l z i).length = 3 := fun i _ => (List.length_map _).trans three
    rw [List.length_append, length_flatMap_const width, length_toBits, List.length_range] at hl ⊢
    obtain ⟨hcode, hplanes⟩ := carries_append.mp hs
    rw [length_toBits] at hplanes
    obtain ⟨cur, length, zero, bits⟩ := nodeDecode_planes (src := src) (lim := lim) (q := q) hb (by omega)
    rw [hcode.value hz] at zero bits
    refine Prod.ext (eq_of_getD_four length h.length fun j hj => ?_) (cur.trans (by rw [Nat.add_assoc]))
    by_cases hjz : j = z
    · rw [hjz, zero, hz0]
    · refine Nat.eq_of_testBit_eq fun i => ?_
      rw [bits j hj hjz i]
      by_cases hi : i < b
      · have plane := hplanes.piece width (List.getElem?_range hi)
        have hpb : planeBit z j < (planeBits l z i).length := by
          rw [width i (List.mem_range.mpr hi), planeBit]
          split <;> omega
        rw [decide_eq_true hi, Bool.true_and, plane _ hpb, planeBits, List.getD_eq_getElem?_getD, List.getElem?_map,
          show ([0, 1, 2, 3].filter fun j => j != z)[planeBit z j]? = some j from place j hj hjz]
        rfl
      · rw [decide_eq_false hi, Bool.false_and, Nat.testBit_lt_two_pow]
        exact (getD_lt (Nat.two_pow_pos b) h.below j).trans_le (Nat.pow_le_pow_right (by decide) (Nat.not_lt.mp hi))

end NodeRoundTrip
end Sys2Proof.Machine

namespace Sys2Proof.Machine

/-! ### What the serialiser gives (42_subblock_encode R190) -/

section Serialise

variable {n dflt : Nat} {t : Tree} {bits : List Bool}

theorem joinBits_cons {o : Option (List Bool)} {rest : List (Option (List Bool))} :
    joinBits (o :: rest) = some bits ↔ ∃ x y, o = some x ∧ joinBits rest = some y ∧ bits = x ++ y := by
  cases o <;> simp [joinBits, eq_comm]

theorem joinBits_exists {α : Type} {f : α → Option (List Bool)} {l : List α} (h : ∀ a ∈ l, ∃ x, f a = some x) :
    ∃ bits, joinBits (l.map f) = some bits := by
  induction l with
  | nil => exact ⟨[], rfl⟩
  | cons a l ih =>
    obtain ⟨⟨x, hx⟩, hl⟩ := List.forall_mem_cons.mp h
    obtain ⟨y, hy⟩ := ih hl
    exact ⟨x ++ y, joinBits_cons.mpr ⟨x, y, hx, hy, rfl⟩⟩

/-- The bits of the nodes `ks` of a tree, one behind the other. -/
def nodesBits (t : Tree) (ks : List (Fin 5)) : Option (List Bool) :=
  joinBits (ks.map fun k : Fin 5 => nodeEncode (t.bc[k]).toNat (childDeltas t.mt k))

/-- The bits of the counts of the quadrants `js`. -/
def quadsBits (t : Tree) (js : List (Fin 4)) : List Bool := js.flatMap fun j => toBits 2 (l4dCode t.bc[0] t.bc[j.succ])

theorem length_quadsBits (t : Tree) (js : List (Fin 4)) : (quadsBits t js).length = 2 * js.length :=
  length_flatMap_const fun _ _ => length_toBits 2 _

theorem serialise_uniform (h : t.bc = #v[-1, 0, 0, 0, 0]) :
    serialiseComponent n t = some (toBits (l3Bits n) (2 ^ l3Bits n - 1) ++ toBits n t.mt[0]) := by
  simp [serialiseComponent, h, l3Code]

theorem serialise_default (h : t.bc = #v[-2, 0, 0, 0, 0]) :
    serialiseComponent n t = some (toBits (l3Bits n) (2 ^ l3Bits n - 2)) := by
  simp [serialiseComponent, h, l3Code]

theorem serialise_literal (h : (0 : Int) ≤ t.bc[0]) : serialiseComponent n t =
    (nodesBits t [0, 1, 2, 3, 4]).map fun nodes =>
      toBits (l3Bits n) (t.bc[0]).toNat ++ quadsBits t [0, 1, 2, 3] ++ toBits n t.mt[0] ++ nodes := by
  have code : l3Code (l3Bits n) t.bc[0] = (t.bc[0]).toNat := by
    rw [l3Code, if_neg (by omega), if_neg (by omega)]
  rw [serialiseComponent, if_neg (by omega), if_neg (by omega), code]
  simp [nodesBits, quadsBits, Vector.getD]

/-- Every such tree has its bits: no node is without a zero child (R192). -/
theorem CodedTree.serialises (h : CodedTree n dflt t) : ∃ bits, serialiseComponent n t = some bits := by
  rcases h.form with hb | ⟨hb, -⟩ | ⟨h0, -⟩
  · exact ⟨_, serialise_uniform hb⟩
  · exact ⟨_, serialise_default hb⟩
  · obtain ⟨nodes, hn⟩ : ∃ nodes, nodesBits t [0, 1, 2, 3, 4] = some nodes :=
      joinBits_exists fun k _ => (h.fits.nodes k).encodes
    exact ⟨_, by rw [serialise_literal h0, hn, Option.map_some]⟩

end Serialise

/-! ### The parts of a component that was written read back (41_subblock_decode R152 to R159) -/

section ComponentRoundTrip

variable {d : Desc} {src : Nat → Bool} {lim q n dflt : Nat} {c : Fin 4} {st : DecState} {t : Tree} {bits : List Bool}

theorem l4dCode_lt (r v : Int) : l4dCode r v < 2 ^ 2 := by
  unfold l4dCode
  omega

/-- A count within two bits of the root count reads back. -/
theorem sext_l4dCode {r v : Int} (h : r - 2 ≤ v ∧ v ≤ r + 1) : sext 2 (l4dCode r v) = v - r := by
  unfold sext l4dCode
  split <;> omega

theorem readL4D_ok {r v : Int} (hq : st.cur = ⟨q, false⟩) (hl : q + 2 ≤ lim) (hr : (st.codec.bctree[c])[0] = r)
    (hs : Carries src q (toBits 2 (l4dCode r v))) (hp : r - 2 ≤ v ∧ v ≤ r + 1) (h0 : 0 ≤ v) (hv : v ≤ d.compbits[c])
    (hn : d.compbits[c] ≤ 15) (j : Fin 4) :
    readL4D d src lim c j st = ⟨⟨q + 2, false⟩, st.codec.setCount c j.succ v, st.pend⟩ := by
  have hraw : r + (v - r) = v := by omega
  have hclamp : clampCount v = v := by
    unfold clampCount
    rw [if_neg (by omega), Int.emod_eq_of_lt h0 (by omega)]
  simp only [readL4D, hq, bsReadSigned_ok (k := ⟨q, false⟩) rfl hl, hs.value (l4dCode_lt r v), sext_l4dCode hp, hr]
  rw [if_neg (by decide), hraw, hclamp, if_neg (by omega), if_neg (by omega)]

theorem setCount_root (x : Codec) (c : Fin 4) (j : Fin 4) (v : Int) :
    ((x.setCount c j.succ v).bctree[c])[0] = (x.bctree[c])[0] := by
  simp [Codec.setCount]

/-- The counts of the quadrants `js`, one after another. -/
theorem foldl_readL4D_restores {js : List (Fin 4)} (hq : st.cur = ⟨q, false⟩) (hl : q + 2 * js.length ≤ lim)
    (hr : (st.codec.bctree[c])[0] = t.bc[0]) (hs : Carries src q (quadsBits t js)) (hp : Paired t)
    (fits : TreeFits d.compbits[c] t) (hn : d.compbits[c] ≤ 15) :
    js.foldl (fun a j => readL4D d src lim c j a) st = ⟨⟨q + 2 * js.length, false⟩,
      js.foldl (fun x j => x.setCount c j.succ t.bc[j.succ]) st.codec, st.pend⟩ := by
  induction js generalizing q st with
  | nil => rw [List.foldl_nil, List.foldl_nil, List.length_nil, Nat.mul_zero, Nat.add_zero, ← hq]
  | cons j js ih =>
    obtain ⟨head, tail⟩ := carries_append.mp hs
    rw [length_toBits] at tail
    rw [List.length_cons] at hl
    have one := readL4D_ok (lim := lim) hq (by omega) hr head (hp j) (fits.quads j) (fits.counts j.succ) hn j
    have rest := ih (q := q + 2) (st := ⟨⟨q + 2, false⟩, st.codec.setCount c j.succ t.bc[j.succ], st.pend⟩) rfl
      (by omega) ((setCount_root _ _ _ _).trans hr) tail fits hn
    rw [List.foldl_cons, one, rest, List.foldl_cons, List.length_cons]
    congr 2
    omega

/-- The nodes `ks`, one after another. -/
theorem foldl_readNode_restores {ks : List (Fin 5)} (hq : st.cur = ⟨q, false⟩) (hb : nodesBits t ks = some bits)
    (hl : q + bits.length ≤ lim) (hs : Carries src q bits) (hc : st.codec.bctree[c] = t.bc) (fits : TreeFits n t) :
    ks.foldl (fun a k => readNode src lim c k a) st = ⟨⟨q + bits.length, false⟩,
      ks.foldl (fun x (k : Fin 5) => x.setChildren c k.val (childDeltas t.mt k)) st.codec, st.pend⟩ := by
  induction ks generalizing q st bits with
  | nil =>
    obtain rfl : [] = bits := Option.some.inj hb
    exact congrArg (DecState.mk · st.codec st.pend) hq
  | cons k ks ih =>
    obtain ⟨x, y, hx, hy, rfl⟩ := joinBits_cons.mp hb
    obtain ⟨head, tail⟩ := carries_append.mp hs
    rw [List.length_append] at hl
    have node := fits.nodes k
    have count : nodeCount st.codec c k = (t.bc[k]).toNat := by rw [nodeCount, hc]
    have fine : ¬ ((t.bc[k]).toNat = 1 ∧ childDeltas t.mt k = [1, 1, 1, 1]) := by
      rintro ⟨-, ones⟩
      obtain ⟨j, hj, h0⟩ := node.zero
      rw [ones] at h0
      interval_cases j <;> cases h0
    have one : readNode src lim c k st =
        ⟨⟨q + x.length, false⟩, st.codec.setChildren c k.val (childDeltas t.mt k), st.pend⟩ := by
      simp only [readNode, count, hq, nodeDecode_nodeEncode node hx head (lim := lim) (by omega)]
      rw [if_neg fine]
    have rest := ih (q := q + x.length) (st := ⟨⟨q + x.length, false⟩, st.codec.setChildren c k.val (childDeltas t.mt k),
      st.pend⟩) rfl hy (by omega) tail hc
    rw [List.foldl_cons, one, rest, List.foldl_cons, List.length_append]
    congr 2
    omega

/-- The four counts behind a root count are the tree's. -/
theorem foldl_setCount_counts (x : Codec) (c : Fin 4) (hr : (x.bctree[c])[0] = t.bc[0]) :
    (([0, 1, 2, 3] : List (Fin 4)).foldl (fun x j => x.setCount c j.succ t.bc[j.succ]) x).bctree[c] = t.bc := by
  simp only [List.foldl_cons, List.foldl_nil, Codec.setCount, row_set_self]
  refine Vector.ext fun k hk => ?_
  interval_cases k
  · simpa using hr
  all_goals simp

/-- The entries that some of the nodes `ks` hold, or that were there before. -/
theorem foldl_setChildren_entry {ks : List (Fin 5)} {x : Codec} {m : Nat} (hm : m < 21)
    (h : (x.mintree[c]).getD m 0 = t.mt.getD m 0 ∨ ∃ k ∈ ks, 4 * k.val + 1 ≤ m ∧ m ≤ 4 * k.val + 4) :
    ((ks.foldl (fun x (k : Fin 5) => x.setChildren c k.val (childDeltas t.mt k)) x).mintree[c]).getD m 0 = t.mt.getD m 0 := by
  induction ks generalizing x with
  | nil => exact h.resolve_right fun ⟨k, hk, _⟩ => by simp at hk
  | cons k ks ih =>
    refine ih ?_
    rw [setChildren_entry _ _ _ _ hm]
    by_cases hk : 4 * k.val + 1 ≤ m ∧ m ≤ 4 * k.val + 4
    · rw [if_pos hk, childDeltas_getD _ _ (by omega), Nat.add_sub_of_le hk.1]
      exact .inl rfl
    · rw [if_neg hk]
      exact h.imp_right fun ⟨i, hi, him⟩ =>
        ⟨i, (List.mem_cons.mp hi).resolve_left fun e => hk (e ▸ him), him⟩

/-- All five nodes and the root are the whole tree. -/
theorem foldl_setChildren_tree {x : Codec} (h : (x.mintree[c]).getD 0 0 = t.mt[0]) :
    (([0, 1, 2, 3, 4] : List (Fin 5)).foldl (fun x k => x.setChildren c k.val (childDeltas t.mt k)) x).mintree[c] =
      t.mt := by
  refine Vector.ext fun m hm => ?_
  rw [← vector_getD (z := 0) _ hm, ← vector_getD (z := 0) _ hm]
  refine foldl_setChildren_entry hm ?_
  rcases Nat.eq_zero_or_pos m with rfl | h0
  · exact .inl (h.trans (vector_getD _ hm).symm)
  · refine .inr ⟨Fin.ofNat 5 ((m - 1) / 4), ?_, ?_⟩
    · generalize Fin.ofNat 5 ((m - 1) / 4) = k
      fin_cases k <;> decide
    · rw [Fin.val_ofNat, Nat.mod_eq_of_lt (by omega)]
      omega

/-- A tree without counts is its root alone. -/
theorem TreeFits.leafSum_root {r : Int} (h : TreeFits n t) (hr : r ≤ 0) (hb : t.bc = #v[r, 0, 0, 0, 0]) (i : Fin 16) :
    leafSum t.mt i = t.mt[0] := by
  rw [leafSum_eq, (h.no_deltas hr hb _).eq_zero, (h.no_deltas hr hb _).eq_zero]
  exact vector_getD _ (by decide)

/-- The code of a literal root count lies below the two sentinels (30_encoding R103). -/
theorem literal_lt {n m : Nat} (h : m ≤ n) : m < 2 ^ l3Bits n - 2 := by
  have : n + 2 < 2 ^ l3Bits n := lt_two_pow_bitlen (n + 2)
  omega

/-- The parts of a component with a literal root count, put together. -/
theorem readTree_restores {nodes : List Bool} (hq : st.cur = ⟨q, false⟩) (hn : d.compbits[c] ≤ 15)
    (hr : (st.codec.bctree[c])[0] = t.bc[0]) (fits : TreeFits d.compbits[c] t) (hp : Paired t)
    (hb : nodesBits t [0, 1, 2, 3, 4] = some nodes) (hl : q + 8 + d.compbits[c] + nodes.length ≤ lim)
    (hquads : Carries src q (quadsBits t [0, 1, 2, 3])) (hroot : Carries src (q + 8) (toBits d.compbits[c] t.mt[0]))
    (hnodes : Carries src (q + 8 + d.compbits[c]) nodes) :
    ∃ y : Codec, readTree d src lim c st = ⟨⟨q + 8 + d.compbits[c] + nodes.length, false⟩, y, st.pend⟩ ∧
      y.mintree[c] = t.mt := by
  have counts := foldl_readL4D_restores (js := [0, 1, 2, 3]) (lim := lim) hq (by simp; omega) hr hquads hp fits hn
  have hx := foldl_setCount_counts st.codec c hr
  unfold readTree
  rw [counts]
  generalize ([0, 1, 2, 3] : List (Fin 4)).foldl _ st.codec = x at hx ⊢
  have tree := foldl_setChildren_tree (c := c) (t := t) (x := x.setRoot c t.mt[0]) (setRoot_entry x c _ (by decide))
  rw [readRoot_ok (q := q + 8) rfl (by omega), hroot.value fits.root,
    foldl_readNode_restores (t := t) (q := q + 8 + d.compbits[c]) rfl hb hl hnodes hx fits]
  exact ⟨_, rfl, tree⟩

/-- The bits of a component decode to leaves of the tree that they were written from, with nothing to flag. -/
theorem decodeComponent_restores (ht : CodedTree d.compbits[c] d.defaultcolor[c] t)
    (hb : serialiseComponent d.compbits[c] t = some bits) (hn : d.compbits[c] ≤ 15) (hq : st.cur = ⟨q, false⟩)
    (hl : q + bits.length ≤ lim) (hs : Carries src q bits) :
    ∃ y : Codec, decodeComponent d src lim st c = ⟨⟨q + bits.length, false⟩, y.setLeaves c d.compbits[c], st.pend⟩ ∧
      ∀ i : Fin 16, leafSum y.mintree[c] i = leafSum t.mt i := by
  have four : 2 ^ 2 ≤ 2 ^ l3Bits d.compbits[c] := Nat.pow_le_pow_right (by decide) (two_le_l3Bits _)
  rcases ht.form with hbc | ⟨hbc, hdef⟩ | ⟨h0, hp⟩
  · obtain rfl := Option.some.inj ((serialise_uniform hbc).symm.trans hb)
    obtain ⟨hcode, hroot⟩ := carries_append.mp hs
    rw [List.length_append, length_toBits, length_toBits, ← Nat.add_assoc] at hl ⊢
    rw [length_toBits] at hroot
    rw [decodeComponent_uniform hq (hcode.value (by omega)) hl, hroot.value ht.fits.root]
    exact ⟨_, rfl, fun i => (leafSum_setRoot _ _ _ _).trans (ht.fits.leafSum_root (by decide) hbc i).symm⟩
  · obtain rfl := Option.some.inj ((serialise_default hbc).symm.trans hb)
    rw [length_toBits] at hl ⊢
    rw [decodeComponent_default hq (hs.value (by omega)) hl, ← hdef]
    exact ⟨_, rfl, fun i => (leafSum_setRoot _ _ _ _).trans (ht.fits.leafSum_root (by decide) hbc i).symm⟩
  · have root_le : (t.bc[0]).toNat ≤ d.compbits[c] := Int.toNat_le.mpr (ht.fits.counts 0)
    have literal := literal_lt root_le
    have top : t.bc[0] ≤ (d.compbits[c] : Int) := ht.fits.counts 0
    obtain ⟨nodes, hnb, rfl⟩ := Option.map_eq_some_iff.mp ((serialise_literal h0).symm.trans hb)
    obtain ⟨hfront, hnodes⟩ := carries_append.mp hs
    obtain ⟨hfront, hroot⟩ := carries_append.mp hfront
    obtain ⟨hcode, hquads⟩ := carries_append.mp hfront
    simp only [List.length_append, length_toBits, length_quadsBits, List.length_cons, List.length_nil, Nat.zero_add,
      Nat.reduceAdd, Nat.reduceMul, ← Nat.add_assoc] at hl hnodes hroot hquads ⊢
    have value : ((t.bc[0]).toNat : Int) = t.bc[0] := Int.toNat_of_nonneg h0
    rw [decodeComponent_eq, readL3_ok hq (by omega), hcode.value (by omega), l3Value_literal literal, value,
      readRest_literal (by rw [setRootCount_root]; exact h0), if_neg (Int.not_lt.mpr top)]
    obtain ⟨y, hy, hmt⟩ := readTree_restores (st := ⟨⟨q + l3Bits d.compbits[c], false⟩,
      st.codec.setRootCount c t.bc[0], st.pend⟩) rfl hn (setRootCount_root _ _ _) ht.fits hp hnb hl hquads hroot hnodes
    rw [hy]
    exact ⟨y, rfl, fun i => by rw [hmt]⟩

end ComponentRoundTrip

/-! ### A compressed subblock that was written reads back (42_subblock_encode R181) -/

section StreamRoundTrip

variable {d : Desc} {src : Nat → Bool} {lim q : Nat} {st : DecState} {tree : Fin 4 → Tree} {bits : List Bool}

/-- `a` is `st` after the components `cs` were read up to bit `stop`: nothing is flagged, and the samples are the leaves. -/
structure StreamRestored (d : Desc) (tree : Fin 4 → Tree) (cs : List (Fin 4)) (stop : Nat) (st a : DecState) : Prop where
  cur : a.cur = ⟨stop, false⟩
  pend : a.pend = st.pend
  blk : ∀ c ∈ cs, ∀ i : Fin 16, (a.codec.blk[c][i]).toNat = leafSum (tree c).mt i % 2 ^ d.compbits[c]

theorem foldl_decodeComponent_restores {cs : List (Fin 4)} (nodup : cs.Nodup) (hn : ∀ c : Fin 4, d.compbits[c] ≤ 15)
    (ht : ∀ c ∈ cs, CodedTree d.compbits[c] d.defaultcolor[c] (tree c))
    (hb : joinBits (cs.map fun c => serialiseComponent d.compbits[c] (tree c)) = some bits) (hq : st.cur = ⟨q, false⟩)
    (hl : q + bits.length ≤ lim) (hs : Carries src q bits) :
    StreamRestored d tree cs (q + bits.length) st (cs.foldl (decodeComponent d src lim) st) := by
  induction cs generalizing q st bits with
  | nil =>
    obtain rfl : [] = bits := Option.some.inj hb
    exact ⟨hq, rfl, fun c hc => by simp at hc⟩
  | cons c cs ih =>
    obtain ⟨hc, nodup⟩ := List.nodup_cons.mp nodup
    obtain ⟨htc, ht⟩ := List.forall_mem_cons.mp ht
    obtain ⟨x, y, hx, hy, rfl⟩ := joinBits_cons.mp hb
    obtain ⟨head, tail⟩ := carries_append.mp hs
    rw [List.length_append] at hl
    obtain ⟨z, hz, leaves⟩ := decodeComponent_restores (lim := lim) htc hx (hn c) hq (by omega) head
    rw [List.foldl_cons, hz, List.length_append, ← Nat.add_assoc]
    have rest := ih (st := ⟨⟨q + x.length, false⟩, z.setLeaves c d.compbits[c], st.pend⟩) nodup ht hy rfl (by omega)
      tail
    have ne : ∀ e ∈ cs, c ≠ e := fun e he h => hc (h ▸ he)
    have keeps : KeepsComponent c (z.setLeaves c d.compbits[c]) _ :=
      KeepsComponent.foldl (f := decodeComponent d src lim)
        (fun a e he => decodeComponent_keeps (ne e he) a)
        ⟨⟨q + x.length, false⟩, z.setLeaves c d.compbits[c], st.pend⟩
    refine ⟨rest.cur, rest.pend, List.forall_mem_cons.mpr ⟨fun i => ?_, rest.blk⟩⟩
    rw [keeps.blk, setLeaves_sample _ _ (hn c), leaves]

end StreamRoundTrip
end Sys2Proof.Machine

namespace Sys2Proof.Machine

/-! ### The colour transform of a block, there and back (42_subblock_encode R182; 45_color_transform R286) -/

section CodedBlock

variable {d : Desc} {p : Fin 2} {blk x : Vector (Vector Sample 16) 4} {c : Fin 4}

theorem codedBlock_plain (h : ctApplies d.toDescIn p = false) : codedBlock d.toDescIn p blk = blk := by
  rw [codedBlock, h]
  rfl

theorem codedBlock_transformed (h : ctApplies d.toDescIn p = true) :
    codedBlock d.toDescIn p blk = ctForwardBlock (inBits d.toDescIn 0) blk := by
  rw [codedBlock, h]
  rfl

/-- A pixel of a block as R, G and B. -/
def rgbAt (blk : Vector (Vector Sample 16) 4) (i : Fin 16) : Nat × Nat × Nat :=
  (sampleAt blk 0 i, sampleAt blk 1 i, sampleAt blk 2 i)

theorem pick3_rgbAt (blk : Vector (Vector Sample 16) 4) (i : Fin 16) (hc : c.val < 3) :
    pick3 (rgbAt blk i) c = sampleAt blk c i := by
  obtain rfl | rfl | rfl : c = 0 ∨ c = 1 ∨ c = 2 := by omega
  all_goals rfl

theorem sampleAt_ctForwardBlock (n : Nat) (blk : Vector (Vector Sample 16) 4) (i : Fin 16) (hc : c.val < 3) :
    sampleAt (ctForwardBlock n blk) c i =
      pick3 (ctForward n (sampleAt blk 0 i) (sampleAt blk 1 i) (sampleAt blk 2 i)) c % 2 ^ 32 := by
  simp [sampleAt, ctForwardBlock, hc]

theorem ctForwardBlock_three (n : Nat) (blk : Vector (Vector Sample 16) 4) :
    (ctForwardBlock n blk)[(3 : Fin 4)] = blk[(3 : Fin 4)] := by
  simp [ctForwardBlock]

section Transform

variable (f : DescFacts d) (ht : ctApplies d.toDescIn p = true) (hb : BlockBelow d.toDescIn p blk)
include f ht hb

theorem rgb_below (i : Fin 16) : sampleAt blk 0 i < 2 ^ inBits d.toDescIn 0 ∧ sampleAt blk 1 i < 2 ^ inBits d.toDescIn 0 ∧
    sampleAt blk 2 i < 2 ^ inBits d.toDescIn 0 := by
  obtain ⟨h0, present⟩ := f.transformed ht
  obtain ⟨d1, d2⟩ := f.depth h0
  have below (c : Fin 4) (hc : c.val < 3) : sampleAt blk c i < 2 ^ inBits d.toDescIn c := hb c (present c hc) i
  exact ⟨below 0 (by decide), d1 ▸ below 1 (by decide), d2 ▸ below 2 (by decide)⟩

/-- The coded samples of a pixel are its transform: none of them is cut off. -/
theorem rgbAt_ctForwardBlock (i : Fin 16) : rgbAt (ctForwardBlock (inBits d.toDescIn 0) blk) i =
    ctForward (inBits d.toDescIn 0) (sampleAt blk 0 i) (sampleAt blk 1 i) (sampleAt blk 2 i) := by
  obtain ⟨hr, hg, hb⟩ := rgb_below f ht hb i
  obtain ⟨r0, -, r1, -, r2⟩ := ctForward_range hr hg hb
  have wide : 2 ^ inBits d.toDescIn 0 ≤ 2 ^ 15 := Nat.pow_le_pow_right (by decide) (f.inBits_le_15 0)
  rw [Nat.pow_succ] at r1 r2
  simp only [rgbAt, sampleAt_ctForwardBlock _ _ _ (show (0 : Fin 4).val < 3 by decide),
    sampleAt_ctForwardBlock _ _ _ (show (1 : Fin 4).val < 3 by decide),
    sampleAt_ctForwardBlock _ _ _ (show (2 : Fin 4).val < 3 by decide)]
  generalize ctForward _ _ _ _ = t at *
  exact Prod.ext (Nat.mod_eq_of_lt (show t.1 < 2 ^ 32 by omega))
    (Prod.ext (Nat.mod_eq_of_lt (show t.2.1 < 2 ^ 32 by omega)) (Nat.mod_eq_of_lt (show t.2.2 < 2 ^ 32 by omega)))

/-- A pixel of the coded block is the transform of its own pixel, and of no other (R286). -/
theorem ctInversePixel_coded (i : Fin 16) : ctInversePixel (inBits d.toDescIn 0)
    (rgbAt (ctForwardBlock (inBits d.toDescIn 0) blk) i).1 (rgbAt (ctForwardBlock (inBits d.toDescIn 0) blk) i).2.1
    (rgbAt (ctForwardBlock (inBits d.toDescIn 0) blk) i).2.2 = some (rgbAt blk i) := by
  obtain ⟨hr, hg, hbl⟩ := rgb_below f ht hb i
  rw [rgbAt_ctForwardBlock f ht hb i, ctInversePixel_forward hr hg hbl]
  rfl

/-- The inverse transform of a block that holds the coded rows gives the rows back. -/
theorem ctInverseBlock_coded
    (hx : ∀ c ∈ comps d.toDescIn p, x[c] = (ctForwardBlock (inBits d.toDescIn 0) blk)[c]) :
    ∃ b, ctInverseBlock (inBits d.toDescIn 0) x = some b ∧ ∀ c ∈ comps d.toDescIn p, b[c] = blk[c] := by
  obtain ⟨-, present⟩ := f.transformed ht
  have px (i : Fin 16) : ctInversePixel (inBits d.toDescIn 0) (sampleAt x 0 i) (sampleAt x 1 i) (sampleAt x 2 i) =
      some (rgbAt blk i) := by
    rw [← ctInversePixel_coded f ht hb i]
    simp only [rgbAt, sampleAt]
    rw [hx 0 (present 0 (by decide)), hx 1 (present 1 (by decide)), hx 2 (present 2 (by decide))]
  rcases ctInverseBlock_cases (inBits d.toDescIn 0) x with ⟨-, i, hi⟩ | ⟨b, hsome, h3, rows⟩
  · rw [px i] at hi
    cases hi
  · refine ⟨b, hsome, fun c hc => ?_⟩
    by_cases hc3 : c.val < 3
    · refine Vector.ext fun k hk => ?_
      obtain ⟨t, ht, row⟩ := rows ⟨k, hk⟩
      obtain rfl : rgbAt blk ⟨k, hk⟩ = t := Option.some.inj ((px _).symm.trans ht)
      refine (row c hc3).trans ?_
      rw [pick3_rgbAt _ _ hc3]
      simp [sampleAt]
    · obtain rfl : c = 3 := by omega
      rw [h3, hx 3 hc, ctForwardBlock_three]

end Transform

/-- Two pixels have the same coded samples when they have the same samples. -/
theorem codedBlock_same_iff (f : DescFacts d) (hb : BlockBelow d.toDescIn p blk) (i j : Fin 16) :
    (∀ c ∈ comps d.toDescIn p, (codedBlock d.toDescIn p blk)[c][i] = (codedBlock d.toDescIn p blk)[c][j]) ↔
      ∀ c ∈ comps d.toDescIn p, blk[c][i] = blk[c][j] := by
  cases ht : ctApplies d.toDescIn p
  · rw [codedBlock_plain ht]
  rw [codedBlock_transformed ht]
  obtain ⟨-, present⟩ := f.transformed ht
  have three : (∀ c : Fin 4, c.val < 3 → (ctForwardBlock (inBits d.toDescIn 0) blk)[c][i] =
      (ctForwardBlock (inBits d.toDescIn 0) blk)[c][j]) ↔ ∀ c : Fin 4, c.val < 3 → blk[c][i] = blk[c][j] := by
    have rgb (y : Vector (Vector Sample 16) 4) :
        (∀ c : Fin 4, c.val < 3 → y[c][i] = y[c][j]) ↔ rgbAt y i = rgbAt y j := by
      constructor
      · intro h
        simp only [rgbAt, sampleAt]
        rw [h 0 (by decide), h 1 (by decide), h 2 (by decide)]
      · intro h c hc
        refine BitVec.eq_of_toNat_eq ?_
        have same := congrArg (pick3 · c) h
        rw [pick3_rgbAt _ _ hc, pick3_rgbAt _ _ hc] at same
        exact same
    rw [rgb, rgb]
    constructor
    · intro h
      have hi := ctInversePixel_coded f ht hb i
      rw [h, ctInversePixel_coded f ht hb j] at hi
      exact (Option.some.inj hi).symm
    · intro h
      rw [rgbAt_ctForwardBlock f ht hb, rgbAt_ctForwardBlock f ht hb]
      simp only [rgbAt, Prod.mk.injEq] at h
      rw [h.1, h.2.1, h.2.2]
  have split (y : Vector (Vector Sample 16) 4) : (∀ c ∈ comps d.toDescIn p, y[c][i] = y[c][j]) ↔
      (∀ c : Fin 4, c.val < 3 → y[c][i] = y[c][j]) ∧
        ((3 : Fin 4) ∈ comps d.toDescIn p → y[(3 : Fin 4)][i] = y[(3 : Fin 4)][j]) := by
    refine ⟨fun h => ⟨fun c hc => h c (present c hc), h 3⟩, fun ⟨low, high⟩ c hc => ?_⟩
    by_cases hc3 : c.val < 3
    · exact low c hc3
    · obtain rfl : c = 3 := by omega
      exact high hc
  rw [split, split, three, ctForwardBlock_three]

end CodedBlock

/-! ### The combined colour (42_subblock_encode R188) -/

section SingleColour

variable {d : Desc} {i : DescIn} {p : Fin 2} {blk : Vector (Vector Sample 16) 4}

/-- The samples of the components `cs`, in their order. -/
theorem length_samples (i : DescIn) (v : Fin 4 → Nat) (cs : List (Fin 4)) :
    (cs.flatMap fun c => toBits (inBits i c) (v c)).length = pixelBits i cs := by
  rw [List.length_flatMap, pixelBits]
  simp only [length_toBits]

/-- The samples of a plane's components as one number: each stands above the bits of those before it. -/
theorem ofBits_samples {v : Fin 4 → Nat} {l cs : List (Fin 4)} (h : comps i p = l ++ cs)
    (hv : ∀ c ∈ cs, v c < 2 ^ inBits i c) : 2 ^ pixelBits i l * ofBits (cs.flatMap fun c => toBits (inBits i c) (v c)) =
      (cs.map fun c => v c * 2 ^ bitsBefore i p c).sum := by
  induction cs generalizing l with
  | nil => simp [ofBits]
  | cons c cs ih =>
    obtain ⟨hc, hv⟩ := List.forall_mem_cons.mp hv
    have tail := ih (l := l ++ [c]) (by rw [h, List.append_assoc]; rfl) hv
    rw [pixelBits_append, pixelBits_cons, show pixelBits i [] = 0 from rfl, Nat.add_zero, Nat.pow_add] at tail
    rw [List.flatMap_cons, ofBits_append, ofBits_toBits hc, length_toBits, List.map_cons, List.sum_cons, ← tail,
      bitsBefore_eq h]
    ring

/-- A colour is given for a block whose components are all constant, and for no other. -/
theorem singleColour_result (f : DescFacts d) (hb : BlockBelow d.toDescIn p blk) :
    let single := singleResult (singleColour d.toDescIn blk
      ((comps d.toDescIn p).map fun c => (c, componentTree d (codedBlock d.toDescIn p blk) c)))
    ((∀ c ∈ comps d.toDescIn p, ∀ i : Fin 16, blk[c][i] = blk[c][(0 : Fin 16)]) → single =
      ((((comps d.toDescIn p).map fun c => (blk[c][(0 : Fin 16)]).toNat * 2 ^ bitsBefore d.toDescIn p c).sum : Nat) : Int)) ∧
    ((∃ c ∈ comps d.toDescIn p, ∃ i : Fin 16, blk[c][i] ≠ blk[c][(0 : Fin 16)]) → single = -1) := by
  have uniform : (((comps d.toDescIn p).map fun c => (c, componentTree d (codedBlock d.toDescIn p blk) c)).all
      fun ct => ct.2.bc[0] == -1) = true ↔
        ∀ c ∈ comps d.toDescIn p, ∀ i : Fin 16, blk[c][i] = blk[c][(0 : Fin 16)] := by
    simp only [List.all_map, List.all_eq_true, Function.comp_apply, beq_iff_eq]
    calc (∀ c ∈ comps d.toDescIn p, (componentTree d (codedBlock d.toDescIn p blk) c).bc[0] = -1)
        ↔ ∀ c ∈ comps d.toDescIn p, ∀ i : Fin 16,
            (codedBlock d.toDescIn p blk)[c][i] = (codedBlock d.toDescIn p blk)[c][(0 : Fin 16)] :=
          forall₂_congr fun c hc => componentTree_root_iff (codedBlock_below f hb hc)
      _ ↔ ∀ i : Fin 16, ∀ c ∈ comps d.toDescIn p, blk[c][i] = blk[c][(0 : Fin 16)] :=
          ⟨fun h i => (codedBlock_same_iff f hb i 0).mp fun c hc => h c hc i,
            fun h c hc i => (codedBlock_same_iff f hb i 0).mpr (h i) c hc⟩
      _ ↔ _ := ⟨fun h c hc i => h i c hc, fun h i c hc => h c hc i⟩
  refine ⟨fun h => ?_, fun ⟨c, hc, i, hi⟩ => ?_⟩
  · rw [singleColour, if_pos (uniform.mpr h), List.flatMap_map]
    have sum := ofBits_samples (l := []) (v := fun c => sampleAt blk c 0) rfl fun c hc => hb c hc 0
    rw [show pixelBits d.toDescIn [] = 0 from rfl, Nat.pow_zero, Nat.one_mul] at sum
    exact congrArg Int.ofNat sum
  · rw [singleColour, if_neg fun h => hi (uniform.mp h c hc i)]
    rfl

end SingleColour

/-! ### What the encoder returns for a block in range (42_subblock_encode R180, R187, R194, R195) -/

section Encoding

variable {d : Desc} {p : Fin 2} {blk : Vector (Vector Sample 16) 4} {e : Encoded}

/-- `bits` are those of the compressed block. -/
def CompressedBits (d : Desc) (p : Fin 2) (blk : Vector (Vector Sample 16) 4) (bits : List Bool) : Prop :=
  joinBits ((comps d.toDescIn p).map fun c =>
    serialiseComponent d.compbits[c] (markedTree d (codedBlock d.toDescIn p blk) c)) = some bits

/-- The declared size of a block of these bits. -/
def compressedSize (d : Desc) (p : Fin 2) (bits : List Bool) : Nat :=
  declaredSize (ceilDiv bits.length 8) (d.sbsMultiplier[p]).toNat

/-- `e` is the encoding of the block: its trees, its combined colour, and one of the two forms. -/
structure Encodes (d : Desc) (p : Fin 2) (blk : Vector (Vector Sample 16) 4) (e : Encoded) : Prop where
  trees : e.trees = (comps d.toDescIn p).map fun c => (c, markedTree d (codedBlock d.toDescIn p blk) c)
  single : e.single = singleColour d.toDescIn blk
    ((comps d.toDescIn p).map fun c => (c, componentTree d (codedBlock d.toDescIn p blk) c))
  uncompressed : e.unc = true → e.bytes = bitsToBytes d.uncompSize[p] (uncompressedBits d.toDescIn p blk)
  compressed : e.unc = false → ∃ bits, CompressedBits d p blk bits ∧ compressedSize d p bits < d.uncompSize[p] ∧
    e.bytes = bitsToBytes (compressedSize d p bits) bits

theorem encodeRun_encodes (f : DescFacts d) (hb : BlockBelow d.toDescIn p blk) :
    ∃ e, encodeRun d p blk = some e ∧ Encodes d p blk e := by
  have verified : (((comps d.toDescIn p).map fun c => (c, componentTree d (codedBlock d.toDescIn p blk) c)).all
      fun ct => verifyTree ct.2) = true := by
    simp only [List.all_map, List.all_eq_true, Function.comp_apply]
    exact fun c hc => componentTree_verified (codedBlock_below f hb hc)
  obtain ⟨bits, hbits⟩ : ∃ bits, CompressedBits d p blk bits :=
    joinBits_exists fun c hc => (markedTree_coded (codedBlock_below f hb hc)).serialises
  have joined : joinBits (((comps d.toDescIn p).map fun c => (c, markedTree d (codedBlock d.toDescIn p blk) c)).map
      fun ct => serialiseComponent d.compbits[ct.1] ct.2) = some bits := by
    simp only [List.map_map, Function.comp_def]
    exact hbits
  have marked : ((comps d.toDescIn p).map fun c => (c, componentTree d (codedBlock d.toDescIn p blk) c)).map
      (fun ct => (ct.1, markDefault d.defaultcolor[ct.1] ct.2)) =
      (comps d.toDescIn p).map fun c => (c, markedTree d (codedBlock d.toDescIn p blk) c) := by
    simp only [List.map_map, Function.comp_def]
    rfl
  simp only [encodeRun]
  rw [if_pos verified, marked, joined]
  dsimp only
  split
  · exact ⟨_, rfl, rfl, rfl, fun _ => rfl, fun h => absurd h (by simp)⟩
  · next h => exact ⟨_, rfl, rfl, rfl, fun h => absurd h (by simp), fun _ => ⟨bits, hbits, Nat.lt_of_not_le h, rfl⟩⟩

section Sizes

variable (f : DescFacts d) (hp : p.val < d.nplanes) (h : Encodes d p blk e)
include f hp h

/-- The byte count of either form (R194, R195; 30_encoding R97, R107). -/
theorem Encodes.size : if e.unc then e.bytes.length = d.uncompSize[p] else
    e.bytes.length < d.uncompSize[p] ∧ e.bytes.length % (d.sbsMultiplier[p]).toNat = 0 ∧
      2 ≤ e.bytes.length / (d.sbsMultiplier[p]).toNat ∧ e.bytes.length / (d.sbsMultiplier[p]).toNat < 2 ^ d.sizeBits := by
  cases hu : e.unc
  · obtain ⟨bits, -, hsize, hbytes⟩ := h.compressed hu
    obtain ⟨hm, hcodes⟩ := f.multiplier p (f.plane hp)
    rw [hbytes, length_bitsToBytes, if_neg Bool.false_ne_true]
    simp only [compressedSize, declaredSize] at hsize ⊢
    have h2 : 2 ≤ max 2 (ceilDiv (ceilDiv bits.length 8) (d.sbsMultiplier[p]).toNat) := le_max_left _ _
    generalize max 2 (ceilDiv (ceilDiv bits.length 8) (d.sbsMultiplier[p]).toNat) = k at hsize h2 ⊢
    rw [Nat.mul_div_cancel _ hm]
    refine ⟨hsize, Nat.mul_mod_left _ _, h2, Nat.lt_of_lt_of_le ?_ hcodes⟩
    unfold ceilDiv
    rw [← Nat.succ_le_iff, Nat.le_div_iff_mul_le hm, Nat.succ_mul]
    omega
  · rw [h.uncompressed hu, length_bitsToBytes, if_pos rfl]

theorem Encodes.length_le : e.bytes.length ≤ d.uncompSize[p] := by
  have := h.size f hp
  split at this <;> omega

/-- There are never fewer than two bytes (R194, R195). -/
theorem Encodes.two_le_length : 2 ≤ e.bytes.length := by
  have size := h.size f hp
  split at size
  · have := (f.planeBits (f.plane hp)).1
    rw [size, f.uncomp_eq]
    omega
  · obtain ⟨-, -, h2, -⟩ := size
    exact h2.trans (Nat.div_le_self _ _)

end Sizes

/-- The bits of a compressed block fit into its declared size. -/
theorem bits_le_compressedSize (d : Desc) (p : Fin 2) (bits : List Bool) (hm : 1 ≤ (d.sbsMultiplier[p]).toNat) :
    bits.length ≤ 8 * compressedSize d p bits := by
  rw [compressedSize, declaredSize]
  generalize (d.sbsMultiplier[p]).toNat = m at hm ⊢
  have padded : ceilDiv bits.length 8 ≤ ceilDiv (ceilDiv bits.length 8) m * m := by
    generalize ceilDiv bits.length 8 = n
    have := Nat.lt_mul_div_succ (n + m - 1) hm
    rw [Nat.mul_succ, Nat.mul_comm] at this
    unfold ceilDiv
    omega
  have size := padded.trans (Nat.mul_le_mul_right m (le_max_right 2 _))
  generalize max 2 (ceilDiv (ceilDiv bits.length 8) m) * m = n at size ⊢
  unfold ceilDiv at size
  omega

/-- The uncompressed form: pixel after pixel, each the samples of its components (R197). -/
theorem length_uncompressedBits (i : DescIn) (p : Fin 2) (blk : Vector (Vector Sample 16) 4) :
    (uncompressedBits i p blk).length = 16 * planeBitsOf i p := by
  rw [uncompressedBits, length_flatMap_const fun k _ => length_samples i (sampleAt blk · k) (comps i p), Nat.mul_comm]
  rfl

theorem Carries.sample {src : Nat → Bool} {i : DescIn} (hs : Carries src 0 (uncompressedBits i p blk))
    (hb : BlockBelow i p blk) {c : Fin 4} (hc : c ∈ comps i p) (k : Fin 16) :
    Machine.fieldAt src (planeBitsOf i p * k.val + bitsBefore i p c) (inBits i c) = (blk[c][k]).toNat := by
  have place : allPixels[k.val]? = some k := by
    revert k
    decide
  have pixel := hs.piece (fun k _ => length_samples i (sampleAt blk · k) (comps i p)) place
  obtain ⟨l, r, hl⟩ := List.append_of_mem hc
  rw [bitsBefore_eq hl]
  rw [hl, List.flatMap_append, List.flatMap_cons, ← hl] at pixel
  obtain ⟨-, pixel⟩ := carries_append.mp pixel
  have sample := (carries_append.mp pixel).1.value (hb c hc k)
  rwa [length_samples, Nat.zero_add] at sample

end Encoding

/-! ### ENCODE_BLOCK as an instruction (42_subblock_encode R180, R198, R199) -/

section EncodeBlock

variable {s : State} {p : Fin 2} {e : Encoded} {c : Fin 4}

@[simp] theorem setTrees_blk (x : Codec) (ts : List (Fin 4 × Tree)) : (x.setTrees ts).blk = x.blk := by
  induction ts generalizing x with
  | nil => rfl
  | cons ct ts ih => exact ih _

theorem setTrees_other {ts : List (Fin 4 × Tree)} (h : c ∉ ts.map Prod.fst) (x : Codec) :
    (x.setTrees ts).mintree[c] = x.mintree[c] ∧ (x.setTrees ts).bctree[c] = x.bctree[c] := by
  induction ts generalizing x with
  | nil => exact ⟨rfl, rfl⟩
  | cons ct ts ih =>
    obtain ⟨hne, hts⟩ := List.ne_and_not_mem_of_not_mem_cons h
    obtain ⟨hm, hb⟩ := ih hts _
    exact ⟨hm.trans (row_set_ne _ _ hne), hb.trans (row_set_ne _ _ hne)⟩

theorem flagResult_inj : ∀ a b : Bool, flagResult a = flagResult b → a = b := by decide

/-- `s` after the bytes, the trees and the results of an encoding. -/
def encodeDone (s : State) (e : Encoded) : State :=
  completeOp { s with
    fb := memSetBytes s.fb s.port.arg0 e.bytes
    codec := s.codec.setTrees e.trees
    cur := (⟨8 * e.bytes.length, false⟩ : Cursor).reg }
    ⟨some (e.bytes.length : Int), some (singleResult e.single), flagResult e.unc⟩

/-- `s` after an encoding whose bytes do not fit below the end of the buffer. -/
def encodeOverflow (s : State) (p : Fin 2) : State :=
  raiseFatal (loseCodec { s with cur := ⟨0, true⟩ } (comps s.desc.toDescIn p) false true) .bufOverflow

section Gates

variable (hr : Ready s) (hp : p.val < s.desc.nplanes) (hok : ∀ c ∈ comps s.desc.toDescIn p, s.codec.blkOk[c] = true)
include hr hp hok

theorem exec_encodeBlock (hb : BlockBelow s.desc.toDescIn p s.codec.blk) :
    exec (.encodeBlock p) s = settle (encodeBlockRun s s.port.arg0 p)
      fun e => ⟨some (e.bytes.length : Int), some (singleResult e.single), flagResult e.unc⟩ := by
  change execEncodeBlock p s = _
  rw [execEncodeBlock, ifReady_ready hr.1 hr.2, decide_eq_true hp, ifInput_true, (rowsDefined_iff _ _).mpr hok,
    ifDefined_true, (rowsBelow_iff _ _ _).mpr hb, ifInput_true]

theorem exec_encodeBlock_fits (hb : BlockBelow s.desc.toDescIn p s.codec.blk)
    (he : encodeRun s.desc p s.codec.blk = some e) (hl : s.port.arg0 + e.bytes.length ≤ bufSize s) :
    exec (.encodeBlock p) s = .next (encodeDone s e) := by
  rw [exec_encodeBlock hr hp hok hb, encodeBlockRun, he]
  dsimp only
  rw [if_neg (Nat.not_lt.mpr hl)]
  rfl

theorem exec_encodeBlock_overflow (hb : BlockBelow s.desc.toDescIn p s.codec.blk)
    (he : encodeRun s.desc p s.codec.blk = some e) (hl : bufSize s < s.port.arg0 + e.bytes.length) :
    exec (.encodeBlock p) s = .next (encodeOverflow s p) := by
  rw [exec_encodeBlock hr hp hok hb, encodeBlockRun, he]
  dsimp only
  rw [if_pos hl]
  rfl

theorem exec_encodeBlock_badInput (hb : ¬ BlockBelow s.desc.toDescIn p s.codec.blk) :
    exec (.encodeBlock p) s = .next (raiseFatal s .badInput) := by
  change execEncodeBlock p s = _
  rw [execEncodeBlock, ifReady_ready hr.1 hr.2, decide_eq_true hp, ifInput_true, (rowsDefined_iff _ _).mpr hok,
    ifDefined_true, Bool.eq_false_iff.mpr (mt (rowsBelow_iff _ _ _).mp hb), ifInput_false]

end Gates

theorem raiseFatal_refusedWith (h : s.fat.code = 0) : raiseFatal s .badInput = refusedWith s 6 := by
  rw [raiseFatal, after_of_zero h]
  rfl

end EncodeBlock

/-- Settles O42: the byte count is that of the chosen form, which fits where the uncompressed form would. -/
theorem encodeBlockCompletes : Obligations.EncodeBlockCompletes := by
  intro p s hi hr hp hrows hroom
  have f := hi.facts hr
  have hb : BlockBelow s.desc.toDescIn p s.codec.blk := fun c hc => (hrows c hc).2
  obtain ⟨e, he, enc⟩ := encodeRun_encodes f hb
  have size := enc.size f hp
  have fits := (Nat.add_le_add_left (enc.length_le f hp) s.port.arg0).trans hroom
  obtain ⟨colour, noColour⟩ := singleColour_result f hb
  rw [← enc.single] at colour noColour
  refine ⟨encodeDone s e, e.bytes.length, singleResult e.single, e.unc,
    exec_encodeBlock_fits hr hp (fun c hc => (hrows c hc).1) hb he fits, rfl, size,
    fun b hout => memGet_memSetBytes_outside hout, colour, noColour, rfl, setTrees_blk _ _, fun c hc => ?_⟩
  exact setTrees_other (by rw [enc.trees, List.map_map]; simpa using hc) _

/-- Settles O43: the samples are checked before anything is produced, and the bytes before any is written. -/
theorem encodeBlockRefusals : Obligations.EncodeBlockRefusals := by
  intro p s hi hr hp hok
  have f := hi.facts hr
  refine ⟨fun ⟨c, hc, i, hlarge⟩ => ?_, fun hb hover => ?_⟩
  · rw [exec_encodeBlock_badInput hr hp hok fun hb => Nat.not_lt.mpr hlarge (hb c hc i), raiseFatal_refusedWith hr.1]
  · obtain ⟨e, he, enc⟩ := encodeRun_encodes f hb
    have past : bufSize s < s.port.arg0 + e.bytes.length := by
      rcases hover with short | ⟨e', he', long⟩
      · exact short.trans_le (Nat.add_le_add_left (enc.two_le_length f hp) _)
      · rwa [Option.some.inj (he.symm.trans he')]
    refine ⟨encodeOverflow s p, exec_encodeBlock_overflow hr hp hok hb he past, rfl, after_of_zero hr.1 _ _ _ _,
      fun _ => rfl, fun _ _ => rfl, rfl, ?_⟩
    simp [encodeOverflow, Codec.lose]

/-! ### DECODE_BLOCK of what ENCODE_BLOCK wrote (42_subblock_encode R181, R200) -/

section RoundTrip

variable {t : State} {p : Fin 2} {blk : Vector (Vector Sample 16) 4} {e : Encoded}

/-- `u` is `t` after DECODE_BLOCK of at most `n` bytes, which restored the rows of the plane with nothing to flag. -/
def Restores (t : State) (p : Fin 2) (blk : Vector (Vector Sample 16) 4) (n : Nat) (u : State) : Prop :=
  (∃ m : Nat, DoneWith t u ⟨some (m : Int), none, some 0⟩ ∧ m ≤ n) ∧ u.chk = t.chk ∧
    ∀ c ∈ comps t.desc.toDescIn p, u.codec.blk[c] = blk[c]

theorem row_eq_of_toNat {v w : Vector Sample 16} (h : ∀ i : Fin 16, (v[i]).toNat = (w[i]).toNat) : v = w :=
  Vector.ext fun k hk => BitVec.eq_of_toNat_eq (h ⟨k, hk⟩)

variable (f : DescFacts t.desc) (hr : Ready t) (hp : p.val < t.desc.nplanes) (hb : BlockBelow t.desc.toDescIn p blk)
include f hr hp hb

theorem decodes_uncompressed (hs : Carries (fbSource t.fb t.port.arg0) 0 (uncompressedBits t.desc.toDescIn p blk))
    (hw : 8 * t.desc.uncompSize[p] ≤ windowBits t t.port.arg0) :
    ∃ u, exec (.decodeBlock p true) t = .next u ∧ Restores t p blk t.desc.uncompSize[p] u := by
  rw [f.uncomp_eq] at hw ⊢
  have R : UncompressedRead t.desc (fbSource t.fb t.port.arg0) p t.codec (streamOf t p true) :=
    decodeStream_uncompressed t.codec (by omega)
  refine ⟨_, exec_decodeBlock_completes hr hp rfl R.cur, ⟨_, elementDone_doneWith _ _, by omega⟩,
    elementDone_chk R.only.pend, fun c hc => ?_⟩
  rw [elementDone_codec]
  exact row_eq_of_toNat fun i => (R.read c hc i).trans (hs.sample hb hc i)

omit hr hp in
/-- The stream of a compressed block gives the coded rows. -/
theorem streamOf_restores {bits : List Bool} (hbits : CompressedBits t.desc p blk bits)
    (hs : Carries (fbSource t.fb t.port.arg0) 0 bits) (hw : bits.length ≤ windowBits t t.port.arg0) :
    (streamOf t p false).cur = ⟨bits.length, false⟩ ∧ (streamOf t p false).pend = [] ∧
      ∀ c ∈ comps t.desc.toDescIn p, (streamOf t p false).codec.blk[c] = (codedBlock t.desc.toDescIn p blk)[c] := by
  obtain ⟨cur, pend, rows⟩ : StreamRestored t.desc (markedTree t.desc (codedBlock t.desc.toDescIn p blk))
      (comps t.desc.toDescIn p) (0 + bits.length) ⟨⟨0, false⟩, t.codec, []⟩ (streamOf t p false) :=
    foldl_decodeComponent_restores (comps_nodup _ _) f.compbits_le
      (fun c hc => markedTree_coded (codedBlock_below f hb hc)) hbits rfl (by omega) hs
  rw [Nat.zero_add] at cur
  exact ⟨cur, pend, fun c hc => row_eq_of_toNat fun i =>
    (rows c hc i).trans (leafSum_markedTree (codedBlock_below f hb hc) i)⟩

theorem decodes_compressed {bits : List Bool} {n : Nat} (hbits : CompressedBits t.desc p blk bits)
    (hs : Carries (fbSource t.fb t.port.arg0) 0 bits) (hn : bits.length ≤ 8 * n) (hw : 8 * n ≤ windowBits t t.port.arg0) :
    ∃ u, exec (.decodeBlock p false) t = .next u ∧ Restores t p blk n u := by
  obtain ⟨cur, pend, rows⟩ := streamOf_restores f hb hbits hs (hn.trans hw)
  cases ht : ctApplies t.desc.toDescIn p
  · rw [codedBlock_plain ht] at rows
    refine ⟨_, exec_decodeBlock_completes hr hp (by simpa using ht) cur, ⟨_, elementDone_doneWith _ _, by omega⟩,
      elementDone_chk pend, ?_⟩
    rw [elementDone_codec]
    exact rows
  · rw [codedBlock_transformed ht] at rows
    obtain ⟨b, hinv, restored⟩ := ctInverseBlock_coded f ht hb rows
    refine ⟨_, exec_decodeBlock_inRange hr hp ht cur hinv, ⟨_, (transformedDone_only t p b _).1, by omega⟩, ?_,
      restored⟩
    show (streamDone t p).chk = t.chk
    rw [streamDone, pend, flagAll_nil]

/-- Whichever form was chosen, it is the one that is decoded. -/
theorem Encodes.decodes (h : Encodes t.desc p blk e) {m : Mem 8} (hfb : t.fb = memSetBytes m t.port.arg0 e.bytes)
    (hw : 8 * e.bytes.length ≤ windowBits t t.port.arg0) :
    ∃ u, exec (.decodeBlock p e.unc) t = .next u ∧ Restores t p blk e.bytes.length u := by
  cases hu : e.unc
  · obtain ⟨bits, hbits, -, hbytes⟩ := h.compressed hu
    have hn := bits_le_compressedSize t.desc p bits (f.multiplier p (f.plane hp)).1
    rw [hbytes] at hfb hw ⊢
    rw [length_bitsToBytes] at hw ⊢
    exact decodes_compressed f hr hp hb hbits (hfb ▸ carries_memSetBytes m _ hn) hn hw
  · have hbytes := h.uncompressed hu
    rw [hbytes] at hfb hw ⊢
    rw [length_bitsToBytes] at hw ⊢
    refine decodes_uncompressed f hr hp hb (hfb ▸ carries_memSetBytes m _ ?_) hw
    rw [length_uncompressedBits, f.uncomp_eq]
    omega

end RoundTrip

/-- Settles O44: the bytes that were written carry the stream of the form that was chosen, and it decodes to the block. -/
theorem encodeDecodeRoundTrip : Obligations.EncodeDecodeRoundTrip := by
  intro p s t n single unc hi hr hp hrows hroom hexec hres
  have f := hi.facts hr
  have hb : BlockBelow s.desc.toDescIn p s.codec.blk := fun c hc => (hrows c hc).2
  obtain ⟨e, he, enc⟩ := encodeRun_encodes f hb
  have fits := (Nat.add_le_add_left (enc.length_le f hp) s.port.arg0).trans hroom
  rw [exec_encodeBlock_fits hr hp (fun c hc => (hrows c hc).1) hb he fits] at hexec
  obtain rfl : encodeDone s e = t := Host.Outcome.next.inj hexec
  have hn : (e.bytes.length : Int) = n := Option.some.inj (congrArg Results.res0 hres)
  have hunc : e.unc = unc := flagResult_inj _ _ (congrArg Results.res2 hres)
  have window : 8 * e.bytes.length ≤ windowBits (encodeDone s e) s.port.arg0 :=
    Nat.mul_le_mul_left 8 (Nat.le_sub_of_add_le' fits)
  obtain ⟨u, hu, ⟨m, hdone, hm⟩, hchk, rows⟩ := Encodes.decodes (t := encodeDone s e) f hr hp hb enc rfl window
  subst hunc hn
  exact ⟨u, m, hu, hdone, Int.ofNat_le.mpr hm, hchk, rows⟩

end Sys2Proof.Machine

namespace Sys2Proof.Machine

/-! ### The components and the regions of a superblock (10_state R25; 20_memory R63; 46_descriptor R291) -/

section Regions

variable {d : Desc} {p q : Fin 2} {c : Fin 4}

theorem mem_planeComps : (p, c) ∈ planeComps d ↔ p ∈ planes d ∧ c ∈ comps d.toDescIn p := by
  simp [planeComps]

theorem mem_comps_iff {i : DescIn} : c ∈ comps i p ↔
    (i.firstComp[p]).toNat ≤ c.val ∧ c.val < (i.firstComp[p]).toNat + (i.ncomp[p]).toNat := by
  simp [comps, mem_allComps]

/-- The planes of a frame share no component. -/
theorem DescFacts.plane_unique (f : DescFacts d) (hp : (p, c) ∈ planeComps d) (hq : (q, c) ∈ planeComps d) : p = q := by
  obtain ⟨pp, cp⟩ := mem_planeComps.mp hp
  obtain ⟨pq, cq⟩ := mem_planeComps.mp hq
  by_cases h2 : d.nplanes = 2
  · have apart := f.disjoint h2
    rw [mem_comps_iff] at cp cq
    obtain rfl | rfl : p = 0 ∨ p = 1 := by omega
    all_goals obtain rfl | rfl : q = 0 ∨ q = 1 := by omega
    · rfl
    · exact absurd (cp.2.trans_le (apart.trans cq.1)) (lt_irrefl _)
    · exact absurd (cq.2.trans_le (apart.trans cp.1)) (lt_irrefl _)
    · rfl
  · rw [planes, if_neg h2, List.mem_singleton] at pp pq
    rw [pp, pq]

theorem DescFacts.planeOfComp_eq (f : DescFacts d) (h : (p, c) ∈ planeComps d) : planeOfComp d c = some p := by
  obtain ⟨⟨q, e⟩, hfind⟩ : ∃ pc, (planeComps d).find? (fun pc => pc.2 == c) = some pc :=
    Option.isSome_iff_exists.mp (List.find?_isSome.mpr ⟨(p, c), h, by simp⟩)
  obtain rfl : e = c := by simpa using List.find?_some hfind
  rw [planeOfComp, hfind, f.plane_unique h (List.mem_of_find?_eq_some hfind)]
  rfl

/-- A plane's region is a grid of 4 by 4 cells, with at most 256 samples. -/
theorem DescFacts.region_facts (f : DescFacts d) (p : Fin 2) : 0 < pw d p ∧ 0 < ph d p ∧ pw d p * ph d p ≤ 256 ∧
    pw d p % 4 = 0 ∧ ph d p % 4 = 0 := by
  have hx : ssx d.subsampling p = 1 ∨ ssx d.subsampling p = 2 := by
    unfold ssx
    split <;> simp
  have hy : ssy d.subsampling p = 1 ∨ ssy d.subsampling p = 2 := by
    unfold ssy
    split <;> simp
  unfold pw ph
  obtain ⟨hw, hh⟩ | ⟨hw, hh⟩ := f.region
  all_goals
    rw [hw, hh]
    obtain hx | hx := hx
    all_goals obtain hy | hy := hy
    all_goals
      rw [hx, hy]
      decide

theorem DescFacts.cell_lt_256 (f : DescFacts d) {x y : Nat} (hx : x < pw d p) (hy : y < ph d p) : y * pw d p + x < 256 :=
  (cell_lt hx hy).trans_le (f.region_facts p).2.2.1

/-- A cell number says its column and its row. -/
theorem cell_inj {w a b a' b' : Nat} (ha : a < w) (ha' : a' < w) (h : b * w + a = b' * w + a') : a = a' ∧ b = b' := by
  have hw : 0 < w := by omega
  have col := congrArg (· % w) h
  have row := congrArg (· / w) h
  simp only [Nat.mul_add_mod', Nat.mod_eq_of_lt ha, Nat.mod_eq_of_lt ha'] at col
  simp only [Nat.mul_comm _ w, Nat.mul_add_div hw, Nat.div_eq_of_lt ha, Nat.div_eq_of_lt ha', Nat.add_zero] at row
  exact ⟨col, row⟩

/-- A sample lies at one place of a superblock only. -/
theorem SampleOf.unique (f : DescFacts d) {mbx mby i x y x' y' : Nat} (h : SampleOf d mbx mby p c i x y)
    (h' : SampleOf d mbx mby q c i x' y') : p = q ∧ x = x' ∧ y = y' := by
  obtain ⟨hpc, -, -, hx, -, hi⟩ := h
  obtain ⟨hqc, -, -, hx', -, hi'⟩ := h'
  obtain rfl := f.plane_unique hpc hqc
  obtain ⟨ex, ey⟩ := cell_inj hx hx' (hi.symm.trans hi')
  exact ⟨rfl, by omega, by omega⟩

end Regions

/-! ### What the writeback leaves in `OUT` (43_superblock R220) -/

section Writeback

variable {s : State} {p : Fin 2} {c : Fin 4} {i x y : Nat}

/-- The writeback of a component puts the sample of each place inside the frame. -/
theorem writeComp_inside (f : DescFacts s.desc) (h : SampleOf s.desc s.sb.mbx s.sb.mby p c i x y)
    (out : Vector (Mem 32) 4) :
    memGet (writeComp s out (p, c))[c] i = (s.sb.sblk[c]).getD (y * pw s.desc p + x) 0 := by
  obtain ⟨hpc, hx, hy, hgx, hgy, hi⟩ := h
  have row : ∀ (l : List (Nat × Nat)) (m : Mem 32), (∀ xy ∈ l, xy ∈ regionCells s.desc p) →
      memGet m i = (s.sb.sblk[c]).getD (y * pw s.desc p + x) 0 ∨ (x, y) ∈ l →
      memGet (l.foldl (writeSample s p s.sb.sblk[c]) m) i = (s.sb.sblk[c]).getD (y * pw s.desc p + x) 0 := by
    intro l
    induction l with
    | nil => exact fun m _ hm => hm.resolve_right (by simp)
    | cons xy l ih =>
      intro m hl hm
      obtain ⟨hxy, hl⟩ := List.forall_mem_cons.mp hl
      refine ih _ hl ?_
      by_cases here : xy = (x, y)
      · subst here
        left
        rw [writeSample, if_pos ⟨hgx, hgy⟩, ← hi, memGet_memSet_self]
      · refine hm.imp (fun hm => ?_) fun hm => (List.mem_cons.mp hm).resolve_left (Ne.symm here)
        rw [writeSample]
        split
        · next hf =>
          rw [memGet_memSet_ne, hm]
          obtain ⟨hx', hy'⟩ := mem_regionCells.mp hxy
          intro e
          obtain ⟨-, ex, ey⟩ := SampleOf.unique f ⟨hpc, hx, hy, hgx, hgy, hi⟩ ⟨hpc, hx', hy', hf.1, hf.2, e⟩
          exact here (Prod.ext ex.symm ey.symm)
        · exact hm
  rw [writeComp, row_set_self]
  exact row _ _ (fun _ h => h) (.inr (mem_regionCells.mpr ⟨hx, hy⟩))

/-- Every sample of the superblock inside the frame is the one that stands at its place in `SBLK`. -/
theorem writeback_inside (f : DescFacts s.desc) (h : SampleOf s.desc s.sb.mbx s.sb.mby p c i x y) :
    memGet (writeback s).out[c] i = (s.sb.sblk[c]).getD (y * pw s.desc p + x) 0 := by
  have fold : ∀ (l : List (Fin 2 × Fin 4)) (out : Vector (Mem 32) 4), (∀ pc ∈ l, pc ∈ planeComps s.desc) →
      memGet out[c] i = (s.sb.sblk[c]).getD (y * pw s.desc p + x) 0 ∨ (p, c) ∈ l →
      memGet (l.foldl (writeComp s) out)[c] i = (s.sb.sblk[c]).getD (y * pw s.desc p + x) 0 := by
    intro l
    induction l with
    | nil => exact fun out _ hm => hm.resolve_right (by simp)
    | cons pc l ih =>
      intro out hl hm
      obtain ⟨hpc, hl⟩ := List.forall_mem_cons.mp hl
      refine ih _ hl ?_
      by_cases here : pc.2 = c
      · left
        obtain ⟨q, e⟩ := pc
        obtain rfl : e = c := here
        obtain rfl := f.plane_unique h.1 hpc
        exact writeComp_inside f h out
      · refine hm.imp (fun hm => ?_) fun hm => (List.mem_cons.mp hm).resolve_left fun e => here (congrArg Prod.snd e).symm
        rw [writeComp, row_set_ne _ _ (Ne.symm here), hm]
  rw [writeback_out]
  exact fold _ _ (fun _ h => h) (.inr h.1)

end Writeback

end Sys2Proof.Machine

namespace Sys2Proof.Machine

/-! ### Bits of `VIOL_MASK` that a check leaves alone (60_exceptions R317) -/

section Bits

variable {B : Nat → Prop} {s t u : State}

/-- The bits of `VIOL_MASK` that `B` names are the same in both states. -/
def SameBits (B : Nat → Prop) (s t : State) : Prop := ∀ n, B n → t.chk.violMask.getLsbD n = s.chk.violMask.getLsbD n

theorem SameBits.of_chk (h : t.chk.violMask = s.chk.violMask) : SameBits B s t := fun _ _ => by rw [h]

theorem SameBits.trans (h : SameBits B s t) (g : SameBits B t u) : SameBits B s u := fun n hn => (g n hn).trans (h n hn)

theorem SameBits.ite {p : Prop} [Decidable p] (h : SameBits B s t) (g : SameBits B s u) : SameBits B s (if p then t else u) := by
  split
  · exact h
  · exact g

theorem flagV_sameBits (s : State) {x : Viol} (c : Nat) (hx : ¬ B x.bit) : SameBits B s (flagV s x c) := by
  intro n hn
  obtain ⟨-, -, bits⟩ := flagV_flags s x c
  rw [Bool.eq_iff_iff, bits n]
  exact or_iff_left fun ⟨_, y, hy, hbit⟩ => hx (hy ▸ hbit ▸ hn)

/-- Counting a superblock in its stripe flags the two stripe violations and no other (44_header_address R267, R268). -/
theorem stripeCount_sameBits (s : State) (ptr : Option Nat) (h8 : ¬ B 8) (h9 : ¬ B 9) : SameBits B s (stripeCount s ptr) := by
  have close (s : State) (b : StripeBin) : SameBits B s (stripeClose s b) := by
    have span : SameBits B s (if stripeRows s.desc * s.desc.mbw * s.desc.maxpay < b.hi - b.lo then flagV s .stripeSpan 0 else s) :=
      .ite (flagV_sameBits s 0 h8) (.of_chk rfl)
    exact .ite (span.trans (flagV_sameBits _ 0 h9)) span
  have step (t : Nat) (b : StripeBin) : SameBits B s (stripeBinStep s t b ptr) := by
    have bins (b' : StripeBin) : SameBits B s { s with chk := { s.chk with stripeBins := s.chk.stripeBins.set t b' } } :=
      .of_chk rfl
    exact .ite (.of_chk rfl) (.ite ((bins _).trans (close _ _)) (bins _))
  unfold stripeCount
  split
  · dsimp only
    split
    · exact .of_chk rfl
    · exact step _ _
  · exact .of_chk rfl

end Bits

/-! ### DECODE_SUPERBLOCK reads its header (43_superblock R210) -/

section Header

variable {s : State}

/-- The state behind the header of superblock `(ARG0, ARG1)`. -/
def superblockParsed (s : State) : State :=
  parseWord (startCursor (atSuperblock s s.port.arg0 s.port.arg1))
    (headerWord s.fb (mbnumOf s.desc s.port.arg0 s.port.arg1))

theorem DescFacts.headerFits (f : DescFacts s.desc) (hr : Ready s) {mbx mby : Nat} (hx : mbx < s.desc.mbw)
    (hy : mby < s.desc.mbh) : headerFits s (mbnumOf s.desc mbx mby) = true := by
  obtain ⟨-, -, -, -, -, area⟩ := f.sizes
  have header := f.header_in_area hx hy
  rw [Machine.headerFits, bufSize, if_pos hr.2]
  exact decide_eq_true (header.trans area)

theorem exec_decodeSuperblock (f : DescFacts s.desc) (hr : Ready s) (hx : s.port.arg0 < s.desc.mbw)
    (hy : s.port.arg1 < s.desc.mbh) : exec .decodeSuperblock s =
      settle ((decodeBody (superblockParsed s)).onFatal fun t => loseAll (loseOut t)) fun _ => Results.none := by
  have fits : Machine.headerFits (atSuperblock s s.port.arg0 s.port.arg1) (mbnumOf s.desc s.port.arg0 s.port.arg1) = true :=
    f.headerFits hr hx hy
  have parsed : parseHeaderRun (atSuperblock s s.port.arg0 s.port.arg1) (mbnumOf s.desc s.port.arg0 s.port.arg1) =
      .ok () (superblockParsed s) := by
    rw [parseHeaderRun, parseWordRun, if_pos fits]
    rfl
  have run : decodeSuperblockRun s s.port.arg0 s.port.arg1 =
      ((parseHeaderRun (atSuperblock s s.port.arg0 s.port.arg1) (mbnumOf s.desc s.port.arg0 s.port.arg1)).bind
        fun _ t => decodeBody t).onFatal fun t => loseAll (loseOut t) := rfl
  change execDecodeSuperblock s = _
  rw [execDecodeSuperblock, ifReady_ready hr.1 hr.2, inGrid, decide_eq_true ⟨hx, hy⟩, ifInput_true, run, parsed, bind_ok]

/-- The first size field of the header is `HDR_CODE[0]` after its fields were taken. -/
theorem DescFacts.isField_firstCode (f : DescFacts s.desc) (h : Hdr) (n v : Nat) :
    IsField s (headerAddr n) s.desc.ptrBits s.desc.sizeBits v ↔ (h.setFields s.desc (headerWord s.fb n)).codeAt 0 = v := by
  obtain ⟨-, h6, h16, h24, h64⟩ := f.narrow
  rw [isField_iff, setFields_codeAt h6 (by omega) h24, Nat.mul_zero, Nat.add_zero,
    bitField_headerWord _ _ _ _ (by omega), eq_comm]

end Header

/-! ### A superblock of one colour (43_superblock R213; 30_encoding R98) -/

section Solid

variable {s : State}

/-- The state behind a header in solid-colour form. -/
def solidParsed (s : State) : State :=
  let w := headerWord s.fb (mbnumOf s.desc s.port.arg0 s.port.arg1)
  { startCursor (atSuperblock s s.port.arg0 s.port.arg1) with
    hdr := { s.hdr.setFields s.desc w with solid := true, solidVal := solidColours s.desc.toDescIn w } }

/-- `s` after DECODE_SUPERBLOCK of a header in solid-colour form. -/
def solidDecoded (s : State) : State :=
  completeOp (writeback (stripeCount (fillSolid (solidParsed s)) none)) Results.none

theorem exec_decodeSuperblock_solid (f : DescFacts s.desc) (hr : Ready s) (hx : s.port.arg0 < s.desc.mbw)
    (hy : s.port.arg1 < s.desc.mbh) (ha : s.desc.allowSolid = true)
    (h0 : IsField s (headerAddr (mbnumOf s.desc s.port.arg0 s.port.arg1)) s.desc.ptrBits s.desc.sizeBits 0) :
    exec .decodeSuperblock s = .next (solidDecoded s) := by
  have parsed : superblockParsed s = solidParsed s :=
    parseWord_solid (s := startCursor (atSuperblock s s.port.arg0 s.port.arg1)) ha ((f.isField_firstCode _ _ _).mp h0)
  rw [exec_decodeSuperblock f hr hx hy, parsed]
  rfl

/-- The bits of the colours before a component and its own lie in the header's upper half. -/
theorem DescFacts.solidBefore_le {d : Desc} (f : DescFacts d) (c : Fin 4) :
    64 + solidBefore d.toDescIn c + inBits d.toDescIn c ≤ 128 := by
  have before : solidBefore d.toDescIn c ≤ c.val * 15 := by
    have each : ∀ v ∈ (List.range c.val).map fun e => inBits d.toDescIn (Fin.ofNat 4 e), v ≤ 15 := by
      intro v hv
      obtain ⟨e, -, rfl⟩ := List.mem_map.mp hv
      exact f.inBits_le_15 _
    simpa [solidBefore] using List.sum_le_card_nsmul _ _ each
  have own := f.inBits_le_15 c
  omega

/-- Every sample inside the frame is the colour field of its component. -/
theorem solidDecoded_inside (f : DescFacts s.desc) {p : Fin 2} {c : Fin 4} {i x y : Nat}
    (h : SampleOf s.desc s.port.arg0 s.port.arg1 p c i x y) : (memGet (solidDecoded s).out[c] i).toNat =
      bitField (headerWord s.fb (mbnumOf s.desc s.port.arg0 s.port.arg1)) (64 + solidBefore s.desc.toDescIn c)
        (inBits s.desc.toDescIn c) := by
  have h0 := h
  obtain ⟨hpc, hx, hy, -⟩ := h0
  have cell := f.cell_lt_256 hx hy
  have region := cell_lt hx hy
  have place : (solidRows (solidParsed s))[c].getD (y * pw s.desc p + x) 0 =
      BitVec.ofNat 32 ((solidParsed s).hdr.solidVal[c]).toNat := by
    have plane : planeOfComp (solidParsed s).desc c = some p := f.planeOfComp_eq hpc
    rw [vector_getD _ cell]
    simp only [solidRows, Fin.getElem_fin, Vector.getElem_ofFn, Fin.eta, plane]
    exact if_pos region
  have inside : memGet (writeback (stripeCount (fillSolid (solidParsed s)) none)).out[c] i =
      (solidRows (solidParsed s))[c].getD (y * pw s.desc p + x) 0 := by
    have h' : SampleOf (stripeCount (fillSolid (solidParsed s)) none).desc (stripeCount (fillSolid (solidParsed s)) none).sb.mbx
        (stripeCount (fillSolid (solidParsed s)) none).sb.mby p c i x y := by
      rw [stripeCount_desc, stripeCount_sb]
      exact h
    have f' : DescFacts (stripeCount (fillSolid (solidParsed s)) none).desc := by
      rw [stripeCount_desc]
      exact f
    rw [writeback_inside f' h', stripeCount_desc, stripeCount_sb]
    rfl
  rw [solidDecoded, completeOp_out, inside]
  refine (congrArg BitVec.toNat place).trans ?_
  rw [BitVec.toNat_ofNat, Nat.mod_eq_of_lt (((solidParsed s).hdr.solidVal[c]).isLt.trans (by decide))]
  refine (solidColours_toNat _ (f.inBits_le_15 c)).trans ?_
  rw [bitField, Nat.shiftRight_eq_div_pow]

theorem solidDecoded_outside (s : State) : OutOutside s (solidDecoded s) s.port.arg0 s.port.arg1 := by
  have h := writeback_outside (stripeCount (fillSolid (solidParsed s)) none)
  simpa [OutOutside, solidDecoded, solidParsed, atSuperblock, setCoords] using h

end Solid

/-- Settles O45: the colours are written back as they stand in the header, and only the stripe is counted. -/
theorem decodeSuperblockSolid : Obligations.DecodeSuperblockSolid := by
  intro s hi hr hx hy ha n h0
  have f := hi.facts hr
  refine ⟨_, exec_decodeSuperblock_solid f hr hx hy ha h0, ?_, ?_, ?_, ?_, ?_, ?_, ?_, fun p c i x y h => ?_,
    solidDecoded_outside s, ?_, ?_, fun k h8 h9 => ?_⟩
  case _ : IsField s _ _ _ _ =>
    rw [solidDecoded_inside f h]
    exact isField_headerWord s n _ _ (f.solidBefore_le c)
  case _ : (solidDecoded s).chk.violMask.getLsbD k = _ =>
    exact stripeCount_sameBits (B := fun k => k ≠ 8 ∧ k ≠ 9) (fillSolid (solidParsed s)) none (by simp) (by simp) k ⟨h8, h9⟩
  all_goals simp [DoneWith, SameFb, solidDecoded, solidParsed, atSuperblock, setCoords, n]

end Sys2Proof.Machine

namespace Sys2Proof.Machine

/-! ### The slots of a plane tile its region (46_descriptor R293) -/

section Tiling

variable {d : Desc} {p : Fin 2} {x y j k : Nat}

/-- The sample at `(x, y)` of a plane's region belongs to the slot. -/
def InSlot (sl : Slot) (x y : Nat) : Prop := sl.x ≤ x ∧ x < sl.x + 4 ∧ sl.y ≤ y ∧ y < sl.y + 4

/-- At every cell of a plane's region there is exactly one slot. -/
def Tiled (d : Desc) : Prop := ∀ p ∈ planes d, tiles d.table p = true

theorem Inv.tiled {s : State} (hi : Inv s) (hr : Ready s) : Tiled s.desc := by
  have valid := hi.desc.valid hr.2
  have derived := hi.desc.derived hr.2
  simp only [validDesc, layoutOk, Bool.and_eq_true, List.all_eq_true] at valid
  obtain ⟨⟨⟨⟨⟨⟨⟨⟨-, ⟨⟨⟨-, tiled⟩, -⟩, -⟩⟩, -⟩, -⟩, -⟩, -⟩, -⟩, -⟩, -⟩ := valid
  intro p hp
  refine tiled p ?_
  rw [planes, derived] at hp
  exact hp

/-- Where a list holds one element that passes a test, it stands at one place. -/
theorem index_unique {α : Type} {P : α → Bool} {l : List α} (h : (l.filter P).length = 1) (hj : j < l.length)
    (hk : k < l.length) (pj : P l[j] = true) (pk : P l[k] = true) : j = k := by
  have before {j k : Nat} (hj : j < l.length) (hk : k < l.length) (pj : P l[j] = true) (pk : P l[k] = true) : ¬ j < k := by
    intro lt
    have left : l[j] ∈ (l.take k).filter P := List.mem_filter.mpr ⟨List.mem_take_iff_getElem.mpr ⟨j, by omega, rfl⟩, pj⟩
    have right : l[k] ∈ (l.drop k).filter P := List.mem_filter.mpr
      ⟨List.mem_drop_iff_getElem.mpr ⟨0, by omega, by simp⟩, pk⟩
    have parts := congrArg (fun m => (m.filter P).length) (List.take_append_drop k l)
    simp only [List.filter_append, List.length_append, h] at parts
    have := List.length_pos_of_mem left
    have := List.length_pos_of_mem right
    omega
  have := before hj hk pj pk
  have := before hk hj pk pj
  omega

/-- A slot is an entry of the layout table, at multiples of 4 (46_descriptor R293). -/
theorem slot_at_cell (f : DescFacts d) (hk : k < d.nsubblocks) : ∃ h : k < d.table.slots.length,
    slotAt d k = d.table.slots[k] ∧ (slotAt d k).x % 4 = 0 ∧ (slotAt d k).y % 4 = 0 := by
  have hl : k < d.table.slots.length := f.slots ▸ hk
  have e : slotAt d k = d.table.slots[k] := List.getD_eq_getElem _ _ hl
  obtain ⟨-, hx, hy, -⟩ := of_decide_eq_true (f.slotOk _ (List.getElem_mem hl))
  exact ⟨hl, e, e ▸ hx, e ▸ hy⟩

theorem Tiled.one_slot (g : Tiled d) (f : DescFacts d) (hp : p ∈ planes d) (hx : x < pw d p) (hy : y < ph d p) :
    (d.table.slots.filter fun sl => sl.plane == p && sl.x == 4 * (x / 4) && sl.y == 4 * (y / 4)).length = 1 := by
  obtain ⟨-, -, -, hw4, hh4⟩ := f.region_facts p
  have hw : layoutPw d.table p = pw d p := by
    rw [f.derived]
    rfl
  have hh : layoutPh d.table p = ph d p := by
    rw [f.derived]
    rfl
  have cell := g p hp
  simp only [tiles, List.all_eq_true, List.mem_range, beq_iff_eq, hw, hh] at cell
  exact cell (y / 4) (by omega) (x / 4) (by omega)

/-- Every sample of a region belongs to a slot of its plane. -/
theorem Tiled.covers (g : Tiled d) (f : DescFacts d) (hp : p ∈ planes d) (hx : x < pw d p) (hy : y < ph d p) :
    ∃ k < d.nsubblocks, (slotAt d k).plane = p ∧ InSlot (slotAt d k) x y := by
  obtain ⟨sl, hsl⟩ := List.exists_mem_of_length_pos (by rw [g.one_slot f hp hx hy]; exact Nat.one_pos)
  obtain ⟨hm, test⟩ := List.mem_filter.mp hsl
  obtain ⟨k, hk, rfl⟩ := List.getElem_of_mem hm
  simp only [Bool.and_eq_true, beq_iff_eq] at test
  obtain ⟨⟨plane, cx⟩, cy⟩ := test
  refine ⟨k, f.slots ▸ hk, ?_⟩
  rw [slotAt, List.getD_eq_getElem _ _ hk, InSlot, cx, cy]
  exact ⟨plane, by omega, by omega, by omega, by omega⟩

/-- Two slots of a plane that share a sample are one. -/
theorem Tiled.apart (g : Tiled d) (f : DescFacts d) (hj : j < d.nsubblocks) (hk : k < d.nsubblocks)
    (plane : slotPlane d j = slotPlane d k) (ij : InSlot (slotAt d j) x y) (ik : InSlot (slotAt d k) x y) : j = k := by
  obtain ⟨hp, hw, hh⟩ := f.slot_in_region hk
  obtain ⟨lj, ej, jx, jy⟩ := slot_at_cell f hj
  obtain ⟨lk, ek, kx, ky⟩ := slot_at_cell f hk
  obtain ⟨j1, j2, j3, j4⟩ := ij
  obtain ⟨k1, k2, k3, k4⟩ := ik
  have one := g.one_slot f hp (x := x) (y := y) (by omega) (by omega)
  refine index_unique one lj lk ?_ ?_
  · rw [← ej]
    simp only [Bool.and_eq_true, beq_iff_eq]
    exact ⟨⟨plane, by omega⟩, by omega⟩
  · rw [← ek]
    simp only [Bool.and_eq_true, beq_iff_eq]
    exact ⟨⟨trivial, by omega⟩, by omega⟩

end Tiling

/-! ### Placing a subblock in the superblock (43_superblock R219) -/

section Placement

variable {w dx dy x y : Nat} {sl : Slot} {row : Vector Sample 16} {v : Vector Sample 256}

theorem getD_setIfInBounds_ne {α : Type} {n j k : Nat} (v : Vector α n) (a z : α) (h : k ≠ j) :
    (v.setIfInBounds j a).getD k z = v.getD k z := by
  simp [Vector.getD, Ne.symm h]

theorem mem_cells {c : Nat × Nat} : c ∈ cells ↔ c.1 < 4 ∧ c.2 < 4 := by
  obtain ⟨dx, dy⟩ := c
  simp [cells, and_comm]

/-- The place of a sample holds the sample, once it was written. -/
theorem placeRow_inside (hw : sl.x + 4 ≤ w) (hdx : dx < 4) (hdy : dy < 4) (h : (sl.y + dy) * w + (sl.x + dx) < 256) :
    (placeRow w sl row v).getD ((sl.y + dy) * w + (sl.x + dx)) 0 = row.getD (4 * dy + dx) 0 := by
  have fold : ∀ (l : List (Nat × Nat)) (a : Vector Sample 256), (∀ c ∈ l, c ∈ cells) →
      a.getD ((sl.y + dy) * w + (sl.x + dx)) 0 = row.getD (4 * dy + dx) 0 ∨ (dx, dy) ∈ l →
      (l.foldl (fun a c => a.setIfInBounds ((sl.y + c.2) * w + (sl.x + c.1)) (row.getD (4 * c.2 + c.1) 0)) a).getD
        ((sl.y + dy) * w + (sl.x + dx)) 0 = row.getD (4 * dy + dx) 0 := by
    intro l
    induction l with
    | nil => exact fun a _ ha => ha.resolve_right (by simp)
    | cons c l ih =>
      intro a hl ha
      obtain ⟨hc, hl⟩ := List.forall_mem_cons.mp hl
      obtain ⟨cx, cy⟩ := mem_cells.mp hc
      refine ih _ hl ?_
      by_cases here : c = (dx, dy)
      · subst here
        left
        rw [getD_setIfInBounds _ _ _ h, if_pos rfl]
      · refine ha.imp (fun ha => ?_) fun hm => (List.mem_cons.mp hm).resolve_left (Ne.symm here)
        have ne : (sl.y + c.2) * w + (sl.x + c.1) ≠ (sl.y + dy) * w + (sl.x + dx) := fun e => by
          obtain ⟨ex, ey⟩ := cell_inj (by omega) (by omega) e
          exact here (Prod.ext (by omega) (by omega))
        rw [getD_setIfInBounds_ne _ _ _ (Ne.symm ne), ha]
  exact fold _ _ (fun _ h => h) (.inr (mem_cells.mpr ⟨hdx, hdy⟩))

/-- Other places keep what they held. -/
theorem placeRow_outside (hw : sl.x + 4 ≤ w) (hx : x < w) (out : ¬ InSlot sl x y) :
    (placeRow w sl row v).getD (y * w + x) 0 = v.getD (y * w + x) 0 := by
  have fold : ∀ (l : List (Nat × Nat)) (a : Vector Sample 256), (∀ c ∈ l, c ∈ cells) →
      (l.foldl (fun a c => a.setIfInBounds ((sl.y + c.2) * w + (sl.x + c.1)) (row.getD (4 * c.2 + c.1) 0)) a).getD
        (y * w + x) 0 = a.getD (y * w + x) 0 := by
    intro l
    induction l with
    | nil => exact fun a _ => rfl
    | cons c l ih =>
      intro a hl
      obtain ⟨hc, hl⟩ := List.forall_mem_cons.mp hl
      obtain ⟨cx, cy⟩ := mem_cells.mp hc
      have ne : (sl.y + c.2) * w + (sl.x + c.1) ≠ y * w + x := fun e => by
        obtain ⟨ex, ey⟩ := cell_inj (by omega) hx e
        exact out ⟨by omega, by omega, by omega, by omega⟩
      rw [List.foldl_cons, ih _ hl, getD_setIfInBounds_ne _ _ _ (Ne.symm ne)]
  exact fold _ _ fun _ h => h

variable {s : State} {c : Fin 4}

theorem place_row (h : c ∈ comps s.desc.toDescIn sl.plane) :
    (place s sl).sb.sblk[c] = placeRow (pw s.desc sl.plane) sl s.codec.blk[c] s.sb.sblk[c] := by
  simp [place, placed, h]

theorem place_row_other (h : c ∉ comps s.desc.toDescIn sl.plane) : (place s sl).sb.sblk[c] = s.sb.sblk[c] := by
  simp [place, placed, h]

end Placement

end Sys2Proof.Machine

namespace Sys2Proof.Machine

/-! ### A subblock decodes to the same whatever the registers held (41_subblock_decode R150) -/

section Fresh

variable {d : Desc} {src : Nat → Bool} {lim : Nat} {c : Fin 4} {st st' : DecState}

/-- The two decoders stand at the same place of the stream, with the same violations pending. -/
structure SameStream (st st' : DecState) : Prop where
  cur : st'.cur = st.cur
  pend : st'.pend = st.pend

/-- Their counts of component `c` are the same up to the `m`-th. -/
structure SameCounts (c : Fin 4) (m : Nat) (st st' : DecState) : Prop extends SameStream st st' where
  counts : ∀ k : Fin 5, k.val ≤ m → (st'.codec.bctree[c])[k] = (st.codec.bctree[c])[k]

/-- Their trees of component `c` are the same. -/
structure SameTree (c : Fin 4) (st st' : DecState) : Prop extends SameCounts c 4 st st' where
  mintree : st'.codec.mintree[c] = st.codec.mintree[c]

/-- Their rows of the components `cs` are the same. -/
structure SameRows (cs : List (Fin 4)) (st st' : DecState) : Prop extends SameStream st st' where
  blk : ∀ c ∈ cs, st'.codec.blk[c] = st.codec.blk[c]

theorem readL3_same (h : SameStream st st') : SameCounts c 0 (readL3 d src lim c st) (readL3 d src lim c st') := by
  obtain ⟨cur, pend⟩ := h
  refine ⟨⟨by simp only [readL3, cur], by simp only [readL3, cur, pend]⟩, fun k hk => ?_⟩
  obtain rfl : k = 0 := Fin.ext (by simpa using hk)
  simp only [readL3, cur]
  exact (setRootCount_root _ _ _).trans (setRootCount_root _ _ _).symm

theorem readL4D_same {j : Fin 4} (h : SameCounts c j.val st st') :
    SameCounts c (j.val + 1) (readL4D d src lim c j st) (readL4D d src lim c j st') := by
  obtain ⟨⟨cur, pend⟩, counts⟩ := h
  have root : (st'.codec.bctree[c])[0] = (st.codec.bctree[c])[0] := counts 0 (Nat.zero_le _)
  refine ⟨⟨by simp only [readL4D, cur], by simp only [readL4D, cur, pend, root]⟩, fun k hk => ?_⟩
  simp only [readL4D, Codec.setCount, cur, root, row_set_self]
  by_cases e : k = j.succ
  · subst e
    simp
  · have ne : j.succ.val ≠ k.val := fun z => e (Fin.ext z.symm)
    have lower : k.val ≤ j.val := by
      rw [Fin.val_succ] at ne
      omega
    simpa only [Fin.getElem_fin, Vector.getElem_set_ne _ _ ne] using counts k lower

theorem readRoot_same (h : SameCounts c 4 st st') : SameTree c (readRoot d src lim c st) (readRoot d src lim c st') := by
  obtain ⟨⟨cur, pend⟩, counts⟩ := h
  refine ⟨⟨⟨by simp only [readRoot, cur], pend⟩, counts⟩, ?_⟩
  simp only [readRoot, Codec.setRoot, cur, row_set_self]

theorem readNode_same {k : Fin 5} (h : SameTree c st st') : SameTree c (readNode src lim c k st) (readNode src lim c k st') := by
  obtain ⟨⟨⟨cur, pend⟩, counts⟩, mintree⟩ := h
  have count : nodeCount st'.codec c k = nodeCount st.codec c k := congrArg Int.toNat (counts k (by omega))
  refine ⟨⟨⟨by simp only [readNode, count, cur], by simp only [readNode, count, cur, pend]⟩, counts⟩, ?_⟩
  simp only [readNode, Codec.setChildren, count, cur, mintree, row_set_self]

theorem readTree_same (h : SameCounts c 0 st st') : SameTree c (readTree d src lim c st) (readTree d src lim c st') := by
  have quads : SameCounts c 4 (([0, 1, 2, 3] : List (Fin 4)).foldl (fun a j => readL4D d src lim c j a) st)
      (([0, 1, 2, 3] : List (Fin 4)).foldl (fun a j => readL4D d src lim c j a) st') :=
    readL4D_same (j := 3) (readL4D_same (j := 2) (readL4D_same (j := 1) (readL4D_same (j := 0) h)))
  exact List.foldl_rel (r := SameTree c) (readRoot_same quads) fun _ _ _ _ h => readNode_same h

theorem writeLeaves_same (cur : st'.cur = st.cur) (pend : st'.pend = st.pend)
    (mintree : st'.codec.mintree[c] = st.codec.mintree[c]) : SameRows [c] (writeLeaves d c st) (writeLeaves d c st') := by
  refine ⟨⟨cur, pend⟩, fun e he => ?_⟩
  obtain rfl : e = c := by simpa using he
  simp only [writeLeaves, Codec.setLeaves, mintree, row_set_self]

theorem decodeComponent_same (h : SameStream st st') :
    SameRows [c] (decodeComponent d src lim st c) (decodeComponent d src lim st' c) := by
  have l3 := readL3_same (d := d) (src := src) (lim := lim) (c := c) h
  rw [decodeComponent_eq, decodeComponent_eq]
  generalize readL3 d src lim c st = a, readL3 d src lim c st' = a' at l3
  obtain ⟨⟨cur, pend⟩, counts⟩ := id l3
  have root : (a'.codec.bctree[c])[0] = (a.codec.bctree[c])[0] := counts 0 le_rfl
  unfold readRest
  rw [root]
  split
  · exact writeLeaves_same cur pend (by simp only [defaultRoot, Codec.setRoot, row_set_self])
  · split
    · exact writeLeaves_same (by simp only [readRoot, cur]) pend
        (by simp only [readRoot, Codec.setRoot, cur, row_set_self])
    · have tree := readTree_same (d := d) (src := src) (lim := lim) l3
      exact writeLeaves_same tree.cur tree.pend tree.mintree

/-- A component that is decoded has the same row after it; one that is not keeps the row it had. -/
theorem foldl_decodeComponent_same {cs done : List (Fin 4)} (h : SameRows done st st') :
    SameRows (done ++ cs) (cs.foldl (decodeComponent d src lim) st) (cs.foldl (decodeComponent d src lim) st') := by
  induction cs generalizing st st' done with
  | nil => rwa [List.append_nil]
  | cons c cs ih =>
    have head := decodeComponent_same (d := d) (src := src) (lim := lim) (c := c) h.toSameStream
    rw [List.append_cons]
    refine ih ⟨head.toSameStream, fun e he => ?_⟩
    by_cases hec : e = c
    · exact head.blk e (by simp [hec])
    · have earlier : e ∈ done := by simpa [hec] using he
      rw [(decodeComponent_keeps hec st).blk, (decodeComponent_keeps hec st').blk, h.blk e earlier]

/-! The uncompressed form: sample by sample. -/

/-- Their samples are the same where `D` says so. -/
structure SameSamples (D : Fin 4 → Fin 16 → Prop) (st st' : DecState) : Prop extends SameStream st st' where
  blk : ∀ c i, D c i → st'.codec.blk[c][i] = st.codec.blk[c][i]

theorem readSample_same {D : Fin 4 → Fin 16 → Prop} {i : Fin 16} (h : SameSamples D st st') :
    SameSamples (fun e j => D e j ∨ e = c ∧ j = i) (readSample d src lim i st c) (readSample d src lim i st' c) := by
  obtain ⟨⟨cur, pend⟩, blk⟩ := h
  have row (t : DecState) : (readSample d src lim i t c).codec.blk =
      t.codec.blk.set c ((t.codec.blk[c]).set i (BitVec.ofNat 32 (bsRead src lim (inBits d.toDescIn c) t.cur).1)) := rfl
  refine ⟨⟨by simp only [readSample, cur], pend⟩, fun e j hej => ?_⟩
  rw [row st, row st', cur]
  by_cases hec : e = c
  · subst hec
    rw [row_set_self, row_set_self]
    by_cases hji : j = i
    · subst hji
      simp
    · have ne : i.val ≠ j.val := fun z => hji (Fin.ext z.symm)
      simpa only [Fin.getElem_fin, Vector.getElem_set_ne _ _ ne] using blk e j (hej.resolve_right fun z => hji z.2)
  · rw [row_set_ne _ _ hec, row_set_ne _ _ hec]
    exact blk e j (hej.resolve_right fun z => hec z.1)

theorem foldl_readSample_same {D : Fin 4 → Fin 16 → Prop} {i : Fin 16} {cs : List (Fin 4)} (h : SameSamples D st st') :
    SameSamples (fun e j => D e j ∨ e ∈ cs ∧ j = i) (cs.foldl (readSample d src lim i) st)
      (cs.foldl (readSample d src lim i) st') := by
  induction cs generalizing st st' D with
  | nil => exact ⟨h.toSameStream, fun e j hej => h.blk e j (by simpa using hej)⟩
  | cons c cs ih =>
    have tail := ih (readSample_same (d := d) (src := src) (lim := lim) (c := c) (i := i) h)
    refine ⟨tail.toSameStream, fun e j hej => tail.blk e j ?_⟩
    rw [List.mem_cons] at hej
    tauto

theorem foldl_readPixel_same {D : Fin 4 → Fin 16 → Prop} {is : List (Fin 16)} {cs : List (Fin 4)} (h : SameSamples D st st') :
    SameSamples (fun e j => D e j ∨ e ∈ cs ∧ j ∈ is) (is.foldl (fun a i => cs.foldl (readSample d src lim i) a) st)
      (is.foldl (fun a i => cs.foldl (readSample d src lim i) a) st') := by
  induction is generalizing st st' D with
  | nil => exact ⟨h.toSameStream, fun e j hej => h.blk e j (by simpa using hej)⟩
  | cons i is ih =>
    have tail := ih (foldl_readSample_same (d := d) (src := src) (lim := lim) (i := i) (cs := cs) h)
    refine ⟨tail.toSameStream, fun e j hej => tail.blk e j ?_⟩
    rw [List.mem_cons] at hej
    tauto

/-- Cursor, violations and the plane's rows after a subblock depend on the stream only. -/
theorem decodeStream_same (d : Desc) (src : Nat → Bool) (lim : Nat) (p : Fin 2) (unc : Bool) (x y : Codec) :
    SameRows (comps d.toDescIn p) (decodeStream d src lim p unc x) (decodeStream d src lim p unc y) := by
  cases unc
  · exact foldl_decodeComponent_same (st := ⟨⟨0, false⟩, x, []⟩) (st' := ⟨⟨0, false⟩, y, []⟩) (done := [])
      ⟨⟨rfl, rfl⟩, fun c hc => by simp at hc⟩
  · have rows := foldl_readPixel_same (d := d) (src := src) (lim := lim) (D := fun _ _ => False) (is := allPixels)
      (cs := comps d.toDescIn p) (st := ⟨⟨0, false⟩, x, []⟩) (st' := ⟨⟨0, false⟩, y, []⟩)
      ⟨⟨rfl, rfl⟩, fun c i h => h.elim⟩
    exact ⟨rows.toSameStream, fun c hc => Vector.ext fun i hi =>
      rows.blk c ⟨i, hi⟩ (.inr ⟨hc, mem_allPixels _⟩)⟩

end Fresh

/-! ### How a subblock ends (41_subblock_decode R150, R160, R161) -/

section BlockEnd

variable {s : State} {p : Fin 2} {unc : Bool} {st st' : DecState} {b : Vector (Vector Sample 16) 4}

/-- The rows of `BLK` that a stream inside the buffer leaves, if the colour transform admits them. -/
def decodedRows (d : Desc) (p : Fin 2) (unc : Bool) (st : DecState) : Option (Vector (Vector Sample 16) 4) :=
  if !unc && ctApplies d.toDescIn p then ctInverseBlock (inBits d.toDescIn 0) st.codec.blk else some st.codec.blk

/-- The stream ended inside the buffer, and `b` are the rows it left. -/
def EndsWith (d : Desc) (p : Fin 2) (unc : Bool) (st : DecState) (b : Vector (Vector Sample 16) 4) : Prop :=
  st.cur.exh = false ∧ decodedRows d p unc st = some b

/-- The fatal error of a stream that did not end so. -/
def endCode (st : DecState) : FatalCode := if st.cur.exh then .bufOverflow else .ctRange

/-- `s` after a subblock that ended with the rows `b`. -/
def blockDone (s : State) (st : DecState) (b : Vector (Vector Sample 16) 4) : State :=
  { flagAll { s with cur := st.cur.reg, codec := st.codec } st.pend with codec := { st.codec with blk := b } }

theorem finishBlock_done (h : EndsWith s.desc p unc st b) :
    finishBlock s p unc st = .ok (ceilDiv st.cur.pos 8) (blockDone s st b) := by
  obtain ⟨he, hb⟩ := h
  simp only [finishBlock, he, Bool.false_eq_true, if_false]
  rw [decodedRows] at hb
  split at hb
  · next ht =>
    rw [if_pos ht, ctInverseRun_some _ _ (by rw [flagAll_desc, flagAll_codec]; exact hb), bind_ok, blockDone, flagAll_codec]
  · next ht =>
    obtain rfl := Option.some.inj hb
    rw [if_neg ht, blockDone]
    rw [(flagAll_only_chk _ _).same]

theorem finishBlock_fails (h : ∀ b, ¬ EndsWith s.desc p unc st b) : ∃ t, finishBlock s p unc st = .fatal (endCode st) t := by
  unfold finishBlock endCode
  by_cases he : st.cur.exh = true
  · exact ⟨_, by rw [if_pos he, if_pos he]⟩
  · have none : decodedRows s.desc p unc st = none :=
      Option.eq_none_iff_forall_ne_some.mpr fun b hb => h b ⟨Bool.eq_false_iff.mpr he, hb⟩
    rw [decodedRows] at none
    split at none
    · next ht =>
      dsimp only
      rw [if_neg he, if_pos ht, if_neg he, ctInverseRun_none _ _ (by rw [flagAll_desc, flagAll_codec]; exact none), bind_fatal]
      exact ⟨_, rfl⟩
    · cases none

theorem ends_or_not (d : Desc) (p : Fin 2) (unc : Bool) (st : DecState) :
    (∃ b, EndsWith d p unc st b) ∨ ∀ b, ¬ EndsWith d p unc st b := by
  rw [← not_exists]
  exact Classical.em _

/-- The inverse transform of the same rows 0 to 2 gives the same. -/
theorem ctInverseBlock_same {n : Nat} {x y : Vector (Vector Sample 16) 4} (h : ∀ c : Fin 4, c.val < 3 → y[c] = x[c])
    (hb : ctInverseBlock n x = some b) :
    ∃ b', ctInverseBlock n y = some b' ∧ ∀ c : Fin 4, (c.val < 3 ∨ y[c] = x[c]) → b'[c] = b[c] := by
  have h0 := h 0 (by decide)
  have h1 := h 1 (by decide)
  have h2 := h 2 (by decide)
  have px (i : Fin 16) : ctInversePixel n (sampleAt y 0 i) (sampleAt y 1 i) (sampleAt y 2 i) =
      ctInversePixel n (sampleAt x 0 i) (sampleAt x 1 i) (sampleAt x 2 i) := by
    simp only [sampleAt]
    rw [h0, h1, h2]
  obtain ⟨hnone, -⟩ | ⟨b₀, hsome, three, rows⟩ := ctInverseBlock_cases n x
  · rw [hb] at hnone
    cases hnone
  obtain rfl := Option.some.inj (hb.symm.trans hsome)
  obtain ⟨-, i, bad⟩ | ⟨b', hsome', three', rows'⟩ := ctInverseBlock_cases n y
  · obtain ⟨t, ht, -⟩ := rows i
    rw [px i, ht] at bad
    cases bad
  refine ⟨b', hsome', fun c hc => ?_⟩
  by_cases hc3 : c.val < 3
  · refine Vector.ext fun i hi => ?_
    obtain ⟨t, ht, row⟩ := rows ⟨i, hi⟩
    obtain ⟨t', ht', row'⟩ := rows' ⟨i, hi⟩
    obtain rfl : t' = t := Option.some.inj (ht'.symm.trans ((px _).trans ht))
    exact (row' c hc3).trans (row c hc3).symm
  · obtain rfl : c = 3 := by omega
    rw [three', three, hc.resolve_left hc3]

/-- Two decoders that left the same end in the same way, with the same rows of the plane. -/
theorem EndsWith.same (f : DescFacts s.desc) (h : SameRows (comps s.desc.toDescIn p) st st') (hb : EndsWith s.desc p unc st b) :
    ∃ b', EndsWith s.desc p unc st' b' ∧ ∀ c ∈ comps s.desc.toDescIn p, b'[c] = b[c] := by
  obtain ⟨he, hb⟩ := hb
  have he' : st'.cur.exh = false := by rw [h.cur, he]
  rw [decodedRows] at hb
  split at hb
  · next ht =>
    obtain ⟨-, present⟩ := f.transformed (Bool.and_eq_true_iff.mp ht).2
    obtain ⟨b', hb', rows⟩ := ctInverseBlock_same (fun c hc => h.blk c (present c hc)) hb
    exact ⟨b', ⟨he', by rw [decodedRows, if_pos ht, hb']⟩, fun c hc => rows c (.inr (h.blk c hc))⟩
  · next ht =>
    obtain rfl := Option.some.inj hb
    exact ⟨_, ⟨he', by rw [decodedRows, if_neg ht]⟩, h.blk⟩

theorem SameRows.symm {cs : List (Fin 4)} (h : SameRows cs st st') : SameRows cs st' st :=
  ⟨⟨h.cur.symm, h.pend.symm⟩, fun c hc => (h.blk c hc).symm⟩

end BlockEnd

end Sys2Proof.Machine

namespace Sys2Proof.Machine

/-! ### What is added to `VIOL_MASK` (60_exceptions R316, R317) -/

section MarkLaws

variable {k k' k'' : Checker} {V W : Viol → Prop}

/-- The bits of `VIOL_MASK` that the violations `V` name are set, and no other. -/
def Marks (k k' : Checker) (V : Viol → Prop) : Prop :=
  ∀ n, k'.violMask.getLsbD n = true ↔ k.violMask.getLsbD n = true ∨ ∃ x, V x ∧ x.bit = n

theorem Marks.refl (k : Checker) : Marks k k fun _ => False := fun n => by simp

theorem Marks.congr (h : Marks k k' V) (e : ∀ x, V x ↔ W x) : Marks k k' W := fun n => by
  simp only [h n, e]

theorem Marks.trans (h : Marks k k' V) (g : Marks k' k'' W) : Marks k k'' fun x => V x ∨ W x := fun n => by
  rw [g n, h n, or_assoc]
  simp only [or_and_right, exists_or]

theorem Flags.marks {s t : State} (h : Flags s t V) : Marks s.chk t.chk fun x => s.desc.errorCheck = true ∧ V x := by
  obtain ⟨-, -, bits⟩ := h
  intro n
  rw [bits n]
  simp only [and_assoc, exists_and_left]

/-- An out-of-range slot is recorded whatever `error_check` is (43_superblock R216). -/
theorem recordViol_marks (s : State) (x : Viol) (c : Nat) : Marks s.chk (recordViol s x c).chk (· = x) := by
  intro n
  simp only [recordViol, BitVec.getLsbD_or, Bool.or_eq_true, getLsbD_mask, exists_eq_left]

/-- The bits of violations that are not among `V` stay as they are. -/
theorem Marks.kept {n : Nat} (h : Marks k k' V) (hn : ∀ x, V x → x.bit ≠ n) :
    k'.violMask.getLsbD n = k.violMask.getLsbD n := by
  rw [Bool.eq_iff_iff, h n]
  exact or_iff_left fun ⟨x, hx, e⟩ => hn x hx e

theorem Viol.bit_inj : ∀ x y : Viol, x.bit = y.bit → x = y := by
  intro x y
  cases x <;> cases y <;> decide

end MarkLaws

/-! ### A slot by itself (43_superblock R210, step 4) -/

section SlotAlone

variable {s h : State} {k : Nat} {b : Vector (Vector Sample 16) 4}

/-- The state in which `slotRun` decodes slot `k`. -/
def slotAlone (s h : State) (k : Nat) : State := { s with port := { s.port with arg0 := (h.hdr.off.getD k 0).toNat } }

/-- What decoding slot `k` reads. -/
def slotStream (s h : State) (k : Nat) : DecState :=
  streamOf (slotAlone s h k) (slotPlane s.desc k) (h.hdr.unc.getD k false)

/-- Slot `k` decodes, to the rows `b`. -/
def SlotEnds (s h : State) (k : Nat) (b : Vector (Vector Sample 16) 4) : Prop :=
  EndsWith s.desc (slotPlane s.desc k) (h.hdr.unc.getD k false) (slotStream s h k) b

theorem SlotEnds.unique {b' : Vector (Vector Sample 16) 4} (hb : SlotEnds s h k b) (hb' : SlotEnds s h k b') : b' = b :=
  Option.some.inj (hb'.2.symm.trans hb.2)

theorem mem_planes_lt {d : Desc} {p : Fin 2} (f : DescFacts d) (h : p ∈ planes d) : p.val < d.nplanes := by
  have hn := f.nplanes
  unfold planes at h
  split at h
  · omega
  · split at hn <;> simp_all

variable (f : DescFacts s.desc) (hr : Ready s) (hk : k < s.desc.nsubblocks)
include f hr hk

omit hr in
theorem slotPlane_lt : slotPlane s.desc k < s.desc.nplanes := mem_planes_lt f (f.slot_in_region hk).1

theorem slotRun_eq : slotRun s h k =
    settle (finishBlock (slotAlone s h k) (slotPlane s.desc k) (h.hdr.unc.getD k false) (slotStream s h k))
      (fun n => ⟨some (n : Int), none, some 0⟩) overflowResult :=
  exec_decodeBlock (s := slotAlone s h k) hr (slotPlane_lt f hk) _

theorem slotRun_ends (hb : SlotEnds s h k b) : slotRun s h k = .next (completeOp
    (blockDone (slotAlone s h k) (slotStream s h k) b) ⟨some (ceilDiv (slotStream s h k).cur.pos 8 : Nat), none, some 0⟩) := by
  rw [slotRun_eq f hr hk, finishBlock_done (s := slotAlone s h k) hb, settle_ok]

theorem slotRun_fails (hb : ∀ b, ¬ SlotEnds s h k b) : ∃ u, slotRun s h k = .next u ∧ u.port.status = .failed ∧
    u.fat.code = (endCode (slotStream s h k)).value := by
  obtain ⟨t, ht⟩ := finishBlock_fails (s := slotAlone s h k) hb
  have change := finishBlock_change (slotAlone s h k) (slotPlane s.desc k) (h.hdr.unc.getD k false) (slotStream s h k)
  rw [ht, state_fatal] at change
  refine ⟨_, by rw [slotRun_eq f hr hk, ht, settle_fatal], by simp, ?_⟩
  have standing : t.fat.code = 0 := by
    rw [change.same]
    exact hr.1
  rw [raiseFatal_fat, after_code, if_pos standing]

omit hr hk in
/-- A stream that ended inside the buffer pends the violations of a stream only. -/
theorem slotStream_pend (he : (slotStream s h k).cur.exh = false) :
    ∀ x ∈ (slotStream s h k).pend.map Prod.fst, x.bit < 3 := by
  unfold slotStream at he ⊢
  generalize h.hdr.unc.getD k false = unc at he ⊢
  cases unc
  · obtain ⟨cut, R⟩ := compressedRead (s := slotAlone s h k) f (Bool.eq_false_iff.mp he)
    intro x hx
    obtain ⟨_, c, _, ⟨rfl, -⟩ | ⟨rfl, -⟩ | ⟨rfl, -⟩⟩ := (R.viols x).mp hx <;> decide
  · have room : 16 * planeBitsOf s.desc.toDescIn (slotPlane s.desc k) ≤ windowBits (slotAlone s h k) (slotAlone s h k).port.arg0 :=
      Nat.le_of_not_lt fun short => Bool.eq_false_iff.mp he (runsOff_uncompressed (s := slotAlone s h k) short)
    have R := decodeStream_uncompressed (d := s.desc) (src := fbSource s.fb (slotAlone s h k).port.arg0) s.codec room
    have pend : (streamOf (slotAlone s h k) (slotPlane s.desc k) true).pend = [] := R.only.pend
    rw [pend]
    simp

/-- A slot that can be decoded and does not end past the frame size ends well. -/
theorem SlotDecodes.ends (hd : SlotDecodes s h k) (np : ¬ PastFrame s h k) : ∃ b, SlotEnds s h k b := by
  obtain ⟨past, -⟩ | ⟨-, ⟨plain, room⟩ | ⟨u, hu, done⟩⟩ := hd
  · exact absurd past np
  · have window : 1224 ≤ windowBits (slotAlone s h k) (slotAlone s h k).port.arg0 := by
      have hb : bufSize (slotAlone s h k) = s.desc.bufSize.toNat := if_pos hr.2
      have ha : (slotAlone s h k).port.arg0 = (h.hdr.off.getD k 0).toNat := rfl
      rw [windowBits, hb, ha]
      omega
    have planeBits := (f.planeBits (f.slot_in_region hk).1).2
    have inside : (slotStream s h k).cur.exh = false := by
      unfold slotStream
      cases h.hdr.unc.getD k false
      · exact Bool.eq_false_iff.mpr (not_runsOff (s := slotAlone s h k) f (by omega))
      · have R := decodeStream_uncompressed (d := s.desc) (src := fbSource s.fb (slotAlone s h k).port.arg0)
          (p := slotPlane s.desc k) (lim := windowBits (slotAlone s h k) (slotAlone s h k).port.arg0) s.codec
          (by unfold slotPlane; omega)
        exact congrArg Cursor.exh R.cur
    exact ⟨_, inside, by rw [decodedRows, plain, Bool.and_false, if_neg Bool.false_ne_true]⟩
  · refine (ends_or_not _ _ _ _).resolve_right fun bad => ?_
    obtain ⟨v, hv, failed, -⟩ := slotRun_fails (h := h) f hr hk bad
    obtain rfl : v = u := Host.Outcome.next.inj (hv.symm.trans hu)
    rw [failed] at done
    cases done

end SlotAlone

/-! ### The slot loop (43_superblock R214 to R219) -/

section SlotLoop

variable {s h t : State} {k : Nat}

/-- The slot can be decoded: it is zero-filled, or it ends well. -/
def SlotGood (s h : State) (k : Nat) : Prop :=
  (PastFrame s h k ∧ s.desc.graceful = true) ∨ (¬ PastFrame s h k ∧ ∃ b, SlotEnds s h k b)

theorem SlotDecodes.good (f : DescFacts s.desc) (hr : Ready s) (hk : k < s.desc.nsubblocks) (hd : SlotDecodes s h k) :
    SlotGood s h k := by
  by_cases past : PastFrame s h k
  · obtain good | ⟨np, -⟩ := hd
    · exact .inl good
    · exact absurd past np
  · exact .inr ⟨past, hd.ends f hr hk past⟩

/-- What the loop reads of its state: descriptor, buffer and header. -/
structure LoopState (s h t : State) : Prop where
  desc : t.desc = s.desc
  fb : t.fb = s.fb
  valid : t.descValid = s.descValid
  phys : t.fbPhys = s.fbPhys
  hdr : t.hdr = h.hdr

theorem LoopState.bufSize (L : LoopState s h t) : bufSize t = bufSize s := by
  rw [Machine.bufSize, L.desc, L.valid, L.phys]
  rfl

/-- Sample `q` of component `c` of slot `k` is `v`. -/
def SlotSample (s h : State) (k : Nat) (c : Fin 4) (q : Nat) (v : Sample) : Prop :=
  (PastFrame s h k → v = 0) ∧ (¬ PastFrame s h k → ∃ b, SlotEnds s h k b ∧ v = (b[c]).getD q 0)

/-- The size that slot `k` should have declared. -/
def slotExpected (s h : State) (k : Nat) : Nat :=
  if h.hdr.unc.getD k false then s.desc.uncompSize[slotPlane s.desc k]
  else declaredSize (ceilDiv (slotStream s h k).cur.pos 8) (s.desc.sbsMultiplier[slotPlane s.desc k]).toNat

/-- Slot `k` marks the violation `x`. -/
def SlotMark (s h : State) (k : Nat) (x : Viol) : Prop :=
  (PastFrame s h k ∧ x = .slotRange) ∨ (¬ PastFrame s h k ∧ s.desc.errorCheck = true ∧
    (x ∈ (slotStream s h k).pend.map Prod.fst ∨
      x = .sizeMismatch ∧ slotExpected s h k ≠ (h.hdr.size.getD k 0).toNat))

/-- The place of sample `(dx, dy)` of a slot in its plane's region. -/
def slotCell (d : Desc) (k dx dy : Nat) : Nat :=
  ((slotAt d k).y + dy) * pw d (slotPlane d k) + ((slotAt d k).x + dx)

/-- What decoding slot `k` does to the state `t` of the loop. -/
structure SlotDone (s h : State) (k : Nat) (t u : State) : Prop where
  hdr : u.hdr = t.hdr
  slot : u.sb.slot = k
  inside : ∀ c ∈ comps s.desc.toDescIn (slotPlane s.desc k), ∀ dx < 4, ∀ dy < 4,
    SlotSample s h k c (4 * dy + dx) ((u.sb.sblk[c]).getD (slotCell s.desc k dx dy) 0)
  outside : ∀ (p : Fin 2) (c : Fin 4) (x y : Nat), (p, c) ∈ planeComps s.desc → x < pw s.desc p →
    ¬ (slotPlane s.desc k = p ∧ InSlot (slotAt s.desc k) x y) →
    (u.sb.sblk[c]).getD (y * pw s.desc p + x) 0 = (t.sb.sblk[c]).getD (y * pw s.desc p + x) 0
  marks : Marks t.chk u.chk (SlotMark s h k)

/-- Placing a subblock whose rows are the slot's samples ends the slot. -/
theorem SlotDone.of_place (f : DescFacts s.desc) (hk : k < s.desc.nsubblocks) {u : State} (hdesc : u.desc = s.desc)
    (hhdr : u.hdr = t.hdr) (hslot : u.sb.slot = k) (hsblk : u.sb.sblk = t.sb.sblk)
    (rows : ∀ c ∈ comps s.desc.toDescIn (slotPlane s.desc k), ∀ q, SlotSample s h k c q ((u.codec.blk[c]).getD q 0))
    (marks : Marks t.chk u.chk (SlotMark s h k)) : SlotDone s h k t (place u (slotAt s.desc k)) := by
  obtain ⟨hp, hx, hy⟩ := f.slot_in_region hk
  refine ⟨hhdr, hslot, fun c hc dx hdx dy hdy => ?_, fun p c x y hpc hxp out => ?_, marks⟩
  · rw [place_row (by rw [hdesc]; exact hc), slotCell, hdesc]
    have cell := f.cell_lt_256 (p := slotPlane s.desc k) (x := (slotAt s.desc k).x + dx) (y := (slotAt s.desc k).y + dy)
      (by unfold slotPlane; omega) (by unfold slotPlane; omega)
    have placed := placeRow_inside (row := u.codec.blk[c]) (v := u.sb.sblk[c]) hx hdx hdy cell
    have sample := rows c hc (4 * dy + dx)
    rw [← placed] at sample
    exact sample
  · rw [← hsblk]
    by_cases hc : c ∈ comps s.desc.toDescIn (slotPlane s.desc k)
    · obtain rfl : slotPlane s.desc k = p := f.plane_unique (mem_planeComps.mpr ⟨hp, hc⟩) hpc
      rw [place_row (by rw [hdesc]; exact hc), hdesc]
      exact placeRow_outside hx hxp fun i => out ⟨rfl, i⟩
    · rw [place_row_other (by rw [hdesc]; exact hc)]

theorem sizeCheck_marks (t : State) (k n : Nat) (p : Fin 2) : Marks t.chk (sizeCheck t k n p).chk fun x =>
    t.desc.errorCheck = true ∧ x = .sizeMismatch ∧
      (if t.hdr.unc.getD k false then t.desc.uncompSize[p] else declaredSize n (t.desc.sbsMultiplier[p]).toNat) ≠
        (t.hdr.size.getD k 0).toNat := by
  unfold sizeCheck
  dsimp only
  generalize (if t.hdr.unc.getD k false then t.desc.uncompSize[p]
    else declaredSize n (t.desc.sbsMultiplier[p]).toNat) = expected
  by_cases ne : expected ≠ (t.hdr.size.getD k 0).toNat
  · rw [if_pos ne]
    exact (flagV_flags t _ _).marks.congr fun x => by rw [and_iff_left ne]
  · rw [if_neg ne]
    exact (Marks.refl _).congr fun x => by simp only [ne, and_false]

/-- The state in which the loop begins slot `k`. -/
def atSlot (t : State) (k : Nat) : State := { t with sb := { t.sb with slot := k } }

/-- What the loop reads of slot `k`. -/
def loopStream (t : State) (k : Nat) : DecState :=
  decodeStream t.desc (fbSource t.fb (t.hdr.off.getD k 0).toNat) (windowBits t (t.hdr.off.getD k 0).toNat)
    (slotPlane t.desc k) (t.hdr.unc.getD k false) t.codec

theorem decodeSlot_inFrame (hin : slotInFrame t k = true) : decodeSlot t k =
    (finishBlock (atSlot t k) (slotPlane t.desc k) (t.hdr.unc.getD k false) (loopStream t k)).bind fun n u =>
      .ok () (place (sizeCheck u k n (slotPlane t.desc k)) (slotAt t.desc k)) := if_pos hin

theorem decodeSlot_graceful (hin : slotInFrame t k = false) (hg : t.desc.graceful = true) : decodeSlot t k =
    .ok () (place (recordViol (zeroBlock (atSlot t k) (slotPlane t.desc k)) .slotRange 0) (slotAt t.desc k)) :=
  (if_neg (Bool.eq_false_iff.mp hin)).trans (if_pos hg)

theorem decodeSlot_strict (hin : slotInFrame t k = false) (hg : t.desc.graceful = false) :
    decodeSlot t k = .fatal .slotRange (atSlot t k) :=
  (if_neg (Bool.eq_false_iff.mp hin)).trans (if_neg (Bool.eq_false_iff.mp hg))

section Loop

variable (L : LoopState s h t)
include L

theorem LoopState.inFrame_iff (k : Nat) : slotInFrame t k = true ↔ ¬ PastFrame s h k := by
  simp only [slotInFrame, decide_eq_true_eq, PastFrame, Nat.not_lt, L.hdr, L.desc]

/-- The loop reads of slot `k` what the slot by itself reads. -/
theorem LoopState.stream (k : Nat) :
    SameRows (comps s.desc.toDescIn (slotPlane s.desc k)) (slotStream s h k) (loopStream t k) := by
  have window (a : Nat) : windowBits t a = windowBits (slotAlone s h k) a := congrArg (fun n => 8 * (n - a)) L.bufSize
  rw [loopStream, L.desc, L.fb, L.hdr, window]
  exact decodeStream_same _ _ _ _ _ _ _

variable (f : DescFacts s.desc) (hk : k < s.desc.nsubblocks)
include f hk

theorem decodeSlot_zero (past : PastFrame s h k) (hg : s.desc.graceful = true) :
    ∃ u, decodeSlot t k = .ok () u ∧ SlotDone s h k t u := by
  have hin : slotInFrame t k = false := Bool.eq_false_iff.mpr fun e => (L.inFrame_iff k).mp e past
  refine ⟨_, decodeSlot_graceful hin (by rw [L.desc, hg]), ?_⟩
  rw [L.desc]
  refine .of_place f hk L.desc rfl rfl rfl (fun c hc q => ⟨fun _ => ?_, fun np => absurd past np⟩) ?_
  · rw [← L.desc] at hc
    have zero : (recordViol (zeroBlock (atSlot t k) (slotPlane s.desc k)) .slotRange 0).codec.blk[c] =
        Vector.replicate 16 (0 : Sample) := by
      simp only [recordViol_codec, zeroBlock, atSlot]
      rw [← L.desc]
      simp [hc]
    rw [zero]
    by_cases hq : q < 16
    · rw [vector_getD _ hq, Vector.getElem_replicate]
    · simp [Vector.getD, hq]
  · exact (recordViol_marks (zeroBlock (atSlot t k) (slotPlane s.desc k)) .slotRange 0).congr fun x => by
      simp [SlotMark, past]

theorem decodeSlot_ends (np : ¬ PastFrame s h k) (hb : ∃ b, SlotEnds s h k b) :
    ∃ u, decodeSlot t k = .ok () u ∧ SlotDone s h k t u := by
  obtain ⟨b, hb⟩ := hb
  have same := L.stream k
  obtain ⟨b', hb', rows⟩ := EndsWith.same (s := s) f same hb
  have done : EndsWith (atSlot t k).desc (slotPlane t.desc k) (t.hdr.unc.getD k false) (loopStream t k) b' := by
    rw [L.hdr, atSlot, L.desc]
    exact hb'
  refine ⟨_, by rw [decodeSlot_inFrame ((L.inFrame_iff k).mpr np), finishBlock_done done, bind_ok], ?_⟩
  rw [L.desc]
  have only := sizeCheck_only_chk (blockDone (atSlot t k) (loopStream t k) b') k
    (ceilDiv (loopStream t k).cur.pos 8) (slotPlane s.desc k)
  have flags := (flagAll_flags { atSlot t k with cur := (loopStream t k).cur.reg, codec := (loopStream t k).codec }
    (loopStream t k).pend).marks
  have size := sizeCheck_marks (blockDone (atSlot t k) (loopStream t k) b') k
    (ceilDiv (loopStream t k).cur.pos 8) (slotPlane s.desc k)
  have hdesc : (blockDone (atSlot t k) (loopStream t k) b').desc = t.desc := by simp [blockDone, atSlot]
  have hhdr : (blockDone (atSlot t k) (loopStream t k) b').hdr = t.hdr := by simp [blockDone, atSlot]
  have hsb : (blockDone (atSlot t k) (loopStream t k) b').sb = (atSlot t k).sb := by simp [blockDone]
  have hblk : (blockDone (atSlot t k) (loopStream t k) b').codec.blk = b' := rfl
  rw [hdesc, hhdr] at size
  refine .of_place f hk ?_ ?_ ?_ ?_ (fun c hc q => ⟨fun past => absurd past np, fun _ => ⟨b, hb, ?_⟩⟩) ?_
  · rw [only.same, hdesc, L.desc]
  · rw [only.same, hhdr]
  · rw [only.same, hsb]
    rfl
  · rw [only.same, hsb]
    rfl
  · rw [only.same, hblk, rows c hc]
  · refine (flags.trans size).congr fun x => ?_
    have hd : (atSlot t k).desc = s.desc := L.desc
    simp only [hd, L.desc, L.hdr, SlotMark, slotExpected, same.cur, same.pend, np, false_and, false_or, not_false_eq_true,
      true_and]
    tauto

theorem decodeSlot_good (good : SlotGood s h k) : ∃ u, decodeSlot t k = .ok () u ∧ SlotDone s h k t u := by
  obtain ⟨past, hg⟩ | ⟨np, hb⟩ := good
  · exact decodeSlot_zero L f hk past hg
  · exact decodeSlot_ends L f hk np hb

omit f hk in
theorem decodeSlot_fails (np : ¬ PastFrame s h k) (f : DescFacts s.desc) (bad : ∀ b, ¬ SlotEnds s h k b) :
    ∃ u, decodeSlot t k = .fatal (endCode (slotStream s h k)) u := by
  have same := L.stream k
  have code : endCode (loopStream t k) = endCode (slotStream s h k) := by rw [endCode, same.cur, endCode]
  have bad' : ∀ b, ¬ EndsWith (atSlot t k).desc (slotPlane t.desc k) (t.hdr.unc.getD k false) (loopStream t k) b := by
    intro b hb
    rw [L.hdr, atSlot, L.desc] at hb
    obtain ⟨b', hb', -⟩ := EndsWith.same (s := s) f same.symm hb
    exact bad b' hb'
  obtain ⟨u, hu⟩ := finishBlock_fails bad'
  exact ⟨u, by rw [decodeSlot_inFrame ((L.inFrame_iff k).mpr np), hu, bind_fatal, code]⟩

end Loop

end SlotLoop

end Sys2Proof.Machine

namespace Sys2Proof.Machine

/-! ### All slots before the `k`-th (43_superblock R214) -/

section Slots

variable {s h t : State} {k : Nat}

theorem decodeSlots_append (t : State) (l m : List Nat) :
    decodeSlots t (l ++ m) = (decodeSlots t l).bind fun _ u => decodeSlots u m := by
  induction l generalizing t with
  | nil => rfl
  | cons a l ih =>
    simp only [List.cons_append, decodeSlots]
    cases decodeSlot t a with
    | ok _ u => exact ih u
    | fatal x u => rfl

theorem decodeSlots_succ (t : State) (k : Nat) :
    decodeSlots t (List.range (k + 1)) = (decodeSlots t (List.range k)).bind fun _ u => decodeSlot u k := by
  rw [List.range_succ, decodeSlots_append]
  congr
  funext _ u
  simp only [decodeSlots]
  cases decodeSlot u k <;> rfl

/-- What decoding the slots before the `k`-th does to the state `t` of the loop. -/
structure SlotsDone (s h : State) (k : Nat) (t u : State) : Prop where
  hdr : u.hdr = t.hdr
  slot : 0 < k → u.sb.slot + 1 = k
  samples : ∀ j < k, ∀ c ∈ comps s.desc.toDescIn (slotPlane s.desc j), ∀ dx < 4, ∀ dy < 4,
    SlotSample s h j c (4 * dy + dx) ((u.sb.sblk[c]).getD (slotCell s.desc j dx dy) 0)
  marks : Marks t.chk u.chk fun x => ∃ j < k, SlotMark s h j x

/-- One slot more. The places of the earlier ones are others. -/
theorem SlotsDone.next (f : DescFacts s.desc) (g : Tiled s.desc) {u v : State} (hk : k < s.desc.nsubblocks)
    (D : SlotsDone s h k t u) (E : SlotDone s h k u v) : SlotsDone s h (k + 1) t v := by
  refine ⟨E.hdr.trans D.hdr, fun _ => by rw [E.slot], fun j hj c hc dx hdx dy hdy => ?_, ?_⟩
  · obtain rfl | before : j = k ∨ j < k := by omega
    · exact E.inside c hc dx hdx dy hdy
    · obtain ⟨hp, hx, -⟩ := f.slot_in_region (before.trans hk)
      have place : InSlot (slotAt s.desc j) ((slotAt s.desc j).x + dx) ((slotAt s.desc j).y + dy) := by
        unfold InSlot
        omega
      have other : ¬ (slotPlane s.desc k = slotPlane s.desc j ∧
          InSlot (slotAt s.desc k) ((slotAt s.desc j).x + dx) ((slotAt s.desc j).y + dy)) := fun ⟨plane, here⟩ =>
        before.ne (g.apart f (before.trans hk) hk plane.symm place here)
      have kept := E.outside (slotPlane s.desc j) c ((slotAt s.desc j).x + dx) ((slotAt s.desc j).y + dy)
        (mem_planeComps.mpr ⟨hp, hc⟩) (by unfold slotPlane; omega) other
      rw [slotCell, kept]
      exact D.samples j before c hc dx hdx dy hdy
  · exact (D.marks.trans E.marks).congr fun x => by
      simp only [Nat.lt_succ_iff_lt_or_eq, or_and_right, exists_or, exists_eq_left]

theorem LoopState.change (L : LoopState s h t) {u : State} (c : DecodeChange t u) (hh : u.hdr = t.hdr) : LoopState s h u := by
  obtain ⟨desc, fb, valid, phys, hdr⟩ := L
  exact ⟨by rw [c.same, desc], by rw [c.same, fb], by rw [c.same, valid], by rw [c.same, phys], hh.trans hdr⟩

theorem decodeSlots_good (L : LoopState s h t) (f : DescFacts s.desc) (g : Tiled s.desc) (hk : k ≤ s.desc.nsubblocks)
    (good : ∀ j < k, SlotGood s h j) : ∃ u, decodeSlots t (List.range k) = .ok () u ∧ SlotsDone s h k t u := by
  induction k with
  | zero => exact ⟨t, rfl, rfl, fun h => absurd h (Nat.lt_irrefl 0), fun j hj => absurd hj (Nat.not_lt_zero j),
      (Marks.refl _).congr fun x => by simp⟩
  | succ k ih =>
    obtain ⟨u, hu, D⟩ := ih (Nat.le_of_succ_le hk) fun j hj => good j (Nat.lt_succ_of_lt hj)
    have change := decodeSlots_change (s := t) (l := List.range k) fun n hn => by
      rw [L.desc]
      exact (List.mem_range.mp hn).trans hk
    rw [hu, state_ok] at change
    obtain ⟨v, hv, E⟩ := decodeSlot_good (L.change change D.hdr) f hk (good k (Nat.lt_succ_self k))
    exact ⟨v, by rw [decodeSlots_succ, hu, bind_ok, hv], D.next f g hk E⟩

/-- A loop that failed does not go on. -/
theorem decodeSlots_stop {x : FatalCode} {u : State} (hf : decodeSlots t (List.range k) = .fatal x u) {n : Nat} (hn : k ≤ n) :
    decodeSlots t (List.range n) = .fatal x u := by
  induction n, hn using Nat.le_induction with
  | base => exact hf
  | succ n _ ih => rw [decodeSlots_succ, ih, bind_fatal]

theorem finishBlock_sb (s : State) (p : Fin 2) (unc : Bool) (st : DecState) : (finishBlock s p unc st).state.sb = s.sb := by
  have transform (u : State) (cs : List (Fin 4)) : (ctInverseRun u cs true).state.sb = u.sb := by
    unfold ctInverseRun
    split
    · rfl
    · simp
  simp only [finishBlock]
  split
  · rfl
  · split
    · rw [bind_state (R := fun u v => v.sb = u.sb) (fun h g => g.trans h) (transform _ _) fun _ _ _ => rfl, flagAll_sb]
    · rw [state_ok, flagAll_sb]

/-- The slot that failed is the one that `SLOT` names. -/
theorem decodeSlot_slot {x : FatalCode} {u : State} (hf : decodeSlot t k = .fatal x u) : u.sb.slot = k := by
  have named : (decodeSlot t k).state.sb.slot = k := by
    cases hin : slotInFrame t k
    · cases hg : t.desc.graceful
      · rw [decodeSlot_strict hin hg]
        rfl
      · rw [decodeSlot_graceful hin hg]
        rfl
    · rw [decodeSlot_inFrame hin]
      refine bind_state (R := fun v w => w.sb.slot = v.sb.slot) (s := atSlot t k) (fun h g => g.trans h)
        (congrArg Sb.slot (finishBlock_sb _ _ _ _)) fun n v _ => ?_
      show (sizeCheck v k n (slotPlane t.desc k)).sb.slot = v.sb.slot
      rw [(sizeCheck_only_chk v k n _).same]
  rwa [hf, state_fatal] at named

end Slots

/-! ### From the header to the slots (43_superblock R210; 44_header_address R244, R270) -/

section Entry

variable {s t h : State} {w k : Nat}

theorem flagAll_violMask_congr (hd : t.desc = s.desc) (hv : t.chk.violMask = s.chk.violMask) (l : List (Viol × Nat)) :
    (flagAll t l).chk.violMask = (flagAll s l).chk.violMask :=
  BitVec.eq_of_getLsbD_eq fun n _ => by
    rw [Bool.eq_iff_iff, (flagAll_flags t l).marks n, (flagAll_flags s l).marks n, hd, hv]

/-- What parsing leaves in the header registers and in `VIOL_MASK` depends on these and the descriptor only. -/
theorem parseWord_congr (hd : t.desc = s.desc) (hh : t.hdr = s.hdr) (hv : t.chk.violMask = s.chk.violMask) :
    (parseWord t w).hdr = (parseWord s w).hdr ∧ (parseWord t w).chk.violMask = (parseWord s w).chk.violMask := by
  simp only [parseWord, hd, hh]
  split
  · exact ⟨rfl, hv⟩
  · refine ⟨by rw [flagAll_hdr, flagAll_hdr], ?_⟩
    apply flagAll_violMask_congr
    · rfl
    · exact hv

/-- Resolution pends one kind of violation only (44_header_address R246). -/
theorem resolveSlots_viols (d : Desc) (h : Hdr) (ks : List Nat) :
    ∀ x ∈ (resolveSlots d h ks).viols.map Prod.fst, x = .copyNoSource := by
  have step (r : Resolve) (k : Nat) (hr : ∀ x ∈ r.viols.map Prod.fst, x = .copyNoSource) :
      ∀ x ∈ (resolveSlot d r k).viols.map Prod.fst, x = .copyNoSource := by
    by_cases hn : r.hdr.codeAt k = 0
    · cases ht : r.last[slotPlane d k] with
      | none =>
        rw [resolveSlot_noSource hn ht]
        simpa [or_imp, forall_and] using hr
      | some j => rwa [resolveSlot_copy hn ht]
    · rwa [resolveSlot_sized hn]
  unfold resolveSlots
  exact List.foldlRecOn ks (resolveSlot d) (by simp) fun r hr k _ => step r k hr

theorem parseWord_sameBits {B : Nat → Prop} (h4 : ¬ B 4) : SameBits B s (parseWord s w) := by
  intro n hn
  simp only [parseWord]
  split
  · rfl
  · refine Marks.kept (flagAll_flags { s with hdr := _ } _).marks fun x ⟨_, hx⟩ e => h4 ?_
    rw [resolveSlots_viols _ _ _ x hx] at e
    rw [← e] at hn
    exact hn

/-- Where the payload keeps the tile bound, only the four violations of the addressing checks can be flagged. -/
theorem addressingChecks_ok {B : Nat → Prop} (h6 : ¬ B 6) (h7 : ¬ B 7) (h8 : ¬ B 8) (h9 : ¬ B 9)
    (tile : s.desc.tiled = true → inTile s.desc s.sb.mbnum s.hdr.ptr.toNat = true) :
    ∃ t, addressingChecks s = .ok () t ∧ OnlyChk s t ∧ SameBits B s t := by
  have tiled : ∃ t, (if s.desc.tiled then tiledCheck s s.sb.mbnum s.hdr.ptr.toNat else .ok () s) = .ok () t ∧
      OnlyChk s t ∧ SameBits B s t := by
    split
    · next ht =>
      rw [tiledCheck, if_pos (tile ht)]
      exact ⟨_, rfl, .ite (flagV_only_chk s _ _) (.refl s), .ite (flagV_sameBits s 0 h6) (.of_chk rfl)⟩
    · exact ⟨s, rfl, .refl s, .of_chk rfl⟩
  obtain ⟨t, run, only, bits⟩ := tiled
  have sparse : SameBits B t (sparseCheck t s.hdr.ptr.toNat) := by
    unfold sparseCheck
    dsimp only
    generalize hu : (if t.chk.sparseFirstValid then t
      else { t with chk := { t.chk with sparseFirst := s.hdr.ptr.toNat, sparseFirstValid := true } }) = u
    have same : SameBits B t u := hu ▸ .ite (.of_chk rfl) (.of_chk rfl)
    exact .ite (same.trans (flagV_sameBits u 0 h7)) same
  have payload := payloadChecks_only_chk t s.hdr.ptr.toNat
  refine ⟨_, by rw [addressingChecks]; dsimp only; rw [run, bind_ok], only.trans payload, bits.trans ?_⟩
  exact SameBits.trans (.ite sparse (.of_chk rfl)) (stripeCount_sameBits _ _ h8 h9)

/-- The bits of `VIOL_MASK` that the header and the slots can set, and the addressing checks cannot. -/
def SlotBit (n : Nat) : Prop := n < 6 ∨ n = 10

theorem exec_parseHeader_fits (hr : Ready s) (fits : headerFits s s.port.arg0 = true) : exec .parseHeader s =
    .next (completeOp (parseWord (startCursor s) (headerWord s.fb s.port.arg0)) Results.none) := by
  change execParseHeader _ = _
  rw [execParseHeader, ifReady_ready hr.1 hr.2, parseHeaderRun, parseWordRun, if_pos fits, settle_ok]

/-- The state in which `SlotsParsed` runs PARSE_HEADER. -/
def atHeader (s : State) : State := { s with port := { s.port with arg0 := mbnumOf s.desc s.port.arg0 s.port.arg1 } }

/-- The state behind that PARSE_HEADER. -/
def headerParsed (s : State) : State :=
  completeOp (parseWord (startCursor (atHeader s)) (headerWord s.fb (mbnumOf s.desc s.port.arg0 s.port.arg1))) Results.none

theorem exec_parseHeader_atHeader (f : DescFacts s.desc) (hr : Ready s) (hx : s.port.arg0 < s.desc.mbw)
    (hy : s.port.arg1 < s.desc.mbh) : exec .parseHeader (atHeader s) = .next (headerParsed s) :=
  exec_parseHeader_fits (s := atHeader s) hr (f.headerFits hr hx hy)

theorem SlotsParsed.eq (f : DescFacts s.desc) (hr : Ready s) (hx : s.port.arg0 < s.desc.mbw)
    (hy : s.port.arg1 < s.desc.mbh) (hp : SlotsParsed s h) : h = headerParsed s :=
  (Host.Outcome.next.inj ((exec_parseHeader_atHeader f hr hx hy).symm.trans hp.1)).symm

/-- DECODE_SUPERBLOCK of a header with slots, where the payload keeps the tile bound, comes to its slot loop with the header
registers of PARSE_HEADER. -/
theorem exec_decodeSuperblock_slots (f : DescFacts s.desc) (hr : Ready s) (hx : s.port.arg0 < s.desc.mbw)
    (hy : s.port.arg1 < s.desc.mbh) (hp : SlotsParsed s h) (tile : TileBoundHolds s h.hdr.ptr.toNat) :
    ∃ t, DecodeChange (atSuperblock s s.port.arg0 s.port.arg1) t ∧ LoopState s h t ∧ SameBits SlotBit h t ∧
      exec .decodeSuperblock s = settle (((decodeSlots t (List.range s.desc.nsubblocks)).bind fun _ u =>
        .ok () (writeback u)).onFatal fun t => loseAll (loseOut t)) fun _ => Results.none := by
  obtain rfl := hp.eq f hr hx hy
  have slots := hp.2
  obtain ⟨hdr, mask⟩ : (superblockParsed s).hdr = (headerParsed s).hdr ∧
      (superblockParsed s).chk.violMask = (headerParsed s).chk.violMask :=
    parseWord_congr (s := startCursor (atHeader s)) (t := startCursor (atSuperblock s s.port.arg0 s.port.arg1)) rfl rfl rfl
  have change : DecodeChange (atSuperblock s s.port.arg0 s.port.arg1) (superblockParsed s) :=
    (startCursor_change _).trans (parseWord_change _ _)
  have desc : (superblockParsed s).desc = s.desc := by rw [change.same]; rfl
  have inside : (superblockParsed s).desc.tiled = true → inTile (superblockParsed s).desc (superblockParsed s).sb.mbnum
      (superblockParsed s).hdr.ptr.toNat = true := by
    rw [desc, change.sb.2.2.1, hdr]
    exact fun ht => decide_eq_true (tile ht)
  obtain ⟨t, run, only, bits⟩ := addressingChecks_ok (B := SlotBit) (by simp [SlotBit]) (by simp [SlotBit])
    (by simp [SlotBit]) (by simp [SlotBit]) inside
  have tdesc : t.desc = s.desc := by rw [only.same, desc]
  have total := change.trans only.decodeChange
  refine ⟨t, total, ⟨tdesc, ?_, ?_, ?_, ?_⟩, SameBits.trans (.of_chk mask) bits, ?_⟩
  · rw [total.same]; rfl
  · rw [total.same]; rfl
  · rw [total.same]; rfl
  · rw [only.same, hdr]
  · have body : decodeBody (superblockParsed s) = (decodeSlots t (List.range s.desc.nsubblocks)).bind fun _ u =>
        .ok () (writeback u) := by
      rw [decodeBody, hdr, slots, if_neg Bool.false_ne_true, run, bind_ok, tdesc]
    rw [exec_decodeSuperblock f hr hx hy, body]

/-- DECODE_SUPERBLOCK where every slot is good. -/
structure SlotsDecoded (s h u : State) : Prop where
  change : DecodeChange (atSuperblock s s.port.arg0 s.port.arg1) u
  hdr : u.hdr = h.hdr
  slot : u.sb.slot + 1 = s.desc.nsubblocks
  samples : ∀ k < s.desc.nsubblocks, ∀ c ∈ comps s.desc.toDescIn (slotPlane s.desc k), ∀ dx < 4, ∀ dy < 4,
    SlotSample s h k c (4 * dy + dx) ((u.sb.sblk[c]).getD (slotCell s.desc k dx dy) 0)
  marks : ∀ n, SlotBit n → (u.chk.violMask.getLsbD n = true ↔
    h.chk.violMask.getLsbD n = true ∨ ∃ x, (∃ k < s.desc.nsubblocks, SlotMark s h k x) ∧ x.bit = n)

theorem exec_decodeSuperblock_good (f : DescFacts s.desc) (g : Tiled s.desc) (hr : Ready s) (hx : s.port.arg0 < s.desc.mbw)
    (hy : s.port.arg1 < s.desc.mbh) (hp : SlotsParsed s h) (tile : TileBoundHolds s h.hdr.ptr.toNat)
    (good : ∀ k < s.desc.nsubblocks, SlotGood s h k) :
    ∃ u, exec .decodeSuperblock s = .next (completeOp (writeback u) Results.none) ∧ SlotsDecoded s h u := by
  obtain ⟨t, change, L, bits, run⟩ := exec_decodeSuperblock_slots f hr hx hy hp tile
  obtain ⟨u, hu, D⟩ := decodeSlots_good L f g le_rfl good
  have loop := decodeSlots_change (s := t) (l := List.range s.desc.nsubblocks) fun n hn => by
    rw [L.desc]
    exact List.mem_range.mp hn
  rw [hu, state_ok] at loop
  obtain ⟨-, -, h16, -⟩ := f.narrow
  refine ⟨u, by rw [run, hu, bind_ok, onFatal_ok, settle_ok], change.trans loop, D.hdr.trans L.hdr, D.slot (by omega),
    D.samples, fun n hn => ?_⟩
  rw [D.marks n, bits n hn]

end Entry

end Sys2Proof.Machine

namespace Sys2Proof.Machine

/-! ### The resolved entry of every slot (44_header_address R244 to R246) -/

section Entries

variable {d : Desc} {h : Hdr} {k n : Nat}

theorem resolveSlots_succ (d : Desc) (h : Hdr) (k : Nat) :
    resolveSlots d h (List.range (k + 1)) = resolveSlot d (resolveSlots d h (List.range k)) k := by
  rw [resolveSlots, List.range_succ, List.foldl_append]
  rfl

/-- Later slots leave an entry as it is. -/
theorem resolved_entry (hk : k < n) (hn : n ≤ 24) : (resolveSlots d h (List.range n)).hdr.entry k =
    (resolveSlots d h (List.range (k + 1))).hdr.entry k := by
  induction n, hk using Nat.le_induction with
  | base => rfl
  | succ n hk ih =>
    have step := resolveSlot_step (d := d) (r := resolveSlots d h (List.range n)) (k := n) (by omega)
    rw [resolveSlots_succ, step.others k (by omega), ih (by omega)]

/-- A slot has a slot of its plane to copy, or none. -/
theorem copySource_or_none (d : Desc) (h : Hdr) (hk : k ≤ 24) :
    (∃ j, CopySource d h.codeAt k j) ∨ NoSource d h.codeAt k := by
  have last := (resolved_range d h hk).last (slotPlane d k)
  cases e : (resolveSlots d h (List.range k)).last[slotPlane d k] with
  | none =>
    rw [e] at last
    exact .inr last
  | some j =>
    rw [e] at last
    exact .inl ⟨j, last⟩

theorem entry_sized (hk : k < n) (hn : n ≤ 24) (h0 : h.codeAt k ≠ 0) :
    (resolveSlots d h (List.range n)).hdr.entry k = sizedEntry d h k := by
  rw [resolved_entry hk hn, resolveSlots_succ]
  exact ((resolved_range d h (by omega)).sized (by omega) h0).1

theorem entry_copied (hk : k < n) (hn : n ≤ 24) (h0 : h.codeAt k = 0) {j : Nat} (hj : CopySource d h.codeAt k j) :
    (resolveSlots d h (List.range n)).hdr.entry k = sizedEntry d h j := by
  rw [resolved_entry hk hn, resolveSlots_succ]
  exact ((resolved_range d h (by omega)).copied (by omega) h0 hj).1

theorem entry_sourceless (hk : k < n) (hn : n ≤ 24) (h0 : h.codeAt k = 0) (hs : NoSource d h.codeAt k) :
    (resolveSlots d h (List.range n)).hdr.entry k = (BitVec.ofNat 33 (slotOffset d h.ptr.toNat h.codeAt k), 0, false) := by
  rw [resolved_entry hk hn, resolveSlots_succ]
  exact ((resolved_range d h (by omega)).sourceless (by omega) h0 hs).1

/-- A slot that is uncompressed has its plane's fixed size, its own or its source's. -/
theorem uncompressed_size (f : DescFacts d) (hk : k < d.nsubblocks) :
    let r := (resolveSlots d h (List.range d.nsubblocks)).hdr
    r.unc.getD k false = true → (r.size.getD k 0).toNat = d.uncompSize[slotPlane d k] := by
  intro r unc
  obtain ⟨-, -, -, h24, -⟩ := f.narrow
  have fixed (j : Nat) (plane : slotPlane d j = slotPlane d k) (e : r.entry k = sizedEntry d h j) :
      (r.size.getD k 0).toNat = d.uncompSize[slotPlane d k] := by
    have size : r.size.getD k 0 = BitVec.ofNat 14 (codeSize d j (h.codeAt j)) := congrArg (fun e => e.2.1) e
    have one : decide (h.codeAt j = 1) = true := (congrArg (fun e => e.2.2) e).symm.trans unc
    have same : d.uncompSize[slotPlane d j] = d.uncompSize[slotPlane d k] :=
      congrArg (fun p : Fin 2 => d.uncompSize[p]) plane
    rw [size, of_decide_eq_true one, codeSize, if_neg Nat.one_ne_zero, if_pos rfl, same, BitVec.toNat_ofNat]
    exact Nat.mod_eq_of_lt ((f.uncompSize_le hk).trans_lt (by decide))
  by_cases h0 : h.codeAt k = 0
  · obtain ⟨j, hj⟩ | hs := copySource_or_none d h (k := k) (by omega)
    · exact fixed j hj.2.1 (entry_copied hk h24 h0 hj)
    · have e : r.unc.getD k false = false := congrArg (fun e => e.2.2) (entry_sourceless hk h24 h0 hs)
      rw [unc] at e
      cases e
  · exact fixed k rfl (entry_sized hk h24 h0)

variable {s : State}

/-- The fields of the header of superblock `(ARG0, ARG1)`, before its slots are resolved. -/
def rawHeader (s : State) : Hdr :=
  { s.hdr.setFields s.desc (headerWord s.fb (mbnumOf s.desc s.port.arg0 s.port.arg1)) with solid := false }

/-- A header that is not in solid-colour form resolves its slots. -/
theorem headerParsed_slots (h0 : (headerParsed s).hdr.solid = false) :
    (headerParsed s).hdr = (resolveSlots s.desc (rawHeader s) (List.range s.desc.nsubblocks)).hdr := by
  revert h0
  simp only [headerParsed, completeOp_hdr, parseWord]
  split
  · exact fun h => absurd h (by simp)
  · rw [flagAll_hdr]
    exact fun _ => rfl

end Entries

/-! ### What DECODE_SUPERBLOCK leaves where every slot is decoded (43_superblock R210 to R220) -/

section Decoded

variable {s h u : State} {k : Nat}

theorem exists_bit_iff (V : Viol → Prop) (x : Viol) : (∃ y, V y ∧ y.bit = x.bit) ↔ V x :=
  ⟨fun ⟨y, hy, e⟩ => Viol.bit_inj y x e ▸ hy, fun hx => ⟨x, hx, rfl⟩⟩

/-- A good slot marks SLOT_RANGE where it ends past the frame size, and only there. -/
theorem SlotGood.mark_slotRange (f : DescFacts s.desc) (good : SlotGood s h k) :
    SlotMark s h k .slotRange ↔ PastFrame s h k := by
  obtain ⟨past, -⟩ | ⟨np, b, hb⟩ := good
  · exact iff_of_true (.inl ⟨past, rfl⟩) past
  · refine iff_of_false ?_ np
    rintro (⟨past, -⟩ | ⟨-, -, hv | ⟨hv, -⟩⟩)
    · exact np past
    · exact absurd (slotStream_pend f hb.1 _ hv) (by decide)
    · cases hv

theorem SlotGood.mark_sizeMismatch (f : DescFacts s.desc) (good : SlotGood s h k) :
    SlotMark s h k .sizeMismatch ↔ ¬ PastFrame s h k ∧ s.desc.errorCheck = true ∧
      slotExpected s h k ≠ (h.hdr.size.getD k 0).toNat := by
  obtain ⟨past, -⟩ | ⟨np, b, hb⟩ := good
  · refine iff_of_false ?_ fun h => h.1 past
    rintro (⟨-, hv⟩ | ⟨np, -⟩)
    · cases hv
    · exact np past
  · constructor
    · rintro (⟨past, -⟩ | ⟨-, ec, hv | ⟨-, ne⟩⟩)
      · exact absurd past np
      · exact absurd (slotStream_pend f hb.1 _ hv) (by decide)
      · exact ⟨np, ec, ne⟩
    · exact fun ⟨_, ec, ne⟩ => .inr ⟨np, ec, .inr ⟨rfl, ne⟩⟩

/-- Only a compressed slot can declare another size than it consumes (43_superblock R218). -/
theorem slotExpected_ne_iff (f : DescFacts s.desc) (hr : Ready s) (hx : s.port.arg0 < s.desc.mbw)
    (hy : s.port.arg1 < s.desc.mbh) (hp : SlotsParsed s h) (hk : k < s.desc.nsubblocks) (hb : ∃ b, SlotEnds s h k b) :
    slotExpected s h k ≠ (h.hdr.size.getD k 0).toNat ↔ h.hdr.unc.getD k false = false ∧
      ∃ (v : State) (m : Nat), slotRun s h k = .next v ∧ v.port.res.res0 = some (m : Int) ∧
        expectedSize s.desc k m ≠ (h.hdr.size.getD k 0).toNat := by
  obtain ⟨b, hb⟩ := hb
  have run := slotRun_ends f hr hk hb
  cases hu : h.hdr.unc.getD k false
  · have compressed : slotExpected s h k = expectedSize s.desc k (ceilDiv (slotStream s h k).cur.pos 8) := by
      rw [slotExpected, hu, if_neg Bool.false_ne_true]
      rfl
    rw [compressed]
    refine ⟨fun ne => ⟨rfl, _, _, run, rfl, ne⟩, fun ⟨_, v, m, hv, hm, ne⟩ => ?_⟩
    obtain rfl := Host.Outcome.next.inj (run.symm.trans hv)
    obtain rfl : (ceilDiv (slotStream s h k).cur.pos 8) = m := Int.ofNat_inj.mp (Option.some.inj hm)
    exact ne
  · refine iff_of_false (fun ne => ne ?_) fun h => by simp at h
    obtain rfl := hp.eq f hr hx hy
    have hdr := headerParsed_slots hp.2
    rw [slotExpected, hu, if_pos rfl]
    rw [hdr] at hu ⊢
    exact (uncompressed_size f hk hu).symm

theorem SlotsDecoded.inside (f : DescFacts s.desc) (D : SlotsDecoded s h u) {p : Fin 2} {c : Fin 4} {i x y : Nat}
    (hs : SampleOf s.desc s.port.arg0 s.port.arg1 p c i x y) :
    memGet (writeback u).out[c] i = (u.sb.sblk[c]).getD (y * pw s.desc p + x) 0 := by
  obtain ⟨⟨mbx, mby, -, -⟩, -, same⟩ := D.change
  have desc : u.desc = s.desc := by rw [same]; rfl
  have mbx : u.sb.mbx = s.port.arg0 := mbx
  have mby : u.sb.mby = s.port.arg1 := mby
  rw [writeback_inside (desc ▸ f) (by rw [desc, mbx, mby]; exact hs), desc]

/-- Every sample of slot `k` is the one that its own DECODE_BLOCK gives. -/
theorem SlotSample.of_run (f : DescFacts s.desc) (hr : Ready s) (hk : k < s.desc.nsubblocks) {c : Fin 4} {q : Nat} {v : Sample}
    (hv : SlotSample s h k c q v) : (PastFrame s h k → v = 0) ∧ (¬ PastFrame s h k →
      ∃ w, slotRun s h k = .next w ∧ w.port.status = .done ∧ v = (w.codec.blk[c]).getD q 0) := by
  obtain ⟨zero, rows⟩ := hv
  refine ⟨zero, fun np => ?_⟩
  obtain ⟨b, hb, hv⟩ := rows np
  exact ⟨_, slotRun_ends f hr hk hb, rfl, hv⟩

/-- A recorded violation stands behind every set bit (60_exceptions R317). -/
theorem foundError_of_bit (hi : StatusInv s) (grows : Grows s.chk u.chk) {n : Nat} (hn : u.chk.violMask.getLsbD n = true) :
    u.chk.foundError = true := by
  obtain ⟨⟨m, -, mask, found⟩, -⟩ := grows
  have set : u.chk.violMask ≠ 0 := fun e => by
    rw [e] at hn
    simp at hn
  rw [mask, or_ne_zero_iff] at set
  rw [found, Bool.or_eq_true, decide_eq_true_eq]
  exact set.imp_left hi.found.mp

end Decoded

/-- Settles O46: the header registers are those of PARSE_HEADER, so each slot of the loop reads what it reads by itself; the
slots tile the regions, so no slot writes over another. -/
theorem decodeSuperblockNormal : Obligations.DecodeSuperblockNormal := by
  intro s h hi hr hx hy hp tile decodes
  have f := hi.facts hr
  have g := hi.tiled hr
  have good : ∀ k < s.desc.nsubblocks, SlotGood s h k := fun k hk => (decodes k hk).good f hr hk
  obtain ⟨u, run, D⟩ := exec_decodeSuperblock_good f g hr hx hy hp tile good
  have desc : u.desc = s.desc := D.change.desc
  have kept (n : Nat) (h4 : n ≠ 4) : h.chk.violMask.getLsbD n = s.chk.violMask.getLsbD n := by
    rw [hp.eq f hr hx hy]
    exact parseWord_sameBits (B := (· ≠ 4)) (s := startCursor (atHeader s)) (by simp) n h4
  have bit (x : Viol) (slot : SlotBit x.bit) (h4 : x.bit ≠ 4) : u.chk.violMask.getLsbD x.bit = true ↔
      s.chk.violMask.getLsbD x.bit = true ∨ ∃ k < s.desc.nsubblocks, SlotMark s h k x := by
    rw [D.marks _ slot, kept _ h4, exists_bit_iff]
  have past : u.chk.violMask.getLsbD 10 = true ↔
      s.chk.violMask.getLsbD 10 = true ∨ ∃ k < s.desc.nsubblocks, PastFrame s h k :=
    (bit .slotRange (.inr rfl) (by decide)).trans
      (or_congr_right (exists_congr fun k => and_congr_right fun hk => (good k hk).mark_slotRange f))
  refine ⟨_, run, ?_, ?_, ?_, D.hdr, D.slot, desc, fun k hk => ?_, fun p c i x y hs => ⟨D.inside f hs, ?_⟩, ?_, past,
    fun hpast => ?_, ?_⟩
  · rw [DoneWith, completeOp_port, writeback_port, D.change.same]
    rfl
  · rw [completeOp_fat, writeback_fat, D.change.same]
    rfl
  · intro b
    rw [completeOp_fb, writeback_fb, D.change.fb]
    rfl
  · intro sl c hc i dx hdx dy hdy hs
    have value := D.samples k hk c hc dx hdx dy hdy
    have written : memGet (writeback u).out[c] i = (u.sb.sblk[c]).getD (slotCell s.desc k dx dy) 0 := D.inside f hs
    rw [← written] at value
    exact value.of_run f hr hk
  · obtain ⟨hpc, hxp, hyp, -⟩ := hs
    exact g.covers f (mem_planeComps.mp hpc).1 hxp hyp
  · exact outOutside_atSuperblock D.change (writeback_outside u)
  · exact foundError_of_bit (n := 10) hi.status D.change.grows (past.mpr (.inr hpast))
  · refine (bit .sizeMismatch (.inl (by decide)) (by decide)).trans (or_congr_right ?_)
    rw [← exists_and_left]
    refine exists_congr fun k => ?_
    by_cases hk : k < s.desc.nsubblocks
    · rw [(good k hk).mark_sizeMismatch f]
      by_cases np : PastFrame s h k
      · simp [np]
      · have ends := ((good k hk).resolve_left fun h => np h.1).2
        rw [slotExpected_ne_iff f hr hx hy hp hk ends]
        tauto
    · simp [hk]

/-- Settles O47: the loop stops at the first slot that is not good, whose number stands in `SLOT`; the samples it loses are
the superblock's. -/
theorem slotFailureIsFatal : Obligations.SlotFailureIsFatal := by
  intro s h k code hi hr hx hy hp tile hk earlier fails
  have f := hi.facts hr
  obtain ⟨t, change, L, -, run⟩ := exec_decodeSuperblock_slots f hr hx hy hp tile
  obtain ⟨u, hu, D⟩ := decodeSlots_good L f (hi.tiled hr) hk.le fun j hj => (earlier j hj).good f hr (hj.trans hk)
  have inside {n : Nat} (hn : n < s.desc.nsubblocks) : n < t.desc.nsubblocks := by rwa [L.desc]
  have loop := decodeSlots_change (s := t) (l := List.range k) fun n hn => inside ((List.mem_range.mp hn).trans hk)
  rw [hu, state_ok] at loop
  have Lu := L.change loop D.hdr
  obtain ⟨x, v, hv, rfl⟩ : ∃ x v, decodeSlot u k = .fatal x v ∧ x.value = code := by
    obtain ⟨past, strict, rfl⟩ | ⟨np, w, hw, hcode, ne⟩ := fails
    · exact ⟨.slotRange, _, decodeSlot_strict (Bool.eq_false_iff.mpr fun e => (Lu.inFrame_iff k).mp e past)
        (by rw [Lu.desc, strict]), rfl⟩
    · have bad : ∀ b, ¬ SlotEnds s h k b := fun b hb => ne (by
        obtain rfl := Host.Outcome.next.inj ((slotRun_ends f hr hk hb).symm.trans hw)
        rw [← hcode]
        simp [blockDone, slotAlone, hr.1])
      obtain ⟨v, hv⟩ := decodeSlot_fails Lu np f bad
      obtain ⟨w', hw', -, value⟩ := slotRun_fails (h := h) f hr hk bad
      obtain rfl := Host.Outcome.next.inj (hw'.symm.trans hw)
      exact ⟨_, v, hv, value.symm.trans hcode⟩
  have stop : decodeSlots t (List.range s.desc.nsubblocks) = .fatal x v :=
    decodeSlots_stop (k := k + 1) (by rw [decodeSlots_succ, hu, bind_ok, hv]) hk
  have last := decodeSlot_change (s := u) (slot := k) (by rwa [Lu.desc])
  rw [hv, state_fatal] at last
  have total := (change.trans loop).trans last
  have fat : v.fat = s.fat := by rw [total.same]; rfl
  obtain ⟨mbx, mby, -, -⟩ := total.sb
  refine ⟨_, by rw [run, stop, bind_fatal, onFatal_fatal, settle_fatal], ?_, ?_, ?_, ?_, ?_⟩
  · simp only [FailedWith, raiseFatal_port, loseAll_port, loseOut_port]
    rw [total.same]
    rfl
  · simp only [raiseFatal_fat, loseAll_fat, loseOut_fat, loseAll_sb, loseOut_sb]
    rw [fat, after_of_zero hr.1, mbx, mby, decodeSlot_slot hv]
    rfl
  · exact outOutside_atSuperblock total (loseOut_outside v)
  · intro b
    simp only [raiseFatal_fb, loseAll_fb, loseOut_fb]
    rw [total.fb]
    rfl
  · simp only [raiseFatal_desc, loseAll_desc, loseOut_desc]
    exact total.desc

end Sys2Proof.Machine

namespace Sys2Proof.Machine

/-! ### The fetch (43_superblock R226) -/

section Fetch

variable {d : Desc} {p : Fin 2} {mbx mby x y i j : Nat} {c : Fin 4}

/-- A superblock of the grid begins inside every plane of the frame. -/
theorem DescFacts.region_in_frame (f : DescFacts d) (hx : mbx < d.mbw) (hy : mby < d.mbh) (p : Fin 2) :
    mbx * pw d p < cw d p ∧ mby * ph d p < chh d p := by
  have mbw : d.mbw = ceilDiv d.width d.sbW := by rw [f.derived]; rfl
  have mbh : d.mbh = ceilDiv d.height d.sbH := by rw [f.derived]; rfl
  have half (m size blocks : Nat) (hs : size = 8 ∨ size = 16 ∨ size = 32) (n : Nat) (hn : n = 1 ∨ n = 2)
      (h : m < ceilDiv blocks size) : m * (size / n) < ceilDiv blocks n := by
    unfold ceilDiv at h ⊢
    obtain rfl | rfl | rfl := hs
    all_goals
      obtain rfl | rfl := hn
      all_goals omega
  have hsx : ssx d.subsampling p = 1 ∨ ssx d.subsampling p = 2 := by
    unfold ssx
    split <;> simp
  have hsy : ssy d.subsampling p = 1 ∨ ssy d.subsampling p = 2 := by
    unfold ssy
    split <;> simp
  have region := f.region
  exact ⟨half mbx d.sbW d.width (by omega) _ hsx (mbw ▸ hx), half mby d.sbH d.height (by omega) _ hsy (mbh ▸ hy)⟩

variable {s : State}

/-- A sample inside the frame is fetched from its own place. -/
theorem fetchSample_inside (h : SampleOf s.desc s.sb.mbx s.sb.mby p c i x y) :
    fetchSample s (p, c) x y = memGet s.out[c] i := by
  obtain ⟨-, -, -, hx, hy, rfl⟩ := h
  rw [fetchSample, Nat.min_eq_left (by simp only; omega), Nat.min_eq_left (by simp only; omega)]

/-- Every fetched sample is one of the superblock's inside the frame. -/
theorem fetchSample_of (f : DescFacts s.desc) (hx : s.sb.mbx < s.desc.mbw) (hy : s.sb.mby < s.desc.mbh)
    (hpc : (p, c) ∈ planeComps s.desc) (hxp : x < pw s.desc p) (hyp : y < ph s.desc p) :
    ∃ i x' y', SampleOf s.desc s.sb.mbx s.sb.mby p c i x' y' ∧ fetchSample s (p, c) x y = memGet s.out[c] i := by
  obtain ⟨inX, inY⟩ := f.region_in_frame hx hy p
  refine ⟨_, min x (cw s.desc p - 1 - s.sb.mbx * pw s.desc p), min y (chh s.desc p - 1 - s.sb.mby * ph s.desc p),
    ⟨hpc, by omega, by omega, by omega, by omega, rfl⟩, ?_⟩
  have col : min (s.sb.mbx * pw s.desc p + x) (cw s.desc p - 1) =
      s.sb.mbx * pw s.desc p + min x (cw s.desc p - 1 - s.sb.mbx * pw s.desc p) := by omega
  have row : min (s.sb.mby * ph s.desc p + y) (chh s.desc p - 1) =
      s.sb.mby * ph s.desc p + min y (chh s.desc p - 1 - s.sb.mby * ph s.desc p) := by omega
  simp only [fetchSample, col, row]

/-- The fetched rows hold the fetched samples. -/
theorem fetch_row (f : DescFacts s.desc) (hpc : (p, c) ∈ planeComps s.desc) (hj : j < pw s.desc p * ph s.desc p) :
    ((fetch s).sb.sblk[c]).getD j 0 = fetchSample s (p, c) (j % pw s.desc p) (j / pw s.desc p) := by
  have h256 : j < 256 := hj.trans_le (f.region_facts p).2.2.1
  have plane := f.planeOfComp_eq hpc
  rw [vector_getD _ h256]
  simp only [fetch_sb, fetchedRows, Fin.getElem_fin, Vector.getElem_ofFn, Fin.eta, plane, fetchRow]
  exact if_pos hj

theorem fetch_cell (f : DescFacts s.desc) (hpc : (p, c) ∈ planeComps s.desc) (hx : x < pw s.desc p) (hy : y < ph s.desc p) :
    ((fetch s).sb.sblk[c]).getD (y * pw s.desc p + x) 0 = fetchSample s (p, c) x y := by
  have hw : 0 < pw s.desc p := (f.region_facts p).1
  rw [fetch_row f hpc (cell_lt hx hy), Nat.mul_add_mod', Nat.mod_eq_of_lt hx, Nat.mul_comm, Nat.mul_add_div hw,
    Nat.div_eq_of_lt hx, Nat.add_zero]

theorem mem_regionSamples {v : Sample} (f : DescFacts s.desc) (hpc : (p, c) ∈ planeComps s.desc)
    (hv : v ∈ regionSamples (fetch s) (p, c)) : ∃ x < pw s.desc p, ∃ y < ph s.desc p, v = fetchSample s (p, c) x y := by
  obtain ⟨j, hj, rfl⟩ := List.mem_take_iff_getElem.mp hv
  obtain ⟨region, h256⟩ := Nat.lt_min.mp hj
  have region : j < pw s.desc p * ph s.desc p := region
  have h256 : j < 256 := by simpa using h256
  have hw : 0 < pw s.desc p := (f.region_facts p).1
  refine ⟨_, Nat.mod_lt j hw, _, Nat.div_lt_of_lt_mul region, ?_⟩
  rw [← fetch_row f hpc region, vector_getD _ h256]
  simp

end Fetch

/-! ### ENCODE_SUPERBLOCK as an instruction (43_superblock R225, R226) -/

section Encode

variable {s : State}

/-- The state with the coordinates set and the samples fetched. -/
def fetched (s : State) : State := fetch (setCoords s s.port.arg0 s.port.arg1)

/-- Every sample of the superblock inside the frame is within its component's depth. -/
def SamplesInRange (s : State) : Prop := ∀ p c i x y, SampleOf s.desc s.port.arg0 s.port.arg1 p c i x y →
  (memGet s.out[c] i).toNat < 2 ^ inBits s.desc.toDescIn c

theorem fetched_inRange (f : DescFacts s.desc) (hx : s.port.arg0 < s.desc.mbw) (hy : s.port.arg1 < s.desc.mbh)
    (range : SamplesInRange s) : fetchInRange (fetched s) = true := by
  refine List.all_eq_true.mpr fun pc hpc => List.all_eq_true.mpr fun v hv => decide_eq_true ?_
  obtain ⟨x, hxp, y, hyp, rfl⟩ := mem_regionSamples (s := setCoords s s.port.arg0 s.port.arg1) f hpc hv
  obtain ⟨i, x', y', sample, e⟩ := fetchSample_of (s := setCoords s s.port.arg0 s.port.arg1) f hx hy hpc hxp hyp
  rw [e]
  exact range _ _ _ _ _ sample

theorem exec_encodeSuperblock (f : DescFacts s.desc) (hr : Ready s) (hx : s.port.arg0 < s.desc.mbw)
    (hy : s.port.arg1 < s.desc.mbh) (hptr : s.port.arg2 < 2 ^ s.desc.ptrBits) (range : SamplesInRange s) :
    exec .encodeSuperblock s = settle ((if s.desc.allowSolid && allConstant (fetched s) then
      encodeSolid (fetched s) s.port.arg2 else encodeNormal (fetched s) s.port.arg2).onFatal loseAll)
        fun off => ⟨some (off : Int), none, none⟩ := by
  have admitted : (!fetchInRange (fetched s) || decide (2 ^ (fetched s).desc.ptrBits ≤ s.port.arg2)) = false := by
    have ptr : ¬ 2 ^ (fetched s).desc.ptrBits ≤ s.port.arg2 := Nat.not_le.mpr hptr
    rw [fetched_inRange f hx hy range, decide_eq_false ptr]
    rfl
  have run : encodeSuperblockRun s s.port.arg0 s.port.arg1 s.port.arg2 =
      (if !fetchInRange (fetched s) || decide (2 ^ (fetched s).desc.ptrBits ≤ s.port.arg2) then .fatal .badInput (fetched s)
        else if s.desc.allowSolid && allConstant (fetched s) then encodeSolid (fetched s) s.port.arg2
        else encodeNormal (fetched s) s.port.arg2).onFatal loseAll := rfl
  change execEncodeSuperblock s = _
  rw [execEncodeSuperblock, ifReady_ready hr.1 hr.2, inGrid, decide_eq_true ⟨hx, hy⟩, ifInput_true, run, admitted,
    if_neg Bool.false_ne_true]

end Encode

/-! ### A header that was written (44_header_address R248) -/

section HeaderWord

variable {m : Mem 8} {n w lo k : Nat}

theorem memBytes_memSetBytes (m : Mem 8) (a : Nat) (bs : List Byte) : memBytes (memSetBytes m a bs) a bs.length = bs := by
  refine List.ext_getElem (by simp [memBytes]) fun i h1 h2 => ?_
  simp only [memBytes, List.getElem_map, List.getElem_range]
  rw [memGet_memSetBytes, if_pos (by omega), Nat.add_sub_cancel_left, List.getD_eq_getElem _ _ h2]

theorem headerWord_memSetBytes (m : Mem 8) (n w : Nat) :
    headerWord (memSetBytes m (headerAddr n) (natToBytes 16 w)) n = w % 2 ^ 128 := by
  have bytes := memBytes_memSetBytes m (headerAddr n) (natToBytes 16 w)
  rw [length_natToBytes] at bytes
  rw [headerWord, bytes, bytesToNat_natToBytes, show (256 : Nat) ^ 16 = 2 ^ 128 by norm_num]

/-- The fields of a header that was written are those of its 128 bits. -/
theorem bitField_written (h : lo + k ≤ 128) :
    bitField (headerWord (memSetBytes m (headerAddr n) (natToBytes 16 w)) n) lo k = bitField w lo k := by
  rw [headerWord_memSetBytes, bitField, bitField, Nat.shiftRight_eq_div_pow, Nat.shiftRight_eq_div_pow,
    show 128 = lo + (128 - lo) by omega, pow_add, Nat.mod_mul_right_div_self,
    Nat.mod_mod_of_dvd _ (pow_dvd_pow 2 (by omega))]

end HeaderWord

/-! ### The colours of a solid-colour header (43_superblock R227; 30_encoding R98) -/

section Colours

variable {ι : Type} {v pos w : ι → Nat}

/-- The sum of the fields `v e`, each at its own bit `pos e`. -/
def packFields (v pos : ι → Nat) (l : List ι) : Nat := (l.map fun e => v e * 2 ^ pos e).sum

theorem packFields_dvd {l : List ι} {n : Nat} (h : ∀ e ∈ l, n ≤ pos e) : 2 ^ n ∣ packFields v pos l := by
  refine List.dvd_sum fun x hx => ?_
  obtain ⟨e, he, rfl⟩ := List.mem_map.mp hx
  exact (pow_dvd_pow 2 (h e he)).mul_left _

/-- Below the first field there are zeros. -/
theorem bitField_below {x n lo k : Nat} (h : 2 ^ n ∣ x) (hk : lo + k ≤ n) : bitField x lo k = 0 := by
  obtain ⟨q, rfl⟩ := h
  rw [bitField, Nat.shiftRight_eq_div_pow, show n = lo + (k + (n - lo - k)) by omega, pow_add, Nat.mul_assoc,
    Nat.mul_div_cancel_left _ (Nat.two_pow_pos lo), pow_add, Nat.mul_assoc, Nat.mul_mod_right]

/-- Fields that follow one another can be read back. -/
theorem bitField_packFields {l : List ι} (apart : l.Pairwise fun a b => pos a + w a ≤ pos b) (fits : ∀ e ∈ l, v e < 2 ^ w e)
    {c : ι} (hc : c ∈ l) : bitField (packFields v pos l) (pos c) (w c) = v c := by
  induction l with
  | nil => cases hc
  | cons e l ih =>
    obtain ⟨before, apart⟩ := List.pairwise_cons.mp apart
    obtain ⟨fitsE, fits⟩ := List.forall_mem_cons.mp fits
    obtain ⟨q, hq⟩ := packFields_dvd (v := v) (n := pos e + w e) before
    have head : packFields v pos (e :: l) = v e * 2 ^ pos e + packFields v pos l := rfl
    rw [head, bitField, Nat.shiftRight_eq_div_pow]
    obtain rfl | hcl := List.mem_cons.mp hc
    · rw [hq, pow_add, Nat.mul_comm (v c), Nat.mul_assoc, ← Nat.mul_add, Nat.mul_div_cancel_left _ (Nat.two_pow_pos _),
        Nat.add_mul_mod_self_left, Nat.mod_eq_of_lt fitsE]
    · have small : v e * 2 ^ pos e < 2 ^ (pos e + w e) := by
        rw [pow_add, Nat.mul_comm]
        exact Nat.mul_lt_mul_of_pos_left fitsE (Nat.two_pow_pos _)
      have rest := ih apart fits hcl
      rw [bitField, Nat.shiftRight_eq_div_pow, hq] at rest
      rw [hq, ← rest]
      obtain ⟨r, hr⟩ := Nat.exists_eq_add_of_le (before c hcl)
      rw [hr, pow_add 2 (pos e + w e), ← Nat.div_div_eq_div_mul, ← Nat.div_div_eq_div_mul,
        Nat.add_mul_div_left _ _ (Nat.two_pow_pos _), Nat.div_eq_of_lt small, Nat.zero_add,
        Nat.mul_div_cancel_left _ (Nat.two_pow_pos _)]

variable {d : Desc}

theorem solidPos_add_le (i : DescIn) {a b : Fin 4} (h : a < b) : solidPos i a + inBits i a ≤ solidPos i b := by
  have mono : Monotone fun n => ((List.range n).map fun e => inBits i (Fin.ofNat 4 e)).sum :=
    monotone_nat_of_le_succ fun n => by
      simp only [List.range_succ, List.map_append, List.sum_append]
      exact Nat.le_add_right _ _
  have step := mono (Nat.succ_le_of_lt h)
  simp only [Nat.succ_eq_add_one, List.range_succ, List.map_append, List.sum_append, List.map_cons, List.map_nil,
    List.sum_singleton] at step
  have here : Fin.ofNat 4 a.val = a := Fin.ext (Nat.mod_eq_of_lt a.isLt)
  rw [here] at step
  rw [solidPos_eq, solidPos_eq, solidBefore, solidBefore]
  omega

/-- The components of a frame stand in ascending order. -/
theorem DescFacts.planeComps_sorted (f : DescFacts d) : (planeComps d).Pairwise fun a b => a.2 < b.2 := by
  have within (p : Fin 2) : ((comps d.toDescIn p).map fun c => (p, c)).Pairwise fun a b => a.2 < b.2 := by
    rw [List.pairwise_map]
    exact List.Pairwise.filter _ (by decide : allComps.Pairwise (· < ·))
  unfold planeComps planes
  split
  · next h2 =>
    simp only [List.flatMap_cons, List.flatMap_nil, List.append_nil]
    refine List.pairwise_append.mpr ⟨within 0, within 1, fun a ha b hb => ?_⟩
    obtain ⟨c, hc, rfl⟩ := List.mem_map.mp ha
    obtain ⟨e, he, rfl⟩ := List.mem_map.mp hb
    have apart := f.disjoint h2
    rw [mem_comps_iff] at hc he
    exact Fin.lt_def.mpr (hc.2.trans_le (apart.trans he.1))
  · simpa using within 0

end Colours

/-! ### A constant superblock (43_superblock R227) -/

section Constant

variable {s : State} {v : Fin 4 → Sample}

/-- Every sample of the superblock is its component's value. -/
def ConstantSamples (s : State) (v : Fin 4 → Sample) : Prop :=
  ∀ p c i x y, SampleOf s.desc s.port.arg0 s.port.arg1 p c i x y →
    memGet s.out[c] i = v c ∧ (v c).toNat < 2 ^ inBits s.desc.toDescIn c

/-- `s` after the header in solid-colour form was written. -/
def solidEncoded (s : State) : State :=
  completeOp { fetched s with
    fb := memSetBytes s.fb (headerAddr (mbnumOf s.desc s.port.arg0 s.port.arg1)) (natToBytes 16 (solidWord (fetched s)))
    hdr := { s.hdr with solid := true } } ⟨some (s.port.arg2 : Int), none, none⟩

variable (f : DescFacts s.desc) (hr : Ready s) (hx : s.port.arg0 < s.desc.mbw) (hy : s.port.arg1 < s.desc.mbh)
  (hv : ConstantSamples s v)
include f hx hy hv

theorem fetched_constant {p : Fin 2} {c : Fin 4} {x y : Nat} (hpc : (p, c) ∈ planeComps s.desc)
    (hxp : x < pw s.desc p) (hyp : y < ph s.desc p) :
    fetchSample (setCoords s s.port.arg0 s.port.arg1) (p, c) x y = v c ∧ (v c).toNat < 2 ^ inBits s.desc.toDescIn c := by
  obtain ⟨i, x', y', sample, e⟩ := fetchSample_of (s := setCoords s s.port.arg0 s.port.arg1) f hx hy hpc hxp hyp
  obtain ⟨value, fits⟩ := hv _ _ _ _ _ sample
  exact ⟨e.trans value, fits⟩

theorem fetched_zero {pc : Fin 2 × Fin 4} (hpc : pc ∈ planeComps s.desc) :
    ((fetched s).sb.sblk[pc.2])[0] = v pc.2 ∧ (v pc.2).toNat < 2 ^ inBits s.desc.toDescIn pc.2 := by
  obtain ⟨hw, hh, -⟩ := f.region_facts pc.1
  obtain ⟨value, fits⟩ := fetched_constant f hx hy hv hpc hw hh
  have cell := fetch_cell (s := setCoords s s.port.arg0 s.port.arg1) f hpc hw hh
  rw [vector_getD _ (by omega)] at cell
  have first : ((fetched s).sb.sblk[pc.2])[0 * pw s.desc pc.1 + 0]'(by omega) = v pc.2 := cell.trans value
  simp only [Nat.zero_mul] at first
  exact ⟨first, fits⟩

theorem fetched_allConstant : allConstant (fetched s) = true := by
  refine List.all_eq_true.mpr fun pc hpc => List.all_eq_true.mpr fun z hz => beq_iff_eq.mpr ?_
  obtain ⟨x, hxp, y, hyp, rfl⟩ := mem_regionSamples (s := setCoords s s.port.arg0 s.port.arg1) f hpc hz
  rw [(fetched_constant f hx hy hv hpc hxp hyp).1, (fetched_zero f hx hy hv hpc).1]

/-- The header's bits are the fields of the colours. -/
theorem solidWord_eq : solidWord (fetched s) =
    packFields (fun c => (v c).toNat) (solidPos s.desc.toDescIn) ((planeComps s.desc).map Prod.snd) := by
  rw [solidWord, packFields, List.map_map]
  refine congrArg List.sum (List.map_congr_left fun pc hpc => ?_)
  rw [(fetched_zero f hx hy hv hpc).1]
  rfl

include hr

theorem exec_encodeSuperblock_constant (hptr : s.port.arg2 < 2 ^ s.desc.ptrBits) (ha : s.desc.allowSolid = true) :
    exec .encodeSuperblock s = .next (solidEncoded s) := by
  have range : SamplesInRange s := fun p c i x y h => by
    obtain ⟨value, fits⟩ := hv p c i x y h
    rwa [value]
  have fits : headerFits (fetched s) (fetched s).sb.mbnum = true := f.headerFits hr hx hy
  rw [exec_encodeSuperblock f hr hx hy hptr range, ha, fetched_allConstant f hx hy hv, Bool.and_self, if_pos rfl,
    encodeSolid, if_pos fits, onFatal_ok, settle_ok]
  rfl

omit hr in
theorem solidEncoded_field {lo k : Nat} (h : lo + k ≤ 64) :
    IsField (solidEncoded s) (headerAddr (mbnumOf s.desc s.port.arg0 s.port.arg1)) lo k 0 := by
  have upper : 2 ^ 64 ∣ solidWord (fetched s) := by
    rw [solidWord_eq f hx hy hv]
    refine packFields_dvd fun c _ => ?_
    rw [solidPos_eq]
    exact Nat.le_add_right _ _
  have zero : bitField (headerWord (solidEncoded s).fb (mbnumOf s.desc s.port.arg0 s.port.arg1)) lo k = 0 :=
    (bitField_written (by omega)).trans (bitField_below upper h)
  have field := isField_headerWord (solidEncoded s) (mbnumOf s.desc s.port.arg0 s.port.arg1) lo k (by omega)
  rwa [zero] at field

omit hr in
theorem solidEncoded_colour {p : Fin 2} {c : Fin 4} (hpc : (p, c) ∈ planeComps s.desc) :
    bitField (headerWord (solidEncoded s).fb (mbnumOf s.desc s.port.arg0 s.port.arg1))
      (64 + solidBefore s.desc.toDescIn c) (inBits s.desc.toDescIn c) = (v c).toNat := by
  refine (bitField_written (f.solidBefore_le c)).trans ?_
  rw [solidWord_eq f hx hy hv, ← solidPos_eq]
  refine bitField_packFields (v := fun c => (v c).toNat) ?_ (fun e he => ?_) (List.mem_map.mpr ⟨_, hpc, rfl⟩)
  · rw [List.pairwise_map]
    exact f.planeComps_sorted.imp fun h => solidPos_add_le _ h
  · obtain ⟨pc, hpc, rfl⟩ := List.mem_map.mp he
    exact (fetched_zero f hx hy hv hpc).2

end Constant

/-- Settles O50: the header's low half is 0, which is the solid form, and its colour fields are those of the components. -/
theorem solidSuperblockRoundTrip : Obligations.SolidSuperblockRoundTrip := by
  intro s v hi hr hx hy hptr ha hv a
  have f := hi.facts hr
  have hv : ConstantSamples s v := hv
  obtain ⟨-, -, -, -, h64⟩ := f.narrow
  have size : IsField (solidEncoded s) a s.desc.ptrBits s.desc.sizeBits 0 := solidEncoded_field f hx hy hv h64
  refine ⟨solidEncoded s, solidDecoded (solidEncoded s), exec_encodeSuperblock_constant f hr hx hy hv hptr ha, rfl,
    solidEncoded_field f hx hy hv (by omega), size, fun b hb => ?_,
    exec_decodeSuperblock_solid (s := solidEncoded s) f hr hx hy ha size, rfl, fun c i => ?_⟩
  · exact memGet_memSetBytes_outside (by rwa [length_natToBytes])
  · by_cases inside : ∃ p x y, SampleOf s.desc s.port.arg0 s.port.arg1 p c i x y
    · obtain ⟨p, x, y, sample⟩ := inside
      refine BitVec.eq_of_toNat_eq ?_
      rw [(hv p c i x y sample).1, ← solidEncoded_colour f hx hy hv sample.1]
      exact solidDecoded_inside (s := solidEncoded s) f sample
    · push Not at inside
      exact solidDecoded_outside (solidEncoded s) c i inside

end Sys2Proof.Machine

namespace Sys2Proof.Machine

/-! ### The payload room (46_descriptor R297; 44_header_address R245) -/

section Room

variable {d : Desc} {k ptr : Nat} {code : Nat → Nat}

/-- The bytes of the payload room that the slots before the `k`-th can take, the jump of a split superblock counted. -/
def roomBefore (d : Desc) (k : Nat) : Nat :=
  if d.blockSplit ∧ d.splitSlot.toNat ≤ k then
    d.maxpay / 2 + payloadOf d.toDescIn ((d.table.slots.take k).drop d.splitSlot.toNat)
  else payloadOf d.toDescIn (d.table.slots.take k)

theorem payloadOf_append (i : DescIn) (l m : List Slot) : payloadOf i (l ++ m) = payloadOf i l + payloadOf i m := by
  simp [payloadOf]

theorem take_succ_slots (f : DescFacts d) (hk : k < d.nsubblocks) :
    d.table.slots.take (k + 1) = d.table.slots.take k ++ [slotAt d k] := by
  have hl : k < d.table.slots.length := f.slots ▸ hk
  rw [List.take_succ_eq_append_getElem hl, slotAt, List.getD_eq_getElem _ _ hl]

theorem payloadOf_slot (f : DescFacts d) (k : Nat) : payloadOf d.toDescIn [slotAt d k] = d.uncompSize[slotPlane d k] := by
  have sizes : d.uncompSize = Vector.ofFn fun p => uncompSizeOf d.toDescIn p := by rw [f.derived]; rfl
  rw [sizes]
  simp [payloadOf, slotPlane]

theorem roomBefore_split (h : isSplit d.toDescIn k = true) : roomBefore d k = d.maxpay / 2 := by
  obtain ⟨hs, hk⟩ := Bool.and_eq_true_iff.mp h
  obtain rfl : k = d.splitSlot.toNat := of_decide_eq_true hk
  rw [roomBefore, if_pos ⟨hs, le_rfl⟩, List.drop_eq_nil_of_le (List.length_take_le _ _)]
  rfl

/-- Each slot has room for its uncompressed size. -/
theorem roomBefore_succ (f : DescFacts d) (hk : k < d.nsubblocks) :
    roomBefore d k + d.uncompSize[slotPlane d k] ≤ roomBefore d (k + 1) := by
  have hl : d.table.slots.length = d.nsubblocks := f.slots
  rw [roomBefore, roomBefore, take_succ_slots f hk, payloadOf_append, payloadOf_slot f]
  by_cases hs : d.blockSplit = true
  · by_cases before : d.splitSlot.toNat ≤ k
    · rw [if_pos ⟨hs, before⟩, if_pos ⟨hs, by omega⟩, List.drop_append_of_le_length (by rw [List.length_take]; omega),
        payloadOf_append, payloadOf_slot f, Nat.add_assoc]
    · by_cases here : d.splitSlot.toNat = k + 1
      · obtain ⟨-, -, first, -⟩ := f.split hs
        rw [here, take_succ_slots f hk, payloadOf_append, payloadOf_slot f] at first
        rw [if_neg fun h => before h.2, if_pos ⟨hs, here.le⟩]
        omega
      · rw [if_neg fun h => before h.2, if_neg fun h => here (by omega)]
  · rw [if_neg fun h => hs h.1, if_neg fun h => hs h.1]

theorem roomBefore_last (f : DescFacts d) : roomBefore d d.nsubblocks ≤ d.maxpay := by
  rw [roomBefore, ← f.slots, List.take_length]
  split
  · next h =>
    obtain ⟨-, -, -, second⟩ := f.split h.1
    omega
  · exact f.maxpay_eq.ge

theorem roomBefore_le (f : DescFacts d) (hk : k ≤ d.nsubblocks) : roomBefore d k ≤ d.maxpay := by
  refine le_trans ?_ (roomBefore_last f)
  induction hk using Nat.decreasingInduction with
  | self => exact le_rfl
  | of_succ k hk ih => exact (Nat.le_add_right _ _).trans ((roomBefore_succ f hk).trans ih)

/-- The codes of the slots before the `k`-th give no slot more than its uncompressed size. -/
def SlotsFit (d : Desc) (code : Nat → Nat) (k : Nat) : Prop :=
  ∀ j < k, codeSize d j (code j) ≤ d.uncompSize[slotPlane d j]

theorem SlotsFit.before {j : Nat} (h : SlotsFit d code k) (hj : j ≤ k) : SlotsFit d code j := fun i hi => h i (hi.trans_le hj)

theorem isSplit_zero (f : DescFacts d) : isSplit d.toDescIn 0 = false := by
  by_contra h
  obtain ⟨hs, h0⟩ := Bool.and_eq_true_iff.mp (Bool.eq_true_of_not_eq_false h)
  have h0 : 0 = d.splitSlot.toNat := of_decide_eq_true h0
  have := (f.split hs).1
  omega

theorem slotOffset_zero (f : DescFacts d) : slotOffset d ptr code 0 = ptr := by
  rw [slotOffset, if_neg]
  rintro ⟨hs, h0⟩
  have := (f.split hs).1
  omega

variable (f : DescFacts d)
include f

/-- Every slot begins inside the room of the slots before it. -/
theorem slotOffset_room (hk : k ≤ d.nsubblocks) (fit : SlotsFit d code k) :
    slotOffset d ptr code k ≤ ptr + roomBefore d k := by
  induction k with
  | zero => rw [slotOffset_zero f]; exact Nat.le_add_right _ _
  | succ k ih =>
    have before := ih (by omega) (fit.before (by omega))
    have own := fit k (Nat.lt_succ_self k)
    have room := roomBefore_succ f hk
    rw [slotOffset_succ]
    split
    · next h => rw [roomBefore_split h, splitOffset]
    · omega

/-- No slot begins before the one before it ends. -/
theorem slotOffset_step (hk : k < d.nsubblocks) (fit : SlotsFit d code (k + 1)) :
    slotOffset d ptr code k + codeSize d k (code k) ≤ slotOffset d ptr code (k + 1) := by
  have before := slotOffset_room (ptr := ptr) f hk.le (fit.before (Nat.le_succ k))
  have own := fit k (Nat.lt_succ_self k)
  have room := roomBefore_succ f hk
  rw [slotOffset_succ]
  split
  · next h =>
    rw [roomBefore_split h] at room
    rw [splitOffset]
    omega
  · exact le_rfl

theorem slotOffset_apart {j : Nat} (hj : j < k) (hk : k ≤ d.nsubblocks) (fit : SlotsFit d code k) :
    slotOffset d ptr code j + codeSize d j (code j) ≤ slotOffset d ptr code k := by
  induction k, hj using Nat.le_induction with
  | base => exact slotOffset_step f hk fit
  | succ k hj ih =>
    have step := slotOffset_step (ptr := ptr) f hk fit
    have before := ih (by omega) (fit.before (Nat.le_succ k))
    omega

theorem le_slotOffset (hk : k ≤ d.nsubblocks) (fit : SlotsFit d code k) : ptr ≤ slotOffset d ptr code k := by
  cases k with
  | zero => rw [slotOffset_zero f]
  | succ k =>
    have apart := slotOffset_apart (ptr := ptr) f (Nat.succ_pos k) hk fit
    rw [slotOffset_zero f] at apart
    exact (Nat.le_add_right _ _).trans apart

end Room

/-! ### One slot of the encode loop (43_superblock R225, R228, R229) -/

section EncodeStep

variable {t : State} {k pos : Nat} {a : EncLoop} {e : Encoded}

/-- Where slot `k` is stored, if it is. -/
def EncLoop.start (a : EncLoop) (d : Desc) (pos k : Nat) : Nat := if isSplit d.toDescIn k then splitOffset d pos else a.off

/-- The subblock of slot `k`. -/
def slotBlock (t : State) (k : Nat) : Vector (Vector Sample 16) 4 := (loadBlock (atSlot t k) (slotAt t.desc k)).codec.blk

/-- `t` with the subblock of slot `k` loaded and its trees built. -/
def slotLoaded (t : State) (k : Nat) (e : Encoded) : State :=
  { loadBlock (atSlot t k) (slotAt t.desc k) with
    codec := (loadBlock (atSlot t k) (slotAt t.desc k)).codec.setTrees e.trees
    cur := (⟨8 * e.bytes.length, false⟩ : Cursor).reg }

/-- Where slot `k` was encoded to `e` with the code `code`: as a copy of the last slot of its plane, or stored. -/
inductive SlotForm (d : Desc) (t : State) (a : EncLoop) (start k : Nat) (e : Encoded) (code : Nat) (m : Mem 8) : Prop where
  | copy (l : LastSlot) (last : a.last[slotPlane d k] = some l) (bytes : e.bytes = l.bytes) (unc : e.unc = l.unc)
      (zero : code = 0) (fb : m = t.fb)
  | stored (ne : code ≠ 0) (size : codeSize d k code = e.bytes.length) (unc : decide (code = 1) = e.unc)
      (fb : m = memSetBytes t.fb start e.bytes)

/-- What encoding slot `k` does. -/
structure EncodeStep (d : Desc) (t : State) (a : EncLoop) (start k : Nat) (e : Encoded) (code : Nat) (a' : EncLoop)
    (t' : State) : Prop where
  last : a'.last = a.last.set (slotPlane d k) (some ⟨k, e.bytes, e.unc⟩)
  off : a'.off = start + codeSize d k code
  ptr : t'.hdr.ptr = t.hdr.ptr
  lt : code < 2 ^ d.sizeBits
  codes : ∀ j, t'.hdr.codeAt j = if j = k then code else t.hdr.codeAt j
  form : SlotForm d t a start k e code t'.fb

theorem copySource_some {d : DescIn} {slot : Nat} {p : Fin 2} {l : LastSlot} (h : copySource d a slot p e = some l) :
    a.last[p] = some l ∧ e.bytes = l.bytes ∧ e.unc = l.unc := by
  unfold copySource at h
  split at h
  · cases h
  · next l' hl =>
    split at h
    · next cond =>
      obtain rfl := Option.some.inj h
      have same := (Bool.and_eq_true_iff.mp cond).2
      rw [repeats, Bool.and_eq_true, beq_iff_eq, beq_iff_eq] at same
      exact ⟨hl, same⟩
    · cases h

variable (f : DescFacts t.desc) (hk : k < t.desc.nsubblocks)
include f hk

/-- The code of a stored slot fits its field and gives its size. -/
theorem storedCode {blk : Vector (Vector Sample 16) 4} (enc : Encodes t.desc (slotPlane t.desc k) blk e) :
    let code := if e.unc then 1 else e.bytes.length / (t.desc.sbsMultiplier[slotPlane t.desc k]).toNat
    code ≠ 0 ∧ code < 2 ^ t.desc.sizeBits ∧ codeSize t.desc k code = e.bytes.length ∧ decide (code = 1) = e.unc := by
  have size := enc.size f (slotPlane_lt f hk)
  have wide : 1 < 2 ^ t.desc.sizeBits := by
    rw [f.size]
    cases t.desc.subsampling <;> decide
  intro code
  cases hu : e.unc
  · rw [hu, if_neg Bool.false_ne_true] at size
    obtain ⟨-, whole, h2, hlt⟩ := size
    have hcode : code = e.bytes.length / (t.desc.sbsMultiplier[slotPlane t.desc k]).toNat := by simp [code, hu]
    rw [← hcode] at h2 hlt
    refine ⟨by omega, hlt, ?_, decide_eq_false (by omega)⟩
    rw [codeSize, if_neg (by omega), if_neg (by omega), hcode]
    exact Nat.div_mul_cancel (Nat.dvd_of_mod_eq_zero whole)
  · have hcode : code = 1 := by simp [code, hu]
    rw [hu, if_pos rfl] at size
    rw [hcode]
    exact ⟨Nat.one_ne_zero, wide, by rw [codeSize, if_neg Nat.one_ne_zero, if_pos rfl, size], rfl⟩

theorem storeSlot_ok {blk : Vector (Vector Sample 16) 4} {u : State} {off : Nat} (hd : u.desc = t.desc)
    (enc : Encodes t.desc (slotPlane t.desc k) blk e) (room : off + e.bytes.length ≤ bufSize u) :
    storeSlot u k off (slotPlane t.desc k) e = .ok () { u with
      fb := memSetBytes u.fb off e.bytes
      cur := (⟨8 * e.bytes.length, false⟩ : Cursor).reg
      hdr := (u.hdr.setEntry k off e.bytes.length e.unc).setCode k
        (if e.unc then 1 else e.bytes.length / (t.desc.sbsMultiplier[slotPlane t.desc k]).toNat) } := by
  have size := enc.size f (slotPlane_lt f hk)
  have coded : (!e.unc && (decide (e.bytes.length % (t.desc.sbsMultiplier[slotPlane t.desc k]).toNat ≠ 0) ||
      decide (2 ^ t.desc.sizeBits ≤ e.bytes.length / (t.desc.sbsMultiplier[slotPlane t.desc k]).toNat))) = false := by
    cases hu : e.unc
    · rw [hu, if_neg Bool.false_ne_true] at size
      obtain ⟨-, whole, -, hlt⟩ := size
      rw [whole, decide_eq_false (not_not.mpr rfl), decide_eq_false (Nat.not_le.mpr hlt)]
      rfl
    · rfl
  simp only [storeSlot, if_neg (Nat.not_lt.mpr room), hd, coded, Bool.false_eq_true, if_false]

omit f hk in
theorem encodeSlot_copy (run : encodeRun t.desc (slotPlane t.desc k) (slotBlock t k) = some e) {l : LastSlot}
    (hc : copySource t.desc.toDescIn a k (slotPlane t.desc k) e = some l) : encodeSlot t pos k a =
      .ok ⟨a.start t.desc pos k, a.last.set (slotPlane t.desc k) (some ⟨k, e.bytes, e.unc⟩),
        a.ord.set (slotPlane t.desc k) (a.ord[slotPlane t.desc k] + 1)⟩
        { slotLoaded t k e with hdr := (t.hdr.copyEntry k l.slot).setCode k 0 } := by
  unfold slotPlane at run hc
  unfold slotBlock atSlot at run
  simp only [encodeSlot, run, hc]
  rfl

omit f hk in
theorem encodeSlot_store (run : encodeRun t.desc (slotPlane t.desc k) (slotBlock t k) = some e)
    (hc : copySource t.desc.toDescIn a k (slotPlane t.desc k) e = none) : encodeSlot t pos k a =
      (storeSlot (slotLoaded t k e) k (a.start t.desc pos k) (slotPlane t.desc k) e).bind fun _ u =>
        .ok ⟨a.start t.desc pos k + e.bytes.length, a.last.set (slotPlane t.desc k) (some ⟨k, e.bytes, e.unc⟩),
          a.ord.set (slotPlane t.desc k) (a.ord[slotPlane t.desc k] + 1)⟩ u := by
  unfold slotPlane at run hc
  unfold slotBlock atSlot at run
  simp only [encodeSlot, run, hc]
  rfl

/-- A slot whose samples are in range and whose uncompressed size fits is encoded. -/
theorem encodeSlot_ok (below : BlockBelow t.desc.toDescIn (slotPlane t.desc k) (slotBlock t k))
    (room : a.start t.desc pos k + t.desc.uncompSize[slotPlane t.desc k] ≤ bufSize t) :
    ∃ e code a' t', encodeSlot t pos k a = .ok a' t' ∧ Encodes t.desc (slotPlane t.desc k) (slotBlock t k) e ∧
      EncodeStep t.desc t a (a.start t.desc pos k) k e code a' t' := by
  obtain ⟨e, run, enc⟩ := encodeRun_encodes f below
  obtain ⟨-, h6, -, h24, -⟩ := f.narrow
  cases hc : copySource t.desc.toDescIn a k (slotPlane t.desc k) e with
  | some l =>
    obtain ⟨last, bytes, unc⟩ := copySource_some hc
    refine ⟨e, 0, _, _, encodeSlot_copy run hc, enc, rfl, rfl, rfl, Nat.two_pow_pos _, fun j => ?_,
      .copy l last bytes unc rfl rfl⟩
    exact setCode_codeAt _ _ _ (by omega)
  | none =>
    obtain ⟨ne, lt, size, one⟩ := storedCode f hk enc
    have stored := storeSlot_ok (u := slotLoaded t k e) f hk rfl enc (off := a.start t.desc pos k)
      ((Nat.add_le_add_left (enc.length_le f (slotPlane_lt f hk)) _).trans room)
    have done := encodeSlot_store (pos := pos) run hc
    rw [stored, bind_ok] at done
    refine ⟨e, _, _, _, done, enc, rfl, by rw [size], rfl, lt, fun j => ?_, .stored ne size one rfl⟩
    refine (setCode_codeAt _ _ _ (by omega)).trans ?_
    rw [Nat.mod_eq_of_lt (lt.trans_le (Nat.pow_le_pow_right (by decide) h6))]
    rfl

end EncodeStep

end Sys2Proof.Machine

namespace Sys2Proof.Machine

/-! ### What the encode loop keeps (43_superblock R225 to R230) -/

section Kept

variable {d : Desc} {pos k i : Nat} {code code' : Nat → Nat} {m m' : Mem 8} {bytes : List Byte} {unc : Bool}

/-- The bytes stand at address `a`. -/
def Holds (m : Mem 8) (a : Nat) (bytes : List Byte) : Prop := ∀ n < bytes.length, memGet m (a + n) = bytes.getD n 0

/-- Slot `j` is the one whose bytes slot `i` has: itself, or the one that it copies. -/
def IsRoot (d : Desc) (code : Nat → Nat) (i j : Nat) : Prop :=
  j ≤ i ∧ slotPlane d j = slotPlane d i ∧ code j ≠ 0 ∧ ∀ l, j < l → l ≤ i → slotPlane d l = slotPlane d i → code l = 0

/-- The bytes of slot `i` stand where its header entry says. -/
def Stored (d : Desc) (pos : Nat) (code : Nat → Nat) (m : Mem 8) (i : Nat) (bytes : List Byte) (unc : Bool) : Prop :=
  ∃ j, IsRoot d code i j ∧ codeSize d j (code j) = bytes.length ∧ decide (code j = 1) = unc ∧
    Holds m (slotOffset d pos code j) bytes

theorem IsRoot.congr {j : Nat} (h : IsRoot d code i j) (hc : ∀ l ≤ i, code' l = code l) : IsRoot d code' i j := by
  obtain ⟨hj, plane, ne, between⟩ := h
  exact ⟨hj, plane, by rwa [hc j hj], fun l h1 h2 hp => (hc l h2).trans (between l h1 h2 hp)⟩

/-- Later slots leave the bytes of an earlier one alone. -/
theorem Stored.mono (f : DescFacts d) (h : Stored d pos code m i bytes unc) (hi : i < k) (hk : k ≤ d.nsubblocks)
    (fit : SlotsFit d code k) (hc : ∀ j < k, code' j = code j)
    (hm : ∀ b < slotOffset d pos code k, memGet m' b = memGet m b) : Stored d pos code' m' i bytes unc := by
  obtain ⟨j, root, size, form, holds⟩ := h
  have hj : j < k := root.1.trans_lt hi
  refine ⟨j, root.congr fun l hl => hc l (hl.trans_lt hi), by rw [hc j hj, size], by rw [hc j hj, form], fun n hn => ?_⟩
  have apart := slotOffset_apart (ptr := pos) f hj hk fit
  rw [slotOffset_congr (code := code') (code' := code) fun l hl => hc l (hl.trans hj), ← holds n hn]
  exact hm _ (by omega)

/-- A slot after the last one of its plane, with the same bytes, is stored as a copy. -/
theorem Stored.copy {l : Nat} (h : Stored d pos code m l bytes unc) (hl : l < k) (plane : slotPlane d l = slotPlane d k)
    (later : ∀ i, l < i → i < k → slotPlane d i ≠ slotPlane d k) (zero : code k = 0) : Stored d pos code m k bytes unc := by
  obtain ⟨j, ⟨hj, hp, ne, between⟩, rest⟩ := h
  refine ⟨j, ⟨hj.trans hl.le, hp.trans plane, ne, fun i h1 h2 hpi => ?_⟩, rest⟩
  obtain hil | hil := Nat.lt_or_ge l i
  · obtain hik | rfl := Nat.lt_or_eq_of_le h2
    · exact absurd hpi (later i hil hik)
    · exact zero
  · exact between i h1 hil (hpi.trans plane.symm)

theorem holds_memSetBytes (m : Mem 8) (a : Nat) (bytes : List Byte) : Holds (memSetBytes m a bytes) a bytes := fun n hn => by
  rw [memGet_memSetBytes, if_pos (by omega), Nat.add_sub_cancel_left]

theorem Stored.own (ne : code k ≠ 0) (size : codeSize d k (code k) = bytes.length) (form : decide (code k = 1) = unc)
    (holds : Holds m (slotOffset d pos code k) bytes) : Stored d pos code m k bytes unc :=
  ⟨k, ⟨le_rfl, rfl, ne, fun _ h1 h2 _ => absurd h1 (Nat.not_lt.mpr h2)⟩, size, form, holds⟩

/-- `blk` is the subblock of slot `i` among the samples of a superblock, and `e` its encoding. -/
structure SlotEncoding (d : Desc) (sblk : Vector (Vector Sample 256) 4) (i : Nat) (blk : Vector (Vector Sample 16) 4)
    (e : Encoded) : Prop where
  below : BlockBelow d.toDescIn (slotPlane d i) blk
  encodes : Encodes d (slotPlane d i) blk e
  rows : ∀ c ∈ comps d.toDescIn (slotPlane d i), ∀ n : Fin 16,
    blk[c][n] = (sblk[c]).getD (slotCell d i (n.val % 4) (n.val / 4)) 0

/-- What the loop holds of the last slot of plane `p`. -/
def LastKept (d : Desc) (pos : Nat) (code : Nat → Nat) (m : Mem 8) (k : Nat) (p : Fin 2) (o : Option LastSlot) : Prop :=
  ∀ l, o = some l → l.slot < k ∧ slotPlane d l.slot = p ∧ (∀ i, l.slot < i → i < k → slotPlane d i ≠ p) ∧
    Stored d pos code m l.slot l.bytes l.unc

/-- Before slot `k` of the encode loop that began in `u`. -/
structure EncodeInv (u : State) (pos k : Nat) (a : EncLoop) (t : State) : Prop where
  change : EncodeChange u t
  sblk : t.sb.sblk = u.sb.sblk
  ptr : t.hdr.ptr.toNat = pos
  lt : ∀ j < k, t.hdr.codeAt j < 2 ^ u.desc.sizeBits
  start : a.start u.desc pos k = slotOffset u.desc pos t.hdr.codeAt k
  fit : SlotsFit u.desc t.hdr.codeAt k
  fb : FbOutside u t pos u.desc.maxpay
  slots : ∀ i < k, ∃ blk e, SlotEncoding u.desc u.sb.sblk i blk e ∧ Stored u.desc pos t.hdr.codeAt t.fb i e.bytes e.unc
  last : ∀ p : Fin 2, LastKept u.desc pos t.hdr.codeAt t.fb k p a.last[p]

end Kept

section Loop

variable {u t t' : State} {pos k code : Nat} {a a' : EncLoop} {e : Encoded}

theorem EncodeChange.desc {s t : State} (h : EncodeChange s t) : t.desc = s.desc := by rw [h.same]

theorem EncodeChange.bufSize {s t : State} (h : EncodeChange s t) : bufSize t = bufSize s := by
  rw [h.same]
  rfl

theorem slotBlock_row {c : Fin 4} (hc : c ∈ comps t.desc.toDescIn (slotPlane t.desc k)) (n : Fin 16) :
    (slotBlock t k)[c][n] = (t.sb.sblk[c]).getD (slotCell t.desc k (n.val % 4) (n.val / 4)) 0 := by
  unfold slotPlane at hc
  simp [slotBlock, loadBlock, atSlot, slotCell, slotPlane, hc]

variable (f : DescFacts u.desc) (hk : k < u.desc.nsubblocks)
include f hk

/-- The bytes of the slot are inside the payload room, whatever its code. -/
theorem EncodeInv.room (I : EncodeInv u pos k a t) :
    pos ≤ a.start u.desc pos k ∧ a.start u.desc pos k + u.desc.uncompSize[slotPlane u.desc k] ≤ pos + u.desc.maxpay := by
  have lower := le_slotOffset (ptr := pos) f hk.le I.fit
  have before := slotOffset_room (ptr := pos) f hk.le I.fit
  have own := roomBefore_succ f hk
  have all := roomBefore_le f (k := k + 1) hk
  rw [I.start]
  exact ⟨lower, by omega⟩

/-- The loop goes on to the next slot. -/
theorem EncodeInv.next (I : EncodeInv u pos k a t) (change : EncodeChange t t') (sblk : t'.sb.sblk = t.sb.sblk)
    (enc : SlotEncoding u.desc u.sb.sblk k (slotBlock t k) e) (S : EncodeStep u.desc t a (a.start u.desc pos k) k e code a' t') :
    EncodeInv u pos (k + 1) a' t' := by
  obtain ⟨Ichange, Isblk, Iptr, Ilt, Istart, Ifit, Ifb, Islots, Ilast⟩ := id I
  obtain ⟨Slast, Soff, Sptr, Slt, Scodes, Sform⟩ := S
  have earlier : ∀ j < k, t'.hdr.codeAt j = t.hdr.codeAt j := fun j hj => by rw [Scodes j, if_neg hj.ne]
  have own : t'.hdr.codeAt k = code := by rw [Scodes k, if_pos rfl]
  have offsets : ∀ j ≤ k, slotOffset u.desc pos t'.hdr.codeAt j = slotOffset u.desc pos t.hdr.codeAt j := fun j hj =>
    slotOffset_congr fun l hl => earlier l (hl.trans_le hj)
  have below : ∀ b < slotOffset u.desc pos t.hdr.codeAt k, memGet t'.fb b = memGet t.fb b := by
    intro b hb
    cases Sform with
    | copy l last bytes unc zero fb => rw [fb]
    | stored ne size unc fb => rw [fb, memGet_memSetBytes_outside (.inl (by rwa [Istart]))]
  have kept {i : Nat} {bytes : List Byte} {unc : Bool} (hi : i < k)
      (h : Stored u.desc pos t.hdr.codeAt t.fb i bytes unc) : Stored u.desc pos t'.hdr.codeAt t'.fb i bytes unc :=
    h.mono f hi hk.le Ifit earlier below
  have stored : Stored u.desc pos t'.hdr.codeAt t'.fb k e.bytes e.unc := by
    cases Sform with
    | copy l last bytes unc zero fb =>
      obtain ⟨hl, plane, later, source⟩ := Ilast _ l last
      rw [bytes, unc]
      exact (kept hl source).copy hl plane later (own.trans zero)
    | stored ne size unc fb =>
      refine .own (by rwa [own]) (by rw [own, size]) (by rw [own, unc]) ?_
      rw [offsets k le_rfl, ← Istart, fb]
      exact holds_memSetBytes _ _ _
  have short := enc.encodes.length_le f (slotPlane_lt f hk)
  have size : codeSize u.desc k code ≤ u.desc.uncompSize[slotPlane u.desc k] := by
    cases Sform with
    | copy l last bytes unc zero fb => rw [zero, codeSize, if_pos rfl]; exact Nat.zero_le _
    | stored ne size unc fb => rw [size]; exact short
  obtain ⟨low, high⟩ := I.room f hk
  refine ⟨Ichange.trans change, sblk.trans Isblk, by rw [Sptr, Iptr], fun j hj => ?_, ?_, fun j hj => ?_, fun b hb => ?_,
    fun i hi => ?_, fun p l hl => ?_⟩
  · obtain hj | rfl := Nat.lt_succ_iff_lt_or_eq.mp hj
    · rw [earlier j hj]
      exact Ilt j hj
    · rwa [own]
  · rw [EncLoop.start, Soff, slotOffset_succ, offsets k le_rfl, Istart, own]
  · obtain hj | rfl := Nat.lt_succ_iff_lt_or_eq.mp hj
    · rw [earlier j hj]
      exact Ifit j hj
    · rwa [own]
  · rw [← Ifb b hb]
    cases Sform with
    | copy l last bytes unc zero fb => rw [fb]
    | stored ne size unc fb => rw [fb, memGet_memSetBytes_outside (by omega)]
  · obtain hi | rfl := Nat.lt_succ_iff_lt_or_eq.mp hi
    · obtain ⟨blk, e', enc', stored'⟩ := Islots i hi
      exact ⟨blk, e', enc', kept hi stored'⟩
    · exact ⟨_, e, enc, stored⟩
  · rw [Slast] at hl
    by_cases hp : slotPlane u.desc k = p
    · subst hp
      obtain rfl : ⟨k, e.bytes, e.unc⟩ = l := by simpa using hl
      exact ⟨Nat.lt_succ_self k, rfl, fun i h1 h2 => absurd h1 (Nat.not_lt.mpr (Nat.lt_succ_iff.mp h2)), stored⟩
    · have ne : (slotPlane u.desc k).val ≠ p.val := fun z => hp (Fin.ext z)
      obtain ⟨hlk, plane, later, stored'⟩ := Ilast p l (by simpa [Vector.getElem_set, ne] using hl)
      refine ⟨hlk.trans (Nat.lt_succ_self k), plane, fun i h1 h2 => ?_, kept hlk stored'⟩
      obtain h2 | rfl := Nat.lt_succ_iff_lt_or_eq.mp h2
      · exact later i h1 h2
      · exact hp

theorem EncodeInv.slot (I : EncodeInv u pos k a t) (range : fetchInRange u = true)
    (room : pos + u.desc.maxpay ≤ bufSize u) :
    ∃ a' t', encodeSlot t pos k a = .ok a' t' ∧ EncodeInv u pos (k + 1) a' t' := by
  have desc : t.desc = u.desc := I.change.desc
  have ht : k < t.desc.nsubblocks := desc ▸ hk
  have below : BlockBelow t.desc.toDescIn (slotPlane t.desc k) (slotBlock t k) :=
    loadBlock_below (s := atSlot t k) (desc ▸ f) ((fetchInRange_congr desc I.sblk).trans range) ht
  have fits (d : Desc) (hd : d = u.desc) : a.start d pos k + d.uncompSize[slotPlane d k] ≤ bufSize t := by
    subst hd
    rw [I.change.bufSize]
    exact (I.room f hk).2.trans room
  obtain ⟨e, code, a', t', run, enc, S⟩ := encodeSlot_ok (desc ▸ f) ht below (fits _ desc)
  have change := encodeSlot_change ht pos a
  have sblk := encodeSlot_sblk t pos k a
  rw [run, state_ok] at change sblk
  have rows := fun c hc => slotBlock_row (t := t) (k := k) (c := c) hc
  rw [desc] at below enc S
  rw [desc, I.sblk] at rows
  exact ⟨a', t', run, I.next f hk change sblk ⟨below, enc, rows⟩ S⟩

omit hk in
/-- From slot `k` to the last. -/
theorem EncodeInv.loop (range : fetchInRange u = true) (room : pos + u.desc.maxpay ≤ bufSize u) {n : Nat}
    (I : EncodeInv u pos k a t) (hn : k + n = u.desc.nsubblocks) :
    ∃ a' t', encodeSlots t pos a (List.range' k n) = .ok a'.off t' ∧ EncodeInv u pos u.desc.nsubblocks a' t' := by
  induction n generalizing k a t with
  | zero =>
    obtain rfl : k = u.desc.nsubblocks := hn
    exact ⟨a, t, rfl, I⟩
  | succ n ih =>
    obtain ⟨a', t', run, I'⟩ := I.slot f (by omega) range room
    obtain ⟨a'', t'', rest, I''⟩ := ih I' (by omega)
    exact ⟨a'', t'', by rw [List.range'_succ, encodeSlots, run, bind_ok, rest], I''⟩

end Loop

end Sys2Proof.Machine

namespace Sys2Proof.Machine

/-! ### The payload and the header (43_superblock R225, R231) -/

section Normal

variable {u t : State} {pos : Nat} {a : EncLoop}

/-- The state in which the encode loop begins. -/
def loopEntry (u : State) (pos : Nat) : State :=
  { u with hdr := { u.hdr with solid := false, ptr := BitVec.ofNat 32 pos, ptrOk := true } }

/-- `t` with its header registers written as the header of its superblock. -/
def headerWritten (t : State) : State :=
  { startCursor t with
    fb := memSetBytes t.fb (headerAddr t.sb.mbnum) (natToBytes 16 (packHeader t.desc t.hdr)) }

theorem encodeInv_zero (f : DescFacts u.desc) (hpos : pos < 2 ^ u.desc.ptrBits) : EncodeInv (loopEntry u pos) pos 0
    ⟨pos, Vector.replicate 2 none, Vector.replicate 2 0⟩ (loopEntry u pos) := by
  obtain ⟨h32, -⟩ := f.narrow
  refine ⟨.refl _, rfl, ?_, fun j hj => absurd hj (Nat.not_lt_zero j), ?_, fun j hj => absurd hj (Nat.not_lt_zero j),
    fun _ _ => rfl, fun j hj => absurd hj (Nat.not_lt_zero j), fun p l hl => ?_⟩
  · exact Nat.mod_eq_of_lt (hpos.trans_le (Nat.pow_le_pow_right (by decide) h32))
  · have first : isSplit (loopEntry u pos).desc.toDescIn 0 = false := isSplit_zero f
    rw [EncLoop.start, first, slotOffset_zero (d := (loopEntry u pos).desc) f]
    rfl
  · simp at hl

/-- The position behind the last slot lies in the payload room. -/
theorem EncodeInv.end_pos (f : DescFacts u.desc) (I : EncodeInv u pos u.desc.nsubblocks a t) :
    a.off = slotOffset u.desc pos t.hdr.codeAt u.desc.nsubblocks ∧ pos ≤ a.off ∧ a.off ≤ pos + u.desc.maxpay := by
  have last : isSplit u.desc.toDescIn u.desc.nsubblocks = false := by
    by_contra h
    obtain ⟨hs, hn⟩ := Bool.and_eq_true_iff.mp (Bool.eq_true_of_not_eq_false h)
    have hn : u.desc.nsubblocks = u.desc.splitSlot.toNat := of_decide_eq_true hn
    obtain ⟨h1, h2, -⟩ := f.split hs
    omega
  have start := I.start
  rw [EncLoop.start, last, if_neg Bool.false_ne_true] at start
  have low := le_slotOffset (ptr := pos) f le_rfl I.fit
  have high := slotOffset_room (ptr := pos) f le_rfl I.fit
  have all := roomBefore_last f
  rw [start]
  exact ⟨rfl, low, by omega⟩

theorem EncodeInv.codes (I : EncodeInv u pos u.desc.nsubblocks a t) :
    ∀ c ∈ t.hdr.codes u.desc.nsubblocks, c < 2 ^ u.desc.sizeBits := by
  intro c hc
  obtain ⟨j, hj, rfl⟩ := List.mem_map.mp hc
  exact I.lt j (List.mem_range.mp hj)

/-- Samples in range, a position that fits the pointer and room for the largest payload: the normal form completes. -/
theorem encodeNormal_ok (f : DescFacts u.desc) (range : fetchInRange u = true) (hpos : pos < 2 ^ u.desc.ptrBits)
    (room : pos + u.desc.maxpay ≤ bufSize u) (fits : headerFits u u.sb.mbnum = true) :
    ∃ a t, encodeNormal u pos = .ok a.off (headerWritten t) ∧
      EncodeInv (loopEntry u pos) pos u.desc.nsubblocks a t := by
  obtain ⟨a, t, run, I⟩ := (encodeInv_zero f hpos).loop (u := loopEntry u pos) f range room (n := u.desc.nsubblocks)
    (Nat.zero_add _)
  have desc : t.desc = u.desc := I.change.desc
  have mbnum : t.sb.mbnum = u.sb.mbnum := I.change.sb.2.2.1
  have header : headerFits t t.sb.mbnum = true := by
    rw [headerFits, mbnum, I.change.bufSize]
    exact fits
  have admitted : headerInRange t.desc t.hdr = true := by
    have codes := I.codes
    rw [headerInRange, I.ptr, desc, Bool.and_eq_true, List.all_eq_true]
    exact ⟨decide_eq_true hpos, fun c hc => decide_eq_true (codes c hc)⟩
  refine ⟨a, t, ?_, I⟩
  have loop : encodeNormal u pos = (encodeSlots (loopEntry u pos) pos ⟨pos, Vector.replicate 2 none, Vector.replicate 2 0⟩
      (List.range u.desc.nsubblocks)).bind fun off s2 => (writeHeaderRun s2 s2.sb.mbnum).bind fun _ s3 => .ok off s3 := rfl
  rw [loop, List.range_eq_range', run, bind_ok, writeHeaderRun, if_pos header, if_pos admitted, bind_ok]
  rfl

end Normal

section Body

variable {s : State}

/-- ENCODE_SUPERBLOCK's body in range and with room, in either form. -/
structure BodyEncoded (s : State) (pos : Nat) (v : State) : Prop where
  low : s.port.arg2 ≤ pos
  high : pos ≤ s.port.arg2 + s.desc.maxpay
  change : EncodeChange (fetched s) v
  fb : ∀ b, (b < headerAddr (mbnumOf s.desc s.port.arg0 s.port.arg1) ∨
      headerAddr (mbnumOf s.desc s.port.arg0 s.port.arg1) + 16 ≤ b) →
    (b < s.port.arg2 ∨ s.port.arg2 + s.desc.maxpay ≤ b) → memGet v.fb b = memGet s.fb b

variable (f : DescFacts s.desc) (hr : Ready s) (hx : s.port.arg0 < s.desc.mbw) (hy : s.port.arg1 < s.desc.mbh)
include f hr hx hy

theorem fetched_headerFits : headerFits (fetched s) (fetched s).sb.mbnum = true := f.headerFits hr hx hy

theorem encodeSolid_encoded : ∃ v, encodeSolid (fetched s) s.port.arg2 = .ok s.port.arg2 v ∧
    BodyEncoded s s.port.arg2 v := by
  have change := encodeSolid_change (fetched s) s.port.arg2
  rw [encodeSolid, if_pos (fetched_headerFits f hr hx hy)] at change ⊢
  exact ⟨_, rfl, le_rfl, Nat.le_add_right _ _, change, fun b hb _ =>
    memGet_memSetBytes_outside (by rwa [length_natToBytes])⟩

theorem encodeNormal_encoded (range : SamplesInRange s) (hptr : s.port.arg2 < 2 ^ s.desc.ptrBits)
    (room : s.port.arg2 + s.desc.maxpay ≤ bufSize s) :
    ∃ a t, encodeNormal (fetched s) s.port.arg2 = .ok a.off (headerWritten t) ∧
      EncodeInv (loopEntry (fetched s) s.port.arg2) s.port.arg2 s.desc.nsubblocks a t ∧
      BodyEncoded s a.off (headerWritten t) := by
  obtain ⟨a, t, run, I⟩ := encodeNormal_ok (u := fetched s) f (fetched_inRange f hx hy range) hptr room
    (fetched_headerFits f hr hx hy)
  obtain ⟨-, low, high⟩ := EncodeInv.end_pos (u := loopEntry (fetched s) s.port.arg2) f I
  have change := encodeNormal_change (fetched s) s.port.arg2
  rw [run, state_ok] at change
  refine ⟨a, t, run, I, low, high, change, fun b hb hb' => ?_⟩
  have mbnum : t.sb.mbnum = mbnumOf s.desc s.port.arg0 s.port.arg1 := I.change.sb.2.2.1
  refine Eq.trans ?_ (I.fb b hb')
  exact memGet_memSetBytes_outside (by rwa [length_natToBytes, mbnum])

theorem exec_encodeSuperblock_encoded (range : SamplesInRange s) (hptr : s.port.arg2 < 2 ^ s.desc.ptrBits)
    (room : s.port.arg2 + s.desc.maxpay ≤ bufSize s) : ∃ (pos : Nat) (v : State),
      exec .encodeSuperblock s = .next (completeOp v ⟨some (pos : Int), none, none⟩) ∧ BodyEncoded s pos v := by
  rw [exec_encodeSuperblock f hr hx hy hptr range]
  cases s.desc.allowSolid && allConstant (fetched s)
  · obtain ⟨a, t, run, -, body⟩ := encodeNormal_encoded f hr hx hy range hptr room
    exact ⟨a.off, _, by rw [if_neg Bool.false_ne_true, run, onFatal_ok, settle_ok], body⟩
  · obtain ⟨v, run, body⟩ := encodeSolid_encoded f hr hx hy
    exact ⟨_, v, by rw [if_pos rfl, run, onFatal_ok, settle_ok], body⟩

end Body

/-- Settles O49: the bytes of the slots never leave the payload room, each being at most its uncompressed size. -/
theorem encodeSuperblockCompletes : Obligations.EncodeSuperblockCompletes := by
  intro s hi hr hx hy hptr room range n
  obtain ⟨pos, v, run, body⟩ := exec_encodeSuperblock_encoded (hi.facts hr) hr hx hy range hptr room
  obtain ⟨⟨mbx, mby, mbnum, -⟩, -, same⟩ := body.change
  refine ⟨_, pos, run, ?_, body.low, body.high, ?_, ?_, ?_, ?_, mbx, mby, mbnum, body.fb⟩
  all_goals
    simp only [DoneWith, completeOp_port, completeOp_fat, completeOp_chk, completeOp_out, completeOp_desc]
    rw [same]
    rfl

end Sys2Proof.Machine

namespace Sys2Proof.Machine

/-! ### A payload in the buffer decodes (43_superblock R233) -/

section Payload

variable {t : State} {sblk : Vector (Vector Sample 256) 4} {pos k : Nat} {code : Nat → Nat}

/-- The buffer holds, for superblock `(ARG0, ARG1)`, a header with the pointer `pos` and the size codes `code`, and behind
`pos` the encoded subblocks of the samples `sblk`. -/
structure PayloadOf (t : State) (sblk : Vector (Vector Sample 256) 4) (pos : Nat) (code : Nat → Nat) : Prop where
  ptr : bitField (headerWord t.fb (mbnumOf t.desc t.port.arg0 t.port.arg1)) 0 t.desc.ptrBits = pos
  codes : ∀ k < t.desc.nsubblocks, bitField (headerWord t.fb (mbnumOf t.desc t.port.arg0 t.port.arg1))
    (t.desc.ptrBits + t.desc.sizeBits * k) t.desc.sizeBits = code k
  fit : SlotsFit t.desc code t.desc.nsubblocks
  slots : ∀ k < t.desc.nsubblocks, ∃ blk e, SlotEncoding t.desc sblk k blk e ∧
    Stored t.desc pos code t.fb k e.bytes e.unc
  frame : pos + t.desc.maxpay ≤ t.desc.frameSize.toNat

/-- The slot whose bytes a slot has is its source, where it is a copy. -/
theorem IsRoot.cases {d : Desc} {i j : Nat} (h : IsRoot d code i j) :
    (code i ≠ 0 ∧ j = i) ∨ (code i = 0 ∧ CopySource d code i j) := by
  obtain ⟨hj, plane, ne, between⟩ := h
  obtain lt | rfl := Nat.lt_or_eq_of_le hj
  · exact .inr ⟨between i lt le_rfl rfl, lt, plane, ne, fun l h1 h2 => between l h1 h2.le⟩
  · exact .inl ⟨ne, rfl⟩

/-- Where every copy has a source, resolution flags nothing. -/
theorem resolveSlots_no_viols {d : Desc} {h : Hdr} (hk : k ≤ 24)
    (sources : ∀ i < k, h.codeAt i = 0 → ∃ j, CopySource d h.codeAt i j) : (resolveSlots d h (List.range k)).viols = [] := by
  induction k with
  | zero => rfl
  | succ k ih =>
    have R := resolved_range d h (k := k) (by omega)
    have before := ih (by omega) fun i hi => sources i (by omega)
    rw [resolveSlots_succ]
    by_cases h0 : h.codeAt k = 0
    · obtain ⟨j, hj⟩ := sources k (Nat.lt_succ_self k) h0
      rw [(R.copied (by omega) h0 hj).2, before]
    · rw [(R.sized (by omega) h0).2, before]

section Parse

variable (f : DescFacts t.desc) (P : PayloadOf t sblk pos code)
include f P

theorem PayloadOf.raw : (rawHeader t).ptr.toNat = pos ∧ ∀ k < t.desc.nsubblocks, (rawHeader t).codeAt k = code k := by
  obtain ⟨h32, h6, -, h24, -⟩ := f.narrow
  exact ⟨(setFields_ptr (h := t.hdr) h32).trans P.ptr, fun k hk =>
    (setFields_codeAt (h := t.hdr) h6 hk h24).trans (P.codes k hk)⟩

/-- The first slot is never a copy. -/
theorem PayloadOf.first : code 0 ≠ 0 := by
  obtain ⟨-, -, h16, -⟩ := f.narrow
  obtain ⟨-, e, -, j, ⟨hj, -, ne, -⟩, -⟩ := P.slots 0 (by omega)
  obtain rfl : j = 0 := Nat.le_zero.mp hj
  exact ne

theorem PayloadOf.root (hk : k < t.desc.nsubblocks) {j : Nat} (root : IsRoot t.desc code k j) :
    ((rawHeader t).codeAt k ≠ 0 ∧ j = k) ∨
      ((rawHeader t).codeAt k = 0 ∧ CopySource t.desc (rawHeader t).codeAt k j) := by
  obtain ⟨-, codes⟩ := P.raw f
  rw [codes k hk]
  refine root.cases.imp_right fun ⟨h0, source⟩ => ⟨h0, copySource_congr (fun i hi => ?_) source⟩
  exact (codes i (hi.trans hk)).symm

/-- The header is not in solid-colour form, its slots are resolved, and nothing is flagged. -/
theorem PayloadOf.parsed : (headerParsed t).hdr.solid = false ∧ (headerParsed t).chk = t.chk ∧
    (headerParsed t).hdr = (resolveSlots t.desc (rawHeader t) (List.range t.desc.nsubblocks)).hdr := by
  obtain ⟨-, -, h16, h24, -⟩ := f.narrow
  obtain ⟨-, codes⟩ := P.raw f
  have normal : ¬ ((startCursor (atHeader t)).desc.allowSolid && ((startCursor (atHeader t)).hdr.setFields
      (startCursor (atHeader t)).desc (headerWord t.fb (mbnumOf t.desc t.port.arg0 t.port.arg1))).code[0] == 0) = true := by
    rw [Bool.and_eq_true, code_zero_eq_iff]
    exact fun ⟨_, h0⟩ => P.first f ((codes 0 (by omega)).symm.trans h0)
  have viols : (resolveSlots t.desc (rawHeader t) (List.range t.desc.nsubblocks)).viols = [] := by
    refine resolveSlots_no_viols h24 fun k hk h0 => ?_
    obtain ⟨-, e, -, j, root, -⟩ := P.slots k hk
    obtain ⟨ne, -⟩ | ⟨-, source⟩ := P.root f hk root
    · exact absurd h0 ne
    · exact ⟨j, source⟩
  have word : parseWord (startCursor (atHeader t)) (headerWord t.fb (mbnumOf t.desc t.port.arg0 t.port.arg1)) =
      { startCursor (atHeader t) with
        hdr := (resolveSlots t.desc (rawHeader t) (List.range t.desc.nsubblocks)).hdr } := by
    simp only [parseWord]
    rw [if_neg normal]
    refine (congrArg (flagAll _) viols).trans ?_
    rfl
  rw [headerParsed, word]
  refine ⟨?_, rfl, rfl⟩
  exact (resolved_range t.desc (rawHeader t) h24).raw.fields.1

/-- Where the bytes of slot `k` are, by its header entry. -/
theorem PayloadOf.entry (hk : k < t.desc.nsubblocks) {e : Encoded} {j : Nat} (root : IsRoot t.desc code k j)
    (size : codeSize t.desc j (code j) = e.bytes.length) (form : decide (code j = 1) = e.unc) :
    ((headerParsed t).hdr.off.getD k 0).toNat = slotOffset t.desc pos code j ∧
      ((headerParsed t).hdr.size.getD k 0).toNat = e.bytes.length ∧ (headerParsed t).hdr.unc.getD k false = e.unc ∧
      slotOffset t.desc pos code j + e.bytes.length ≤ t.desc.frameSize.toNat := by
  obtain ⟨-, -, -, h24, -⟩ := f.narrow
  obtain ⟨hptr, codes⟩ := P.raw f
  obtain ⟨-, -, resolved⟩ := P.parsed f
  have hj : j < t.desc.nsubblocks := root.1.trans_lt hk
  have room := slotOffset_room (ptr := pos) f hj.le (P.fit.before hj.le)
  have own := roomBefore_succ f hj
  have all := roomBefore_le f (k := j + 1) hj
  have fit := P.fit j hj
  have short := f.uncompSize_le hj
  obtain ⟨-, -, -, frame, large, -⟩ := f.sizes
  have payload := P.frame
  have entry : (headerParsed t).hdr.entry k = sizedEntry t.desc (rawHeader t) j := by
    rw [resolved]
    obtain ⟨ne, rfl⟩ | ⟨h0, source⟩ := P.root f hk root
    · exact entry_sized hk h24 ne
    · exact entry_copied hk h24 h0 source
  have offset : slotOffset t.desc (rawHeader t).ptr.toNat (rawHeader t).codeAt j = slotOffset t.desc pos code j := by
    rw [hptr]
    exact slotOffset_congr fun i hi => codes i (hi.trans hj)
  rw [sizedEntry, offset, codes j hj, size, form] at entry
  have off : (headerParsed t).hdr.off.getD k 0 = BitVec.ofNat 33 (slotOffset t.desc pos code j) :=
    congrArg (fun e => e.1) entry
  have len : (headerParsed t).hdr.size.getD k 0 = BitVec.ofNat 14 e.bytes.length := congrArg (fun e => e.2.1) entry
  rw [size] at fit
  refine ⟨?_, ?_, congrArg (fun e => e.2.2) entry, by omega⟩
  · rw [off, BitVec.toNat_ofNat, Nat.mod_eq_of_lt (by omega)]
  · rw [len, BitVec.toNat_ofNat, Nat.mod_eq_of_lt (by omega)]

end Parse

end Payload

end Sys2Proof.Machine

namespace Sys2Proof.Machine

/-! ### Every slot of the payload decodes to its subblock (43_superblock R218, R233) -/

section Stream

variable {t : State} {p : Fin 2} {blk : Vector (Vector Sample 16) 4} {e : Encoded}

theorem Holds.carries {m : Mem 8} {a n : Nat} {bits : List Bool} (h : Holds m a (bitsToBytes n bits))
    (hn : bits.length ≤ 8 * n) : Carries (fbSource m a) 0 bits := by
  intro i hi
  rw [fbSource, fbBit, Nat.zero_add, h (i / 8) (by rw [length_bitsToBytes]; omega),
    getLsbD_bitsToBytes _ (by omega) (Nat.mod_lt _ (by decide)), Nat.div_add_mod]

/-- The stream of an encoded block at byte `ARG0` ends with its rows and nothing to flag, and consumes the size that was
declared. -/
structure Streams (t : State) (p : Fin 2) (blk : Vector (Vector Sample 16) 4) (e : Encoded) : Prop where
  ends : ∃ b, EndsWith t.desc p e.unc (streamOf t p e.unc) b ∧ ∀ c ∈ comps t.desc.toDescIn p, b[c] = blk[c]
  pend : (streamOf t p e.unc).pend = []
  size : e.unc = false →
    declaredSize (ceilDiv (streamOf t p e.unc).cur.pos 8) (t.desc.sbsMultiplier[p]).toNat = e.bytes.length

variable (f : DescFacts t.desc) (hp : p.val < t.desc.nplanes) (hb : BlockBelow t.desc.toDescIn p blk)
  (h : Encodes t.desc p blk e) (hs : Holds t.fb t.port.arg0 e.bytes)
  (hw : 8 * e.bytes.length ≤ windowBits t t.port.arg0)
include f hp hb h hs hw

theorem streams_compressed (hu : e.unc = false) : Streams t p blk e := by
  obtain ⟨bits, hbits, -, hbytes⟩ := h.compressed hu
  have fits := bits_le_compressedSize t.desc p bits (f.multiplier p (f.plane hp)).1
  rw [hbytes] at hs
  rw [hbytes, length_bitsToBytes] at hw
  obtain ⟨cur, pend, rows⟩ := streamOf_restores f hb hbits (hs.carries fits) (fits.trans hw)
  constructor
  case pend => rw [hu, pend]
  case size => exact fun _ => by rw [hu, cur, hbytes, length_bitsToBytes, compressedSize]
  case ends =>
    rw [hu]
    cases ht : ctApplies t.desc.toDescIn p
    · rw [codedBlock_plain ht] at rows
      exact ⟨_, ⟨by rw [cur], by rw [decodedRows, ht, if_neg (by decide)]⟩, rows⟩
    · rw [codedBlock_transformed ht] at rows
      obtain ⟨b, inverse, restored⟩ := ctInverseBlock_coded f ht hb rows
      exact ⟨b, ⟨by rw [cur], by rw [decodedRows, ht, if_pos (by decide), inverse]⟩, restored⟩

omit hp in
theorem streams_uncompressed (hu : e.unc = true) : Streams t p blk e := by
  have hbytes := h.uncompressed hu
  have bits := length_uncompressedBits t.desc.toDescIn p blk
  have size := f.uncomp_eq p
  rw [hbytes] at hs
  rw [hbytes, length_bitsToBytes] at hw
  have carried := hs.carries (by omega)
  have R : UncompressedRead t.desc (fbSource t.fb t.port.arg0) p t.codec (streamOf t p true) :=
    decodeStream_uncompressed t.codec (by omega)
  constructor
  case pend => rw [hu, R.only.pend]
  case size => exact fun z => absurd (hu.symm.trans z) (by decide)
  case ends =>
    rw [hu]
    exact ⟨_, ⟨by rw [R.cur], by rw [decodedRows, Bool.not_true, Bool.false_and, if_neg Bool.false_ne_true]⟩, fun c hc =>
      row_eq_of_toNat fun i => (R.read c hc i).trans (carried.sample hb hc i)⟩

theorem Encodes.streams : Streams t p blk e := by
  cases hu : e.unc
  · exact streams_compressed f hp hb h hs hw hu
  · exact streams_uncompressed f hb h hs hw hu

end Stream

section Slots

variable {t : State} {sblk : Vector (Vector Sample 256) 4} {pos k : Nat} {code : Nat → Nat}

/-- Slot `k` of a payload decodes to the samples that were encoded. -/
structure SlotRestored (t : State) (sblk : Vector (Vector Sample 256) 4) (k : Nat) : Prop where
  inFrame : ¬ PastFrame t (headerParsed t) k
  ends : ∃ b, SlotEnds t (headerParsed t) k b ∧ ∀ c ∈ comps t.desc.toDescIn (slotPlane t.desc k), ∀ n : Fin 16,
    b[c][n] = (sblk[c]).getD (slotCell t.desc k (n.val % 4) (n.val / 4)) 0
  pend : (slotStream t (headerParsed t) k).pend = []
  size : slotExpected t (headerParsed t) k = ((headerParsed t).hdr.size.getD k 0).toNat

variable (f : DescFacts t.desc) (hr : Ready t) (P : PayloadOf t sblk pos code)
include f hr P

theorem PayloadOf.slot (hk : k < t.desc.nsubblocks) : SlotRestored t sblk k := by
  obtain ⟨blk, e, enc, j, root, hsize, hform, holds⟩ := P.slots k hk
  obtain ⟨off, size, unc, frame⟩ := P.entry f hk root hsize hform
  obtain ⟨-, -, -, inBuffer, -⟩ := f.sizes
  have plane := slotPlane_lt f hk
  have window : 8 * e.bytes.length ≤ windowBits (slotAlone t (headerParsed t) k) (slotAlone t (headerParsed t) k).port.arg0 := by
    have buffer : bufSize (slotAlone t (headerParsed t) k) = t.desc.bufSize.toNat := if_pos hr.2
    have start : (slotAlone t (headerParsed t) k).port.arg0 = slotOffset t.desc pos code j := off
    rw [windowBits, buffer, start]
    omega
  have held : Holds (slotAlone t (headerParsed t) k).fb (slotAlone t (headerParsed t) k).port.arg0 e.bytes := by
    have start : (slotAlone t (headerParsed t) k).port.arg0 = slotOffset t.desc pos code j := off
    rw [start]
    exact holds
  have S := Encodes.streams (t := slotAlone t (headerParsed t) k) f plane enc.below enc.encodes held window
  have stream : slotStream t (headerParsed t) k = streamOf (slotAlone t (headerParsed t) k) (slotPlane t.desc k) e.unc := by
    rw [slotStream, unc]
  obtain ⟨b, ends, rows⟩ := S.ends
  refine ⟨?_, ⟨b, ?_, fun c hc n => by rw [rows c hc]; exact enc.rows c hc n⟩, by rw [stream, S.pend], ?_⟩
  · rw [PastFrame, off, size]
    exact Nat.not_lt.mpr frame
  · rw [SlotEnds, stream, unc]
    exact ends
  · rw [slotExpected, unc, size, stream]
    have whole := enc.encodes.size f plane
    cases hu : e.unc
    · rw [if_neg Bool.false_ne_true, ← hu]
      exact S.size hu
    · rw [hu, if_pos rfl] at whole
      rw [if_pos rfl, whole]

theorem PayloadOf.good (hk : k < t.desc.nsubblocks) : SlotGood t (headerParsed t) k := by
  obtain ⟨inFrame, ⟨b, ends, -⟩, -⟩ := P.slot f hr hk
  exact .inr ⟨inFrame, b, ends⟩

theorem PayloadOf.no_mark (hk : k < t.desc.nsubblocks) (x : Viol) : ¬ SlotMark t (headerParsed t) k x := by
  obtain ⟨inFrame, -, pend, size⟩ := P.slot f hr hk
  rintro (⟨past, -⟩ | ⟨-, -, viol | ⟨-, ne⟩⟩)
  · exact inFrame past
  · rw [pend] at viol
    cases viol
  · exact ne size

/-- The samples that DECODE_SUPERBLOCK places are those that were encoded. -/
theorem PayloadOf.sample {v : State} (g : Tiled t.desc) (D : SlotsDecoded t (headerParsed t) v) {p : Fin 2} {c : Fin 4}
    {x y : Nat} (hpc : (p, c) ∈ planeComps t.desc) (hx : x < pw t.desc p) (hy : y < ph t.desc p) :
    (v.sb.sblk[c]).getD (y * pw t.desc p + x) 0 = (sblk[c]).getD (y * pw t.desc p + x) 0 := by
  obtain ⟨hp, hc⟩ := mem_planeComps.mp hpc
  obtain ⟨k, hk, rfl, hx1, hx2, hy1, hy2⟩ := g.covers f hp hx hy
  obtain ⟨dx, rfl⟩ := Nat.exists_eq_add_of_le hx1
  obtain ⟨dy, rfl⟩ := Nat.exists_eq_add_of_le hy1
  obtain ⟨inFrame, ⟨b, ends, rows⟩, -⟩ := P.slot f hr hk
  have hdx : dx < 4 := by omega
  have hdy : dy < 4 := by omega
  obtain ⟨b', ends', value⟩ := (D.samples k hk c hc dx hdx dy hdy).2 inFrame
  obtain rfl := ends.unique ends'
  have index : 4 * dy + dx < 16 := by omega
  have row := rows c hc ⟨4 * dy + dx, index⟩
  simp only [Nat.mul_add_mod, Nat.mod_eq_of_lt hdx, Nat.mul_add_div (show 0 < 4 by decide),
    Nat.div_eq_of_lt hdx, Nat.add_zero] at row
  rw [vector_getD _ index] at value
  exact value.trans row

end Slots

/-- DECODE_SUPERBLOCK of a payload completes, restores its samples, and flags no violation of header, subblock or slot. -/
theorem PayloadOf.decodes {t : State} {sblk : Vector (Vector Sample 256) 4} {pos : Nat} {code : Nat → Nat}
    (f : DescFacts t.desc) (g : Tiled t.desc) (hr : Ready t) (hx : t.port.arg0 < t.desc.mbw) (hy : t.port.arg1 < t.desc.mbh)
    (P : PayloadOf t sblk pos code) (tile : TileBoundHolds t pos) :
    ∃ u, exec .decodeSuperblock t = .next u ∧ u.port.status = .done ∧ u.fat = t.fat ∧
      (∀ p c i x y, SampleOf t.desc t.port.arg0 t.port.arg1 p c i x y →
        memGet u.out[c] i = (sblk[c]).getD (y * pw t.desc p + x) 0) ∧
      ∀ k, SlotBit k → u.chk.violMask.getLsbD k = t.chk.violMask.getLsbD k := by
  obtain ⟨slots, chk, resolved⟩ := P.parsed f
  obtain ⟨-, -, -, h24, -⟩ := f.narrow
  have ptr : (headerParsed t).hdr.ptr.toNat = pos := by
    rw [resolved, (resolved_range t.desc (rawHeader t) h24).raw.fields.2.1, (P.raw f).1]
  have parsed : SlotsParsed t (headerParsed t) := ⟨exec_parseHeader_atHeader f hr hx hy, slots⟩
  obtain ⟨v, run, D⟩ := exec_decodeSuperblock_good f g hr hx hy parsed (by rwa [ptr]) fun k hk => P.good f hr hk
  refine ⟨_, run, rfl, ?_, fun p c i x y sample => ?_, fun k hk => ?_⟩
  · rw [completeOp_fat, writeback_fat, D.change.same]
    rfl
  · have inside := sample
    obtain ⟨hpc, hxp, hyp, -⟩ := inside
    rw [completeOp_out, D.inside f sample, P.sample f hr g D hpc hxp hyp]
  · rw [completeOp_chk, writeback_chk, Bool.eq_iff_iff, D.marks k hk, chk]
    exact or_iff_left fun ⟨x, ⟨i, hi, mark⟩, _⟩ => P.no_mark f hr hi x mark

end Sys2Proof.Machine

namespace Sys2Proof.Machine

/-! ### What ENCODE_SUPERBLOCK leaves is a payload (43_superblock R225, R231) -/

section Written

variable {u t w : State} {pos : Nat} {a : EncLoop}

theorem Hdr.codes_getElem {h : Hdr} {n k : Nat} (hl : k < (h.codes n).length) : (h.codes n)[k] = h.codeAt k := by
  simp [Hdr.codes]

theorem EncodeInv.header (f : DescFacts u.desc) (I : EncodeInv u pos u.desc.nsubblocks a t) (hpos : pos < 2 ^ u.desc.ptrBits) :
    bitField (headerWord (headerWritten t).fb t.sb.mbnum) 0 u.desc.ptrBits = pos ∧
      ∀ k < u.desc.nsubblocks, bitField (headerWord (headerWritten t).fb t.sb.mbnum)
        (u.desc.ptrBits + u.desc.sizeBits * k) u.desc.sizeBits = t.hdr.codeAt k := by
  obtain ⟨h32, -⟩ := f.narrow
  have fields := f.fields
  have word : packHeader t.desc t.hdr =
      pos + 2 ^ u.desc.ptrBits * packCodes u.desc.sizeBits (t.hdr.codes u.desc.nsubblocks) := by
    rw [packHeader, I.ptr, I.change.desc]
  rw [headerWritten, word]
  refine ⟨(bitField_written (by omega)).trans (header_ptr _ _ hpos), fun k hk => ?_⟩
  have inside := Nat.mul_le_mul_left u.desc.sizeBits (Nat.succ_le_of_lt hk)
  rw [Nat.mul_succ] at inside
  have length : k < (t.hdr.codes u.desc.nsubblocks).length := by simpa [Hdr.codes] using hk
  exact (bitField_written (by omega)).trans
    ((header_code hpos I.codes k length).trans (Hdr.codes_getElem length))

/-- Bytes behind the payload's begin are what counts for a slot. -/
theorem Stored.above {d : Desc} {code : Nat → Nat} {m m' : Mem 8} {i : Nat} {bytes : List Byte} {unc : Bool} (f : DescFacts d)
    (h : Stored d pos code m i bytes unc) (hi : i < d.nsubblocks) (fit : SlotsFit d code d.nsubblocks)
    (hm : ∀ b, pos ≤ b → memGet m' b = memGet m b) : Stored d pos code m' i bytes unc := by
  obtain ⟨j, root, size, form, holds⟩ := h
  have hj := root.1.trans_lt hi
  have low := le_slotOffset (ptr := pos) f hj.le (fit.before hj.le)
  exact ⟨j, root, size, form, fun n hn => by rw [hm _ (by omega), holds n hn]⟩

/-- The loop's end, with the header written in front of the payload. -/
theorem EncodeInv.payload (f : DescFacts u.desc) (I : EncodeInv u pos u.desc.nsubblocks a t)
    (hpos : pos < 2 ^ u.desc.ptrBits) (area : headerAddr t.sb.mbnum + 16 ≤ pos)
    (frame : pos + u.desc.maxpay ≤ u.desc.frameSize.toNat) (desc : w.desc = u.desc) (fb : w.fb = (headerWritten t).fb)
    (place : mbnumOf w.desc w.port.arg0 w.port.arg1 = t.sb.mbnum) : PayloadOf w u.sb.sblk pos t.hdr.codeAt := by
  obtain ⟨ptr, codes⟩ := I.header f hpos
  refine ⟨?_, ?_, ?_, ?_, ?_⟩
  · rw [place, desc, fb, ptr]
  · rw [place, desc, fb]
    exact codes
  · rw [desc]
    exact I.fit
  · rw [desc, fb]
    intro k hk
    obtain ⟨blk, e, enc, stored⟩ := I.slots k hk
    exact ⟨blk, e, enc, stored.above f hk I.fit fun b hb =>
      memGet_memSetBytes_outside (.inr (by rw [length_natToBytes]; omega))⟩
  · rw [desc]
    exact frame

end Written

/-! ### The two forms of a superblock, encoded and decoded (43_superblock R227, R233) -/

section RoundTrip

variable {s : State} {o : Vector (Mem 32) 4}

/-- `u` is a completed decode with the samples of `s`, no fatal error and the bits of `VIOL_MASK` as in `s`. -/
structure Restored (s u : State) : Prop where
  done : u.port.status = .done
  fat : u.fat = s.fat
  samples : ∀ p c i x y, SampleOf s.desc s.port.arg0 s.port.arg1 p c i x y → memGet u.out[c] i = memGet s.out[c] i
  bits : ∀ k, SlotBit k → u.chk.violMask.getLsbD k = s.chk.violMask.getLsbD k

/-- The encoded state, with other samples in `OUT`. -/
def handedOver (t : State) (off : Nat) (o : Vector (Mem 32) 4) : State :=
  { completeOp (headerWritten t) ⟨some (off : Int), none, none⟩ with out := o }

theorem handedOver_kept {t : State} {pos : Nat} (h : EncodeChange (loopEntry (fetched s) pos) t) (off : Nat)
    (o : Vector (Mem 32) 4) : (handedOver t off o).desc = s.desc ∧ (handedOver t off o).port.arg0 = s.port.arg0 ∧
      (handedOver t off o).port.arg1 = s.port.arg1 ∧ (handedOver t off o).fat = s.fat ∧
      (handedOver t off o).descValid = s.descValid ∧ (handedOver t off o).chk = s.chk := by
  rw [handedOver, headerWritten, h.same]
  exact ⟨rfl, rfl, rfl, rfl, rfl, rfl⟩

variable (f : DescFacts s.desc) (hr : Ready s) (hx : s.port.arg0 < s.desc.mbw) (hy : s.port.arg1 < s.desc.mbh)
  (hptr : s.port.arg2 < 2 ^ s.desc.ptrBits) (range : SamplesInRange s)
include f hx hy

omit hx hy in
theorem fetched_cell {p : Fin 2} {c : Fin 4} {i x y : Nat} (h : SampleOf s.desc s.port.arg0 s.port.arg1 p c i x y) :
    ((fetched s).sb.sblk[c]).getD (y * pw s.desc p + x) 0 = memGet s.out[c] i := by
  have inside := h
  obtain ⟨hpc, hxp, hyp, -⟩ := inside
  exact (fetch_cell (s := setCoords s s.port.arg0 s.port.arg1) f hpc hxp hyp).trans
    (fetchSample_inside (s := setCoords s s.port.arg0 s.port.arg1) h)

omit hx hy in
/-- A superblock that ENCODE_SUPERBLOCK takes as constant is so. -/
theorem constantSamples (range : SamplesInRange s) (constant : allConstant (fetched s) = true) :
    ConstantSamples s fun c => ((fetched s).sb.sblk[c])[0] := by
  intro p c i x y h
  have inside := h
  obtain ⟨hpc, hxp, hyp, -⟩ := inside
  have region := cell_lt hxp hyp
  have small := f.cell_lt_256 hxp hyp
  have value := fetched_cell f h
  rw [vector_getD _ small] at value
  have mem : memGet s.out[c] i ∈ regionSamples (fetched s) (p, c) :=
    List.mem_take_iff_getElem.mpr ⟨y * pw s.desc p + x, by simpa using ⟨region, small⟩, by simpa using value⟩
  have same := beq_iff_eq.mp (List.all_eq_true.mp (List.all_eq_true.mp constant _ hpc) _ mem)
  have bound := range p c i x y h
  rw [same] at bound
  exact ⟨same, bound⟩

include hr hptr range

theorem solid_restored (ha : s.desc.allowSolid = true) (constant : allConstant (fetched s) = true) :
    ∃ t u, exec .encodeSuperblock s = .next t ∧ t.port.status = .done ∧
      exec .decodeSuperblock { t with out := o } = .next u ∧ Restored s u := by
  have hv := constantSamples f range constant
  obtain ⟨-, -, -, -, h64⟩ := f.narrow
  have size := solidEncoded_field f hx hy hv h64
  refine ⟨solidEncoded s, solidDecoded { solidEncoded s with out := o },
    exec_encodeSuperblock_constant f hr hx hy hv hptr ha, rfl,
    exec_decodeSuperblock_solid (s := { solidEncoded s with out := o }) f hr hx hy ha size, rfl, ?_,
    fun p c i x y sample => BitVec.eq_of_toNat_eq ?_, fun k hk => ?_⟩
  · simp [solidDecoded, solidParsed, atSuperblock, solidEncoded, fetched]
  · rw [(hv p c i x y sample).1, ← solidEncoded_colour f hx hy hv sample.1]
    exact solidDecoded_inside (s := { solidEncoded s with out := o }) f sample
  · exact stripeCount_sameBits (B := SlotBit) (fillSolid (solidParsed { solidEncoded s with out := o })) none
      (by simp [SlotBit]) (by simp [SlotBit]) k hk

theorem slots_restored (g : Tiled s.desc) (area : s.desc.hdrArea ≤ s.port.arg2)
    (frame : s.port.arg2 + s.desc.maxpay ≤ s.desc.frameSize.toNat) (tile : TileBoundHolds s s.port.arg2)
    (slots : (s.desc.allowSolid && allConstant (fetched s)) = false) :
    ∃ t u, exec .encodeSuperblock s = .next t ∧ t.port.status = .done ∧
      exec .decodeSuperblock { t with out := o } = .next u ∧ Restored s u := by
  obtain ⟨-, -, -, inBuffer, -⟩ := f.sizes
  have room : s.port.arg2 + s.desc.maxpay ≤ bufSize s := by
    rw [bufSize, if_pos hr.2]
    exact frame.trans inBuffer
  obtain ⟨a, t, run, I, -⟩ := encodeNormal_encoded f hr hx hy range hptr room
  have mbnum : t.sb.mbnum = mbnumOf s.desc s.port.arg0 s.port.arg1 := I.change.sb.2.2.1
  obtain ⟨desc, arg0, arg1, fat, valid, chk⟩ := handedOver_kept I.change a.off o
  have behind : headerAddr t.sb.mbnum + 16 ≤ s.port.arg2 := by
    rw [mbnum]
    exact (f.header_in_area hx hy).trans area
  have P : PayloadOf (handedOver t a.off o) (fetched s).sb.sblk s.port.arg2 t.hdr.codeAt :=
    EncodeInv.payload (u := loopEntry (fetched s) s.port.arg2) f I hptr behind frame desc rfl
      (by rw [desc, arg0, arg1, mbnum])
  have tile' : TileBoundHolds (handedOver t a.off o) s.port.arg2 := by
    rw [TileBoundHolds, tileBase, desc, arg0, arg1]
    exact tile
  obtain ⟨u, decoded, done, ufat, samples, bits⟩ := P.decodes (desc ▸ f) (desc ▸ g) ⟨by rw [fat, hr.1], by rw [valid, hr.2]⟩
    (by rw [desc, arg0]; exact hx) (by rw [desc, arg1]; exact hy) tile'
  rw [desc, arg0, arg1] at samples
  refine ⟨_, u, ?_, ?_, decoded, done, ufat.trans fat, fun p c i x y sample => ?_, fun k hk => ?_⟩
  · rw [exec_encodeSuperblock f hr hx hy hptr range, slots, if_neg Bool.false_ne_true, run, onFatal_ok, settle_ok]
  · rfl
  · rw [samples p c i x y sample, fetched_cell f sample]
  · rw [bits k hk, chk]

end RoundTrip

/-- Settles O51: a constant superblock comes back from the colours of its header, any other from the streams of its slots, each
of which consumes the size that its code declares. -/
theorem superblockRoundTrip : Obligations.SuperblockRoundTrip := by
  intro s o hi hr hx hy hptr area frame tile range _
  have f := hi.facts hr
  have restored : ∃ t u, exec .encodeSuperblock s = .next t ∧ t.port.status = .done ∧
      exec .decodeSuperblock { t with out := o } = .next u ∧ Restored s u := by
    cases solid : s.desc.allowSolid && allConstant (fetched s)
    · exact slots_restored f hr hx hy hptr range (hi.tiled hr) area frame tile solid
    · obtain ⟨allowed, constant⟩ := Bool.and_eq_true_iff.mp solid
      exact solid_restored f hr hx hy hptr range allowed constant
  obtain ⟨t, u, encoded, ready, decoded, done, fat, samples, bits⟩ := restored
  exact ⟨t, u, encoded, ready, decoded, done, fat, samples, bits⟩

end Sys2Proof.Machine

namespace Sys2Proof.Machine

/-! ### The machine invariant (10_state sections 2 to 7) -/

section Invariant

variable {i : Instr} {s t u : State}

/-- What the body of an operation comes to from `s`: nothing that the invariant speaks of differs, but for memory in its
canonical form, a checker that has grown and a place inside the frame. -/
structure Carried (s t : State) : Prop where
  mem : MemInv t
  place : PlaceInv t
  grows : Grows s.chk t.chk
  desc : t.desc = s.desc
  valid : t.descValid = s.descValid
  fat : t.fat = s.fat

theorem Grows.statusInv (g : Grows s.chk t.chk) (hi : StatusInv s) (code : t.fat.code.toNat ≤ 8)
    (failed : t.fat.code ≠ 0 → t.port.status = .failed) : StatusInv t := by
  obtain ⟨⟨m, hm, mask, found⟩, -⟩ := g
  refine ⟨code, ?_, ?_, failed⟩
  · rw [mask]
    exact or_lt_two_pow hi.reserved hm
  · rw [mask, found, or_ne_zero_iff, hi.found, Bool.or_eq_true, decide_eq_true_eq]

theorem DescInv.of_same (hi : DescInv s) (desc : t.desc = s.desc) (valid : t.descValid = s.descValid)
    (bins : t.chk.stripeBins.length = s.chk.stripeBins.length) : DescInv t where
  derived := by rw [desc, valid]; exact hi.derived
  valid := by rw [desc, valid]; exact hi.valid
  bins := by rw [desc, valid, bins]; exact hi.bins

/-- How an operation ends: only the fatal registers and the command interface are written behind its body. -/
theorem Carried.ends (c : Carried s t) (hi : Inv s) (same : u = { t with fat := u.fat, port := u.port })
    (code : u.fat.code.toNat ≤ 8) (failed : u.fat.code ≠ 0 → u.port.status = .failed) : Inv u := by
  have chk : u.chk = t.chk := by rw [same]
  have desc : u.desc = s.desc := by rw [same]; exact c.desc
  have valid : u.descValid = s.descValid := by rw [same]; exact c.valid
  refine ⟨?_, Grows.statusInv (chk ▸ c.grows) hi.status code failed, hi.desc.of_same desc valid ?_, ?_⟩
  · rw [same]
    exact ⟨c.mem.fb, c.mem.out⟩
  · rw [chk]
    exact c.grows.2
  · rw [same]
    exact ⟨c.place.grid, c.place.slot⟩

theorem Carried.completes (c : Carried s t) (hi : Inv s) (h0 : s.fat.code = 0) (r : Results) : Inv (completeOp t r) :=
  c.ends hi rfl (by rw [completeOp_fat, c.fat]; exact hi.status.code) fun h => absurd (c.fat ▸ h0) h

theorem Carried.raises (c : Carried s t) (hi : Inv s) (x : FatalCode) (r : Results) : Inv (raiseFatal t x r) := by
  refine c.ends hi rfl ?_ fun _ => rfl
  rw [raiseFatal_fat, after_code, c.fat]
  split
  · exact value_le x
  · exact hi.status.code

theorem Carried.refl (hi : Inv s) : Carried s s := ⟨hi.mem, hi.place, .refl _, rfl, rfl, rfl⟩

/-! The steps of a body. -/

/-- A superblock of the frame is entered. -/
theorem Carried.superblock (c : Carried s t) {b : Sb} (grid : b.mbx < t.desc.mbw ∧ b.mby < t.desc.mbh) (slot : b.slot < 24) :
    Carried s { t with sb := b } :=
  ⟨⟨c.mem.fb, c.mem.out⟩, ⟨fun _ => grid, slot⟩, c.grows, c.desc, c.valid, c.fat⟩

theorem SbKeeps.placeInv (k : SbKeeps s t.sb) (hi : PlaceInv s) (n : s.desc.nsubblocks ≤ 24) (desc : t.desc = s.desc)
    (valid : t.descValid = s.descValid) : PlaceInv t := by
  obtain ⟨mbx, mby, -, slot⟩ := k
  refine ⟨by rw [mbx, mby, desc, valid]; exact hi.grid, ?_⟩
  obtain slot | slot := slot
  · rw [slot]
    exact hi.slot
  · exact slot.trans_le n

theorem Carried.decode (c : Carried s t) (n : s.desc.nsubblocks ≤ 24) (d : DecodeChange t u) : Carried s u where
  mem := by rw [d.same]; exact ⟨c.mem.fb, c.mem.out⟩
  place := d.sb.placeInv c.place (by rw [c.desc]; exact n) (by rw [d.same]) (by rw [d.same])
  grows := c.grows.trans d.grows
  desc := by rw [d.same]; exact c.desc
  valid := by rw [d.same]; exact c.valid
  fat := by rw [d.same]; exact c.fat

theorem Carried.encode (c : Carried s t) (n : s.desc.nsubblocks ≤ 24) (d : EncodeChange t u) : Carried s u where
  mem := ⟨d.fb.wf c.mem.fb, by rw [d.same]; exact c.mem.out⟩
  place := d.sb.placeInv c.place (by rw [c.desc]; exact n) (by rw [d.same]) (by rw [d.same])
  grows := by rw [d.same]; exact c.grows
  desc := by rw [d.same]; exact c.desc
  valid := by rw [d.same]; exact c.valid
  fat := by rw [d.same]; exact c.fat

theorem Carried.writeback (c : Carried s t) : Carried s (writeback t) :=
  ⟨⟨c.mem.fb, writeback_wf t c.mem.out⟩, ⟨c.place.grid, c.place.slot⟩, c.grows, c.desc, c.valid, c.fat⟩

theorem Carried.loseOut (c : Carried s t) : Carried s (loseOut t) :=
  ⟨⟨c.mem.fb, loseOut_wf t c.mem.out⟩, ⟨c.place.grid, c.place.slot⟩, c.grows, c.desc, c.valid, c.fat⟩

/-! Every instruction, and every host action. -/

theorem Inv.nsubblocks_le (hi : Inv s) (hr : Ready s) : s.desc.nsubblocks ≤ 24 := by
  obtain ⟨-, -, -, h24, -⟩ := (hi.facts hr).narrow
  exact h24

theorem Inv.fails (hi : Inv s) (r : Results) : Inv (failOp s r) :=
  (Carried.refl hi).ends hi rfl hi.status.code fun _ => rfl

theorem Carried.encodeStart (hi : Inv s) (g : i = .encodeSuperblock → inGrid s.desc s.port.arg0 s.port.arg1 = true) :
    Carried s (encodeStart i s) := by
  unfold Machine.encodeStart
  split
  · next e => exact (Carried.refl hi).superblock (of_decide_eq_true (g e)) hi.place.slot
  · exact .refl hi

theorem Carried.atSuperblock (hi : Inv s) (g : inGrid s.desc s.port.arg0 s.port.arg1 = true) :
    Carried s (atSuperblock s s.port.arg0 s.port.arg1) :=
  (Carried.refl hi).superblock (of_decide_eq_true g) (Nat.zero_lt_succ 23)

/-- An accepted descriptor has a first superblock. -/
theorem DescFacts.grid_pos {d : Desc} (f : DescFacts d) : 0 < d.mbw ∧ 0 < d.mbh := by
  obtain ⟨hw, hh, -⟩ := f.sizes
  have mbw : d.mbw = ceilDiv d.width d.sbW := by rw [f.derived]; rfl
  have mbh : d.mbh = ceilDiv d.height d.sbH := by rw [f.derived]; rfl
  rw [mbw, mbh, ceilDiv, ceilDiv]
  rcases f.region with ⟨ew, eh⟩ | ⟨ew, eh⟩ <;> rw [ew, eh] <;> omega

/-- INIT_DESCRIPTOR starts the frame afresh, under the descriptor it accepted or under none. -/
theorem initDescriptor_keepsInv (hi : Inv s) : NextAll Inv (exec .initDescriptor s) := by
  show NextAll Inv (execInitDescriptor s)
  simp only [execInitDescriptor]
  split
  · next h =>
    refine nextAll_next.mpr ⟨⟨hi.mem.fb, hi.mem.out⟩, ⟨?_, ?_, ?_, ?_⟩, ⟨fun _ => rfl, fun _ => h, fun _ => rfl⟩,
      ⟨fun _ => (descFacts _ _ h).grid_pos, ?_⟩⟩ <;> simp
  · refine nextAll_next.mpr ⟨⟨hi.mem.fb, hi.mem.out⟩, ⟨?_, ?_, ?_, ?_⟩, ⟨?_, ?_, ?_⟩, ⟨?_, ?_⟩⟩ <;>
      simp [after_code, FatalCode.value]

/-- Every instruction keeps the invariant. -/
theorem exec_keepsInv (hi : Inv s) (i : Instr) : NextAll Inv (exec i s) := by
  by_cases init : i = .initDescriptor
  · exact init ▸ initDescriptor_keepsInv hi
  cases exec_cases i s init
  case failed e => rw [e]; exact nextAll_next.mpr (hi.fails _)
  case bits m k r h _ fb _ e =>
    have c : Carried s { s with fb := m, cur := k } :=
      ⟨⟨fb.wf hi.mem.fb, hi.mem.out⟩, ⟨hi.place.grid, hi.place.slot⟩, .refl _, rfl, rfl, rfl⟩
    rw [e]; exact nextAll_next.mpr (c.completes hi h r)
  case absent e => rw [e]; exact nextAll_next.mpr ((Carried.refl hi).raises hi _ _)
  case input e => rw [e]; exact nextAll_next.mpr ((Carried.refl hi).raises hi _ _)
  case command e => rw [e]; exact nextAll_next.mpr ((Carried.refl hi).raises hi _ _)
  case undefined e => rw [e]; exact nextAll_fault _
  case decoded t r h _ _ _ _ d e =>
    rw [e]; exact nextAll_next.mpr (((Carried.refl hi).decode (hi.nsubblocks_le h) d).completes hi h.1 r)
  case decodeFailed x t r h _ _ _ _ d e =>
    rw [e]; exact nextAll_next.mpr (((Carried.refl hi).decode (hi.nsubblocks_le h) d).raises hi x r)
  case encoded t r h _ g d _ e =>
    rw [e]; exact nextAll_next.mpr (((Carried.encodeStart hi g).encode (hi.nsubblocks_le h) d).completes hi h.1 r)
  case encodeFailed x t r h _ g d _ e =>
    rw [e]; exact nextAll_next.mpr (((Carried.encodeStart hi g).encode (hi.nsubblocks_le h) d).raises hi x r)
  case superblock t h _ g d e =>
    have c := ((Carried.atSuperblock hi g).decode (hi.nsubblocks_le h) d).writeback
    rw [e]; exact nextAll_next.mpr (c.completes hi h.1 _)
  case superblockFailed x t h _ g d e =>
    have n := hi.nsubblocks_le h
    have c := (((Carried.atSuperblock hi g).decode n d).loseOut).decode n (loseAll_change _)
    rw [e]; exact nextAll_next.mpr (c.raises hi x _)

/-- A host write that leaves memory in its canonical form, and the last operation's status as it is. -/
theorem Inv.hostWrite (hi : Inv s) (mem : MemInv t)
    (same : t = { s with fb := t.fb, out := t.out, codec := t.codec, hdr := t.hdr, port := t.port })
    (status : t.port.status = s.port.status) : Inv t := by
  have c : Carried s { s with fb := t.fb, out := t.out, codec := t.codec, hdr := t.hdr } :=
    ⟨⟨mem.fb, mem.out⟩, ⟨hi.place.grid, hi.place.slot⟩, .refl _, rfl, rfl, rfl⟩
  have fat : t.fat = s.fat := by rw [same]
  refine c.ends hi (by rw [same]) (by rw [fat]; exact hi.status.code) ?_
  rw [fat, status]
  exact hi.status.failed

theorem setArg_status (p : Port) (k : Fin 4) (v : Nat) : (p.setArg k v).status = p.status := by
  unfold Port.setArg
  split
  · rfl
  · split
    · rfl
    · split <;> rfl

theorem applyReset_inv (hi : Inv s) : Inv (applyReset s) where
  mem := ⟨hi.mem.fb, hi.mem.out⟩
  status := by refine ⟨?_, ?_, ?_, ?_⟩ <;> simp [applyReset, State.reset]
  desc := by refine ⟨?_, ?_, ?_⟩ <;> simp [applyReset, State.reset]
  place := by refine ⟨?_, ?_⟩ <;> simp [applyReset, State.reset]

theorem hostAction_keepsInv (hi : Inv s) (e : Event) : NextAll Inv (hostAction e s) := by
  cases e
  case setArg k v => exact nextAll_next.mpr (hi.hostWrite ⟨hi.mem.fb, hi.mem.out⟩ rfl (setArg_status _ k v))
  case setDescIn => exact nextAll_next.mpr (hi.hostWrite ⟨hi.mem.fb, hi.mem.out⟩ rfl rfl)
  case writeFb a v =>
    simp only [hostAction]
    split
    · exact nextAll_next.mpr (hi.hostWrite ⟨wf_memSet hi.mem.fb a v, hi.mem.out⟩ rfl rfl)
    · exact nextAll_fault _
  case writeOut c j v =>
    refine nextAll_next.mpr (hi.hostWrite ⟨hi.mem.fb, fun e => ?_⟩ rfl rfl)
    by_cases h : e = c
    · subst h
      rw [row_set_self]
      exact wf_memSet (hi.mem.out e) j v
    · have keep : (s.out.set c (memSet s.out[c] j v))[e] = s.out[e] := row_set_ne _ _ h
      exact keep ▸ hi.mem.out e
  case writeBlk => exact nextAll_next.mpr (hi.hostWrite ⟨hi.mem.fb, hi.mem.out⟩ rfl rfl)
  case writeHdr => exact nextAll_next.mpr (hi.hostWrite ⟨hi.mem.fb, hi.mem.out⟩ rfl rfl)
  case command w =>
    simp only [hostAction, runCommand]
    split
    · exact exec_keepsInv hi _
    · exact nextAll_next.mpr ((Carried.refl hi).raises hi _ _)
  case element g =>
    simp only [hostAction, runElement]
    split
    · exact nextAll_next.mpr ((Carried.refl hi).raises hi _ _)
    · split
      · exact exec_keepsInv hi _
      · exact nextAll_next.mpr ((Carried.refl hi).raises hi _ _)
  case reset => exact nextAll_next.mpr (applyReset_inv hi)

end Invariant

/-- Settles O8: every host action keeps the invariant, because every instruction does. -/
theorem invariantKeptByStep : Obligations.InvariantKeptByStep := by
  intro s t hi e
  rw [step, stepState] at e
  split at e
  · cases e
    exact hi
  · next ev rest _ =>
    have taken : Inv { s with inbox := rest } :=
      ⟨⟨hi.mem.fb, hi.mem.out⟩, ⟨hi.status.code, hi.status.reserved, hi.status.found, hi.status.failed⟩,
        ⟨hi.desc.derived, hi.desc.valid, hi.desc.bins⟩, ⟨hi.place.grid, hi.place.slot⟩⟩
    exact hostAction_keepsInv taken ev t e

end Sys2Proof.Machine

namespace Sys2Proof.Machine

/-! ### Superblock numbers (44_header_address R255 to R258) -/

section Numbers

variable {d : Desc} {s : State} {x y x' y' : Nat}

theorem mbnumOf_raster (h : d.tiled = false) (x y : Nat) : mbnumOf d x y = y * d.mbw + x := by simp [mbnumOf, h]

theorem mbnumOf_tiled (h : d.tiled = true) (x y : Nat) :
    mbnumOf d x y = (y / 8 * (d.mbwAl / 8) + x / 8) * 64 + swizzle (x % 8) (y % 8) := if_pos h

/-- A tiled number is the tile's, then the place in the tile. -/
theorem mbnumOf_tiled_parts (h : d.tiled = true) (x y : Nat) :
    mbnumOf d x y / 64 = y / 8 * (d.mbwAl / 8) + x / 8 ∧ mbnumOf d x y % 64 = swizzle (x % 8) (y % 8) := by
  have lt := swizzle_lt (x % 8) (y % 8)
  rw [mbnumOf_tiled h]
  omega

/-- `SWIZZLE` interleaves the three low bits of the coordinates, `y` lowest (R256). -/
theorem testBit_swizzle : ∀ x < 8, ∀ y < 8, ∀ k < 3,
    (swizzle x y).testBit (2 * k) = y.testBit k ∧ (swizzle x y).testBit (2 * k + 1) = x.testBit k := by decide

/-- The 64 places of a tile are numbered once each (R258). -/
theorem swizzle_bijective : ∀ k < 64, ∃ x < 8, ∃ y < 8, swizzle x y = k ∧
    ∀ x' < 8, ∀ y' < 8, swizzle x' y' = k → x' = x ∧ y' = y := by
  decide +kernel

theorem swizzle_inj {a b a' b' : Nat} (ha : a < 8) (hb : b < 8) (ha' : a' < 8) (hb' : b' < 8)
    (h : swizzle a b = swizzle a' b') : a = a' ∧ b = b' := by
  obtain ⟨u, -, v, -, -, only⟩ := swizzle_bijective (swizzle a b) (swizzle_lt a b)
  obtain ⟨rfl, rfl⟩ := only a ha b hb rfl
  obtain ⟨rfl, rfl⟩ := only a' ha' b' hb' h.symm
  exact ⟨rfl, rfl⟩

theorem testBit_mod_pow {n m k : Nat} (h : k < m) : (n % 2 ^ m).testBit k = n.testBit k := by
  rw [Nat.testBit_mod_two_pow, decide_eq_true h, Bool.true_and]

/-- The six low bits of a tiled number. -/
theorem testBit_mbnumOf (h : d.tiled = true) (x y : Nat) {k : Nat} (hk : k < 3) :
    (mbnumOf d x y).testBit (2 * k) = y.testBit k ∧ (mbnumOf d x y).testBit (2 * k + 1) = x.testBit k := by
  have low : mbnumOf d x y % 2 ^ 6 = swizzle (x % 8) (y % 8) := (mbnumOf_tiled_parts h x y).2
  obtain ⟨even, odd⟩ := testBit_swizzle (x % 2 ^ 3) (Nat.mod_lt _ (by decide)) (y % 2 ^ 3) (Nat.mod_lt _ (by decide)) k hk
  rw [testBit_mod_pow hk] at even odd
  rw [← testBit_mod_pow (m := 6) (by omega), low, ← testBit_mod_pow (m := 6) (k := 2 * k + 1) (by omega), low]
  exact ⟨even, odd⟩

theorem execResolveAddr_ready (hr : Ready s) : exec .resolveAddr s =
    ifInput s (inGrid s.desc s.port.arg0 s.port.arg1) (.next (completeOp s
      ⟨some (mbnumOf s.desc s.port.arg0 s.port.arg1 : Int), some (headerAddr (mbnumOf s.desc s.port.arg0 s.port.arg1) : Int),
        none⟩)) := hr.gate

/-- Two superblocks of an untiled or tiled grid with one number are one (R258). -/
theorem mbnumOf_inj (hw : d.mbw ≤ d.mbwAl) (al : d.tiled = true → d.mbwAl % 8 = 0) (hx : x < d.mbw) (hx' : x' < d.mbw)
    (h : mbnumOf d x y = mbnumOf d x' y') : x = x' ∧ y = y' := by
  cases t : d.tiled with
  | false =>
    rw [mbnumOf_raster t, mbnumOf_raster t] at h
    exact cell_inj hx hx' h
  | true =>
    obtain ⟨tile, place⟩ := mbnumOf_tiled_parts t x y
    obtain ⟨tile', place'⟩ := mbnumOf_tiled_parts t x' y'
    have width := al t
    obtain ⟨hi, hj⟩ := cell_inj (w := d.mbwAl / 8) (by omega) (by omega)
      (tile.symm.trans ((congrArg (· / 64) h).trans tile'))
    obtain ⟨lo, lj⟩ := swizzle_inj (Nat.mod_lt _ (by decide)) (Nat.mod_lt _ (by decide)) (Nat.mod_lt _ (by decide))
      (Nat.mod_lt _ (by decide)) (place.symm.trans ((congrArg (· % 64) h).trans place'))
    omega

end Numbers

/-- Settles O18: the gate's input check, and the two forms of a number. -/
theorem resolveAddrResult : Obligations.ResolveAddrResult := by
  intro s hr
  rw [execResolveAddr_ready hr]
  refine ⟨fun hx hy => ⟨mbnumOf s.desc s.port.arg0 s.port.arg1, ?_, fun t => mbnumOf_raster t _ _, fun t =>
    ⟨(mbnumOf_tiled_parts t _ _).1, fun k hk => testBit_mbnumOf t _ _ hk⟩⟩, fun out => ?_⟩
  · rw [inGrid, decide_eq_true ⟨hx, hy⟩, ifInput_true]
    rfl
  · rw [inGrid, decide_eq_false (by omega), ifInput_false, raiseFatal_refusedWith hr.1]

/-- Settles O19: a tile's number and the place in the tile determine each other's superblock. -/
theorem mbnumInjective : Obligations.MbnumInjective := by
  intro l i d
  have hw : d.mbw ≤ d.mbwAl := le_roundUp d.mbw (b := if i.tiled then 8 else 1) (by split <;> decide)
  have al (t : d.tiled = true) : d.mbwAl % 8 = 0 := by
    have e : d.mbwAl = roundUp d.mbw (if d.tiled then 8 else 1) := rfl
    rw [e, if_pos t]
    exact roundUp_mod _ 8
  refine ⟨fun t tx ty k _ hk => ?_, fun x y x' y' hx _ hx' _ h => ?_⟩
  · have number {a b : Nat} (ha : a < 8) (hb : b < 8) :
        mbnumOf d (8 * tx + a) (8 * ty + b) = (ty * (d.mbwAl / 8) + tx) * 64 + swizzle a b := by
      have ex : (8 * tx + a) / 8 = tx ∧ (8 * tx + a) % 8 = a := by omega
      have ey : (8 * ty + b) / 8 = ty ∧ (8 * ty + b) % 8 = b := by omega
      rw [mbnumOf_tiled t, ex.1, ex.2, ey.1, ey.2]
    obtain ⟨a, ha, b, hb, place, only⟩ := swizzle_bijective k hk
    refine ⟨(a, b), ⟨ha, hb, by rw [number ha hb, place]⟩, fun ⟨a', b'⟩ ha' hb' e => ?_⟩
    rw [number ha' hb'] at e
    obtain ⟨rfl, rfl⟩ := only a' ha' b' hb' (Nat.add_left_cancel e)
    rfl
  · have same : mbnumOf d x y = mbnumOf d x' y' :=
      h.elim id fun h => Nat.eq_of_mul_eq_mul_right (Nat.succ_pos 15) h
    exact mbnumOf_inj hw al hx hx' same

end Sys2Proof.Machine

namespace Sys2Proof.Machine

/-! ### WRITE_HEADER and PARSE_HEADER past the buffer (44_header_address R240, R248; 20_memory R62) -/

section PastBuffer

variable {s : State}

theorem headerFits_eq_false {n : Nat} (h : bufSize s < headerAddr n + 16) : headerFits s n = false :=
  decide_eq_false (Nat.not_le.mpr h)

theorem exec_parseHeader_past (hr : Ready s) (h : bufSize s < headerAddr s.port.arg0 + 16) : exec .parseHeader s =
    .next (raiseFatal (loseHdr (startCursor s)) .bufOverflow) := by
  change execParseHeader s = _
  rw [execParseHeader, hr.gate, parseHeaderRun, parseWordRun, headerFits_eq_false h, if_neg Bool.false_ne_true, settle_fatal]

/-- Past the buffer nothing is read, so no register has to have a defined value. -/
theorem exec_writeHeader_past (hr : Ready s) (h : bufSize s < headerAddr s.port.arg0 + 16) : exec .writeHeader s =
    .next (raiseFatal (losePos (startCursor s)) .bufOverflow) := by
  change execWriteHeader s = _
  rw [execWriteHeader, hr.gate, writeHeaderRun, headerFits_eq_false h, Bool.not_false, Bool.true_or, ifDefined_true,
    if_neg Bool.false_ne_true, settle_fatal]

end PastBuffer

/-- Settles O22: both commands end in the one fatal error, which loses the registers they were producing and no other. -/
theorem headerPastBuffer : Obligations.HeaderPastBuffer := by
  rintro s i hr h (rfl | rfl)
  · refine ⟨_, exec_parseHeader_past hr h, rfl, ?_, rfl, rfl, rfl, rfl, rfl, rfl, rfl, nofun⟩
    exact after_of_zero hr.1 _ _ _ _
  · refine ⟨_, exec_writeHeader_past hr h, rfl, ?_, rfl, rfl, rfl, rfl, rfl, rfl, rfl, fun _ => rfl⟩
    exact after_of_zero hr.1 _ _ _ _

/-! ### WRITE_HEADER in the buffer (44_header_address R248) -/

section WriteHeader

variable {s : State} {d : Desc} {h : Hdr} {k : Nat}

theorem mem_codes {n c : Nat} : c ∈ h.codes n ↔ ∃ k < n, h.codeAt k = c := by simp [Hdr.codes]

theorem headerInRange_iff : headerInRange d h = true ↔
    h.ptr.toNat < 2 ^ d.ptrBits ∧ ∀ k < d.nsubblocks, h.codeAt k < 2 ^ d.sizeBits := by
  simp [headerInRange, Hdr.codes]

theorem fieldsDefined_of (hp : h.ptrOk = true) (hc : ∀ k < d.nsubblocks, h.codeOk.getD k false = true) :
    fieldsDefined d h = true := by
  rw [← Bool.not_eq_false, fieldsDefined_eq_false]
  rintro (e | ⟨k, hk, e⟩)
  · rw [hp] at e
    cases e
  · rw [hc k hk] at e
    cases e

/-- `s` after a WRITE_HEADER that wrote. -/
def headerStored (s : State) : State :=
  completeOp { startCursor s with
    fb := memSetBytes s.fb (headerAddr s.port.arg0) (natToBytes 16 (packHeader s.desc s.hdr)) } Results.none

section Gates

variable (hr : Ready s) (fits : headerAddr s.port.arg0 + 16 ≤ bufSize s) (defined : fieldsDefined s.desc s.hdr = true)
include hr fits defined

theorem exec_writeHeader_fits : exec .writeHeader s =
    if headerInRange s.desc s.hdr then .next (headerStored s) else .next (raiseFatal s .badInput) := by
  have inside : headerFits s s.port.arg0 = true := decide_eq_true fits
  change execWriteHeader s = _
  rw [execWriteHeader, hr.gate, defined, Bool.or_true, ifDefined_true, writeHeaderRun, if_pos inside]
  split <;> rfl

theorem exec_writeHeader_inRange (range : headerInRange s.desc s.hdr = true) : exec .writeHeader s = .next (headerStored s) := by
  rw [exec_writeHeader_fits hr fits defined, if_pos range]

theorem exec_writeHeader_tooWide (range : ¬ headerInRange s.desc s.hdr = true) :
    exec .writeHeader s = .next (raiseFatal s .badInput) := by
  rw [exec_writeHeader_fits hr fits defined, if_neg range]

end Gates

/-- The fields of the stored header are those of the packed one. -/
theorem headerStored_isField {lo v : Nat} (hk : lo + k ≤ 128) (hv : bitField (packHeader s.desc s.hdr) lo k = v) :
    IsField (headerStored s) (headerAddr s.port.arg0) lo k v := by
  rw [← hv, ← bitField_written (m := s.fb) (n := s.port.arg0) hk]
  exact isField_headerWord _ _ _ _ hk

theorem packHeader_ptr (range : headerInRange d h = true) : bitField (packHeader d h) 0 d.ptrBits = h.ptr.toNat :=
  header_ptr _ _ (headerInRange_iff.mp range).1

theorem packHeader_code (range : headerInRange d h = true) (hk : k < d.nsubblocks) :
    bitField (packHeader d h) (d.ptrBits + d.sizeBits * k) d.sizeBits = h.codeAt k := by
  obtain ⟨ptr, codes⟩ := headerInRange_iff.mp range
  have len : k < (h.codes d.nsubblocks).length := by simpa [Hdr.codes] using hk
  have below : ∀ c ∈ h.codes d.nsubblocks, c < 2 ^ d.sizeBits := fun c hc => by
    obtain ⟨j, hj, rfl⟩ := mem_codes.mp hc
    exact codes j hj
  rw [packHeader, header_code ptr below k len, Hdr.codes_getElem]

/-- A size field lies in the header (30_encoding R96). -/
theorem DescFacts.code_inside (f : DescFacts d) (hk : k < d.nsubblocks) : d.ptrBits + d.sizeBits * k + d.sizeBits ≤ 128 := by
  have last : d.sizeBits * (k + 1) ≤ d.sizeBits * d.nsubblocks := Nat.mul_le_mul_left _ hk
  have fields := f.fields
  rw [Nat.mul_succ] at last
  omega

theorem DescFacts.ptr_inside (f : DescFacts d) : 0 + d.ptrBits ≤ 128 := by
  have fields := f.fields
  omega

end WriteHeader

/-- Settles O23: the sixteen bytes are those of the packed header, whose fields are pointer and codes; a field too wide fails
the range check before anything is written. -/
theorem writeHeaderResult : Obligations.WriteHeaderResult := by
  refine ⟨fun s hi hr fits hp hc ptr codes => ?_, fun s hr fits hp hc wide => ?_⟩
  · have f := hi.facts hr
    have range : headerInRange s.desc s.hdr = true := headerInRange_iff.mpr ⟨ptr, codes⟩
    refine ⟨headerStored s, exec_writeHeader_inRange hr fits (fieldsDefined_of hp hc) range, rfl, rfl,
      headerStored_isField f.ptr_inside (packHeader_ptr range),
      fun k hk => headerStored_isField (f.code_inside hk) (packHeader_code range hk), fun b hb => ?_⟩
    exact memGet_memSetBytes_outside (by rwa [length_natToBytes])
  · have range : ¬ headerInRange s.desc s.hdr = true := fun range => by
      obtain ⟨ptr, codes⟩ := headerInRange_iff.mp range
      obtain h | ⟨k, hk, h⟩ := wide
      · exact absurd ptr (Nat.not_lt.mpr h)
      · exact absurd (codes k hk) (Nat.not_lt.mpr h)
    rw [exec_writeHeader_tooWide hr fits (fieldsDefined_of hp hc) range, raiseFatal_refusedWith hr.1]

/-! ### PARSE_HEADER in the buffer (44_header_address R240 to R247) -/

section ParseHeader

variable {s : State} {k v : Nat}

/-- The raw fields of the header of superblock `ARG0`. -/
@[irreducible] def rawFields (s : State) : Hdr := s.hdr.setFields s.desc (headerWord s.fb s.port.arg0)

/-- `s` after PARSE_HEADER of superblock `ARG0`. -/
@[irreducible] def parsed (s : State) : State :=
  completeOp (parseWord (startCursor s) (headerWord s.fb s.port.arg0)) Results.none

/-- The resolution of a header that is not in solid-colour form. -/
@[irreducible] def resolution (s : State) : Resolve :=
  resolveSlots s.desc { rawFields s with solid := false } (List.range s.desc.nsubblocks)

/-! The three are kept folded, so that comparing two of them never evaluates the header's word. -/

theorem rawFields_eq (s : State) : rawFields s = s.hdr.setFields s.desc (headerWord s.fb s.port.arg0) := by
  delta rawFields
  rfl

theorem parsed_eq (s : State) : parsed s =
    completeOp (parseWord (startCursor s) (headerWord s.fb s.port.arg0)) Results.none := by
  delta parsed
  rfl

theorem resolution_eq (s : State) : resolution s =
    resolveSlots s.desc { rawFields s with solid := false } (List.range s.desc.nsubblocks) := by
  delta resolution
  rfl

theorem setFields_unread (h : Hdr) (d : Desc) (w : Nat) : (h.setFields d w).solidVal = h.solidVal ∧
    (h.setFields d w).off = h.off ∧ (h.setFields d w).size = h.size ∧ (h.setFields d w).unc = h.unc :=
  ⟨rfl, rfl, rfl, rfl⟩

theorem rawFields_unread : (rawFields s).solidVal = s.hdr.solidVal ∧
    (rawFields s).off = s.hdr.off ∧ (rawFields s).size = s.hdr.size ∧ (rawFields s).unc = s.hdr.unc := by
  rw [rawFields_eq]
  exact setFields_unread _ _ _

theorem exec_parseHeader (hr : Ready s) (fits : headerAddr s.port.arg0 + 16 ≤ bufSize s) :
    exec .parseHeader s = .next (parsed s) := by
  rw [parsed_eq]
  exact exec_parseHeader_fits hr (decide_eq_true fits)

theorem parsed_done : DoneWith s (parsed s) Results.none := by
  rw [parsed_eq]
  exact parseWord_doneWith s _ _

theorem parsed_onlyHeader : OnlyHeader s (parsed s) := by
  rw [parsed_eq]
  exact parseWord_onlyHeader s _ _

/-- The header is in solid-colour form (30_encoding R98). -/
def IsSolid (s : State) : Prop := s.desc.allowSolid = true ∧ (rawFields s).codeAt 0 = 0

theorem parsed_slots (h : ¬ IsSolid s) : parsed s =
    completeOp (flagAll { startCursor s with hdr := (resolution s).hdr } (resolution s).viols) Results.none := by
  rw [IsSolid, rawFields_eq, ← code_zero_eq_iff, ← Bool.and_eq_true] at h
  rw [parsed_eq, resolution_eq, rawFields_eq]
  exact congrArg (completeOp · Results.none) (if_neg h)

theorem parsed_solid (h : IsSolid s) : parsed s = completeOp { startCursor s with
    hdr := { rawFields s with solid := true, solidVal := solidColours s.desc.toDescIn (headerWord s.fb s.port.arg0) } }
    Results.none := by
  rw [IsSolid, rawFields_eq] at h
  rw [parsed_eq, rawFields_eq]
  exact congrArg (completeOp · Results.none) (parseWord_solid (s := startCursor s) h.1 h.2)

variable (f : DescFacts s.desc)
include f

theorem isField_code (hk : k < s.desc.nsubblocks) : IsField s (headerAddr s.port.arg0)
    (s.desc.ptrBits + s.desc.sizeBits * k) s.desc.sizeBits v ↔ (rawFields s).codeAt k = v := by
  obtain ⟨-, h6, -, h24, -⟩ := f.narrow
  rw [isField_iff, rawFields_eq, setFields_codeAt h6 hk h24, bitField_headerWord _ _ _ _ (f.code_inside hk), eq_comm]

theorem isField_ptr : IsField s (headerAddr s.port.arg0) 0 s.desc.ptrBits (rawFields s).ptr.toNat := by
  obtain ⟨h32, -⟩ := f.narrow
  rw [isField_iff, rawFields_eq, setFields_ptr h32, bitField_headerWord _ _ _ _ f.ptr_inside]

theorem isSolid_iff : IsSolid s ↔
    s.desc.allowSolid = true ∧ IsField s (headerAddr s.port.arg0) s.desc.ptrBits s.desc.sizeBits 0 := by
  rw [IsSolid, rawFields_eq]
  exact and_congr_right fun _ => (f.isField_firstCode _ _ _).symm

theorem resolution_raw : SameRaw { rawFields s with solid := false } (resolution s).hdr := by
  obtain ⟨-, -, -, h24, -⟩ := f.narrow
  rw [resolution_eq]
  exact (resolved_range s.desc _ h24).raw

omit f in
theorem parsed_hdr (h : ¬ IsSolid s) : (parsed s).hdr = (resolution s).hdr := by
  rw [parsed_slots h, completeOp_hdr, flagAll_hdr]

omit f in
theorem SameRaw.solidVal {h h' : Hdr} (e : SameRaw h h') : h'.solidVal = h.solidVal := by rw [e]

/-- What is not resolved is as it was read. -/
theorem parsed_fields (h : ¬ IsSolid s) : (parsed s).hdr.solid = false ∧ (parsed s).hdr.ptr = (rawFields s).ptr ∧
    (parsed s).hdr.solidVal = s.hdr.solidVal ∧ ∀ k, codeOf (parsed s) k = (rawFields s).codeAt k := by
  have raw := resolution_raw f
  rw [← parsed_hdr h] at raw
  obtain ⟨solid, ptr, codes⟩ := raw.fields
  exact ⟨solid, ptr, raw.solidVal.trans rawFields_unread.1, codes⟩

end ParseHeader

/-- Settles O20: pointer and codes are those of the raw fields, which resolution keeps; a solid header adds its colours. -/
theorem parseHeaderResult : Obligations.ParseHeaderResult := by
  intro s hi hr fits
  have f := hi.facts hr
  obtain ⟨-, -, -, h24, -⟩ := f.narrow
  refine ⟨fun normal => ?_, fun allowed zero => ?_⟩
  · rw [← isSolid_iff f] at normal
    obtain ⟨solid, ptr, solidVal, codes⟩ := parsed_fields f normal
    refine ⟨parsed s, exec_parseHeader hr fits, parsed_done, parsed_onlyHeader, ?_, fun k hk => ?_,
      solid, solidVal, ?_, fun nonzero => ?_⟩
    · rw [ptr]
      exact isField_ptr f
    · rw [isField_code f hk, codes]
    · rw [parsed_slots normal, completeOp_cur, flagAll_cur]
      rfl
    · have none : (resolution s).viols = [] := by
        rw [resolution_eq]
        exact resolveSlots_no_viols h24 fun k hk h0 => absurd h0 (codes k ▸ nonzero k hk)
      rw [parsed_slots normal, none]
      rfl
  · have solid := (isSolid_iff f).mpr ⟨allowed, zero⟩
    refine ⟨parsed s, exec_parseHeader hr fits, parsed_done, parsed_onlyHeader, ?_⟩
    obtain ⟨-, off, size, unc⟩ := rawFields_unread (s := s)
    rw [parsed_solid solid]
    refine ⟨rfl, rfl, fun c => ?_, isField_ptr f, fun k hk => (isField_code f hk).mpr rfl, off, size, unc⟩
    have colour := isField_headerWord s s.port.arg0 (64 + solidBefore s.desc.toDescIn c) (inBits s.desc.toDescIn c)
      (f.solidBefore_le c)
    rw [bitField, Nat.shiftRight_eq_div_pow, ← solidColours_toNat _ (f.inBits_le_15 c)] at colour
    exact colour

/-- Settles O24: what PARSE_HEADER reads in the bytes that WRITE_HEADER wrote are the fields of the packed header. -/
theorem headerRoundTrip : Obligations.HeaderRoundTrip := by
  intro s hi hr fits hp hc ptr notSolid
  have f := hi.facts hr
  obtain ⟨h32, h6, h16, h24, -⟩ := f.narrow
  have range : headerInRange s.desc s.hdr = true := headerInRange_iff.mpr ⟨ptr, fun k hk => (hc k hk).2⟩
  have stored := exec_writeHeader_inRange hr fits (fieldsDefined_of hp fun k hk => (hc k hk).1) range
  have code (k : Nat) (hk : k < s.desc.nsubblocks) : (rawFields (headerStored s)).codeAt k = codeOf s k :=
    ((isField_code (s := headerStored s) f hk).mp (headerStored_isField (f.code_inside hk) (packHeader_code range hk)))
  have normal : ¬ IsSolid (headerStored s) := fun ⟨allowed, zero⟩ =>
    notSolid ⟨allowed, (code 0 (by omega)).symm.trans zero⟩
  obtain ⟨solid, ptr', -, codes⟩ := parsed_fields (s := headerStored s) f normal
  refine ⟨headerStored s, parsed (headerStored s), stored, exec_parseHeader hr fits, ?_, ?_, fun k hk => ?_, solid⟩
  · exact congrArg Port.status (parsed_done (s := headerStored s))
  · refine ptr'.trans (BitVec.eq_of_toNat_eq ?_)
    have written := headerStored_isField f.ptr_inside (packHeader_ptr range)
    exact ((isField_iff _ _ _ _ _).mp (isField_ptr (s := headerStored s) f)).trans ((isField_iff _ _ _ _ _).mp written).symm
  · exact (codes k).trans (code k hk)

end Sys2Proof.Machine

namespace Sys2Proof.Machine

/-! ### The resolved slots (44_header_address R244 to R246) -/

section Resolution

variable {d : Desc} {h : Hdr} {k : Nat}

theorem CopySource.not_noSource {code : Nat → Nat} {j : Nat} (c : CopySource d code k j) : ¬ NoSource d code k :=
  fun none => c.2.2.1 (none j c.1 c.2.1)

/-- Resolution flags the copies that have no source, and nothing else. -/
theorem mem_resolveSlots_viols (hk : k ≤ 24) (x : Viol) : x ∈ (resolveSlots d h (List.range k)).viols.map Prod.fst ↔
    x = .copyNoSource ∧ ∃ i < k, h.codeAt i = 0 ∧ NoSource d h.codeAt i := by
  induction k with
  | zero => simp [resolveSlots]
  | succ k ih =>
    have before := ih (by omega)
    have R := resolved_range d h (k := k) (by omega)
    have unflagged (viols : (resolveSlot d (resolveSlots d h (List.range k)) k).viols = (resolveSlots d h (List.range k)).viols)
        (not : ¬ (h.codeAt k = 0 ∧ NoSource d h.codeAt k)) :
        x ∈ (resolveSlots d h (List.range (k + 1))).viols.map Prod.fst ↔
          x = .copyNoSource ∧ ∃ i < k + 1, h.codeAt i = 0 ∧ NoSource d h.codeAt i := by
      rw [resolveSlots_succ, viols, before]
      simp only [Nat.exists_lt_succ_right, not, or_false]
    by_cases h0 : h.codeAt k = 0
    · obtain ⟨j, source⟩ | none := copySource_or_none d h (k := k) (by omega)
      · exact unflagged (R.copied (by omega) h0 source).2 fun n => source.not_noSource n.2
      · rw [resolveSlots_succ, (R.sourceless (by omega) h0 none).2, List.map_append, List.mem_append, before]
        simp only [Nat.exists_lt_succ_right, h0, none, and_self, or_true, and_true, List.map_cons, List.map_nil,
          List.mem_singleton]
        exact or_iff_right_of_imp And.left
    · exact unflagged (R.sized (by omega) h0).2 fun n => h0 n.1

/-- The entry of a slot that has its own size. -/
theorem resolved_sized (f : DescFacts d) (hk : k < d.nsubblocks) (h0 : h.codeAt k ≠ 0) :
    let r := (resolveSlots d h (List.range d.nsubblocks)).hdr
    (r.off.getD k 0).toNat = slotOffset d h.ptr.toNat h.codeAt k ∧ (r.size.getD k 0).toNat = codeSize d k (h.codeAt k) ∧
      r.unc.getD k false = decide (h.codeAt k = 1) := by
  intro r
  obtain ⟨-, -, -, h24, -⟩ := f.narrow
  obtain ⟨off, rest⟩ := Prod.mk.inj (entry_sized (d := d) (h := h) hk h24 h0)
  obtain ⟨size, unc⟩ := Prod.mk.inj rest
  have code (j : Nat) : h.codeAt j < 64 := (h.code.getD j 0).isLt
  refine ⟨?_, ?_, unc⟩
  · rw [off, BitVec.toNat_ofNat, Nat.mod_eq_of_lt (f.slotOffset_lt h.ptr.isLt hk.le fun j _ => code j)]
  · rw [size, BitVec.toNat_ofNat, Nat.mod_eq_of_lt (f.codeSize_lt hk (code k))]

/-- A copy has the entry of its source. -/
theorem resolved_copied (f : DescFacts d) (hk : k < d.nsubblocks) (h0 : h.codeAt k = 0) {j : Nat}
    (source : CopySource d h.codeAt k j) :
    let r := (resolveSlots d h (List.range d.nsubblocks)).hdr
    r.entry k = r.entry j := by
  intro r
  obtain ⟨-, -, -, h24, -⟩ := f.narrow
  obtain ⟨hjk, -, hj0, -⟩ := id source
  exact (entry_copied hk h24 h0 source).trans (entry_sized (by omega) h24 hj0).symm

/-- A copy that has no source is empty. -/
theorem resolved_sourceless (f : DescFacts d) (hk : k < d.nsubblocks) (h0 : h.codeAt k = 0) (none : NoSource d h.codeAt k) :
    let r := (resolveSlots d h (List.range d.nsubblocks)).hdr
    (r.off.getD k 0).toNat = slotOffset d h.ptr.toNat h.codeAt k ∧ r.size.getD k 0 = 0 ∧ r.unc.getD k false = false := by
  intro r
  obtain ⟨-, -, -, h24, -⟩ := f.narrow
  obtain ⟨off, rest⟩ := Prod.mk.inj (entry_sourceless (d := d) (h := h) hk h24 h0 none)
  obtain ⟨size, unc⟩ := Prod.mk.inj rest
  refine ⟨?_, size, unc⟩
  have code (j : Nat) : h.codeAt j < 64 := (h.code.getD j 0).isLt
  rw [off, BitVec.toNat_ofNat, Nat.mod_eq_of_lt (f.slotOffset_lt h.ptr.isLt hk.le fun j _ => code j)]

end Resolution

/-- Settles O21: the entries are those of the resolution of the raw fields, whose pointer and codes resolution keeps. -/
theorem slotResolution : Obligations.SlotResolution := by
  intro s t hi hr fits run notSolid
  have f := hi.facts hr
  obtain ⟨-, -, -, h24, -⟩ := f.narrow
  obtain rfl : parsed s = t := by simpa [exec_parseHeader hr fits] using run
  have normal : ¬ IsSolid s := fun solid => by
    rw [parsed_solid solid] at notSolid
    cases notSolid
  obtain ⟨-, ptr, -, codes⟩ := parsed_fields f normal
  rw [show codeOf (parsed s) = (rawFields s).codeAt from funext codes, ptr, parsed_hdr normal, resolution_eq]
  refine ⟨fun k hk => ⟨resolved_sized (h := { rawFields s with solid := false }) f hk, fun h0 j source => ?_,
    resolved_sourceless (h := { rawFields s with solid := false }) f hk⟩, ?_⟩
  · obtain ⟨off, rest⟩ := Prod.mk.inj (resolved_copied (h := { rawFields s with solid := false }) f hk h0 source)
    obtain ⟨size, unc⟩ := Prod.mk.inj rest
    exact ⟨off, size, unc⟩
  · rw [parsed_slots normal, resolution_eq]
    exact (flagAll_flags { startCursor s with hdr := _ } _).congr (mem_resolveSlots_viols h24)

end Sys2Proof.Machine

namespace Sys2Proof.Machine

/-! ### The header element that stands in the buffer (44_header_address R240; 30_encoding R96, R98) -/

section Element

variable {h : Nat}

/-- Two fields side by side are one. -/
theorem bitField_add (h lo a b : Nat) : bitField h lo (a + b) = bitField h lo a + 2 ^ a * bitField h (lo + a) b := by
  rw [bitField, bitField, bitField, pow_add, Nat.mod_mul, Nat.shiftRight_add, Nat.shiftRight_eq_div_pow (h >>> lo) a]

/-- Size fields, read and packed again, are the field they fill. -/
theorem packCodes_fields (h lo w n : Nat) :
    packCodes w (List.ofFn fun k : Fin n => bitField h (lo + w * k) w) = bitField h lo (w * n) := by
  induction n generalizing lo with
  | zero => simp [packCodes, bitField, Nat.mod_one]
  | succ n ih =>
    have rest : (fun k : Fin n => bitField h (lo + w * (k.succ : Fin (n + 1))) w) =
        fun k : Fin n => bitField h (lo + w + w * k) w := by
      funext k
      rw [Fin.val_succ, Nat.mul_succ, Nat.add_comm (w * k.val), Nat.add_assoc]
    rw [List.ofFn_succ, packCodes, rest, ih, Nat.mul_succ, Nat.add_comm (w * n), bitField_add]
    rfl

/-- The pointer and the size codes of a header, packed again, are the header. -/
theorem normal_bits {pb w n : Nat} (lt : h < 2 ^ (pb + w * n)) : (BitVec.ofNat pb (bitField h 0 pb)).toNat + 2 ^ pb *
    packCodes w ((Vector.ofFn fun k : Fin n => BitVec.ofNat w (bitField h (pb + w * k) w)).toList.map BitVec.toNat) = h := by
  have codes : (Vector.ofFn fun k : Fin n => BitVec.ofNat w (bitField h (pb + w * k) w)).toList.map BitVec.toNat =
      List.ofFn fun k : Fin n => bitField h (pb + w * k) w := by
    rw [Vector.toList_ofFn, List.map_ofFn]
    exact congrArg List.ofFn (funext fun k => Nat.mod_eq_of_lt (bitField_lt _ _ _))
  have whole := bitField_add h 0 pb (w * n)
  rw [Nat.zero_add, bitField, Nat.shiftRight_zero, Nat.mod_eq_of_lt lt] at whole
  rw [codes, packCodes_fields, BitVec.toNat_ofNat, Nat.mod_eq_of_lt (bitField_lt _ _ _)]
  exact whole.symm

variable (lt : h < 2 ^ 128)
include lt

theorem exec_decodeHeaderNormal (m : Subsampling) (s : State) : exec (decodeHeaderNormal m h) s = headerElement m false h s := by
  cases m with
  | NONE => exact congrArg (headerElement .NONE false · s) (normal_bits (pb := 32) (w := 6) (n := 16) lt)
  | S420 => exact congrArg (headerElement .S420 false · s) (normal_bits (pb := 28) (w := 5) (n := 20) lt)
  | S422 => exact congrArg (headerElement .S422 false · s) (normal_bits (pb := 32) (w := 4) (n := 24) lt)

/-- Running a decoded header is presenting its bits, in the form they have. -/
theorem exec_decodeHeader (m : Subsampling) (allowed : Bool) (s : State) :
    exec (decodeHeader m allowed h) s = headerElement m (allowed && headerCode m h 0 == 0) h s := by
  rw [decodeHeader]
  split
  next solid =>
    rw [solid]
    exact congrArg (headerElement m true · s) (Nat.mod_eq_of_lt lt)
  next normal => rw [exec_decodeHeaderNormal lt, Bool.eq_false_iff.mpr normal]

end Element

theorem headerWord_lt (m : Mem 8) (n : Nat) : headerWord m n < 2 ^ 128 := by
  refine Nat.lt_pow_two_of_testBit _ fun i hi => ?_
  have past : (memBytes m (headerAddr n) 16).length ≤ i / 8 := by
    rw [memBytes, List.length_map, List.length_range]
    omega
  rw [headerWord, testBit_bytesToNat, List.getD_eq_default _ _ past]
  exact BitVec.getLsbD_zero

/-- The element fetched at the header's place is the header's word. -/
theorem fetchElement_hdr {s : State} (fits : headerAddr s.port.arg0 + 16 ≤ bufSize s) (m : Subsampling) (allowed : Bool) :
    fetchElement s (.hdr m allowed) = headerWord s.fb s.port.arg0 := by
  refine (eq_fieldAt (headerWord_lt _ _) fun i hi => ?_).symm
  have inside : 8 * headerAddr s.port.arg0 + i < 8 * bufSize s := by omega
  rw [testBit_headerWord _ _ _ hi]
  simp only [bufferBits, elementPos, inside, decide_true, Bool.true_and, fbBit]
  rw [show 0 + (8 * headerAddr s.port.arg0 + i) / 8 = headerAddr s.port.arg0 + i / 8 by omega,
    show (8 * headerAddr s.port.arg0 + i) % 8 = i % 8 by omega]

/-- Settles O26: the fetched word is the one PARSE_HEADER reads, and its decoded form is the one parsing sees. -/
theorem headerElementIsParseHeader : Obligations.HeaderElementIsParseHeader := by
  intro s hr fits ptrBits sizeBits
  have lt := headerWord_lt s.fb s.port.arg0
  have form : (s.desc.allowSolid && headerCode s.desc.subsampling (headerWord s.fb s.port.arg0) 0 == 0) =
      solidForm s.desc (headerWord s.fb s.port.arg0) := by
    rw [solidForm, headerCode, Nat.mul_zero, Nat.add_zero, ptrBits, sizeBits]
  have word : bitField (headerWord s.fb s.port.arg0) 0 128 = headerWord s.fb s.port.arg0 := Nat.mod_eq_of_lt lt
  have decoded : runElement (.hdr s.desc.subsampling s.desc.allowSolid) s =
      exec (decodeHeader s.desc.subsampling s.desc.allowSolid (headerWord s.fb s.port.arg0)) s := by
    rw [runElement, if_neg nofun, fetchElement_hdr fits, decode, word]
  calc runElement (.hdr s.desc.subsampling s.desc.allowSolid) s
      = headerElement s.desc.subsampling (solidForm s.desc (headerWord s.fb s.port.arg0)) (headerWord s.fb s.port.arg0) s := by
        rw [decoded, exec_decodeHeader lt, form]
    _ = exec .parseHeader s := by
        rw [headerElement_completes hr fits rfl, exec_parseHeader hr fits, parsed_eq]

end Sys2Proof.Machine

namespace Sys2Proof.Machine

/-! ### The header of a superblock with slots, and its tile bound (43_superblock R210; 44_header_address R260) -/

section TileBound

variable {s : State}

theorem superblockParsed_change (s : State) :
    DecodeChange (atSuperblock s s.port.arg0 s.port.arg1) (superblockParsed s) :=
  (startCursor_change _).trans (parseWord_change _ _)

theorem superblockParsed_desc (s : State) : (superblockParsed s).desc = s.desc := (superblockParsed_change s).desc

theorem parseWord_sb (s : State) (w : Nat) : (parseWord s w).sb = s.sb := by
  simp only [parseWord]
  split
  · rfl
  · exact flagAll_sb _ _

theorem superblockParsed_sb (s : State) : (superblockParsed s).sb = (atSuperblock s s.port.arg0 s.port.arg1).sb :=
  parseWord_sb _ _

/-- A header that is not in solid-colour form has slots, and its pointer is the header's field. -/
theorem superblockParsed_slots (f : DescFacts s.desc) {ptr : Nat}
    (hptr : IsField s (headerAddr (mbnumOf s.desc s.port.arg0 s.port.arg1)) 0 s.desc.ptrBits ptr)
    (normal : ¬ (s.desc.allowSolid = true ∧
      IsField s (headerAddr (mbnumOf s.desc s.port.arg0 s.port.arg1)) s.desc.ptrBits s.desc.sizeBits 0)) :
    (superblockParsed s).hdr.solid = false ∧ (superblockParsed s).hdr.ptr.toNat = ptr := by
  obtain ⟨h32, -, -, h24, -⟩ := f.narrow
  rw [f.isField_firstCode s.hdr] at normal
  obtain ⟨solid, read, -⟩ := (parseWord_normal (s := startCursor (atSuperblock s s.port.arg0 s.port.arg1)) h24 normal).fields
  refine ⟨solid, (congrArg BitVec.toNat read).trans ((setFields_ptr (h := s.hdr) h32).trans ?_)⟩
  rw [(isField_iff _ _ _ _ _).mp hptr, bitField_headerWord _ _ _ _ f.ptr_inside]

theorem addressingChecks_outside (tiled : s.desc.tiled = true)
    (outside : inTile s.desc s.sb.mbnum s.hdr.ptr.toNat = false) : addressingChecks s = .fatal .tileBound s := by
  rw [addressingChecks, if_pos tiled, tiledCheck, if_neg (Bool.eq_false_iff.mp outside), bind_fatal]

end TileBound

/-- Settles O48: the tile bound is checked before anything but the header is read, so the fatal error loses the superblock's
samples and names slot 0. -/
theorem tileBoundIsFatal : Obligations.TileBoundIsFatal := by
  intro s hi hr hx hy tiled n start ptr hptr normal outside
  have f := hi.facts hr
  obtain ⟨solid, read⟩ := superblockParsed_slots f hptr normal
  have change := superblockParsed_change s
  have desc := superblockParsed_desc s
  have sb := superblockParsed_sb s
  have fat : (superblockParsed s).fat = s.fat := by rw [change.same]; rfl
  have notIn : inTile (superblockParsed s).desc (superblockParsed s).sb.mbnum (superblockParsed s).hdr.ptr.toNat = false := by
    rw [desc, sb, read]
    exact decide_eq_false outside
  have body : decodeBody (superblockParsed s) = .fatal .tileBound (superblockParsed s) := by
    rw [decodeBody, solid, if_neg Bool.false_ne_true, addressingChecks_outside (by rwa [desc]) notIn, bind_fatal]
  refine ⟨_, by rw [exec_decodeSuperblock f hr hx hy, body, onFatal_fatal, settle_fatal], ?_, ?_, ?_,
    fun b => ?_, ?_⟩
  · simp only [FailedWith, raiseFatal_port, loseAll_port, loseOut_port]
    rw [change.same]
    rfl
  · simp only [raiseFatal_fat, loseAll_fat, loseOut_fat, loseAll_sb, loseOut_sb]
    rw [fat, sb]
    exact after_of_zero hr.1 _ _ _ _
  · exact outOutside_atSuperblock change (loseOut_outside _)
  · simp only [raiseFatal_fb, loseAll_fb, loseOut_fb]
    rw [change.fb]
    rfl
  · simp only [raiseFatal_desc, loseAll_desc, loseOut_desc]
    exact desc

end Sys2Proof.Machine

namespace Sys2Proof.Machine

/-! ### The sparse check (44_header_address R264) -/

section Sparse

variable {s : State}

/-- A bit that a violation adds to `VIOL_MASK`. -/
theorem getLsbD_flagged (s : State) (p : Prop) [Decidable p] (x : Viol) (n : Nat) :
    (flagged s p x).getLsbD n = true ↔ s.desc.errorCheck = true ∧ p ∧ x.bit = n := by
  rw [flagged]
  split
  next h => rw [getLsbD_mask, ← and_assoc, and_iff_right h]
  next h => simp only [BitVec.ofNat_eq_ofNat, BitVec.getLsbD_zero, Bool.false_eq_true, ← and_assoc, h, false_and]

/-- The checker takes the payload of the first superblock as its reference. -/
def sparseReferred (s : State) (ptr : Nat) : State :=
  if s.chk.sparseFirstValid then s else { s with chk := { s.chk with sparseFirst := ptr, sparseFirstValid := true } }

theorem sparseCheck_eq (s : State) (ptr : Nat) : sparseCheck s ptr =
    if ((ptr : Int) - (sparseReferred s ptr).chk.sparseFirst) % (sparseReferred s ptr).desc.maxpay ≠ 0 then
      flagV (sparseReferred s ptr) .sparseAlign 0 else sparseReferred s ptr := rfl

theorem sparseReferred_chk (s : State) (ptr : Nat) : (sparseReferred s ptr).desc = s.desc ∧ (sparseReferred s ptr).chk =
    { s.chk with
      sparseFirst := if s.chk.sparseFirstValid then s.chk.sparseFirst else ptr
      sparseFirstValid := true } := by
  unfold sparseReferred
  cases h : s.chk.sparseFirstValid
  · exact ⟨rfl, rfl⟩
  · refine ⟨rfl, ?_⟩
    rw [if_pos rfl, if_pos rfl, ← h]

/-- The reference, the bins and the mask behind the sparse check. -/
theorem sparseCheck_chk (s : State) (ptr : Nat) :
    let first := if s.chk.sparseFirstValid then s.chk.sparseFirst else ptr
    (sparseCheck s ptr).chk.sparseFirstValid = true ∧ (sparseCheck s ptr).chk.sparseFirst = first ∧
      (sparseCheck s ptr).chk.violMask =
        s.chk.violMask ||| flagged s (((ptr : Int) - first) % s.desc.maxpay ≠ 0) .sparseAlign ∧
      (sparseCheck s ptr).chk.stripeBins = s.chk.stripeBins := by
  intro first
  obtain ⟨desc, chk⟩ := sparseReferred_chk s ptr
  have kept {A : Type} (field : Checker → A) (flag : field (flagV (sparseReferred s ptr) .sparseAlign 0).chk =
      field (sparseReferred s ptr).chk) : field (sparseCheck s ptr).chk = field (sparseReferred s ptr).chk := by
    rw [sparseCheck_eq]
    split
    · exact flag
    · rfl
  refine ⟨?_, ?_, ?_, ?_⟩
  · rw [kept Checker.sparseFirstValid (flagV_sparseFirstValid _ _ _), chk]
  · rw [kept Checker.sparseFirst (flagV_sparseFirst _ _ _), chk]
  · rw [sparseCheck_eq, ite_flagV_violMask, flagged_congr (s := s) _ (by rw [desc]), desc, chk]
  · rw [kept Checker.stripeBins (flagV_stripeBins _ _ _), chk]

end Sparse

/-! ### The stripe update (44_header_address R267, R268) -/

section Stripes

variable {s : State} {k : Nat} {b : StripeBin} {ptr : Option Nat}

/-- A superblock counted in its bin. -/
def StripeBin.counted (b : StripeBin) (ptr : Option Nat) : StripeBin := { b.fold ptr with remaining := b.remaining - 1 }

/-- The range that a bin takes a payload start into. -/
theorem StripeBin.counted_eq (b : StripeBin) (ptr : Option Nat) : b.counted ptr =
    ⟨match ptr with
      | none => b.lo
      | some a => if b.seen then min b.lo a else a,
    match ptr with
      | none => b.hi
      | some a => if b.seen then max b.hi a else a,
    b.seen || ptr.isSome, b.remaining - 1⟩ := by
  obtain ⟨lo, hi, seen, remaining⟩ := b
  cases ptr with
  | none => cases seen <;> rfl
  | some a => cases seen <;> rfl

/-- `s` with bin `k` replaced. -/
def withBin (s : State) (k : Nat) (b : StripeBin) : State :=
  { s with chk := { s.chk with stripeBins := s.chk.stripeBins.set k b } }

theorem stripeBinStep_eq (hb : b.remaining ≠ 0) (s : State) (k : Nat) (ptr : Option Nat) : stripeBinStep s k b ptr =
    if (b.counted ptr).remaining = 0 ∧ (b.counted ptr).seen then stripeClose (withBin s k (b.counted ptr)) (b.counted ptr)
    else withBin s k (b.counted ptr) := if_neg hb

theorem stripeCount_eq (hs : s.desc.stripeHeight ≠ 0 ∧ s.desc.errorCheck = true)
    (hb : s.chk.stripeBins[s.sb.mby / stripeRows s.desc]? = some b) :
    stripeCount s ptr = stripeBinStep s (s.sb.mby / stripeRows s.desc) b ptr := by
  rw [stripeCount, if_pos hs]
  simp only [hb]

theorem stripeClose_stripeBins (s : State) (b : StripeBin) : (stripeClose s b).chk.stripeBins = s.chk.stripeBins := by
  simp only [stripeClose]
  split <;> split <;> simp only [flagV_stripeBins]

/-- What closing a bin adds to `VIOL_MASK`. -/
theorem stripeClose_violMask (s : State) (b : StripeBin) : (stripeClose s b).chk.violMask = s.chk.violMask |||
    flagged s (stripeRows s.desc * s.desc.mbw * s.desc.maxpay < b.hi - b.lo) .stripeSpan |||
    flagged s (s.desc.checkStripeAlign = true ∧ b.lo % s.desc.stripeAlign.toNat ≠ 0) .stripeAlign := by
  have same : (if stripeRows s.desc * s.desc.mbw * s.desc.maxpay < b.hi - b.lo then flagV s .stripeSpan 0 else s).desc =
      s.desc := by
    split
    · exact flagV_desc _ _ _
    · rfl
  simp only [stripeClose]
  rw [ite_flagV_violMask, ite_flagV_violMask, flagged_congr (s := s) (t := ite _ _ _) .stripeAlign (by rw [same])]

theorem stripeBinStep_stripeBins (hb : b.remaining ≠ 0) :
    (stripeBinStep s k b ptr).chk.stripeBins = s.chk.stripeBins.set k (b.counted ptr) := by
  rw [stripeBinStep_eq hb]
  split
  · rw [stripeClose_stripeBins]
    rfl
  · rfl

/-- What counting a superblock adds to `VIOL_MASK`: the two violations of a bin that closes. -/
theorem stripeBinStep_violMask (hb : b.remaining ≠ 0) {closes : Prop} [Decidable closes]
    (hc : closes ↔ (b.counted ptr).remaining = 0 ∧ (b.counted ptr).seen = true) :
    (stripeBinStep s k b ptr).chk.violMask = s.chk.violMask |||
      flagged s (closes ∧ stripeRows s.desc * s.desc.mbw * s.desc.maxpay < (b.counted ptr).hi - (b.counted ptr).lo)
        .stripeSpan |||
      flagged s (closes ∧ s.desc.checkStripeAlign = true ∧ (b.counted ptr).lo % s.desc.stripeAlign.toNat ≠ 0)
        .stripeAlign := by
  rw [stripeBinStep_eq hb]
  by_cases c : closes
  · rw [if_pos (hc.mp c), stripeClose_violMask]
    simp only [c, true_and]
    rfl
  · rw [if_neg (hc.not.mp c)]
    simp [c, flagged, withBin]

end Stripes

/-- The stripe update of an existing bin: a full one stays, else the superblock is counted, and a bin that closes is judged. -/
theorem stripeUpdate (s : State) (b : StripeBin) (ptr : Option Nat) (height : s.desc.stripeHeight ≠ 0)
    (check : s.desc.errorCheck = true) :
    let rows := s.desc.stripeHeight / s.desc.sbH
    s.chk.stripeBins[s.sb.mby / rows]? = some b →
    let t := stripeCount s ptr
    let closes := b.remaining = 1 ∧ (b.seen = true ∨ ptr ≠ none)
    (b.remaining = 0 → t = s) ∧
    (b.remaining ≠ 0 →
      t.chk.stripeBins[s.sb.mby / rows]? = some (b.counted ptr) ∧
      (∀ j, j ≠ s.sb.mby / rows → t.chk.stripeBins[j]? = s.chk.stripeBins[j]?) ∧
      t.chk.violMask = s.chk.violMask |||
        flagged s (closes ∧ rows * s.desc.mbw * s.desc.maxpay < (b.counted ptr).hi - (b.counted ptr).lo) .stripeSpan |||
        flagged s (closes ∧ s.desc.checkStripeAlign = true ∧ (b.counted ptr).lo % s.desc.stripeAlign.toNat ≠ 0)
          .stripeAlign) := by
  intro rows here t closes
  have step : t = stripeBinStep s (s.sb.mby / rows) b ptr := stripeCount_eq ⟨height, check⟩ here
  rw [step]
  refine ⟨fun full => if_pos full, fun left => ⟨?_, fun j other => ?_, ?_⟩⟩
  · obtain ⟨inside, -⟩ := List.getElem?_eq_some_iff.mp here
    rw [stripeBinStep_stripeBins left, List.getElem?_set_self inside]
  · rw [stripeBinStep_stripeBins left, List.getElem?_set_ne (Ne.symm other)]
  · refine stripeBinStep_violMask left ?_
    rw [StripeBin.counted_eq]
    cases ptr with
    | none => simp [closes]; omega
    | some a => simp [closes]; omega

end Sys2Proof.Machine

namespace Sys2Proof.Machine

/-! ### Registers of the checker that flagging leaves alone (60_exceptions R316) -/

section Refs

variable {s t : State}

/-- The sparse reference and the stripe bins are the same in both checkers. -/
structure SameRefs (c c' : Checker) : Prop where
  valid : c'.sparseFirstValid = c.sparseFirstValid
  first : c'.sparseFirst = c.sparseFirst
  bins : c'.stripeBins = c.stripeBins

theorem SameRefs.refl (c : Checker) : SameRefs c c := ⟨rfl, rfl, rfl⟩

theorem SameRefs.trans {c c' c'' : Checker} (a : SameRefs c c') (b : SameRefs c' c'') : SameRefs c c'' :=
  ⟨b.valid.trans a.valid, b.first.trans a.first, b.bins.trans a.bins⟩

theorem Flags.sameRefs {V : Viol → Prop} (h : Flags s t V) : SameRefs s.chk t.chk := by
  obtain ⟨chk, -⟩ := h
  exact ⟨by rw [chk], by rw [chk], by rw [chk]⟩

/-- Flagging under a condition. -/
theorem ite_flagV_flags (s : State) (x : Viol) (c : Nat) (p : Prop) [Decidable p] :
    Flags s (if p then flagV s x c else s) fun y => p ∧ y = x := by
  by_cases h : p
  · rw [if_pos h]
    exact (flagV_flags s x c).congr fun y => (and_iff_right h).symm
  · rw [if_neg h]
    exact (Flags.refl s).congr fun y => by simp only [h, false_and]

theorem parseWord_sameRefs (s : State) (w : Nat) : SameRefs s.chk (parseWord s w).chk := by
  have slots (h : Hdr) (l : List (Viol × Nat)) : SameRefs s.chk (flagAll { s with hdr := h } l).chk :=
    (flagAll_flags { s with hdr := h } l).sameRefs
  simp only [parseWord]
  split
  · exact .refl _
  · exact slots _ _

theorem finishBlock_sameRefs (s : State) (p : Fin 2) (unc : Bool) (st : DecState) :
    SameRefs s.chk (finishBlock s p unc st).state.chk := by
  have transform (u : State) (cs : List (Fin 4)) : SameRefs u.chk (ctInverseRun u cs true).state.chk := by
    unfold ctInverseRun
    split
    · exact .refl _
    · exact (flagV_flags u .ctRange 0).sameRefs
  have flags := (flagAll_flags { s with cur := st.cur.reg, codec := st.codec } st.pend).sameRefs
  simp only [finishBlock]
  split
  · exact .refl _
  · split
    · refine flags.trans (bind_state (R := fun u v => SameRefs u.chk v.chk) .trans (transform _ _) fun _ _ _ => .refl _)
    · exact flags

/-- The slots leave the sparse reference and the stripe bins as they are. -/
theorem decodeSlot_sameRefs (t : State) (k : Nat) : SameRefs t.chk (decodeSlot t k).state.chk := by
  cases hin : slotInFrame t k
  · cases hg : t.desc.graceful
    · rw [decodeSlot_strict hin hg]
      exact .refl _
    · rw [decodeSlot_graceful hin hg]
      exact ⟨rfl, rfl, rfl⟩
  · rw [decodeSlot_inFrame hin]
    refine bind_state (R := fun u v => SameRefs u.chk v.chk) (s := atSlot t k) .trans (finishBlock_sameRefs _ _ _ _)
      fun n v _ => ?_
    exact (ite_flagV_flags v .sizeMismatch 0 _).sameRefs

theorem decodeSlots_sameRefs (t : State) (l : List Nat) : SameRefs t.chk (decodeSlots t l).state.chk := by
  induction l generalizing t with
  | nil => exact .refl _
  | cons k l ih =>
    exact bind_state (R := fun u v => SameRefs u.chk v.chk) .trans (decodeSlot_sameRefs t k) fun _ u _ => ih u

end Refs

/-! ### A slot loop that ran to its end (43_superblock R214) -/

section Loop

variable {s h t u : State} {k : Nat}

/-- A slot that was decoded is good. -/
theorem decodeSlot_ok_good (L : LoopState s h t) (f : DescFacts s.desc) (run : decodeSlot t k = .ok () u) : SlotGood s h k := by
  by_cases past : PastFrame s h k
  · refine .inl ⟨past, ?_⟩
    by_contra strict
    have out : slotInFrame t k = false := Bool.eq_false_iff.mpr fun e => (L.inFrame_iff k).mp e past
    rw [decodeSlot_strict out (by rw [L.desc]; exact Bool.eq_false_iff.mpr strict)] at run
    cases run
  · obtain good | bad := ends_or_not s.desc (slotPlane s.desc k) (h.hdr.unc.getD k false) (slotStream s h k)
    · exact .inr ⟨past, good⟩
    · obtain ⟨v, hv⟩ := decodeSlot_fails L past f bad
      rw [hv] at run
      cases run

theorem decodeSlots_ok_good (L : LoopState s h t) (f : DescFacts s.desc) (g : Tiled s.desc) (hk : k ≤ s.desc.nsubblocks)
    (run : decodeSlots t (List.range k) = .ok () u) : ∀ j < k, SlotGood s h j := by
  induction k generalizing u with
  | zero => exact fun j hj => absurd hj (Nat.not_lt_zero j)
  | succ k ih =>
    rw [decodeSlots_succ] at run
    cases before : decodeSlots t (List.range k) with
    | fatal x v =>
      rw [before] at run
      cases run
    | ok _ v =>
      have good := ih (Nat.le_of_succ_le hk) before
      obtain ⟨v', run', D⟩ := decodeSlots_good L f g (Nat.le_of_succ_le hk) good
      obtain ⟨-, rfl⟩ := Ran.ok.inj (before.symm.trans run')
      have change := decodeSlots_change (s := t) (l := List.range k) fun n hn => by
        rw [L.desc]
        exact (List.mem_range.mp hn).trans hk
      rw [before, state_ok] at change
      rw [before, bind_ok] at run
      intro j hj
      obtain hj | rfl := Nat.lt_succ_iff_lt_or_eq.mp hj
      · exact good j hj
      · exact decodeSlot_ok_good (L.change change D.hdr) f run

/-- The bits of the addressing checks (60_exceptions R317). -/
def AddressBit (n : Nat) : Prop := 6 ≤ n ∧ n ≤ 9

/-- A good slot marks none of the violations of the addressing checks. -/
theorem SlotGood.mark_bit (f : DescFacts s.desc) (good : SlotGood s h k) {x : Viol} (mark : SlotMark s h k x) :
    ¬ AddressBit x.bit := by
  rintro ⟨low, high⟩
  obtain ⟨-, rfl⟩ | ⟨np, -, pending | ⟨rfl, -⟩⟩ := mark
  · exact absurd high (by decide)
  · obtain ⟨past, -⟩ | ⟨-, b, ends, -⟩ := good
    · exact np past
    · have small := slotStream_pend f ends x pending
      omega
  · exact absurd low (by decide)

/-- What the slots of a completed loop leave: the header, the references, and the bits of the addressing checks. -/
theorem decodeSlots_keeps (L : LoopState s h t) (f : DescFacts s.desc) (g : Tiled s.desc)
    (run : decodeSlots t (List.range s.desc.nsubblocks) = .ok () u) :
    u.hdr = t.hdr ∧ SameRefs t.chk u.chk ∧ SameBits AddressBit t u := by
  have good := decodeSlots_ok_good L f g le_rfl run
  obtain ⟨v, run', D⟩ := decodeSlots_good L f g le_rfl good
  obtain ⟨-, rfl⟩ := Ran.ok.inj (run.symm.trans run')
  have refs := decodeSlots_sameRefs t (List.range s.desc.nsubblocks)
  rw [run, state_ok] at refs
  refine ⟨D.hdr, refs, fun n hn => D.marks.kept fun x ⟨k, hk, mark⟩ e => ?_⟩
  exact (good k hk).mark_bit f mark (e ▸ hn)

end Loop

end Sys2Proof.Machine

namespace Sys2Proof.Machine

/-! ### What the stripe countdown depends on (44_header_address R267) -/

section Alike

variable {R : Checker → Checker → Prop} {s t s' t' : State}

/-- `R` is kept by all that the stripe countdown does to the checker, and tells it the same bins. -/
structure KeptByStripes (R : Checker → Checker → Prop) : Prop where
  bins : ∀ {c c' : Checker}, R c c' → c'.stripeBins = c.stripeBins
  set : ∀ {c c' : Checker} (l : List StripeBin), R c c' → R { c with stripeBins := l } { c' with stripeBins := l }
  record : ∀ {s t : State} (x : Viol), t.sb.mbx = s.sb.mbx → t.sb.mby = s.sb.mby → t.sb.slot = s.sb.slot → R s.chk t.chk →
    R (recordViol s x 0).chk (recordViol t x 0).chk

/-- Descriptor and coordinates are the same, and the checkers are related. -/
structure Alike (R : Checker → Checker → Prop) (s t : State) : Prop where
  desc : t.desc = s.desc
  mbx : t.sb.mbx = s.sb.mbx
  mby : t.sb.mby = s.sb.mby
  slot : t.sb.slot = s.sb.slot
  chk : R s.chk t.chk

theorem Alike.ite {p : Prop} [Decidable p] (a : Alike R s t) (b : Alike R s' t') :
    Alike R (if p then s else s') (if p then t else t') := by
  split
  · exact a
  · exact b

variable (K : KeptByStripes R)
include K

theorem Alike.flag (a : Alike R s t) (x : Viol) : Alike R (flagV s x 0) (flagV t x 0) := by
  refine ⟨by simp only [flagV_desc, a.desc], by simp only [flagV_sb, a.mbx], by simp only [flagV_sb, a.mby],
    by simp only [flagV_sb, a.slot], ?_⟩
  rw [flagV, flagV, a.desc]
  split
  · exact K.record x a.mbx a.mby a.slot a.chk
  · exact a.chk

theorem Alike.close (a : Alike R s t) (b : StripeBin) : Alike R (stripeClose s b) (stripeClose t b) := by
  simp only [stripeClose, a.desc]
  have span : Alike R (if stripeRows s.desc * s.desc.mbw * s.desc.maxpay < b.hi - b.lo then flagV s .stripeSpan 0 else s)
      (if stripeRows s.desc * s.desc.mbw * s.desc.maxpay < b.hi - b.lo then flagV t .stripeSpan 0 else t) :=
    .ite (a.flag K _) a
  exact .ite (span.flag K _) span

theorem Alike.binStep (a : Alike R s t) (k : Nat) (b : StripeBin) (ptr : Option Nat) :
    Alike R (stripeBinStep s k b ptr) (stripeBinStep t k b ptr) := by
  by_cases full : b.remaining = 0
  · rw [stripeBinStep, if_pos full, stripeBinStep, if_pos full]
    exact a
  · have counted : Alike R (withBin s k (b.counted ptr)) (withBin t k (b.counted ptr)) := by
      refine ⟨a.desc, a.mbx, a.mby, a.slot, ?_⟩
      simp only [withBin, K.bins a.chk]
      exact K.set _ a.chk
    rw [stripeBinStep_eq full, stripeBinStep_eq full]
    exact .ite (counted.close K _) counted

/-- The stripe countdown does the same to related checkers. -/
theorem Alike.count (a : Alike R s t) (ptr : Option Nat) : Alike R (stripeCount s ptr) (stripeCount t ptr) := by
  simp only [stripeCount, a.desc, a.mby, K.bins a.chk]
  refine .ite ?_ a
  cases s.chk.stripeBins[s.sb.mby / stripeRows s.desc]? with
  | none => exact a
  | some b => exact a.binStep K _ b ptr

end Alike

theorem keptByStripes_eq : KeptByStripes Eq where
  bins := fun e => by rw [e]
  set := fun l e => by rw [e]
  record := fun x mbx mby slot e => by simp only [recordViol, mbx, mby, slot, e]

/-- The bins and the two bits of `VIOL_MASK` that the stripe countdown writes. -/
structure SameStripes (c c' : Checker) : Prop where
  bins : c'.stripeBins = c.stripeBins
  span : c'.violMask.getLsbD 8 = c.violMask.getLsbD 8
  align : c'.violMask.getLsbD 9 = c.violMask.getLsbD 9

theorem keptByStripes_sameStripes : KeptByStripes SameStripes where
  bins := SameStripes.bins
  set := fun l h => ⟨rfl, h.span, h.align⟩
  record := fun x _ _ _ h => ⟨h.bins, by simp only [recordViol, BitVec.getLsbD_or, h.span],
    by simp only [recordViol, BitVec.getLsbD_or, h.align]⟩

/-- A register of the checker that flagging leaves alone, other than the bins, is left alone by the countdown. -/
theorem stripeCount_kept {A : Type} (field : Checker → A) (flag : ∀ s x, field (flagV s x 0).chk = field s.chk)
    (set : ∀ c l, field { c with stripeBins := l } = field c) (s : State) (ptr : Option Nat) :
    field (stripeCount s ptr).chk = field s.chk := by
  have close (s : State) (b : StripeBin) : field (stripeClose s b).chk = field s.chk := by
    simp only [stripeClose]
    split <;> split <;> simp only [flag]
  unfold stripeCount
  split
  · dsimp only
    split
    · rfl
    next b _ =>
      by_cases full : b.remaining = 0
      · rw [stripeBinStep, if_pos full]
      · rw [stripeBinStep_eq full]
        split
        · exact (close _ _).trans (set _ _)
        · exact set _ _
  · rfl

/-! ### The addressing checks of a payload (44_header_address R260 to R270) -/

section Payload

variable {s t u P : State} {ptr n : Nat}

/-- `s` after the check of the tile's first payload (44_header_address R261). -/
def tileStartChecked (s : State) (ptr : Nat) : State :=
  if s.desc.tiled = true ∧ s.desc.checkTileStart = true ∧ s.sb.mbnum % 64 = 0 ∧ ptr ≠ tileStart s.desc s.sb.mbnum then
    flagV s .tileStart 0 else s

/-- `s` after the sparse check, where its mode asks for it. -/
def sparseChecked (s : State) (ptr : Nat) : State :=
  if s.desc.errorCheck ∧ s.desc.sparse then sparseCheck s ptr else s

theorem addressingChecks_ok_eq (run : addressingChecks s = .ok () t) :
    t = stripeCount (sparseChecked (tileStartChecked s s.hdr.ptr.toNat) s.hdr.ptr.toNat) (some s.hdr.ptr.toNat) := by
  have tile : (if s.desc.tiled then tiledCheck s s.sb.mbnum s.hdr.ptr.toNat else .ok () s) =
      .ok () (tileStartChecked s s.hdr.ptr.toNat) ∨
      (if s.desc.tiled then tiledCheck s s.sb.mbnum s.hdr.ptr.toNat else .ok () s) = .fatal .tileBound s := by
    cases tiled : s.desc.tiled
    · left
      simp only [tileStartChecked, tiled, Bool.false_eq_true, if_false, false_and]
    · cases inside : inTile s.desc s.sb.mbnum s.hdr.ptr.toNat
      · right
        simp only [tiledCheck, inside, Bool.false_eq_true, if_false, if_true]
      · left
        simp only [tiledCheck, tileStartChecked, tiled, inside, if_true, true_and]
  rw [addressingChecks] at run
  dsimp only at run
  obtain e | e := tile
  · rw [e, bind_ok] at run
    exact (Ran.ok.inj run).2.symm
  · rw [e, bind_fatal] at run
    cases run

theorem tileStartChecked_flags (s : State) (ptr : Nat) : Flags s (tileStartChecked s ptr) fun x =>
    (s.desc.tiled = true ∧ s.desc.checkTileStart = true ∧ s.sb.mbnum % 64 = 0 ∧ ptr ≠ tileStart s.desc s.sb.mbnum) ∧
      x = .tileStart := ite_flagV_flags s .tileStart 0 _

theorem tileStartChecked_only_chk (s : State) (ptr : Nat) : OnlyChk s (tileStartChecked s ptr) :=
  .ite (flagV_only_chk s _ _) (.refl s)

theorem sparseChecked_only_chk (s : State) (ptr : Nat) : OnlyChk s (sparseChecked s ptr) :=
  .ite (sparseCheck_only_chk s ptr) (.refl s)

/-- The reference, the bins and the mask behind the sparse check, where its mode asks for it. -/
theorem sparseChecked_chk (s : State) (ptr : Nat) :
    let on := s.desc.errorCheck = true ∧ s.desc.sparse = true
    let first := if s.chk.sparseFirstValid then s.chk.sparseFirst else ptr
    (on → (sparseChecked s ptr).chk.sparseFirstValid = true ∧ (sparseChecked s ptr).chk.sparseFirst = first) ∧
      (¬ on → (sparseChecked s ptr).chk.sparseFirstValid = s.chk.sparseFirstValid ∧
        (sparseChecked s ptr).chk.sparseFirst = s.chk.sparseFirst) ∧
      (sparseChecked s ptr).chk.stripeBins = s.chk.stripeBins ∧
      ∀ n, (sparseChecked s ptr).chk.violMask.getLsbD n = true ↔ s.chk.violMask.getLsbD n = true ∨
        on ∧ ((ptr : Int) - first) % s.desc.maxpay ≠ 0 ∧ n = 7 := by
  intro on first
  by_cases h : on
  · obtain ⟨valid, reference, mask, bins⟩ := sparseCheck_chk s ptr
    rw [sparseChecked, if_pos h]
    refine ⟨fun _ => ⟨valid, reference⟩, fun off => absurd h off, bins, fun n => ?_⟩
    rw [mask, BitVec.getLsbD_or, Bool.or_eq_true, getLsbD_flagged, and_iff_right h.1, and_iff_right h, eq_comm (a := n)]
    rfl
  · rw [sparseChecked, if_neg h]
    exact ⟨fun here => absurd here h, fun _ => ⟨rfl, rfl⟩, rfl, fun n => by simp only [h, false_and, or_false]⟩

/-- `s` at the coordinates of its operands. -/
def atCoords (s : State) : State := { s with sb := { s.sb with mbx := s.port.arg0, mby := s.port.arg1, slot := 0 } }

/-- The checker of `t` is what the addressing checks of the payload at `ptr` make of that of `s`. -/
structure PayloadChecked (s t : State) (ptr : Nat) : Prop where
  sparseOn : s.desc.errorCheck = true ∧ s.desc.sparse = true → t.chk.sparseFirstValid = true ∧
    t.chk.sparseFirst = if s.chk.sparseFirstValid then s.chk.sparseFirst else ptr
  sparseOff : ¬ (s.desc.errorCheck = true ∧ s.desc.sparse = true) →
    t.chk.sparseFirstValid = s.chk.sparseFirstValid ∧ t.chk.sparseFirst = s.chk.sparseFirst
  bins : t.chk.stripeBins = (stripeCount (atCoords s) (some ptr)).chk.stripeBins
  tileStart : t.chk.violMask.getLsbD 6 = true ↔ s.chk.violMask.getLsbD 6 = true ∨ s.desc.errorCheck = true ∧
    s.desc.tiled = true ∧ s.desc.checkTileStart = true ∧
      mbnumOf s.desc s.port.arg0 s.port.arg1 % 64 = 0 ∧ ptr ≠ tileBase s
  sparseAlign : t.chk.violMask.getLsbD 7 = true ↔ s.chk.violMask.getLsbD 7 = true ∨
    (s.desc.errorCheck = true ∧ s.desc.sparse = true) ∧
      ((ptr : Int) - if s.chk.sparseFirstValid then s.chk.sparseFirst else ptr : Int) % s.desc.maxpay ≠ 0
  stripes : ∀ k, k = 8 ∨ k = 9 →
    t.chk.violMask.getLsbD k = (stripeCount (atCoords s) (some ptr)).chk.violMask.getLsbD k

/-- What follows may change all but the references and the bits of the addressing checks. -/
theorem PayloadChecked.trans (h : PayloadChecked s t ptr) (refs : SameRefs t.chk u.chk) (bits : SameBits AddressBit t u) :
    PayloadChecked s u ptr where
  sparseOn := by
    rw [refs.valid, refs.first]
    exact h.sparseOn
  sparseOff := by
    rw [refs.valid, refs.first]
    exact h.sparseOff
  bins := refs.bins.trans h.bins
  tileStart := by
    rw [bits 6 ⟨by decide, by decide⟩]
    exact h.tileStart
  sparseAlign := by
    rw [bits 7 ⟨by decide, by decide⟩]
    exact h.sparseAlign
  stripes := fun k hk => (bits k (by unfold AddressBit; omega)).trans (h.stripes k hk)

/-- The state behind the header has the registers that the checks read, at the superblock's coordinates. -/
structure HeaderRead (s P : State) : Prop where
  desc : P.desc = s.desc
  sb : P.sb = (atSuperblock s s.port.arg0 s.port.arg1).sb
  refs : SameRefs s.chk P.chk
  bits : SameBits AddressBit s P

theorem addressingChecks_payload (H : HeaderRead s P) (run : addressingChecks P = .ok () u) :
    PayloadChecked s u P.hdr.ptr.toNat := by
  obtain rfl := addressingChecks_ok_eq run
  generalize P.hdr.ptr.toNat = ptr
  obtain ⟨desc, sb, refs, bits⟩ := H
  have flags := tileStartChecked_flags P ptr
  have desc1 : (tileStartChecked P ptr).desc = s.desc := by rw [(tileStartChecked_only_chk P ptr).same, desc]
  have sb1 : (tileStartChecked P ptr).sb = (atSuperblock s s.port.arg0 s.port.arg1).sb := by
    rw [(tileStartChecked_only_chk P ptr).same, sb]
  have refs1 := refs.trans flags.sameRefs
  have bits1 (n : Nat) (hn : AddressBit n) : (tileStartChecked P ptr).chk.violMask.getLsbD n = true ↔
      s.chk.violMask.getLsbD n = true ∨ s.desc.errorCheck = true ∧ (s.desc.tiled = true ∧ s.desc.checkTileStart = true ∧
        mbnumOf s.desc s.port.arg0 s.port.arg1 % 64 = 0 ∧ ptr ≠ tileBase s) ∧ n = 6 := by
    obtain ⟨-, -, bit⟩ := flags
    rw [bit n, bits n hn, desc, sb, eq_comm (a := n)]
    simp only [and_assoc, exists_and_left, exists_eq_left]
    rfl
  obtain ⟨on, off, bins2, bits2⟩ := sparseChecked_chk (tileStartChecked P ptr) ptr
  have only2 := sparseChecked_only_chk (tileStartChecked P ptr) ptr
  have desc2 : (sparseChecked (tileStartChecked P ptr) ptr).desc = s.desc := by rw [only2.same, desc1]
  have sb2 : (sparseChecked (tileStartChecked P ptr) ptr).sb = (atSuperblock s s.port.arg0 s.port.arg1).sb := by
    rw [only2.same, sb1]
  rw [desc1, refs1.valid, refs1.first] at on off bits2
  have bit (n : Nat) (hn : AddressBit n) := (bits2 n).trans (or_congr_left (bits1 n hn))
  have valid := stripeCount_kept Checker.sparseFirstValid (fun s x => flagV_sparseFirstValid s x 0) (fun _ _ => rfl)
    (sparseChecked (tileStartChecked P ptr) ptr) (some ptr)
  have first := stripeCount_kept Checker.sparseFirst (fun s x => flagV_sparseFirst s x 0) (fun _ _ => rfl)
    (sparseChecked (tileStartChecked P ptr) ptr) (some ptr)
  have apart := stripeCount_sameBits (B := fun n => n = 6 ∨ n = 7) (sparseChecked (tileStartChecked P ptr) ptr) (some ptr)
    (by decide) (by decide)
  have alike : Alike SameStripes (atCoords s) (sparseChecked (tileStartChecked P ptr) ptr) := by
    refine ⟨desc2, by rw [sb2]; rfl, by rw [sb2]; rfl, by rw [sb2]; rfl, ⟨bins2.trans refs1.bins, ?_, ?_⟩⟩
    · rw [Bool.eq_iff_iff, bit 8 ⟨by decide, by decide⟩]
      simp [atCoords]
    · rw [Bool.eq_iff_iff, bit 9 ⟨by decide, by decide⟩]
      simp [atCoords]
  obtain ⟨bins, span, align⟩ := (alike.count keptByStripes_sameStripes (some ptr)).chk
  refine ⟨fun h => ?_, fun h => ?_, bins, ?_, ?_, ?_⟩
  · rw [valid, first]
    exact on h
  · rw [valid, first]
    exact off h
  · rw [apart 6 (.inl rfl), bit 6 ⟨by decide, by decide⟩]
    simp
  · rw [apart 7 (.inr rfl), bit 7 ⟨by decide, by decide⟩]
    simp
  · rintro k (rfl | rfl)
    · exact span
    · exact align

end Payload

end Sys2Proof.Machine

namespace Sys2Proof.Machine

/-! ### DECODE_SUPERBLOCK runs the checks (43_superblock R210, R213; 44_header_address R270) -/

section Run

variable {s t u : State}

/-- A body that completed, from the status of the next state. -/
theorem settle_done {r : Ran Unit} {f : State → State} {res : Unit → Results}
    (run : settle (r.onFatal f) res = .next t) (done : t.port.status = .done) :
    ∃ u, r = .ok () u ∧ t = completeOp u (res ()) := by
  cases r with
  | ok _ u => exact ⟨u, rfl, (Host.Outcome.next.inj run).symm⟩
  | fatal x u =>
    obtain rfl := Host.Outcome.next.inj run
    cases done

theorem superblockParsed_read (s : State) : HeaderRead s (superblockParsed s) where
  desc := superblockParsed_desc s
  sb := superblockParsed_sb s
  refs := parseWord_sameRefs (startCursor (atSuperblock s s.port.arg0 s.port.arg1)) _
  bits := parseWord_sameBits (s := startCursor (atSuperblock s s.port.arg0 s.port.arg1)) fun h => absurd h.1 (by decide)

theorem parseWord_solid_chk {s : State} {w : Nat} (h : (parseWord s w).hdr.solid = true) (h24 : s.desc.nsubblocks ≤ 24) :
    (parseWord s w).chk = s.chk := by
  by_cases solid : s.desc.allowSolid = true ∧ (s.hdr.setFields s.desc w).codeAt 0 = 0
  · rw [parseWord_solid solid.1 solid.2]
  · obtain ⟨normal, -⟩ := (parseWord_normal h24 solid).fields
    rw [normal] at h
    cases h

/-- In a solid superblock only the stripe countdown runs. -/
theorem solid_checked (f : DescFacts s.desc) (solid : (superblockParsed s).hdr.solid = true) :
    (stripeCount (fillSolid (superblockParsed s)) none).chk = (stripeCount (atCoords s) none).chk := by
  obtain ⟨-, -, -, h24, -⟩ := f.narrow
  have chk : (superblockParsed s).chk = s.chk :=
    parseWord_solid_chk (s := startCursor (atSuperblock s s.port.arg0 s.port.arg1)) solid h24
  have coords : (superblockParsed s).sb.mbx = s.port.arg0 ∧ (superblockParsed s).sb.mby = s.port.arg1 ∧
      (superblockParsed s).sb.slot = 0 := by
    rw [superblockParsed_sb s]
    exact ⟨rfl, rfl, rfl⟩
  obtain ⟨mbx, mby, slot⟩ := coords
  have alike : Alike Eq (atCoords s) (fillSolid (superblockParsed s)) :=
    ⟨superblockParsed_desc s, mbx, mby, slot, chk.symm⟩
  exact (alike.count keptByStripes_eq none).chk.symm

/-- In a superblock with slots the checks of its payload run, and its slots leave what they did. -/
theorem slots_checked (f : DescFacts s.desc) (g : Tiled s.desc) (slots : (superblockParsed s).hdr.solid = false)
    (run : decodeBody (superblockParsed s) = .ok () u) :
    u.hdr = (superblockParsed s).hdr ∧ PayloadChecked s u (superblockParsed s).hdr.ptr.toNat := by
  rw [decodeBody, slots, if_neg Bool.false_ne_true] at run
  have change := superblockParsed_change s
  have read := superblockParsed_read s
  have payload := addressingChecks_payload read (u := (addressingChecks (superblockParsed s)).state)
  have only := addressingChecks_only_chk (superblockParsed s)
  cases e : addressingChecks (superblockParsed s) with
  | fatal x v =>
    rw [e] at run
    cases run
  | ok _ v =>
    rw [e, state_ok] at only payload
    rw [e, bind_ok] at run
    have desc : v.desc = s.desc := by rw [only.same, read.desc]
    have L : LoopState s (superblockParsed s) v := by
      have total := change.trans only.decodeChange
      refine ⟨desc, ?_, ?_, ?_, by rw [only.same]⟩ <;> rw [total.same] <;> rfl
    rw [desc] at run
    cases loop : decodeSlots v (List.range s.desc.nsubblocks) with
    | fatal x w =>
      rw [loop] at run
      cases run
    | ok _ w =>
      rw [loop, bind_ok] at run
      obtain ⟨-, rfl⟩ := Ran.ok.inj run
      obtain ⟨hdr, refs, bits⟩ := decodeSlots_keeps L f g loop
      exact ⟨hdr.trans L.hdr, (payload rfl).trans refs bits⟩

end Run

/-- Settles O52: the two checks by their definitions; a completed DECODE_SUPERBLOCK by the checks it runs between header and
slots, which change neither the references nor the bits 6 to 9. -/
theorem stripeAndSparseChecks : Obligations.StripeAndSparseChecks := by
  refine ⟨sparseCheck_chk, fun s b ptr height check => ?_, fun s t hi hr hx hy run done => ?_⟩
  · have update := stripeUpdate s b ptr height check
    rw [StripeBin.counted_eq] at update
    exact update
  · have f := hi.facts hr
    rw [exec_decodeSuperblock f hr hx hy] at run
    obtain ⟨u, body, rfl⟩ := settle_done run done
    cases form : (superblockParsed s).hdr.solid
    · obtain ⟨hdr, checked⟩ := slots_checked f (hi.tiled hr) form body
      rw [← hdr] at checked form
      obtain ⟨on, off, bins, tileStart, sparseAlign, stripes⟩ := checked
      exact ⟨fun solid => absurd (solid.symm.trans form) (by decide),
        fun _ => ⟨on, off, bins, tileStart, sparseAlign, stripes⟩⟩
    · rw [decodeBody, form, if_pos rfl] at body
      obtain ⟨-, rfl⟩ := Ran.ok.inj body
      have checked := solid_checked f form
      have solid : (fillSolid (superblockParsed s)).hdr.solid = true := form
      rw [← stripeCount_hdr _ none] at solid
      generalize stripeCount (fillSolid (superblockParsed s)) none = u at checked solid
      exact ⟨fun _ => checked, fun slots => absurd (slots.symm.trans solid) (by decide)⟩

end Sys2Proof.Machine

namespace Sys2Proof.Machine

/-! ### The colour transform of a block, from its rows 0 to 2 alone (45_color_transform R282 to R286) -/

section Block

variable {n : Nat} {blk : Vector (Vector Sample 16) 4}

/-- The samples of rows 0 to 2 are below `2^n`; nothing is asked of row 3. -/
def RgbBelow (n : Nat) (blk : Vector (Vector Sample 16) 4) : Prop :=
  ∀ c : Fin 4, c.val < 3 → ∀ i : Fin 16, sampleAt blk c i < 2 ^ n

theorem RgbBelow.pixel (h : RgbBelow n blk) (i : Fin 16) :
    sampleAt blk 0 i < 2 ^ n ∧ sampleAt blk 1 i < 2 ^ n ∧ sampleAt blk 2 i < 2 ^ n :=
  ⟨h 0 (by decide) i, h 1 (by decide) i, h 2 (by decide) i⟩

/-- Every input depth fits a sample with a bit to spare, also in a descriptor that was not accepted. -/
theorem inBits_le_31 (d : DescIn) (c : Fin 4) : inBits d c ≤ 31 := Nat.le_of_lt_succ (d.inputbits[c]).isLt

/-- `U` and `V` are the signed differences, shifted by `2^n` (R282). -/
theorem ctForward_difference {r g b : Nat} (hg : g < 2 ^ n) :
    ((ctForward n r g b).2.1 : Int) = r - g + 2 ^ n ∧ ((ctForward n r g b).2.2 : Int) = b - g + 2 ^ n := by
  have power : ((2 ^ n : Nat) : Int) = 2 ^ n := by norm_cast
  simp only [ctForward]
  omega

/-- A transformed pixel is stored whole: `U` and `V` take one bit more than the depth (R283). -/
theorem rgbAt_ctForwardBlock_of_below (hn : n ≤ 31) (h : RgbBelow n blk) (i : Fin 16) :
    rgbAt (ctForwardBlock n blk) i = ctForward n (sampleAt blk 0 i) (sampleAt blk 1 i) (sampleAt blk 2 i) := by
  obtain ⟨hr, hg, hb⟩ := h.pixel i
  obtain ⟨hy, -, hu, -, hv⟩ := ctForward_range hr hg hb
  have narrow : 2 ^ n ≤ 2 ^ (n + 1) := Nat.pow_le_pow_right (by decide) n.le_succ
  have wide : 2 ^ (n + 1) ≤ 2 ^ 32 := Nat.pow_le_pow_right (by decide) (Nat.succ_le_succ hn)
  have stored (c : Fin 4) (hc : c.val < 3) := sampleAt_ctForwardBlock n blk i hc
  rw [rgbAt, stored 0 (by decide), stored 1 (by decide), stored 2 (by decide)]
  exact Prod.ext (Nat.mod_eq_of_lt (hy.trans_le (narrow.trans wide)))
    (Prod.ext (Nat.mod_eq_of_lt (hu.trans_le wide)) (Nat.mod_eq_of_lt (hv.trans_le wide)))

/-- The inverse of a forward pixel is the pixel (R286). -/
theorem ctInversePixel_ctForwardBlock (hn : n ≤ 31) (h : RgbBelow n blk) (i : Fin 16) :
    ctInversePixel n (sampleAt (ctForwardBlock n blk) 0 i) (sampleAt (ctForwardBlock n blk) 1 i)
      (sampleAt (ctForwardBlock n blk) 2 i) = some (rgbAt blk i) := by
  obtain ⟨hr, hg, hb⟩ := h.pixel i
  have inverse := ctInversePixel_forward hr hg hb
  rw [← rgbAt_ctForwardBlock_of_below hn h i] at inverse
  simpa only [rgbAt] using inverse

/-- The inverse of a forward block is the block, row 3 included. -/
theorem ctInverseBlock_ctForwardBlock (hn : n ≤ 31) (h : RgbBelow n blk) :
    ctInverseBlock n (ctForwardBlock n blk) = some blk := by
  obtain ⟨-, i, refused⟩ | ⟨b, inverse, row3, rows⟩ := ctInverseBlock_cases n (ctForwardBlock n blk)
  · rw [ctInversePixel_ctForwardBlock hn h i] at refused
    cases refused
  · suffices restored : ∀ c : Fin 4, b[c] = blk[c] by
      rw [inverse, Vector.ext fun k hk => restored ⟨k, hk⟩]
    intro c
    by_cases hc : c.val < 3
    · refine Vector.ext fun k hk => ?_
      obtain ⟨t, pixel, row⟩ := rows ⟨k, hk⟩
      obtain rfl := Option.some.inj ((ctInversePixel_ctForwardBlock hn h _).symm.trans pixel)
      refine (row c hc).trans ?_
      rw [pick3_rgbAt _ _ hc]
      simp [sampleAt]
    · obtain rfl : c = 3 := by omega
      rw [row3, ctForwardBlock_three]

/-- R, G, B of a pixel before the range check (R284). -/
def inverseAt (n : Nat) (blk : Vector (Vector Sample 16) 4) (i : Fin 16) : Int × Int × Int :=
  ctInverse n (sampleAt blk 0 i) (sampleAt blk 1 i) (sampleAt blk 2 i)

/-- All of R, G, B of a pixel are in range (R285). -/
def InverseOk (n : Nat) (blk : Vector (Vector Sample 16) 4) (i : Fin 16) : Prop :=
  (0 ≤ (inverseAt n blk i).1 ∧ (inverseAt n blk i).1 < 2 ^ n) ∧
  (0 ≤ (inverseAt n blk i).2.1 ∧ (inverseAt n blk i).2.1 < 2 ^ n) ∧
  (0 ≤ (inverseAt n blk i).2.2 ∧ (inverseAt n blk i).2.2 < 2 ^ n)

/-- The range check of a pixel is the model's. -/
theorem inverseOk_iff (i : Fin 16) : InverseOk n blk i ↔
    (ctInversePixel n (sampleAt blk 0 i) (sampleAt blk 1 i) (sampleAt blk 2 i)).isSome = true := by
  simp only [ctInversePixel, InverseOk, inverseAt, ← inRange_iff, ← Bool.and_eq_true, Bool.and_assoc]
  split <;> simp [*]

/-- The two outcomes of the inverse of a block: a pixel out of range, or R, G, B of every pixel in rows 0 to 2. -/
theorem ctInverseBlock_pixels (hn : n ≤ 31) (blk : Vector (Vector Sample 16) 4) :
    (ctInverseBlock n blk = none ∧ ∃ i, ¬ InverseOk n blk i) ∨
    ∃ b, ctInverseBlock n blk = some b ∧ b[(3 : Fin 4)] = blk[(3 : Fin 4)] ∧
      ∀ i, InverseOk n blk i ∧ (sampleAt b 0 i : Int) = (inverseAt n blk i).1 ∧
        (sampleAt b 1 i : Int) = (inverseAt n blk i).2.1 ∧ (sampleAt b 2 i : Int) = (inverseAt n blk i).2.2 := by
  obtain ⟨noBlock, i, refused⟩ | ⟨b, inverse, row3, rows⟩ := ctInverseBlock_cases n blk
  · refine .inl ⟨noBlock, i, fun ok => ?_⟩
    have isSome := (inverseOk_iff i).mp ok
    rw [refused] at isSome
    cases isSome
  · refine .inr ⟨b, inverse, row3, fun i => ?_⟩
    obtain ⟨t, pixel, row⟩ := rows i
    have isSome := Option.isSome_iff_exists.mpr ⟨t, pixel⟩
    obtain ⟨r, g, b', pixel', rgb, hr, hg, hb⟩ := ctInversePixel_some isSome
    obtain rfl := Option.some.inj (pixel.symm.trans pixel')
    have wide : 2 ^ n ≤ 2 ^ 32 := Nat.pow_le_pow_right (by decide) (hn.trans (by decide))
    have stored (c : Fin 4) (hc : c.val < 3) (small : pick3 (r, g, b') c < 2 ^ n) :
        sampleAt b c i = pick3 (r, g, b') c := by
      rw [sampleAt, row c hc]
      exact Nat.mod_eq_of_lt (small.trans_le wide)
    refine ⟨(inverseOk_iff i).mpr isSome, ?_⟩
    rw [inverseAt, rgb, stored 0 (by decide) hr, stored 1 (by decide) hg, stored 2 (by decide) hb]
    exact ⟨rfl, rfl, rfl⟩

/-- The statement's floor division is the model's, for a positive divisor. -/
theorem inverseAt_eq (n : Nat) (blk : Vector (Vector Sample 16) 4) (i : Fin 16) :
    let u : Int := sampleAt blk 1 i
    let v : Int := sampleAt blk 2 i
    let g := Int.fdiv (4 * sampleAt blk 0 i - u - v + 3 + 2 * 2 ^ n) 4
    inverseAt n blk i = (u + g - 2 ^ n, g, v + g - 2 ^ n) := by
  intro u v g
  have floor (a : Int) : Int.fdiv a 4 = a / 4 := Int.fdiv_eq_ediv_of_nonneg a (by decide)
  simp only [g, floor]
  rfl

end Block

/-! ### The commands CT_FORWARD and CT_INVERSE (45_color_transform R282, R284, R285) -/

section Commands

variable {s : State} {bits : Fin 4 → Nat} {blk : Vector (Vector Sample 16) 4}

/-- Rows 0 to 2 are operands of a command that takes `bits` bits: defined, and no sample is wider. -/
def Operands (s : State) (bits : Fin 4 → Nat) : Prop :=
  ∀ c : Fin 4, c.val < 3 → s.codec.blkOk[c] = true ∧ ∀ i : Fin 16, (s.codec.blk[c][i]).toNat < 2 ^ bits c

/-- Operands pass every gate of the two commands (log 17). -/
theorem Operands.gates (h : Operands s bits) (hr : Ready s) (ht : ctApplies s.desc.toDescIn 0 = true)
    (k : Host.Outcome State Fault Refusal) :
    (ifReady s <| ifCtApplies s <| ifDefined (rowsDefined s.codec ctComps) <|
      ifInput s (rowsBelow s.codec.blk ctComps bits) k) = k := by
  have operand {c : Fin 4} (hc : c ∈ ctComps) := h c ((mem_ctComps_iff c).mp hc)
  have rowsDefined := (rowsDefined_iff s.codec ctComps).mpr fun c hc => (operand hc).1
  have rowsBelow := (rowsBelow_iff s.codec.blk ctComps bits).mpr fun c hc => (operand hc).2
  rw [hr.gate, ifCtApplies, if_pos ht, rowsDefined, ifDefined_true, rowsBelow, ifInput_true]

/-- `s` after a command that put `blk` into the block buffer. -/
def blockWritten (s : State) (blk : Vector (Vector Sample 16) 4) : State :=
  completeOp { s with codec := { s.codec with blk := blk } } Results.none

/-- `s` after a CT_INVERSE that the range check refused. -/
def inverseRefused (s : State) : State :=
  raiseFatal (loseCodec (flagV s .ctRange 0) ctComps true false) .ctRange

theorem Operands.exec_ctForward (h : Operands s fun c => inBits s.desc.toDescIn c) (hr : Ready s)
    (ht : ctApplies s.desc.toDescIn 0 = true) : exec .ctForward s =
      .next (blockWritten s (ctForwardBlock (inBits s.desc.toDescIn 0) s.codec.blk)) :=
  h.gates hr ht _

theorem Operands.exec_ctInverse (h : Operands s fun c => s.desc.compbits[c]) (hr : Ready s)
    (ht : ctApplies s.desc.toDescIn 0 = true) :
    exec .ctInverse s = settle (ctInverseRun s ctComps false) fun _ => Results.none :=
  h.gates hr ht _

theorem Operands.exec_ctInverse_some (h : Operands s fun c => s.desc.compbits[c]) (hr : Ready s)
    (ht : ctApplies s.desc.toDescIn 0 = true)
    (inverse : ctInverseBlock (inBits s.desc.toDescIn 0) s.codec.blk = some blk) :
    exec .ctInverse s = .next (blockWritten s blk) := by
  rw [h.exec_ctInverse hr ht, ctInverseRun_some _ _ inverse, settle_ok]
  rfl

theorem Operands.exec_ctInverse_none (h : Operands s fun c => s.desc.compbits[c]) (hr : Ready s)
    (ht : ctApplies s.desc.toDescIn 0 = true) (noBlock : ctInverseBlock (inBits s.desc.toDescIn 0) s.codec.blk = none) :
    exec .ctInverse s = .next (inverseRefused s) := by
  rw [h.exec_ctInverse hr ht, ctInverseRun_none _ _ noBlock, settle_fatal]
  rfl

/-- A command of the transform writes the block buffer and the completion, nothing else. -/
theorem blockWritten_frame (s : State) (blk : Vector (Vector Sample 16) 4) :
    DoneWith s (blockWritten s blk) Results.none ∧ OnlyCodec s (blockWritten s blk) ∧
      (blockWritten s blk).chk = s.chk ∧ (blockWritten s blk).cur = s.cur ∧
      (blockWritten s blk).codec.mintree = s.codec.mintree ∧ (blockWritten s blk).codec.bctree = s.codec.bctree :=
  ⟨rfl, rfl, rfl, rfl, rfl, rfl⟩

/-- An operation that was not producing trees loses none. -/
theorem lose_withoutTrees (x : Codec) (cs : List (Fin 4)) (n : Nat) (blks : Bool) :
    (x.lose cs n blks false).mintree = x.mintree ∧ (x.lose cs n blks false).bctree = x.bctree := by
  constructor <;> exact Vector.ext fun k hk => by simp [Codec.lose]

theorem inverseRefused_frame (hr : Ready s) : FailedWith s (inverseRefused s) Results.none ∧
    (inverseRefused s).fat = ⟨2, s.sb.mbx, s.sb.mby, s.sb.slot⟩ ∧ Flags s (inverseRefused s) (· = .ctRange) ∧
    SameFb s (inverseRefused s) ∧ SameOut s (inverseRefused s) ∧
    (inverseRefused s).codec.mintree = s.codec.mintree ∧ (inverseRefused s).codec.bctree = s.codec.bctree := by
  have flags : Flags s (inverseRefused s) (· = .ctRange) := flagV_flags s .ctRange 0
  have trees := lose_withoutTrees s.codec ctComps s.free true
  simpa [FailedWith, inverseRefused, after_of_zero hr.1, FatalCode.value, SameFb, SameOut, trees] using flags

/-- The depth of all three operands of CT_FORWARD is the common one (46_descriptor R298). -/
theorem inBits_of_transformed (f : DescFacts s.desc) (ht : ctApplies s.desc.toDescIn 0 = true) {c : Fin 4}
    (hc : c.val < 3) : inBits s.desc.toDescIn c = inBits s.desc.toDescIn 0 := by
  obtain ⟨d1, d2⟩ := f.depth ht
  obtain rfl | rfl | rfl : c = 0 ∨ c = 1 ∨ c = 2 := by omega
  · rfl
  · exact d1
  · exact d2

/-- Rows below the common depth are operands of CT_FORWARD. -/
theorem Operands.ofCommonDepth (f : DescFacts s.desc) (ht : ctApplies s.desc.toDescIn 0 = true)
    (h : Operands s fun _ => inBits s.desc.toDescIn 0) : Operands s fun c => inBits s.desc.toDescIn c := by
  intro c hc
  simp only [inBits_of_transformed f ht hc]
  exact h c hc

theorem Operands.rgbBelow {n : Nat} (h : Operands s fun _ => n) : RgbBelow n s.codec.blk := fun c hc => (h c hc).2

/-- What CT_FORWARD leaves are operands of CT_INVERSE (R283). -/
theorem Operands.forwarded (h : Operands s fun c => inBits s.desc.toDescIn c) (f : DescFacts s.desc)
    (ht : ctApplies s.desc.toDescIn 0 = true) :
    Operands (blockWritten s (ctForwardBlock (inBits s.desc.toDescIn 0) s.codec.blk)) fun c => s.desc.compbits[c] :=
  fun c hc => ⟨(h c hc).1, ctForwardBlock_below f ht (fun e he => (h e he).2) hc⟩

end Commands

/-- Settles O39: the samples that CT_FORWARD stores are the transform of each pixel, in its ranges. -/
theorem ctForwardResult : Obligations.CtForwardResult := by
  intro s hi hr ht given n
  have below := Operands.rgbBelow given
  obtain ⟨done, only, chk, cur, mintree, bctree⟩ := blockWritten_frame s (ctForwardBlock n s.codec.blk)
  refine ⟨_, (Operands.ofCommonDepth (hi.facts hr) ht given).exec_ctForward hr ht, done, only, chk, cur, mintree, bctree,
    ctForwardBlock_three n _, fun i => ?_⟩
  obtain ⟨hr, hg, hb⟩ := below.pixel i
  have chroma := ctForward_difference (r := sampleAt s.codec.blk 0 i) (b := sampleAt s.codec.blk 2 i) hg
  have range := ctForward_range hr hg hb
  have stored := rgbAt_ctForwardBlock_of_below (inBits_le_31 _ 0) below i
  have luma := congrArg Prod.fst stored
  rw [← stored] at chroma range
  simp only [rgbAt, sampleAt] at luma chroma range
  obtain ⟨hu, hv⟩ := chroma
  exact ⟨luma, hu, hv, range⟩

/-- Settles O40: `ctInverseBlock_pixels` decides between the two outcomes. -/
theorem ctInverseResult : Obligations.CtInverseResult := by
  intro s hr ht given n y u v g r b ok
  have rgb := inverseAt_eq n s.codec.blk
  have hok : ok = InverseOk n s.codec.blk := by
    funext i
    rw [InverseOk, rgb]
    rfl
  obtain ⟨noBlock, i, bad⟩ | ⟨blk, inverse, row3, pixels⟩ := ctInverseBlock_pixels (inBits_le_31 s.desc.toDescIn 0) s.codec.blk
  · exact ⟨fun all => absurd (hok ▸ all i) bad,
      fun _ => ⟨_, Operands.exec_ctInverse_none given hr ht noBlock, inverseRefused_frame hr⟩⟩
  · refine ⟨fun _ => ?_, fun ⟨i, bad⟩ => absurd (hok ▸ (pixels i).1) bad⟩
    obtain ⟨done, only, chk, cur, mintree, bctree⟩ := blockWritten_frame s blk
    refine ⟨_, Operands.exec_ctInverse_some given hr ht inverse, done, only, chk, cur, mintree, bctree, row3, fun i => ?_⟩
    obtain ⟨-, sample⟩ := pixels i
    rw [rgb] at sample
    exact sample

/-- Settles O41: per pixel by `ctInversePixel_forward`; for the commands, CT_FORWARD leaves operands of CT_INVERSE, whose
inverse is the block there was. -/
theorem ctExactInverse : Obligations.CtExactInverse := by
  refine ⟨fun n r g b hr hg hb => ctInversePixel_forward hr hg hb, fun s hi hr ht given => ?_⟩
  have f := hi.facts hr
  have operands := Operands.ofCommonDepth f ht given
  have inverse := ctInverseBlock_ctForwardBlock (inBits_le_31 s.desc.toDescIn 0) (Operands.rgbBelow given)
  exact ⟨_, _, operands.exec_ctForward hr ht, (operands.forwarded f ht).exec_ctInverse_some hr ht inverse, rfl, rfl⟩

end Sys2Proof.Machine

namespace Sys2Proof.Machine

/-! ### Who writes the descriptor (46_descriptor R299, 10_state R22) -/

section DescriptorWriters

variable {s t u : State} {i : Instr}

/-- The descriptor and its validity read as before. -/
def SameDesc (s t : State) : Prop := t.desc = s.desc ∧ t.descValid = s.descValid

theorem SameDesc.trans (h : SameDesc s t) (g : SameDesc t u) : SameDesc s u :=
  ⟨g.1.trans h.1, g.2.trans h.2⟩

theorem DecodeChange.sameDesc (h : DecodeChange s t) : SameDesc s t := by
  rw [h.same]
  exact ⟨rfl, rfl⟩

theorem EncodeChange.sameDesc (h : EncodeChange s t) : SameDesc s t := by
  rw [h.same]
  exact ⟨rfl, rfl⟩

theorem encodeStart_sameDesc (i : Instr) (s : State) : SameDesc s (encodeStart i s) := by
  unfold encodeStart
  split <;> exact ⟨rfl, rfl⟩

/-- An instruction's body may change the working registers and the memories; how the instruction ends, and how it
enters a superblock, writes no descriptor either. -/
theorem exec_sameDesc (hi : i ≠ .initDescriptor) : NextAll (SameDesc s) (exec i s) := by
  cases exec_cases i s hi
  case undefined e => rw [e]; exact nextAll_fault _
  case decoded c e => rw [e]; exact nextAll_next.mpr c.sameDesc
  case decodeFailed c e => rw [e]; exact nextAll_next.mpr c.sameDesc
  case encoded c _ e => rw [e]; exact nextAll_next.mpr ((encodeStart_sameDesc i s).trans c.sameDesc)
  case encodeFailed c _ e => rw [e]; exact nextAll_next.mpr ((encodeStart_sameDesc i s).trans c.sameDesc)
  case superblock c e => rw [e]; exact nextAll_next.mpr c.sameDesc
  case superblockFailed c e => rw [e]; exact nextAll_next.mpr c.sameDesc
  all_goals
    rename_i e
    rw [e]
    exact nextAll_next.mpr ⟨rfl, rfl⟩

/-- An element of a stream is no operation: only a command word decodes to an instruction of the command format
(30_encoding R108). -/
theorem decode_form_ne_cmd {f : Form} {v : Nat} (hf : f ≠ .cmd) (h : decode f v = .ok i) : i.form ≠ .cmd := by
  cases f
  case cmd => exact absurd rfl hf
  case hdr m allowed =>
    cases h
    unfold decodeHeader
    split
    · exact Form.noConfusion
    · cases m <;> exact Form.noConfusion
  case size m =>
    cases h
    unfold decodeSize
    dsimp only
    split_ifs <;> exact Form.noConfusion
  case l3 w =>
    cases h
    unfold decodeL3
    cases w <;> dsimp only <;> split_ifs <;> exact Form.noConfusion
  case node b =>
    cases h
    unfold decodeNode
    split_ifs <;> exact Form.noConfusion
  all_goals
    cases h
    exact Form.noConfusion

theorem runElement_sameDesc (f : Form) (s : State) : NextAll (SameDesc s) (runElement f s) := by
  unfold runElement
  split
  · exact nextAll_next.mpr ⟨rfl, rfl⟩
  · next hf =>
    split
    · next i hd => exact exec_sameDesc fun init => decode_form_ne_cmd hf hd (congrArg Instr.form init)
    · exact nextAll_next.mpr ⟨rfl, rfl⟩

theorem runCommand_sameDesc {w : Nat} (h : decode .cmd w ≠ .ok .initDescriptor) :
    NextAll (SameDesc s) (runCommand w s) := by
  unfold runCommand
  split
  · next i hd => exact exec_sameDesc fun init => h (init ▸ hd)
  · exact nextAll_next.mpr ⟨rfl, rfl⟩

/-- The host's actions that write the descriptor: reset, and the command INIT_DESCRIPTOR. -/
def WritesDesc (e : Event) : Prop :=
  e = .reset ∨ ∃ w, e = .command w ∧ decode .cmd w.toNat = .ok .initDescriptor

theorem hostAction_sameDesc {e : Event} (h : ¬ WritesDesc e) : NextAll (SameDesc s) (hostAction e s) := by
  cases e
  case command w => exact runCommand_sameDesc fun hd => h (.inr ⟨w, rfl, hd⟩)
  case element f => exact runElement_sameDesc f s
  case reset => exact absurd (.inl rfl) h
  case writeFb a v =>
    simp only [hostAction]
    split
    · exact nextAll_next.mpr ⟨rfl, rfl⟩
    · exact nextAll_fault _
  all_goals exact nextAll_next.mpr ⟨rfl, rfl⟩

end DescriptorWriters

/-- Settles O16: by what each instruction can come to, and since no element decodes to INIT_DESCRIPTOR. -/
theorem descriptorReadOnly : Obligations.DescriptorReadOnly := by
  refine ⟨fun i s t hi e => exec_sameDesc hi t e, fun s t e => ?_⟩
  rw [step, stepState] at e
  split at e
  · cases e
    exact .inl ⟨rfl, rfl⟩
  · next ev rest hin =>
    by_cases writes : WritesDesc ev
    · obtain rfl | ⟨w, rfl, hd⟩ := writes
      · exact .inr (.inl ⟨rest, hin⟩)
      · exact .inr (.inr ⟨w, rest, hin, hd⟩)
    · exact .inl (hostAction_sameDesc (s := { s with inbox := rest }) writes t e)

/-! ### INIT_DESCRIPTOR (46_descriptor R290, R298; 60_exceptions R324) -/

section InitDescriptor

variable {s : State}

/-- The descriptor INIT_DESCRIPTOR derives from the `in` fields. -/
def inputDesc (s : State) : Desc := derive (layoutTable s.port.descIn.layout.toNat) s.port.descIn

theorem exec_initDescriptor_accepted (h : validDesc (inputDesc s) = true) : exec .initDescriptor s =
    .next (completeOp { clearFrame s with
      desc := inputDesc s, descValid := true
      chk := { (clearFrame s).chk with stripeBins := initialBins (inputDesc s) } } Results.none) :=
  if_pos h

theorem exec_initDescriptor_refused (h : validDesc (inputDesc s) = false) : exec .initDescriptor s =
    .next (raiseFatal { clearFrame s with desc := inputDesc s, descValid := false } .badInput) :=
  if_neg (Bool.eq_false_iff.mp h)

/-- A cleared frame has no fatal error standing and its coordinates at 0, so those are what a refusal records. -/
theorem raiseFatal_clearFrame (s : State) (d : Desc) :
    raiseFatal { clearFrame s with desc := d, descValid := false } .badInput =
      refusedWith { clearFrame s with desc := d, descValid := false } 6 :=
  raiseFatal_eq_refusedWith rfl .badInput

end InitDescriptor

/-- Settles O14: the two branches of INIT_DESCRIPTOR, each from a cleared frame. -/
theorem initDescriptorResult : Obligations.InitDescriptorResult := by
  intro s
  constructor
  · intro accepted
    rw [exec_initDescriptor_accepted accepted]
    rfl
  · intro refused
    rw [exec_initDescriptor_refused refused, raiseFatal_clearFrame]
    rfl

/-! ### The size queries (46_descriptor R300 to R303) -/

/-- Whole bytes per sample (R302). -/
theorem uncompFrameSize_eq (d : Desc) : uncompFrameSize d =
    ((planeComps d).map fun pc => cw d pc.1 * chh d pc.1 * ((inBits d.toDescIn pc.2 + 7) / 8)).sum := rfl

/-- Settles O17: behind the gate of the operations each query is its result, and without a descriptor the gate refuses. -/
theorem sizeQueries : Obligations.SizeQueries := by
  intro s h
  refine ⟨fun valid => ?_, fun absent i query => ?_⟩
  · have ready : Ready s := ⟨h, valid⟩
    rw [← uncompFrameSize_eq]
    exact ⟨ready.gate, ready.gate, ready.gate⟩
  · obtain rfl | rfl | rfl := query <;> exact exec_without_descriptor h absent Instr.noConfusion rfl

end Sys2Proof.Machine

namespace Sys2Proof.Machine

/-! ### The failed state (60_exceptions R323) -/

section FailedState

variable {i : Instr} {s t : State}

/-- While a fatal error stands, the gate of every operation but INIT_DESCRIPTOR lets nothing through. -/
theorem exec_failed (h : s.fat.code ≠ 0) (hi : i ≠ .initDescriptor) : exec i s = .next (failOp s Results.none) := by
  cases exec_cases i s hi
  case failed e => exact e
  case bits running _ _ _ _ => exact absurd running h
  case absent running _ _ _ => exact absurd running h
  all_goals exact absurd (And.left ‹Ready s›) h

/-- A decode pass ends with the superblock that met a fatal error. -/
theorem decodePass_cons_of_fatal {xy : Nat × Nat} (rest : List (Nat × Nat))
    (e : exec .decodeSuperblock (setCoordArgs s xy s.port.arg2) = .next t) (h : t.fat.code ≠ 0) :
    decodePass s (xy :: rest) = .next t := by
  simp only [decodePass, e, if_neg h]

end FailedState

/-- Settles O53: every instruction passes the gate first, and the pass looks at `FATAL` after each superblock. -/
theorem failedStateRefuses : Obligations.FailedStateRefuses :=
  ⟨fun _ _ h hi => exec_failed h hi, fun _ _ _ rest e h => decodePass_cons_of_fatal rest e h⟩

/-! ### How an operation ends (10_state R49, 60_exceptions R321, R322) -/

section Ends

variable {i : Instr} {s t : State} {f : FatalRegs}

/-- The ends of an operation whose body leaves the fatal registers `f`: it completes, or it raises a fatal error in the state
its body came to. -/
inductive EndsFrom (f : FatalRegs) : State → Prop where
  | completes (u : State) (r : Results) (fat : u.fat = f) : EndsFrom f (completeOp u r)
  | raises (u : State) (x : FatalCode) (r : Results) (fat : u.fat = f) : EndsFrom f (raiseFatal u x r)

/-- What FATAL = 0 at the end tells of an operation that began its body with none standing. -/
theorem EndsFrom.of_zero (h : EndsFrom f t) (z : t.fat.code = 0) : t.port.status = .done ∧ t.fat = f := by
  cases h with
  | completes u r fat => exact ⟨rfl, fat⟩
  | raises u x r fat => exact absurd z (after_code_ne u.fat x u.sb.mbx u.sb.mby u.sb.slot)

/-- The first fatal error is recorded with the place the superblock registers hold, which raising leaves alone. -/
theorem EndsFrom.of_fatal (h : EndsFrom f t) (h0 : f.code = 0) (nz : t.fat.code ≠ 0) : t.port.status = .failed ∧
    ∃ x : FatalCode, t.fat = ⟨x.value, t.sb.mbx, t.sb.mby, t.sb.slot⟩ := by
  cases h with
  | completes u r fat => exact absurd (fat ▸ h0) nz
  | raises u x r fat => exact ⟨rfl, x, after_of_zero (fat ▸ h0) x _ _ _⟩

theorem DecodeChange.fat (h : DecodeChange s t) : t.fat = s.fat := by rw [h.same]

theorem EncodeChange.fat (h : EncodeChange s t) : t.fat = s.fat := by rw [h.same]

@[simp] theorem encodeStart_fat (i : Instr) (s : State) : (encodeStart i s).fat = s.fat := by
  unfold encodeStart
  split <;> rfl

/-- No body writes the fatal registers, so an operation that is not gated off ends from those it found. -/
theorem exec_endsFrom (h : s.fat.code = 0) (hi : i ≠ .initDescriptor) : NextAll (EndsFrom s.fat) (exec i s) := by
  cases exec_cases i s hi
  case failed standing _ => exact absurd h standing
  case undefined e => rw [e]; exact nextAll_fault _
  case bits e => rw [e]; exact nextAll_next.mpr (.completes _ _ rfl)
  case absent e => rw [e]; exact nextAll_next.mpr (.raises _ _ _ rfl)
  case input e => rw [e]; exact nextAll_next.mpr (.raises _ _ _ rfl)
  case command e => rw [e]; exact nextAll_next.mpr (.raises _ _ _ rfl)
  case decoded c e => rw [e]; exact nextAll_next.mpr (.completes _ _ c.fat)
  case decodeFailed c e => rw [e]; exact nextAll_next.mpr (.raises _ _ _ c.fat)
  case encoded c _ e => rw [e]; exact nextAll_next.mpr (.completes _ _ (c.fat.trans (encodeStart_fat i s)))
  case encodeFailed c _ e => rw [e]; exact nextAll_next.mpr (.raises _ _ _ (c.fat.trans (encodeStart_fat i s)))
  case superblock c e => rw [e]; exact nextAll_next.mpr (.completes _ _ c.fat)
  case superblockFailed c e => rw [e]; exact nextAll_next.mpr (.raises _ _ _ c.fat)

/-- INIT_DESCRIPTOR ends from cleared fatal registers, whatever stood in them (60_exceptions R324). -/
theorem initDescriptor_endsFrom (s : State) : NextAll (EndsFrom ⟨0, 0, 0, 0⟩) (exec .initDescriptor s) := by
  cases valid : validDesc (inputDesc s) with
  | true => rw [exec_initDescriptor_accepted valid]; exact nextAll_next.mpr (.completes _ _ rfl)
  | false => rw [exec_initDescriptor_refused valid]; exact nextAll_next.mpr (.raises _ _ _ rfl)

end Ends

/-- Settles O55: INIT_DESCRIPTOR and every other instruction end from fatal registers in which no error stands. -/
theorem fatalRegistersNameThePlace : Obligations.FatalRegistersNameThePlace := by
  intro i s t h e
  have ends : ∃ f : FatalRegs, f.code = 0 ∧ EndsFrom f t ∧ (i ≠ .initDescriptor → f = s.fat) := by
    by_cases init : i = .initDescriptor
    · subst init
      exact ⟨_, rfl, initDescriptor_endsFrom s t e, fun ne => absurd rfl ne⟩
    · exact ⟨_, h, exec_endsFrom h init t e, fun _ => rfl⟩
  obtain ⟨f, h0, ends, found⟩ := ends
  refine ⟨fun z => ?_, fun nz => ?_⟩
  · obtain ⟨done, fat⟩ := ends.of_zero z
    exact ⟨done, fun init => fat.trans (found init)⟩
  · obtain ⟨failed, x, fat⟩ := ends.of_fatal h0 nz
    refine ⟨failed, ?_, ?_, ?_, ?_⟩ <;> rw [fat]
    exact value_le x

/-! ### Recovery (60_exceptions R324) -/

section Recovery

variable {i : Instr} {s t : State}

/-- Out of the failed state, or into the one of a refused descriptor: coordinates 0 and no record of the checker left. -/
structure Recovered (t : State) : Prop where
  code : t.fat.code = 0 ∨ t.fat.code = 6
  place : t.fat.mbx = 0 ∧ t.fat.mby = 0 ∧ t.fat.slot = 0
  checker : t.chk.foundError = false ∧ t.chk.violMask = 0 ∧ t.chk.vlist = [] ∧ t.chk.sparseFirstValid = false

theorem applyReset_recovered (s : State) : Recovered (applyReset s) :=
  ⟨.inl rfl, ⟨rfl, rfl, rfl⟩, rfl, rfl, rfl, rfl⟩

theorem initDescriptor_recovered (s : State) : NextAll Recovered (exec .initDescriptor s) := by
  cases valid : validDesc (inputDesc s) with
  | true =>
    rw [exec_initDescriptor_accepted valid]
    exact nextAll_next.mpr ⟨.inl rfl, ⟨rfl, rfl, rfl⟩, rfl, rfl, rfl, rfl⟩
  | false =>
    rw [exec_initDescriptor_refused valid, raiseFatal_clearFrame]
    exact nextAll_next.mpr ⟨.inr rfl, ⟨rfl, rfl, rfl⟩, rfl, rfl, rfl, rfl⟩

/-- The two ways out of the failed state are the two writers of the descriptor. -/
theorem hostAction_recovered {e : Event} (h : WritesDesc e) : NextAll Recovered (hostAction e s) := by
  obtain rfl | ⟨w, rfl, hd⟩ := h
  · exact nextAll_next.mpr (applyReset_recovered s)
  · simp only [hostAction, runCommand, hd]
    exact initDescriptor_recovered s

/-- A fatal error raised while one stands is not recorded. -/
theorem raiseFatal_fat_of_ne (h : s.fat.code ≠ 0) (x : FatalCode) (r : Results) : (raiseFatal s x r).fat = s.fat :=
  after_of_ne h x _ _ _

theorem exec_sameFat (h : s.fat.code ≠ 0) (hi : i ≠ .initDescriptor) : NextAll (fun t => t.fat = s.fat) (exec i s) := by
  rw [exec_failed h hi]
  exact nextAll_next.mpr rfl

/-- No other host action changes the fatal registers: what runs as an operation is gated off, what decodes to none raises an
error that is not recorded, and no host write reaches them. -/
theorem hostAction_sameFat {e : Event} (h : s.fat.code ≠ 0) (he : ¬ WritesDesc e) :
    NextAll (fun t => t.fat = s.fat) (hostAction e s) := by
  have illegal : NextAll (fun t => t.fat = s.fat) (.next (raiseFatal s .badCommand)) :=
    nextAll_next.mpr (raiseFatal_fat_of_ne h _ _)
  cases e
  case command w =>
    simp only [hostAction, runCommand]
    split
    · next i hd => exact exec_sameFat h fun init => he (.inr ⟨w, rfl, init ▸ hd⟩)
    · exact illegal
  case element f =>
    simp only [hostAction, runElement]
    split
    · exact illegal
    · next hf =>
      split
      · next i hd => exact exec_sameFat h fun init => decode_form_ne_cmd hf hd (congrArg Instr.form init)
      · exact illegal
  case reset => exact absurd (.inl rfl) he
  case writeFb a v =>
    simp only [hostAction]
    split
    · exact nextAll_next.mpr rfl
    · exact nextAll_fault _
  all_goals exact nextAll_next.mpr rfl

end Recovery

/-- Settles O56: a step whose action is no way out leaves the fatal registers, and the two ways out clear them. -/
theorem recoveryOnlyByInitOrReset : Obligations.RecoveryOnlyByInitOrReset := by
  intro s t h e changed
  rw [step, stepState] at e
  split at e
  · cases e
    exact absurd rfl changed
  · next ev rest hin =>
    by_cases out : WritesDesc ev
    · obtain ⟨code, ⟨mbx, mby, slot⟩, checker⟩ := hostAction_recovered out t e
      refine ⟨?_, code, mbx, mby, slot, checker⟩
      obtain rfl | ⟨w, rfl, hd⟩ := out
      · exact .inl ⟨rest, hin⟩
      · exact .inr ⟨w, rest, hin, hd⟩
    · exact absurd (hostAction_sameFat (s := { s with inbox := rest }) h out t e) changed

end Sys2Proof.Machine

namespace Sys2Proof

/-! ### Sample words (30_encoding R92 to R106) -/

section SampleWords

variable {w : Nat}

/-- A set bit above the fields makes a command illegal, whatever its operation (30_encoding R92). -/
theorem decode_cmd_reserved (h : bitField w 16 16 ≠ 0) : decode .cmd w = .error .reservedBits := if_pos h

/-- A word that is the encoding of an instruction reads as that instruction in its format. -/
theorem decode_of_eq_bits {f : Form} {i : Instr} (wf : i.wf = true) (form : i.form = f) (bits : i.bits = w) :
    decode f w = .ok i := by
  subst form bits
  exact decode_bits i wf

end SampleWords

/-- Settles O3: the nine legal words are the encodings of the instructions they stand for, and the two illegal ones fail
the decoder's checks. -/
theorem sampleWordsDecode : Obligations.SampleWordsDecode := by
  refine ⟨decode_of_eq_bits ?_ rfl ?_, decode_of_eq_bits ?_ rfl ?_, decode_of_eq_bits ?_ rfl ?_,
    decode_cmd_reserved ?_, ?unknown, decode_of_eq_bits ?_ rfl ?_, decode_of_eq_bits ?_ rfl ?_,
    decode_of_eq_bits ?_ rfl ?_, decode_of_eq_bits ?_ rfl ?_, decode_of_eq_bits ?_ rfl ?_,
    decode_of_eq_bits ?_ rfl ?_⟩
  case unknown => rfl
  all_goals decide

end Sys2Proof

namespace Sys2Proof.Machine

/-! ### A step by what is pending (30_encoding R92, 70_reset_and_hazards R350) -/

section Pending

variable {s : State} {i : Instr}

theorem step_of_idle (h : s.inbox = []) : step s = .next s := by
  rw [step, stepState, h]

theorem step_of_pending {e : Event} {rest : List Event} (h : s.inbox = e :: rest) :
    step s = hostAction e { s with inbox := rest } := by
  rw [step, stepState, h]

theorem runCommand_of_decode {w : Nat} (h : decode .cmd w = .ok i) : runCommand w s = exec i s := by
  rw [runCommand, h]

theorem runElement_of_decode {f : Form} (hf : f ≠ .cmd) (h : decode f (fetchElement s f) = .ok i) :
    runElement f s = exec i s := by
  rw [runElement, if_neg hf, h]

/-- What stands in `FB` for the block to fetch does not depend on what the host does later. -/
@[simp] theorem fetchElement_inbox (s : State) (rest : List Event) (f : Form) :
    fetchElement { s with inbox := rest } f = fetchElement s f := by
  cases f <;> rfl

end Pending

/-- Settles O4: the pending action is taken, and what it presents is decoded and run. -/
theorem stepRunsDecoded : Obligations.StepRunsDecoded := by
  refine ⟨fun s w rest i pending decoded => ?_, fun s f rest i pending element decoded => ?_, fun s => step_of_idle⟩
  · exact (step_of_pending pending).trans (runCommand_of_decode decoded)
  · rw [← fetchElement_inbox s rest f] at decoded
    exact (step_of_pending pending).trans (runElement_of_decode element decoded)

/-! ### Reset (70_reset_and_hazards R350) -/

/-- The rows of the reset table that give a value. -/
def ResetTable (t : State) : Prop :=
  t.descValid = false ∧ t.cur = ⟨0, false⟩ ∧ t.sb.mbx = 0 ∧ t.sb.mby = 0 ∧ t.sb.mbnum = 0 ∧ t.sb.slot = 0 ∧
    t.chk.foundError = false ∧ t.chk.violMask = 0 ∧ t.chk.vlist = [] ∧ t.chk.sparseFirstValid = false ∧
    t.chk.stripeBins = [] ∧ t.fat = ⟨0, 0, 0, 0⟩

theorem applyReset_resetTable (s : State) : ResetTable (applyReset s) :=
  ⟨rfl, rfl, rfl, rfl, rfl, rfl, rfl, rfl, rfl, rfl, rfl, rfl⟩

/-- The reset state is what a reset leaves of itself. -/
theorem applyReset_reset : applyReset State.reset = State.reset := rfl

theorem reset_resetTable : ResetTable State.reset := applyReset_reset ▸ applyReset_resetTable State.reset

/-- Settles O6: the reset state and the reset event are both an `applyReset`, which keeps the memories of its state. -/
theorem resetState : Obligations.ResetState := by
  refine ⟨reset_resetTable, fun s rest pending => ?_⟩
  exact ⟨applyReset { s with inbox := rest }, step_of_pending pending, rfl, rfl, applyReset_resetTable _⟩

/-! ### The invariants after reset -/

section AtReset

variable {s : State} {x : Codec}

/-- Nothing is asked of a descriptor that is not there. -/
theorem descInv_of_absent (h : s.descValid = false) : DescInv s := by
  have absent : ¬ s.descValid = true := Bool.eq_false_iff.mp h
  exact ⟨fun v => absurd v absent, fun v => absurd v absent, fun v => absurd v absent⟩

/-- Nothing is asked of trees that have no defined value. -/
theorem treeInv_of_undefined (counts : ∀ (c : Fin 4) (k : Fin 5), (x.bcOk[c])[k] = false)
    (mins : ∀ c : Fin 4, x.mtOk[c] = false) : TreeInv x := by
  refine (treeInv_iff x).mpr fun c => ⟨fun k defined => ?_, fun defined => ?_⟩
  · exact absurd defined (Bool.eq_false_iff.mp (counts c k))
  · exact absurd defined (Bool.eq_false_iff.mp (mins c))

/-- With the flags and the fatal code 0, the status registers agree with each other whatever the status. -/
theorem statusInv_of_clear (mask : s.chk.violMask = 0) (found : s.chk.foundError = false) (code : s.fat.code = 0) :
    StatusInv s where
  code := by simp [code]
  reserved := by simp [mask]
  found := by simp [mask, found]
  failed := fun nz => absurd code nz

/-- A state with the values of the reset table and canonical memories meets the invariant. -/
theorem ResetTable.inv (h : ResetTable s) (mem : MemInv s) : Inv s := by
  obtain ⟨absent, -, -, -, -, slot, found, mask, -, -, -, fat⟩ := h
  have code : s.fat.code = 0 := by rw [fat]
  refine ⟨mem, statusInv_of_clear mask found code, descInv_of_absent absent, fun valid => ?_, ?_⟩
  · exact absurd valid (Bool.eq_false_iff.mp absent)
  · omega

end AtReset

/-- Settles O7: the reset table with empty memories is enough for `Inv`, and reset leaves no tree with a defined value. -/
theorem invariantsAtReset : Obligations.InvariantsAtReset := by
  obtain ⟨fb, out⟩ := wf_reset
  refine ⟨reset_resetTable.inv ⟨fb, out⟩, treeInv_of_undefined ?_ ?_⟩ <;> decide

end Sys2Proof.Machine
